-- ==== Sys2Proof/Word.lean ====
section
/-! DEFINITION. The word types of the PGC-4: bytes, 32-bit fields and the 64-bit page serial. -/

namespace Sys2Proof

/-- One byte of the exchange window or of a scan frame. -/
abbrev Byte := BitVec 8

/-- A 32-bit register, field or time stamp. -/
abbrev Word32 := BitVec 32

/-- The page serial (R177). -/
abbrev Word64 := BitVec 64

end Sys2Proof
end

