-- ==== Sys2Proof/Config.lean ====
section
/-! DEFINITION. The constants the manual fixes for the PGC-4, and the values it leaves open (opaque: nothing can be proved of
one beyond its type). -/

namespace Sys2Proof.Config

/-- The value IDENT reads while the controller is ready (R1). -/
def identValue : Word32 := 0x50470401#32

/-- The value whose write to RESTART starts a part restart (R2). -/
def restartKey : Word32 := 0x3C#32

/-- The size of the exchange window in bytes (1.3). -/
def windowBytes : Nat := 0x80000

/-- The coordinate cap, 400 km in units of 0.1 mm (00_scope.md, R55). -/
def coordCap : Nat := 4000000000

/-- The upper bound of a length channel's accumulator in nanometres (R55). -/
def accumulatorBound : Int := 400000000000000

/-- The least value of a signed 64-bit accumulator (4.1). -/
def accumulatorLeast : Int := -9223372036854775808

/-- The length of one coordinate unit in nanometres (R56). -/
def unitNanometres : Nat := 100000

/-- The length of a speed window in ms (R60). -/
def speedWindow : Nat := 10

/-- The greatest value of a 32-bit count (6.6, 9). -/
def max32 : Nat := 4294967295

/-- The limit of the signed 48-bit sum of deviations (6.6). -/
def maxSum : Int := 140737488355327

/-- The limit of the unsigned 48-bit temperature sum (6.6). -/
def maxTempSum : Nat := 281474976710655

/-- The greatest deviation kept (R96). -/
def maxDeviation : Int := 99999

/-- The pyrometer reading that means no reading (5.1, R92). -/
def noReading : Nat := 1023

/-- Scans one gauge link FIFO holds (R78). -/
def fifoScans : Nat := 16

/-- Zones a forecast list holds (R111). -/
def forecastZones : Nat := 8

/-- Segments at which ordinary boundaries are refused (R135). -/
def ordinarySegments : Nat := 60

/-- Pending cuts a strand holds (R153). -/
def pendingCuts : Nat := 4

/-- Intervals a mark queue holds (R165). -/
def markIntervals : Nat := 16

/-- Records the holding queue holds (R175). -/
def holdingRecords : Nat := 8

/-- Bytes of a report page's record area (12.3). -/
def recordArea : Nat := 8128

/-- Free value: the accumulator a reverse edge leaves when the exact value falls below the signed 64-bit range (R55 gives
none); the argument is the exact value. Log 13. -/
opaque accumulatorBelow : Int → Int

/-- Free value: a strand's piece counter after a build that finds it at its greatest value (9 gives none); the argument is the
clock at the build. Log 14. -/
opaque pieceCounterPast : Nat → Nat

/-- Free value: the restart count after a restart that finds it at its greatest value (R14 gives none). Log 14. -/
opaque restartCountPast : Nat → Word32

/-- Free value: the page serial after an opening that finds the counter at its greatest value (R177 gives none). Log 14. -/
opaque serialPast : Nat → Word64

/-- Free value: the amount above 1 mm/s of the start speed by which a channel is judged whose strand no adopted station holds
(R20 records no values, R60 judges the window). The argument is the strand number. Log 15. -/
opaque absentStartSpeed : Nat → Nat

/-- Free value: the stop speed of such a channel. Log 15. -/
opaque absentStopSpeed : Nat → Nat

/-- Free value: the stop dwell in ms of such a channel. Log 15. -/
opaque absentStopDwell : Nat → Nat

/-- Free value: which of the sources that fall at one refused boundary MAP_MERGED shows (R129, R136 give none). The argument is the
coordinate; the value counts round the list of the sources. Log 16. -/
opaque mergedSource : Nat → Nat

/-- Free value: the coordinate at which the map mark ends when a refused boundary or a join leaves the open segment unmarked
(R143 gives none). The arguments are the segment's start and the boundary. Log 17. -/
opaque markEndAtMerge : Nat → Nat → Nat

end Sys2Proof.Config
end

