-- ==== Sys2Proof/Syntax.lean ====
section
/-! DEFINITION. The commands of the PGC-4: one constructor for each row of spec/opcode_table.json, with the operands the rule of
the row gives the event (the table itself gives no operand). -/

namespace Sys2Proof

/-- Strands 1 to 4. Gauge link port, length channel, marker output and die hole of the same number belong to the strand
(00_scope.md, Conventions). -/
inductive Strand where
  | s1 | s2 | s3 | s4
deriving DecidableEq, Repr

/-- The strand's number, 1 to 4. -/
def Strand.num : Strand → Nat
  | .s1 => 1
  | .s2 => 2
  | .s3 => 3
  | .s4 => 4

/-- The two line event inputs (4.6). -/
inductive LineInput where
  | seam | saw
deriving DecidableEq, Repr

/-- The two blocks that send mark intervals (10.2). -/
inductive Requester where
  | forecast | map
deriving DecidableEq, Repr

/-- The blocks that raise incidents (R183). -/
inductive Raiser where
  | receiver | evaluator | channel | inputs | forecast | map | pieces | marker
deriving DecidableEq, Repr

/-- The four registers of the register window (1.1). -/
inductive Register where
  | ident | notice | noticeMask | restart
deriving DecidableEq, Repr

/-- What a host write to a register carries: the whole aligned word, or fewer than four bytes (R1). -/
inductive RegData where
  | word (value : Word32)
  | short (bytes : List Byte)
deriving DecidableEq, Repr

/-- How the frame being assembled ends (R72): at its end delimiter, or unfinished at the next start delimiter. -/
inductive FrameEnd where
  | endDelimiter | startDelimiter
deriving DecidableEq, Repr

/-- The commands. Each docstring names the row. -/
inductive Instr where
  /-- POWER_ON -/
  | powerOn
  /-- POWER_ON_INIT_END -/
  | powerOnInitEnd
  /-- RESTART -/
  | restart
  /-- RESTART_END: for the search that follows, the operands of ORDER_SEARCH -/
  | restartEnd (cells : Nat := 32) (answered : Bool := true)
  /-- PCIE_LINK_RESET -/
  | pcieLinkReset
  /-- MSI_ENABLE -/
  | msiEnable
  /-- MSI_DISABLE -/
  | msiDisable
  /-- NOTICE_WRITE of a value -/
  | noticeWrite (value : Word32)
  /-- NOTICE_MASK_WRITE of a value -/
  | noticeMaskWrite (value : Word32)
  /-- REGISTER_WRITE_IGNORED: the register and what is written -/
  | registerWriteIgnored (reg : Register) (data : RegData)
  /-- EXCHANGE_WRITE: offset of the first byte, and the bytes from there on. That a write covers one run of bytes without a gap is the
  model's choice, log 37. -/
  | exchangeWrite (offset : Nat) (bytes : List Byte)
  /-- CELL_POST of a cell -/
  | cellPost (cell : Fin 32)
  /-- CELL_FREE of a cell -/
  | cellFree (cell : Fin 32)
  /-- PAGE_RETURN of report page 10 + p -/
  | pageReturn (page : Fin 54)
  /-- ORDER_SEARCH: how many cells the search looks at before the next command. 0 only starts a search, 32 looks at the whole board.
  That host writes may fall between the cells of a search is R11; this way of saying so is the model's choice, log 8. And whether an
  order it takes that fails the order unit's own checks is answered in the same event, log 31. With an order in hand whose result is known,
  the command writes the answer. -/
  | orderSearch (cells : Nat := 32) (answered : Bool := true)
  /-- SET_STATION: whether the answer is written in the same event, log 31 -/
  | setStation (answered : Bool := true)
  /-- ADOPT_RECIPE: whether the answer is written in the same event, log 31 -/
  | adoptRecipe (answered : Bool := true)
  /-- ARM_RUN: whether the answer is written in the same event, log 31 -/
  | armRun (answered : Bool := true)
  /-- AMEND_RUN: whether the answer is written in the same event, log 31 -/
  | amendRun (answered : Bool := true)
  /-- END_RUN: whether the answer is written in the same event, log 31 -/
  | endRun (answered : Bool := true)
  /-- ABANDON_RUN: whether the answer is written in the same event, log 31 -/
  | abandonRun (answered : Bool := true)
  /-- ADD_ZONE: whether the answer is written in the same event, log 31 -/
  | addZone (answered : Bool := true)
  /-- SOFT_CUT: whether the answer is written in the same event, log 31 -/
  | softCut (answered : Bool := true)
  /-- FORCE_MARKER: whether the answer is written in the same event, log 31 -/
  | forceMarker (answered : Bool := true)
  /-- ENCODER_EDGE: the channel and the new levels of A and B -/
  | encoderEdge (channel : Strand) (a b : Bool)
  /-- SPEED_WINDOW_END of a channel -/
  | speedWindowEnd (channel : Strand)
  /-- STOP_DWELL_EXPIRY of a channel -/
  | stopDwellExpiry (channel : Strand)
  /-- STOP_FORECAST of a strand -/
  | stopForecast (strand : Strand)
  /-- LEADING_EDGE of an input -/
  | leadingEdge (input : LineInput)
  /-- QUALIFICATION_EXPIRY of an input -/
  | qualificationExpiry (input : LineInput)
  /-- INPUT_INACTIVE of an input -/
  | inputInactive (input : LineInput)
  /-- QUALIFIED_SEAM -/
  | qualifiedSeam
  /-- SEAM_FORECAST -/
  | seamForecast
  /-- QUALIFIED_SAW -/
  | qualifiedSaw
  /-- FRAME_ARRIVAL: the port, the content between the delimiters, and how the frame ended -/
  | frameArrival (port : Strand) (content : List Byte) (ending : FrameEnd)
  /-- STALE_TIMER_EXPIRY of a port -/
  | staleTimerExpiry (port : Strand)
  /-- ARBITER_LOOK -/
  | arbiterLook
  /-- SCAN_TAKING -/
  | scanTaking
  /-- STALE_NOTICE_TAKING -/
  | staleNoticeTaking
  /-- SWITCH_OVER -/
  | switchOver
  /-- RUN_CLOSED -/
  | runClosed
  /-- RUN_RECORD_ENTRY: whether an order that has waited is answered in the same event, log 31 -/
  | runRecordEntry (answered : Bool := true)
  /-- PIECE_BUILD -/
  | pieceBuild
  /-- MARK_REQUEST: the strand and the requester -/
  | markRequest (strand : Strand) (requester : Requester)
  /-- MARK_OFF of a strand -/
  | markOff (strand : Strand)
  /-- INCIDENT_ARRIVAL: the strand (none for the line event inputs) and the raising block -/
  | incidentArrival (strand : Option Strand) (raiser : Raiser)
  /-- PAGE_OPEN -/
  | pageOpen
  /-- RECORD_WRITE -/
  | recordWrite
  /-- LINGER_EXPIRY -/
  | lingerExpiry
  /-- START_DELIMITER on a port -/
  | startDelimiter (port : Strand)
deriving DecidableEq, Repr

end Sys2Proof
end

