-- ==== Sys2Proof/WellFormed.lean ====
section
/-! DEFINITION. Which commands the outside world can give: the limits the manual sets on a command's operands that its type does
not already carry. A command outside these limits is not an event of the part. -/

namespace Sys2Proof

/-- A register write carries one to three bytes, or the whole word (1.1, R1). -/
def RegData.ok : RegData → Bool
  | .word _ => true
  | .short bytes => 1 ≤ bytes.length && bytes.length ≤ 3

/-- An ignored register write is a short one, or a whole word to IDENT or RESTART (R1, R2). Whether a word to RESTART is ignored
depends on its value and on the phase, which the meaning judges. -/
def ignorable (reg : Register) : RegData → Bool
  | .word _ => reg = .ident || reg = .restart
  | .short _ => true

/-- A host write to the exchange window covers at least one byte and lies in the 512 KiB of the window (1.3). -/
def exchangeWriteOk (offset : Nat) (bytes : List Byte) : Bool :=
  1 ≤ bytes.length && offset + bytes.length ≤ Config.windowBytes

/-- Incidents without a strand are those of the line event inputs, and only those (R183). -/
def incidentSourceOk (strand : Option Strand) (raiser : Raiser) : Bool :=
  strand.isNone == (raiser = .inputs : Bool)

/-- The well-formed commands. -/
def Instr.wellFormed : Instr → Bool
  | .registerWriteIgnored reg data => data.ok && ignorable reg data
  | .exchangeWrite offset bytes => exchangeWriteOk offset bytes
  | .incidentArrival strand raiser => incidentSourceOk strand raiser
  | .powerOn | .powerOnInitEnd | .restart | .restartEnd _ _ | .pcieLinkReset | .msiEnable | .msiDisable => true
  | .noticeWrite _ | .noticeMaskWrite _ | .cellPost _ | .cellFree _ | .pageReturn _ => true
  | .orderSearch _ _ | .setStation _ | .adoptRecipe _ | .armRun _ | .amendRun _ | .endRun _ | .abandonRun _ => true
  | .addZone _ | .softCut _ | .forceMarker _ => true
  | .encoderEdge _ _ _ | .speedWindowEnd _ | .stopDwellExpiry _ | .stopForecast _ => true
  | .leadingEdge _ | .qualificationExpiry _ | .inputInactive _ => true
  | .qualifiedSeam | .seamForecast | .qualifiedSaw => true
  | .frameArrival _ _ _ | .staleTimerExpiry _ | .arbiterLook | .scanTaking | .staleNoticeTaking => true
  | .switchOver | .runClosed | .runRecordEntry _ | .pieceBuild => true
  | .markRequest _ _ | .markOff _ | .pageOpen | .recordWrite | .lingerExpiry | .startDelimiter _ => true

end Sys2Proof
end

