-- ==== Sys2Proof/Decode.lean ====
section
/-! DEFINITION. The command a word spells by the bits of spec/opcode_table.json. The part is a block that takes commands from outside
and reads no instruction word: no row of the table gives any bits, so no word spells a command. -/

namespace Sys2Proof

/-- The command that `nbits` bits with the value `w` spell; no row of the table gives bits, so there is none. -/
def decodeTableWord (_nbits _w : Nat) : Option Instr := none

end Sys2Proof
end

