-- ==== Sys2Proof/Machine/State.lean ====
section
/-! DEFINITION. The state of the PGC-4 as plain data: everything chapters 1 to 11 give the part, the requests on their way between
its blocks, the queue of commands, the reasons a step can stop, and the state at power-on. Where a field carries a value after
`:=`, that is its value at power-on. -/

namespace Sys2Proof.Machine

/-- Why the machine stops with a fault. The manual gives the part none; this one guards the model's own boundary. -/
inductive Fault where
  /-- Raised by EXCHANGE_WRITE where the write reaches beyond the 512 KiB exchange window, an address the spec does not give (1.3,
  log 9). Safe: the part has no such address. -/
  | outsideExchangeWindow
deriving DecidableEq, Repr

/-- Why a step is refused. -/
inductive Refusal where
  /-- Raised only by exec, for a command that has no meaning yet. Safe: nothing can be proved of it. -/
  | notModelled (mnemonic : String)
deriving DecidableEq, Repr

/-- Four like things, one for each strand. -/
structure Four (α : Type) where
  one : α
  two : α
  three : α
  four : α
deriving DecidableEq, Repr

/-! ## Names -/

/-- Whether the part is initialising after power-on, ready, or in a part restart (R1, R2). -/
inductive Phase where
  | initialising | ready | restarting
deriving DecidableEq, Repr

/-- Order cell states (1.4). -/
inductive CellState where
  | free | posted | taken | answered
deriving DecidableEq, Repr

/-- Report page states (11.2). -/
inductive PageState where
  | free | filling | closed
deriving DecidableEq, Repr

/-- The causes the status block shows (R14). -/
inductive ResetCause where
  | powerOn | restart
deriving DecidableEq, Repr

/-- Run states (3.1). -/
inductive RunState where
  | idle | armed | active | finishing
deriving DecidableEq, Repr

/-- Strand track states (3.3). -/
inductive TrackState where
  | off | waiting | tracking | tailed
deriving DecidableEq, Repr

/-- Motion states (4.5). -/
inductive Motion where
  | still | moving | halted
deriving DecidableEq, Repr

/-- Count modes of a wheel (2.1). -/
inductive CountMode where
  | quadrature | single
deriving DecidableEq, Repr

/-- Dimensional states and classes (6.5, 8.1). -/
inductive DimClass where
  | sound | unmeasured | offGauge
deriving DecidableEq, Repr

/-- Zone classes; no zone is the overlay NONE (7.1, 8.1). -/
inductive ZoneClass where
  | stopMark | manual | weld
deriving DecidableEq, Repr

/-- The classes of a segment (8.1). -/
inductive SegClass where
  | sound | unmeasured | stopMark | manual | offGauge | weld
deriving DecidableEq, Repr

/-- Zone origins (7.1). -/
inductive Origin where
  | stop | seam | order
deriving DecidableEq, Repr

/-- Zone phases (7.1). -/
inductive ZonePhase where
  | ahead | over
deriving DecidableEq, Repr

/-- The place a pending cut has in the map (R135). -/
inductive CutPlace where
  | used | held | none
deriving DecidableEq, Repr

/-- Force modes of a marker (R171). -/
inductive ForceMode where
  | none | on | off
deriving DecidableEq, Repr

/-- Piece verdicts (R159). -/
inductive Verdict where
  | accept | short | trim | reject
deriving DecidableEq, Repr

/-- RUN record events (R48). -/
inductive RunEvent where
  | opened | amended | closed | abandoned
deriving DecidableEq, Repr

/-- Incident kinds, in the order of the table of R183. -/
inductive IncidentKind where
  | linkCheck | seqGap | fifoOverrun | headFault | stale | thermalDefault | reverse | coordLimit | shortPulse
  | forecastMerged | mapMerged | materialResumed | sawOrder | cutEmpty | joined | markLate | markMissed
deriving DecidableEq, Repr

/-! ## Station and recipes (chapter 2) -/

/-- The adopted values of a strand that is present; no marker distance where no marker is wired (R20). -/
structure StrandStation where
  gauge : Nat
  saw : Nat
  marker : Option Nat
  wheelStep : Nat
  mode : CountMode
  startSpeed : Nat
  stopSpeed : Nat
  stopDwell : Nat
  bandLow : Nat
  bandHigh : Nat
  thermalHold : Nat
  staleTime : Nat
  tailConfirm : Nat
deriving DecidableEq, Repr

/-- The adopted geometry (R18, R20): the global fields, and each strand that is present. -/
structure Station where
  seamQualification : Nat
  sawQualification : Nat
  linger : Nat
  minimumGap : Nat
  strands : Four (Option StrandStation)
deriving DecidableEq, Repr

/-- Weld lead and weld length of one hole (2.4). -/
structure Hole where
  lead : Nat
  length : Nat
deriving DecidableEq, Repr

/-- One feature of a recipe (2.4). -/
structure Feature where
  nominal : Nat
  lower : Nat
  upper : Nat
  guardPercent : Nat
  minConfidence : Nat
deriving DecidableEq, Repr

/-- A validated recipe (R25). The hole count is the number of holes, the feature count n the number of features. -/
structure Recipe where
  id : Nat
  edition : Nat
  name : List Byte
  alpha : Nat
  defaultTemp : Nat
  outConfirm : Nat
  inConfirm : Nat
  blindConfirm : Nat
  halfLength : Nat
  minUsable : Nat
  tolerate : Bool
  markMask : Nat
  holes : List Hole
  features : List Feature
deriving DecidableEq, Repr

/-! ## Records (chapters 3, 9, 11 and 12) -/

/-- An INCIDENT record (R183). -/
structure Incident where
  kind : IncidentKind
  strand : Option Strand
  code : Nat
  coordinate : Nat
  detail : Nat
  time : Word32
  repeats : Nat := 0
  lost : Nat := 0
deriving DecidableEq, Repr

/-- The per-strand fields of a RUN record (R48). -/
structure RunStrand where
  nose : Option Nat
  frontier : Nat
  pieces : Nat
deriving DecidableEq, Repr

/-- A RUN record (R48). -/
structure RunRecord where
  event : RunEvent
  index : Fin 8
  recipeId : Nat
  edition : Nat
  mask : Four Bool
  runId : Word32
  billets : Nat
  time : Word32
  strands : Four RunStrand
deriving DecidableEq, Repr

/-- One entry of a PIECE record's feature summary (R156). -/
structure FeatureSummary where
  least : Option Int
  greatest : Option Int
  mean : Option Int
  outCount : Nat
  guardCount : Nat
deriving DecidableEq, Repr

/-- The flags of a segment (8.1). THERMAL_ASSUMED stands with the statistics that carry it (R93). -/
structure SegFlags where
  merged : Bool := false
  split : Bool := false
  markLate : Bool := false
  markMissed : Bool := false
  rescan : Bool := false
  tail : Bool := false
deriving DecidableEq, Repr

/-- One segment entry of a PIECE record (R157). -/
structure SegEntry where
  start : Nat
  stop : Nat
  dim : DimClass
  overlay : Option ZoneClass
  cls : SegClass
  flags : SegFlags
  thermal : Bool
  scans : Nat
  index : Fin 8
  edition : Nat
  tempMean : Option Nat
  worst : Nat
  worstLeast : Option Int
  worstGreatest : Option Int
  worstExcursion : Nat
deriving DecidableEq, Repr

/-- A PIECE record (R156). -/
structure PieceRecord where
  strand : Strand
  runId : Word32
  number : Nat
  time : Word32
  start : Nat
  stop : Nat
  recipeId : Nat
  index : Fin 8
  edition : Nat
  verdict : Verdict
  isFinal : Bool
  joined : Bool
  hasMerged : Bool
  hasSplit : Bool
  tolerated : Bool
  keeps : List (Nat × Nat)
  features : List FeatureSummary
  segments : List SegEntry
deriving DecidableEq, Repr

/-- A record of the holding queue (R175). -/
inductive Record where
  | piece (r : PieceRecord)
  | run (r : RunRecord)
  | incident (r : Incident)
deriving DecidableEq, Repr

/-! ## Exchange port and order unit (chapter 1) -/

/-- The exchange memory: pairs of an address and a byte, addresses strictly rising, none holding zero. An address that is not
listed reads zero (log 5). -/
abbrev Memory := List Host.Cell

/-- The exchange port (R1 to R9, R15). The status block's bytes at power-on are the last refused offset 0xFFFFFFFF and the 54 FREE
pages (R14, log 6). -/
structure ExchangePort where
  phase : Phase := .initialising
  notice : BitVec 6 := 0#6
  mask : BitVec 6 := 0#6
  msiEnabled : Bool := false
  msiSent : Nat := 0
  cells : Vector CellState 32 := Vector.replicate 32 .free
  pages : Vector PageState 54 := Vector.replicate 54 .free
  mem : Memory := [(24, 0xFF#8), (25, 0xFF#8), (26, 0xFF#8), (27, 0xFF#8), (29, 54#8)]
deriving DecidableEq, Repr

/-- A result code and its detail. -/
structure Answer where
  result : Nat
  detail : Nat
deriving DecidableEq, Repr

/-- The order in hand (1.5). `waiting` is set while it waits at the run controller for the run record slot (R49). `result` is its
result and detail once they are known and the answer is still to be written (R13, log 31). -/
structure Order where
  kind : Nat
  tag : Word32
  op1 : Nat
  op2 : Nat
  op3 : Nat
  op4 : Nat
  cell : Fin 32
  waiting : Bool := false
  result : Option Answer := none
deriving DecidableEq, Repr

/-- The order unit (1.5). It is EXECUTING while it holds an order, IDLE otherwise. `searchDue` is set by an answer, which is
followed by a search (R13). `search` is the search under way: how many cells it has looked at (R11, log 8). -/
structure OrderUnit where
  attention : Bool := false
  searchDue : Bool := false
  search : Option Nat := none
  lastTaken : Fin 32 := 31
  hand : Option Order := none
deriving DecidableEq, Repr

/-! ## Run controller (chapters 2 and 3) -/

/-- The run controller's state that is not a strand's (2, 3). -/
structure RunController where
  station : Option Station := none
  store : Vector (Option Recipe) 8 := Vector.replicate 8 none
  state : RunState := .idle
  runId : Word32 := 0#32
  recipe : Option (Fin 8) := none
  mask : Four Bool := ⟨false, false, false, false⟩
  billets : Nat := 0
  staged : Option (Fin 8) := none
  waitingSwitch : Option (Fin 8) := none
  slot : Option RunRecord := none
deriving DecidableEq, Repr

/-- A pending switch (R42). -/
structure Switch where
  entry : Fin 8
  coord : Nat
deriving DecidableEq, Repr

/-! ## Length channel (chapter 4) -/

/-- A length channel (4.1) with the levels of its two pins. The current position is computed from the accumulator (R56). -/
structure Channel where
  pinA : Bool := false
  pinB : Bool := false
  acc : Int := 0
  hw : Nat := 0
  reverse : Bool := false
  capReached : Bool := false
  lastA : Bool := false
  lastB : Bool := false
  windowSum : Int := 0
  windowStart : Nat := 0
  speed : Int := 0
  motion : Motion := .still
  startCount : Nat := 0
  dwell : Option Nat := none
  stopCapture : Option Nat := none
deriving DecidableEq, Repr

/-- Qualifier states (4.6); a TIMING qualifier's timer expires at the clock value it holds. -/
inductive QualState where
  | quiet
  | timing (due : Nat)
  | held
deriving DecidableEq, Repr

/-- The capture of each strand, where there is one (R66). -/
abbrev Captures := Four (Option Nat)

/-- One line event input: its level, its qualifier and its capture latches (4.6). -/
structure Input where
  active : Bool := false
  state : QualState := .quiet
  latches : Captures := ⟨none, none, none, none⟩
deriving DecidableEq, Repr

/-- The line event inputs, with the incidents they have raised that have not reached the report unit. -/
structure Inputs where
  seam : Input := {}
  saw : Input := {}
  raised : List Incident := []
deriving DecidableEq, Repr

/-! ## Gauge link (chapter 5) -/

/-- A feature value and confidence as a scan carries them (R79). -/
structure Reading where
  value : Nat
  confidence : Nat
deriving DecidableEq, Repr

/-- A stamped scan (R79); `feats` has one place for each index 1 to 24. -/
structure Scan where
  stamp : Nat
  hw : Nat
  seq : Byte
  material : Bool
  laserFault : Bool
  temp : Nat
  feats : List (Option Reading)
deriving DecidableEq, Repr

/-- An entry of a port's FIFO (5). -/
inductive FifoEntry where
  | scan (s : Scan)
  | notice
deriving DecidableEq, Repr

/-- Stale timer states (5.3); a RUNNING timer expires at the clock value it holds. -/
inductive StaleTimer where
  | notArmed
  | running (due : Nat)
  | lapsed
  | stale
deriving DecidableEq, Repr

/-- A gauge link port (5). -/
structure LinkPort where
  assembling : Bool := false
  fifo : List FifoEntry := []
  lastSeq : Option Byte := none
  fault : Bool := false
  stale : StaleTimer := .notArmed
deriving DecidableEq, Repr

/-- The entry in service at the evaluator, its port, and whether an ARM RUN naming the strand has been taken since (R83, R88). -/
structure Service where
  port : Strand
  entry : FifoEntry
  armed : Bool := false
deriving DecidableEq, Repr

/-! ## Scan evaluator (chapter 6) -/

/-- The statistics of one feature (6.6). -/
structure FeatStat where
  valid : Nat := 0
  least : Option Int := none
  greatest : Option Int := none
  sum : Int := 0
  outCount : Nat := 0
  guardCount : Nat := 0
deriving DecidableEq, Repr

/-- The statistics of a segment or side accumulator (6.6), one entry of `feats` for each index 1 to 24. -/
structure Stats where
  scans : Nat := 0
  tempSum : Nat := 0
  thermal : Bool := false
  feats : List FeatStat := List.replicate 24 {}
deriving DecidableEq, Repr

/-- The candidate with its side accumulator (6.5). -/
structure Candidate where
  state : DimClass
  count : Nat
  start : Nat
  side : Stats
deriving DecidableEq, Repr

/-- The evaluator's state of one strand (6). -/
structure Evaluator where
  lastValid : Option Nat := none
  hold : Nat := 0
  episode : Bool := false
  resolved : Nat := 0
  confirmed : DimClass := .sound
  candidate : Option Candidate := none
deriving DecidableEq, Repr

/-! ## Forecast, map, cuts, marker (chapters 7 to 10) -/

/-- A zone [start, stop) (7.1). -/
structure Zone where
  start : Nat
  stop : Nat
  cls : ZoneClass
  origin : Origin
  note : Nat
  phase : ZonePhase
deriving DecidableEq, Repr

/-- The forecast of one strand (7). -/
structure Forecast where
  zones : List Zone := []
  classBoundary : Option Nat := none
deriving DecidableEq, Repr

/-- A segment but for its end (8.1). -/
structure SegBody where
  start : Nat
  dim : DimClass
  overlay : Option ZoneClass
  index : Fin 8
  edition : Nat
  flags : SegFlags := {}
  stats : Stats := {}
deriving DecidableEq, Repr

/-- A closed segment [body.start, stop) (8.1). -/
structure Segment where
  body : SegBody
  stop : Nat
deriving DecidableEq, Repr

/-- The map of one strand (8). `cur` is the open segment; its end is the frontier (R127). -/
structure StrandMap where
  closed : List Segment := []
  cur : Option SegBody := none
  frontier : Nat := 0
  nose : Option Nat := none
  tail : Option Nat := none
  mapMark : Option Nat := none
deriving DecidableEq, Repr

/-- The lower and upper tolerance of a feature in a verdict copy (R152). -/
structure Tolerance where
  lower : Nat
  upper : Nat
deriving DecidableEq, Repr

/-- The copy of the governing recipe (R152); the feature count n is the number of tolerances. -/
structure VerdictCopy where
  index : Fin 8
  recipeId : Nat
  edition : Nat
  tolerances : List Tolerance
  minUsable : Nat
  tolerate : Bool
deriving DecidableEq, Repr

/-- A pending cut (9), with its place in the map (R135) and the number of closed segments that belong to it and to no earlier
pending cut (R139, log 26). -/
structure PendingCut where
  coord : Nat
  isFinal : Bool
  joined : Bool
  copy : VerdictCopy
  place : CutPlace
  segs : Nat
deriving DecidableEq, Repr

/-- The piece builder's state of one strand (9). -/
structure Cutter where
  lastCut : Option Nat := none
  pending : List PendingCut := []
  pieces : Nat := 0
deriving DecidableEq, Repr

/-- A mark interval (10.1); an open OFF is `none`. -/
structure Interval where
  on : Nat
  off : Option Nat
  floor : Nat
deriving DecidableEq, Repr

/-- The marker of one strand (10). -/
structure Marker where
  queue : List Interval := []
  force : ForceMode := .none
  active : Bool := false
deriving DecidableEq, Repr

/-- A mark interval request (10.2); an open OFF is `none`. -/
structure MarkRequest where
  requester : Requester
  on : Nat
  off : Option Nat
  source : Nat
deriving DecidableEq, Repr

/-- What the strand map unit sends the marker unit (R142, R143). -/
inductive MapMessage where
  | request (r : MarkRequest)
  | off (at' : Nat)
deriving DecidableEq, Repr

/-- Everything the blocks hold for one strand, with the requests of that strand on their way between blocks (log 11). -/
structure StrandState where
  track : TrackState := .off
  recipe : Option (Fin 8) := none
  switch : Option Switch := none
  tailCount : Nat := 0
  lastMaterial : Nat := 0
  chan : Channel := {}
  port : LinkPort := {}
  eval : Evaluator := {}
  fore : Forecast := {}
  map : StrandMap := {}
  cuts : Cutter := {}
  marker : Marker := {}
  /-- stop captures handed to the forecast unit and not yet taken (R63) -/
  stopMail : List Nat := []
  /-- mark requests of the forecast unit not yet taken by the marker unit (R118) -/
  foreMail : List MarkRequest := []
  /-- requests and OFFs of the map unit not yet taken by the marker unit (R142, R143) -/
  mapMail : List MapMessage := []
  /-- incidents raised for the strand that have not reached the report unit (R176) -/
  raised : List Incident := []
deriving DecidableEq, Repr

/-- What the run controller hands the forecast unit for one strand at a seam (R69). -/
structure SeamGrant where
  capture : Nat
  entry : Fin 8
deriving DecidableEq, Repr

/-! ## Report unit (chapter 11) -/

/-- The FILLING page (R177, R178), its header's counts, and its linger timer's start while it runs (R180). -/
structure Filling where
  page : Fin 54
  serial : Word64
  count : Nat
  used : Nat
  first : Word32
  last : Word32
  linger : Option Nat
deriving DecidableEq, Repr

/-- What the status block shows of one strand (R14). -/
structure ShownStrand where
  track : TrackState := .off
  motion : Motion := .still
  confirmed : DimClass := .sound
  hw : Nat := 0
  frontier : Nat := 0
  speed : Int := 0
  temp : Nat := 0
  segments : Nat := 0
  zones : Nat := 0
  marks : Nat := 0
  cuts : Nat := 0
deriving DecidableEq, Repr

/-- What the status block shows (R14), but for the update sequence and time. -/
structure Shown where
  ident : Word32 := 0#32
  cause : Option ResetCause := none
  runState : RunState := .idle
  restarts : Word32 := 0#32
  runId : Word32 := 0#32
  lastRefused : Word32 := 0xFFFFFFFF#32
  depth : Nat := 0
  freePages : Nat := 54
  lost : Nat := 0
  strands : Four ShownStrand := ⟨{}, {}, {}, {}⟩
deriving DecidableEq, Repr

/-- The report unit (11), with the status block as last written. Cursor p stands for page 10 + p. -/
structure ReportUnit where
  queue : List Record := []
  fill : Option Filling := none
  serial : Word64 := 0#64
  cursor : Fin 54 := 53
  lost : Nat := 0
  backlog : Bool := false
  updateSeq : Word32 := 0#32
  updateTime : Word32 := 0#32
  shown : Shown := {}
deriving DecidableEq, Repr

/-! ## The whole -/

/-- The state of the part. -/
structure State where
  /-- the commands that wait, first in first out (log 1) -/
  pending : List Instr := []
  /-- ms since power-on; part time is its low 32 bits (log 2) -/
  clock : Nat := 0
  xp : ExchangePort := {}
  orders : OrderUnit := {}
  run : RunController := {}
  strands : Four StrandState := ⟨{}, {}, {}, {}⟩
  inputs : Inputs := {}
  /-- the arbiter's last served port (R83) -/
  lastServed : Strand := .s4
  /-- the entry in service at the evaluator (R83) -/
  service : Option Service := none
  /-- the piece builder's last served strand (R154) -/
  pieceServed : Strand := .s4
  /-- qualified seams on their way to the run controller (R69) -/
  seamMail : List Captures := []
  /-- qualified seams on their way to the forecast unit (R69, R112) -/
  grantMail : List (Four (Option SeamGrant)) := []
  /-- qualified saws on their way to the piece builder (R69) -/
  sawMail : List Captures := []
  report : ReportUnit := {}
deriving DecidableEq, Repr

/-- The part right after power-on: every block at its power-on values, initialisation in progress (R15, log 4). -/
def State.reset : State := {}

end Sys2Proof.Machine
end

