-- ==== Sys2Proof/Machine/Memory.lean ====
section
/-! DEFINITION. Bytes and the exchange memory: reading and writing it in its canonical form, little-endian fields (R186), and the
offsets of its structures (1.3, chapter 12). -/

namespace Sys2Proof.Machine

/-! ## Little-endian fields -/

/-- The low `k` bytes of a number, least significant first. -/
def leBytes : Nat → Nat → List Byte
  | 0, _ => []
  | k + 1, n => BitVec.ofNat 8 n :: leBytes k (n / 256)

/-- A signed four-byte field in two's complement. -/
def leInt (z : Int) : List Byte := leBytes 4 (BitVec.ofInt 32 z).toNat

/-- The number little-endian bytes spell. -/
def leNat : List Byte → Nat
  | [] => 0
  | b :: bs => b.toNat + 256 * leNat bs

/-! ## The memory -/

/-- The byte at an address; an address that is not listed holds zero (log 5). -/
def Memory.rd : Memory → Nat → Byte
  | [], _ => 0#8
  | (x, b) :: m, a => if x = a then b else Memory.rd m a

/-- The `k` bytes from an address on. -/
def Memory.rdBytes (m : Memory) (a : Nat) : Nat → List Byte
  | 0 => []
  | k + 1 => m.rd a :: Memory.rdBytes m (a + 1) k

/-- The little-endian field of `k` bytes at an address. -/
def Memory.rdNat (m : Memory) (a k : Nat) : Nat := leNat (m.rdBytes a k)

/-- The 32-bit field at an address. -/
def Memory.rd32 (m : Memory) (a : Nat) : Nat := m.rdNat a 4

/-- The entries of a block of bytes: a zero byte has none. -/
def cellsOf : Nat → List Byte → Memory
  | _, [] => []
  | a, b :: bs => if b = 0#8 then cellsOf (a + 1) bs else (a, b) :: cellsOf (a + 1) bs

/-- The memory with a block of bytes stored from an address on. -/
def Memory.write (m : Memory) (a : Nat) (bs : List Byte) : Memory :=
  m.filter (fun c => c.1 < a) ++ (cellsOf a bs ++ m.filter (fun c => a + bs.length ≤ c.1))

/-- The memory with `n` bytes from an address on zero. -/
def Memory.clear (m : Memory) (a n : Nat) : Memory := m.filter (fun c => c.1 < a || a + n ≤ c.1)

/-- The canonical form: addresses strictly rising, and no entry equal to what an unlisted address reads as. -/
abbrev Memory.wf (m : Memory) : Prop := m.Pairwise (fun c d => c.1 < d.1) ∧ ∀ c ∈ m, c.2 ≠ 0#8

/-! ## Offsets (1.3) -/

/-- Cell i begins at 0x01000 + 128 × i. -/
def cellBase (i : Nat) : Nat := 0x1000 + 128 * i

/-- The station page. -/
def stationBase : Nat := 0x2000

/-- Recipe slot k. -/
def slotBase (k : Nat) : Nat := 0x4000 + 0x2000 * k

/-- Report page 10 + p begins at 0x2000 × (10 + p). -/
def pageBase (p : Nat) : Nat := 0x2000 * (10 + p)

/-! ## Codes -/

/-- Order cell state codes (12.1). -/
def CellState.code : CellState → Nat
  | .free => 0
  | .posted => 1
  | .taken => 2
  | .answered => 3

/-- Report page state codes (12.3). -/
def PageState.code : PageState → Nat
  | .free => 0
  | .filling => 1
  | .closed => 2

end Sys2Proof.Machine
end

