-- ==== Sys2Proof/Machine/Flags.lean ====
section
/-! DEFINITION. The NOTICE flags, the message and the legacy interrupt (R3, R4), and the backlog condition (R182). -/

namespace Sys2Proof.Machine

/-- The six notice reasons (1.2). -/
inductive Reason where
  | answer | page | incident | backlog | refused | run
deriving DecidableEq, Repr

/-- The reason's bit of NOTICE (1.2). -/
def Reason.bit : Reason → BitVec 6
  | .answer => 0x01#6
  | .page => 0x02#6
  | .incident => 0x04#6
  | .backlog => 0x08#6
  | .refused => 0x10#6
  | .run => 0x20#6

/-- NOTICE AND NOTICE_MASK (R4). -/
def ExchangePort.masked (x : ExchangePort) : BitVec 6 := x.notice &&& x.mask

/-- NOTICE and NOTICE_MASK take new values. One MSI message is sent where MSI is enabled and the masked notice goes from zero to
non-zero (R4). -/
def ExchangePort.putNotice (x : ExchangePort) (notice mask : BitVec 6) : ExchangePort :=
  { x with
    notice := notice
    mask := mask
    msiSent := if x.msiEnabled && x.masked == 0#6 && notice &&& mask != 0#6 then x.msiSent + 1 else x.msiSent }

/-- The legacy interrupt is asserted while MSI is disabled and the masked notice is non-zero (R4). -/
def ExchangePort.legacyInterrupt (x : ExchangePort) : Bool := !x.msiEnabled && x.masked != 0#6

/-- A reason is set (R3). -/
def State.setReason (s : State) (r : Reason) : State :=
  { s with xp := s.xp.putNotice (s.xp.notice ||| r.bit) s.xp.mask }

/-- Is the flag of a reason set? -/
def State.noticed (s : State) (r : Reason) : Bool := s.xp.notice &&& r.bit != 0#6

/-- The backlog condition: the holding queue holds a record and no page is FREE or FILLING (R182). -/
def State.backlogged (s : State) : Bool :=
  !s.report.queue.isEmpty && s.xp.pages.all (· == .closed)

/-- At each beginning of the backlog condition BACKLOG is set (R182). -/
def State.noteBacklog (s : State) : State :=
  let began := s.backlogged && !s.report.backlog
  let s := { s with report := { s.report with backlog := s.backlogged } }
  if began then s.setReason .backlog else s

/-- What a host write to NOTICE leaves: each reason whose bit is 1 is cleared, but BACKLOG not while the backlog condition holds
(R3). Bits 6 to 31 of the value are ignored. -/
def State.clearNotice (s : State) (value : Word32) : State :=
  let keep := if s.backlogged then Reason.bit .backlog else 0#6
  { s with xp := s.xp.putNotice (s.xp.notice &&& ~~~(value.truncate 6 &&& ~~~keep)) s.xp.mask }

/-- What a host write to NOTICE_MASK leaves; bits 6 to 31 are ignored (R4). -/
def State.writeMask (s : State) (value : Word32) : State :=
  { s with xp := s.xp.putNotice s.xp.notice (value.truncate 6) }

end Sys2Proof.Machine
end

