-- ==== Sys2Proof/Machine/Ops.lean ====
section
/-! DEFINITION. The named operations the meanings share: access to a strand's state, what a strand's blocks read from the station
and the recipe store, raising an incident, and the classes of segments and zones. -/

namespace Sys2Proof.Machine

/-! ## Four like things -/

/-- The thing of a strand. -/
def Four.get {α : Type} (f : Four α) : Strand → α
  | .s1 => f.one
  | .s2 => f.two
  | .s3 => f.three
  | .s4 => f.four

/-- The four things with that of one strand replaced. -/
def Four.set {α : Type} (f : Four α) (n : Strand) (x : α) : Four α :=
  match n with
  | .s1 => { f with one := x }
  | .s2 => { f with two := x }
  | .s3 => { f with three := x }
  | .s4 => { f with four := x }

/-- Four things made strand by strand. -/
def Four.build {α : Type} (g : Strand → α) : Four α := ⟨g .s1, g .s2, g .s3, g .s4⟩

/-- Does a test hold of all four? -/
def Four.all {α : Type} (f : Four α) (p : α → Bool) : Bool := p f.one && p f.two && p f.three && p f.four

/-- The four things in strand order. -/
def Four.list {α : Type} (f : Four α) : List α := [f.one, f.two, f.three, f.four]

/-- The strands in ascending order. -/
def strandsAscending : List Strand := [.s1, .s2, .s3, .s4]

/-- The order in which the arbiter and the piece builder look: after the last served strand, wrapping from 4 to 1, the last served
strand last (R83, R154). -/
def turnAfter : Strand → List Strand
  | .s1 => [.s2, .s3, .s4, .s1]
  | .s2 => [.s3, .s4, .s1, .s2]
  | .s3 => [.s4, .s1, .s2, .s3]
  | .s4 => [.s1, .s2, .s3, .s4]

/-- Strand n of a mask or operand, 1 to 4. -/
def strandOf : Nat → Option Strand
  | 1 => some .s1
  | 2 => some .s2
  | 3 => some .s3
  | 4 => some .s4
  | _ => none

/-- A strand mask operand has bit n − 1 set for strand n (1.5). -/
def maskOf (m : Nat) : Four Bool := Four.build (fun n => m.testBit (n.num - 1))

/-- The strand mask as RUN records carry it (12.3). -/
def maskCode (m : Four Bool) : Nat :=
  m.one.toNat + 2 * m.two.toNat + 4 * m.three.toNat + 8 * m.four.toNat

/-! ## What a strand's blocks read elsewhere -/

/-- What an event of a strand reads outside the strand: the adopted station, the recipe store and the clock. -/
structure Env where
  station : Option Station
  store : Vector (Option Recipe) 8
  clock : Nat
deriving DecidableEq, Repr

/-- Part time, the low 32 bits of the clock (00_scope.md, Units). -/
def Env.time (e : Env) : Word32 := BitVec.ofNat 32 e.clock

/-- The adopted values of a strand that the adopted station records as present (R20). -/
def Env.strand (e : Env) (n : Strand) : Option StrandStation := e.station.bind (fun t => t.strands.get n)

/-- M, where the adopted station gives the strand a marker (R18, R20). -/
def Env.marker (e : Env) (n : Strand) : Option Nat := (e.strand n).bind (·.marker)

/-- G of the adopted station (2.1). Read for run strands only, which are present (R35). -/
def Env.gauge (e : Env) (n : Strand) : Nat := (e.strand n).elim 0 (·.gauge)

/-- S of the adopted station (2.1). Read for run strands only. -/
def Env.saw (e : Env) (n : Strand) : Nat := (e.strand n).elim 0 (·.saw)

/-- The stale time in ms (2.1). Read for run strands only. -/
def Env.staleTime (e : Env) (n : Strand) : Nat := (e.strand n).elim 0 (·.staleTime)

/-- The minimum mark gap (2.1). -/
def Env.minimumGap (e : Env) : Nat := e.station.elim 0 (·.minimumGap)

/-- The recipe that stands for an EMPTY entry where none can be met (R28, R32: a strand recipe names a VALID entry; log 22). -/
def blankRecipe : Recipe :=
  { id := 0, edition := 0, name := [], alpha := 0, defaultTemp := 0, outConfirm := 1, inConfirm := 1, blindConfirm := 1,
    halfLength := 0, minUsable := 0, tolerate := false, markMask := 0, holes := [], features := [] }

/-- The recipe of a store entry. -/
def Env.entry (e : Env) (k : Fin 8) : Recipe := (e.store.get k).getD blankRecipe

/-- The index of the strand recipe; a strand of an open run has one (R36). -/
def StrandState.index (st : StrandState) : Fin 8 := st.recipe.getD 0

/-- The recipe in force on a strand (R25, R43). -/
def Env.recipe (e : Env) (st : StrandState) : Recipe := e.entry st.index

/-! ## Access to the state -/

/-- What strand events read. -/
def State.env (s : State) : Env := { station := s.run.station, store := s.run.store, clock := s.clock }

/-- Part time (00_scope.md, Units). -/
def State.time (s : State) : Word32 := s.env.time

/-- The state of a strand's blocks. -/
def State.strand (s : State) (n : Strand) : StrandState := s.strands.get n

/-- The state with one strand's blocks changed. -/
def State.onStrand (s : State) (n : Strand) (f : StrandState → StrandState) : State :=
  { s with strands := s.strands.set n (f (s.strands.get n)) }

/-- The state with every strand's blocks changed, in ascending strand number. -/
def State.onAll (s : State) (f : Strand → StrandState → StrandState) : State :=
  { s with strands := Four.build (fun n => f n (s.strands.get n)) }

/-- Is the controller ready (R1)? -/
def State.ready (s : State) : Bool := s.xp.phase == .ready

/-- Is a strand a run strand: in the strand mask of the open run (00_scope.md, Conventions)? -/
def State.inMask (s : State) (n : Strand) : Bool := s.run.mask.get n

/-- The run is ARMED or ACTIVE. -/
def State.grading (s : State) : Bool := s.run.state == .armed || s.run.state == .active

/-- The run state changes; each change sets RUN in NOTICE (R33). -/
def State.setRun (s : State) (r : RunState) : State :=
  if s.run.state = r then s
  else State.setReason { s with run := { s.run with state := r } } .run

/-- A block raises an incident for a strand; it is on its way to the report unit until INCIDENT_ARRIVAL takes it (R176). -/
def StrandState.raise (st : StrandState) (e : Env) (n : Strand) (kind : IncidentKind) (code coordinate detail : Nat) :
    StrandState :=
  { st with raised := st.raised ++
      [{ kind := kind, strand := some n, code := code, coordinate := coordinate, detail := detail, time := e.time }] }

/-! ## Classes (R126) -/

/-- Severity of a dimensional class. -/
def DimClass.severity : DimClass → Nat
  | .sound => 0
  | .unmeasured => 1
  | .offGauge => 4

/-- Severity of a zone class. -/
def ZoneClass.severity : ZoneClass → Nat
  | .stopMark => 2
  | .manual => 3
  | .weld => 5

/-- Severity of a segment's class. -/
def SegClass.severity : SegClass → Nat
  | .sound => 0
  | .unmeasured => 1
  | .stopMark => 2
  | .manual => 3
  | .offGauge => 4
  | .weld => 5

/-- A dimensional class as a segment's class. -/
def DimClass.toClass : DimClass → SegClass
  | .sound => .sound
  | .unmeasured => .unmeasured
  | .offGauge => .offGauge

/-- A zone class as a segment's class. -/
def ZoneClass.toClass : ZoneClass → SegClass
  | .stopMark => .stopMark
  | .manual => .manual
  | .weld => .weld

/-- The higher of two dimensional classes. -/
def DimClass.higher (a b : DimClass) : DimClass := if a.severity < b.severity then b else a

/-- The higher of two zone classes. -/
def ZoneClass.higher (a b : ZoneClass) : ZoneClass := if a.severity < b.severity then b else a

/-- The higher of two overlay classes; NONE stands below every class. -/
def higherOverlay : Option ZoneClass → Option ZoneClass → Option ZoneClass
  | none, b => b
  | a, none => a
  | some a, some b => some (a.higher b)

/-- A segment's class: the higher of its dimensional class and its overlay class. -/
def classOf (dim : DimClass) : Option ZoneClass → SegClass
  | none => dim.toClass
  | some z => if dim.severity < z.severity then z.toClass else dim.toClass

/-- The class of a segment. -/
def SegBody.cls (b : SegBody) : SegClass := classOf b.dim b.overlay

/-- Is a class in a recipe's mark mask (2.4: bit c stands for the class of severity c)? -/
def Recipe.marks (r : Recipe) (severity : Nat) : Bool := r.markMask.testBit severity

end Sys2Proof.Machine
end

