-- ==== Sys2Proof/Machine/Link.lean ====
section
/-! DEFINITION. The gauge link receiver (chapter 5, 12.4): the frame's check value, structure and fields, sequence and fault
tracking, stamping, the FIFO and the stale timer. -/

namespace Sys2Proof.Machine

/-- The current position an accumulator gives (R56). -/
def positionOf (acc : Int) : Nat := if acc < 0 then 0 else acc.toNat / Config.unitNanometres

/-- The current position of a channel (R56). -/
def Channel.position (c : Channel) : Nat := positionOf c.acc

/-! ## The check value (R189) -/

/-- One bit of the CRC-16 with polynomial 0x1021. -/
def crcBit (c : BitVec 16) : BitVec 16 := if c.msb then (c <<< 1) ^^^ 0x1021#16 else c <<< 1

/-- Several bits of the CRC-16. -/
def crcBits : Nat → BitVec 16 → BitVec 16
  | 0, c => c
  | k + 1, c => crcBits k (crcBit c)

/-- One byte of the CRC-16, most significant bit first. -/
def crcByte (c : BitVec 16) (b : Byte) : BitVec 16 := crcBits 8 (c ^^^ (b.zeroExtend 16 <<< 8))

/-- The CRC-16 of a run of bytes: initial value 0xFFFF, no final inversion. -/
def frameCrc (bs : List Byte) : BitVec 16 := bs.foldl crcByte 0xFFFF#16

/-! ## The fields of a frame (12.4) -/

/-- Byte i of a frame's content. -/
def frameByte (content : List Byte) (i : Nat) : Nat := (content.getD i 0#8).toNat

/-- The check-value step: at least 8 bytes, and the computed value equals the check field, the last two bytes, low byte first
(R189, log 20). -/
def frameCheckOk (content : List Byte) : Bool :=
  8 ≤ content.length &&
    (frameCrc (content.take (content.length - 2))).toNat == leNat (content.drop (content.length - 2))

/-- The structure step: a feature count of 1 to 24 and exactly the length it gives (R189). -/
def frameStructureOk (content : List Byte) : Bool :=
  let k := frameByte content 3
  1 ≤ k && k ≤ 24 && content.length == 8 + 4 * k

/-- The sequence number. -/
def frameSeq (content : List Byte) : Byte := content.getD 1 0#8

/-- Flag bit i: 0 MATERIAL, 1 LASER_FAULT, 2 SATURATED. -/
def frameFlag (content : List Byte) (i : Nat) : Bool := (frameByte content 2).testBit i

/-- The temperature, bits 0 to 9 of its field. -/
def frameTemp (content : List Byte) : Nat := (frameByte content 4 + 256 * frameByte content 5) % 1024

/-- The feature entries in the order sent: index, and value and confidence. -/
def frameEntries : Nat → List Byte → List (Nat × Reading)
  | k + 1, i :: b0 :: b1 :: b2 :: rest =>
    let w := leNat [b0, b1, b2]
    (i.toNat, { value := w % 1048576, confidence := w / 1048576 }) :: frameEntries k rest
  | _, _ => []

/-- The feature content of a scan: for each index 1 to 24 the first entry that carries it; in a SATURATED frame every confidence
is 0 (R79). -/
def frameFeatures (content : List Byte) : List (Option Reading) :=
  let entries := frameEntries (frameByte content 3) (content.drop 6)
  (List.range 24).map fun f =>
    ((entries.find? (fun p => p.1 = f + 1)).map (·.2)).map fun r =>
      if frameFlag content 2 then { r with confidence := 0 } else r

/-- The scan an accepted frame is held as, stamped with the channel's position and high-water coordinate (R77, R79). -/
def frameScan (c : Channel) (content : List Byte) : Scan :=
  { stamp := c.position, hw := c.hw, seq := frameSeq content, material := frameFlag content 0,
    laserFault := frameFlag content 1, temp := frameTemp content, feats := frameFeatures content }

/-! ## The stale timer (5.3) -/

/-- Is a FIFO entry a scan? -/
def FifoEntry.isScan : FifoEntry → Bool
  | .scan _ => true
  | .notice => false

/-- The scans a FIFO holds; a stale notice does not count (R78). -/
def LinkPort.scans (p : LinkPort) : Nat := p.fifo.countP FifoEntry.isScan

/-- The stale timer starts (R80). -/
def StrandState.startStale (st : StrandState) (e : Env) (n : Strand) : StrandState :=
  { st with port := { st.port with stale := .running (e.clock + e.staleTime n) } }

/-- The stale timer becomes NOT ARMED (R80). -/
def StrandState.disarmStale (st : StrandState) : StrandState :=
  { st with port := { st.port with stale := .notArmed } }

/-- The timer becomes STALE: a stale notice is placed, unless one still waits, and STALE is raised (R81, R82). -/
def StrandState.goStale (st : StrandState) (e : Env) (n : Strand) : StrandState :=
  let fifo := if st.port.fifo.contains .notice then st.port.fifo else st.port.fifo ++ [.notice]
  StrandState.raise { st with port := { st.port with stale := .stale, fifo := fifo } } e n .stale 0 st.chan.hw (e.staleTime n)

/-- The stale timer expires (R81). -/
def StrandState.expireStale (st : StrandState) (e : Env) (n : Strand) : StrandState :=
  if st.track = .tracking ∧ st.chan.motion = .moving then st.goStale e n
  else { st with port := { st.port with stale := .lapsed } }

/-! ## Frame arrival (R73 to R79) -/

/-- LINK_CHECK, raised only while the strand is not OFF (R73). -/
def StrandState.linkCheck (st : StrandState) (e : Env) (n : Strand) (detail : Nat) : StrandState :=
  if st.track = .off then st else st.raise e n .linkCheck 0 st.chan.hw detail

/-- The missing count of a sequence number after the last one, modulo 256 (R75). -/
def missingCount (last seq : Byte) : Nat := (seq - last - 1#8).toNat

/-- The frame's sequence number becomes the last one; SEQ_GAP is raised for an accepted frame with a missing count (R75). -/
def StrandState.trackSeq (st : StrandState) (e : Env) (n : Strand) (seq : Byte) : StrandState :=
  let st' := { st with port := { st.port with lastSeq := some seq } }
  match st.port.lastSeq with
  | none => st'
  | some last =>
    if st.track = .off ∨ missingCount last seq = 0 then st'
    else st'.raise e n .seqGap 0 st.chan.position (missingCount last seq)

/-- The head fault episode (R76). -/
def StrandState.trackFault (st : StrandState) (e : Env) (n : Strand) (sc : Scan) : StrandState :=
  let st' := { st with port := { st.port with fault := sc.laserFault } }
  if sc.laserFault && !st.port.fault then st'.raise e n .headFault 0 sc.stamp sc.seq.toNat else st'

/-- The stamped scan enters the FIFO, or is discarded with FIFO_OVERRUN where 16 scans wait (R78). -/
def StrandState.enqueueScan (st : StrandState) (e : Env) (n : Strand) (sc : Scan) : StrandState :=
  if st.port.scans < Config.fifoScans then { st with port := { st.port with fifo := st.port.fifo ++ [.scan sc] } }
  else st.raise e n .fifoOverrun 0 sc.stamp sc.seq.toNat

/-- The stale timer at an accepted frame: started while WAITING or TRACKING, NOT ARMED while TAILED (R80). -/
def StrandState.frameStale (st : StrandState) (e : Env) (n : Strand) : StrandState :=
  match st.track with
  | .waiting | .tracking => st.startStale e n
  | .tailed | .off => st.disarmStale

/-- A frame that passes the checks of R73: accepted, or dropped where the strand is OFF (R74 to R80). -/
def StrandState.acceptFrame (st : StrandState) (e : Env) (n : Strand) (content : List Byte) : StrandState :=
  let st1 := st.trackSeq e n (frameSeq content)
  if st.track = .off then st1
  else
    let sc := frameScan st.chan content
    ((st1.trackFault e n sc).enqueueScan e n sc).frameStale e n

/-- A frame arrives: the checks of R73 in their order. A frame ended unfinished fails the first. -/
def StrandState.arrive (st : StrandState) (e : Env) (n : Strand) (content : List Byte) (finished : Bool) : StrandState :=
  if !(finished && frameCheckOk content) then st.linkCheck e n 1
  else if !frameStructureOk content then st.linkCheck e n 3
  else if frameByte content 0 ≠ n.num then st.linkCheck e n 2
  else st.acceptFrame e n content

end Sys2Proof.Machine
end

