-- ==== Sys2Proof/Machine/Marks.lean ====
section
/-! DEFINITION. The mark queue of a strand (10.1 to 10.3): placing and joining intervals, closing the open one, and serving the
output. -/

namespace Sys2Proof.Machine

/-! ## Intervals -/

/-- Does the first interval begin before the second ends? An open OFF counts as the greatest of coordinates (R167). -/
def Interval.beginsBeforeEnd (i j : Interval) : Bool := j.off.elim true (fun o => i.on < o)

/-- Do two intervals overlap: does each begin before the other ends (R167)? -/
def Interval.overlaps (i j : Interval) : Bool := i.beginsBeforeEnd j && j.beginsBeforeEnd i

/-- Does the first interval lie before the second within the minimum mark gap (R167)? -/
def Interval.closeBefore (gap : Nat) (i j : Interval) : Bool := i.off.elim false (fun o => o ≤ j.on && j.on - o ≤ gap)

/-- Is an interval overlapped by or close to the incoming one (R167)? -/
def Interval.touches (gap : Nat) (incoming i : Interval) : Bool :=
  i.overlaps incoming || i.closeBefore gap incoming || incoming.closeBefore gap i

/-- The greatest closed coordinate an interval holds: its OFF, or its OFF floor while it is open. -/
def Interval.reach (i : Interval) : Nat := i.off.getD i.floor

/-- Two intervals joined into one (R167): the least ON; open if either is open, the OFF floor then the greatest among the closed
OFFs and floors; otherwise the greatest OFF. -/
def Interval.join (i j : Interval) : Interval :=
  match i.off, j.off with
  | some a, some b => { on := min i.on j.on, off := some (max a b), floor := 0 }
  | _, _ => { on := min i.on j.on, off := none, floor := max i.reach j.reach }

/-- An incoming interval that overlaps or is close to some, in the place of the first of them (R167). -/
def joinInterval (gap : Nat) (q : List Interval) (incoming : Interval) : List Interval :=
  let touched := q.filter (Interval.touches gap incoming)
  let ahead := q.takeWhile (fun i => !Interval.touches gap incoming i)
  let rest := (q.dropWhile (fun i => !Interval.touches gap incoming i)).filter (fun i => !Interval.touches gap incoming i)
  ahead ++ touched.foldl Interval.join incoming :: rest

/-- An incoming interval at the place its ON gives it, after every interval whose ON is at or below its own (R167). -/
def insertInterval (q : List Interval) (incoming : Interval) : List Interval :=
  q.takeWhile (fun i => i.on ≤ incoming.on) ++ incoming :: q.dropWhile (fun i => i.on ≤ incoming.on)

/-- The predecessor extended to cover the incoming interval (R168). -/
def Interval.extendPast (i incoming : Interval) : Interval :=
  { i with off := incoming.off, floor := if incoming.off.isNone then i.reach else 0 }

/-- The successor extended to cover the incoming interval (R168). -/
def Interval.extendBack (i incoming : Interval) : Interval :=
  { i with on := incoming.on, floor := if i.off.isNone then max i.floor incoming.reach else 0 }

/-- The gap from the end of one interval to the ON of a later one (R168). -/
def Interval.gapTo (i j : Interval) : Nat := j.on - i.reach

/-- An incoming interval merged into one neighbour of a full queue: the nearer, the predecessor on equal gaps (R168). -/
def mergeInterval (q : List Interval) (incoming : Interval) : List Interval :=
  let before := q.takeWhile (fun i => i.on ≤ incoming.on)
  let after := q.dropWhile (fun i => i.on ≤ incoming.on)
  match before.getLast?, after with
  | some p, s :: rest =>
    if p.gapTo incoming ≤ incoming.gapTo s then before.dropLast ++ p.extendPast incoming :: after
    else before ++ s.extendBack incoming :: rest
  | some p, [] => before.dropLast ++ [p.extendPast incoming]
  | none, s :: rest => s.extendBack incoming :: rest
  | none, [] => [incoming]

/-- An incoming interval is placed (R167). -/
def placeInterval (gap : Nat) (q : List Interval) (incoming : Interval) : List Interval :=
  if q.any (Interval.touches gap incoming) then joinInterval gap q incoming
  else if q.length < Config.markIntervals then insertInterval q incoming
  else mergeInterval q incoming

/-! ## Serving -/

/-- Has an interval been served out at a high-water coordinate (R170)? -/
def Interval.served (hw : Nat) (i : Interval) : Bool := i.off.elim false (fun o => o ≤ hw)

/-- The queue's state at a high-water coordinate (R170). -/
def queueActive (q : List Interval) (hw : Nat) : Bool := q.head?.elim false (fun i => i.on ≤ hw)

/-- The output a force mode and the queue's state give (R170, R171). -/
def ForceMode.output (f : ForceMode) (queue : Bool) : Bool :=
  match f with
  | .on => true
  | .off => false
  | .none => queue

/-- The marker serves its queue at a high-water coordinate (R170). -/
def Marker.serve (m : Marker) (hw : Nat) : Marker :=
  let q := m.queue.dropWhile (Interval.served hw)
  { m with queue := q, active := m.force.output (queueActive q hw) }

/-- The map's OFF closes the open interval, which leaves the queue where it is passed or covers nothing (R169). -/
def closeInterval (y hw : Nat) (i : Interval) : Option Interval :=
  match i.off with
  | some _ => some i
  | none =>
    let o := max y i.floor
    if o ≤ hw || o ≤ i.on then none else some { i with off := some o, floor := 0 }

/-- The map's OFF, and the service that follows (R169, R170). -/
def Marker.close (m : Marker) (y hw : Nat) : Marker :=
  Marker.serve { m with queue := m.queue.filterMap (closeInterval y hw) } hw

/-- A force mode is set; on a release the output takes the queue's state as it stands (R171). -/
def Marker.setForce (m : Marker) (f : ForceMode) (hw : Nat) : Marker :=
  { m with force := f, active := f.output (queueActive m.queue hw) }

/-- The queue is emptied and the output takes the state of an empty queue (R172). -/
def Marker.empty (m : Marker) : Marker := { m with queue := [], active := m.force.output false }

/-- The strand's marker serves its queue against the strand's high-water coordinate. -/
def StrandState.serve (st : StrandState) : StrandState := { st with marker := st.marker.serve st.chan.hw }

end Sys2Proof.Machine
end

