-- ==== Sys2Proof/Machine/Channel.lean ====
section
/-! DEFINITION. The length channels (chapter 4): counting edges, coordinates, reverse episodes and the cap, speed windows, motion
and stop capture. -/

namespace Sys2Proof.Machine

/-! ## Counting (4.2, 4.3) -/

/-- The direction of a change of A and B in QUADRATURE mode: true forward, false reverse; none where no level or both levels
changed (R53). The arguments are the last levels and the new ones. -/
def quadrature (a0 b0 a b : Bool) : Option Bool :=
  match a0, b0, a, b with
  | false, false, true, false => some true
  | true, false, true, true => some true
  | true, true, false, true => some true
  | false, true, false, false => some true
  | false, true, true, true => some false
  | false, false, false, true => some false
  | true, false, false, false => some false
  | true, true, true, false => some false
  | _, _, _, _ => none

/-- Whether a sampled change is a counted edge, and its direction (R53, R54). -/
def edgeDirection (mode : CountMode) (a0 b0 a b : Bool) : Option Bool :=
  match mode with
  | .quadrature => quadrature a0 b0 a b
  | .single => if !a0 && a then some true else none

/-- The accumulator after a counted edge: held at the upper bound by a forward edge; a reverse edge subtracts its full step (R55).
Below the signed 64-bit range its value is free (log 13). -/
def stepAccumulator (acc : Int) (forward : Bool) (step : Nat) : Int :=
  if forward then min (acc + step) Config.accumulatorBound
  else if acc - step < Config.accumulatorLeast then min (Config.accumulatorBelow (acc - step)) Config.accumulatorBound
  else acc - step

/-- One counted edge (R52, R55 to R58, R170). -/
def StrandState.countEdge (st : StrandState) (e : Env) (n : Strand) (forward : Bool) (step : Nat) : StrandState :=
  let c := st.chan
  let acc := stepAccumulator c.acc forward step
  let pos := positionOf acc
  let advance := decide (c.hw < pos)
  let begins := decide (pos < c.hw) && !c.reverse
  let caps := forward && decide (acc = Config.accumulatorBound)
  let on := decide (st.track ≠ .off)
  let c' := { c with
    acc := acc
    windowSum := if forward then c.windowSum + step else c.windowSum - step
    hw := max c.hw pos
    reverse := (c.reverse || begins) && !advance
    capReached := c.capReached || caps }
  let st1 := { st with chan := c' }
  let st2 := if caps && !c.capReached && on then st1.raise e n .coordLimit 0 Config.coordCap 0 else st1
  let st3 := if begins && on then st2.raise e n .reverse 0 c.hw pos else st2
  if advance then st3.serve else st3

/-- The channel samples new levels; a counted edge counts with the wheel step and mode of the adopted station (R52 to R54). -/
def StrandState.sampleEdge (st : StrandState) (e : Env) (n : Strand) (a b : Bool) : StrandState :=
  let st' := { st with chan := { st.chan with lastA := a, lastB := b } }
  match e.strand n with
  | none => st'
  | some t =>
    match edgeDirection t.mode st.chan.lastA st.chan.lastB a b with
    | none => st'
    | some forward => st'.countEdge e n forward t.wheelStep

/-! ## Speed and motion (4.4, 4.5) -/

/-- The start speed a channel is judged by; free, but above 0, where no adopted station holds the strand (log 15). -/
def Env.startSpeed (e : Env) (n : Strand) : Nat :=
  (e.strand n).elim (1 + Config.absentStartSpeed n.num) (·.startSpeed)

/-- The stop speed a channel is judged by (log 15). -/
def Env.stopSpeed (e : Env) (n : Strand) : Nat := (e.strand n).elim (Config.absentStopSpeed n.num) (·.stopSpeed)

/-- The stop dwell in ms (log 15). -/
def Env.stopDwell (e : Env) (n : Strand) : Nat := (e.strand n).elim (Config.absentStopDwell n.num) (·.stopDwell)

/-- The speed a window's sum gives: divided by 10,000, rounded toward zero; 0 where the channel does not count (R60). -/
def windowSpeed (e : Env) (n : Strand) (sum : Int) : Int := if (e.strand n).isSome then sum.tdiv 10000 else 0

/-- The motion state is judged with the new speed at the end of a window (R61, R62). -/
def Channel.judge (c : Channel) (e : Env) (n : Strand) (windowEnd : Nat) : Channel :=
  match c.motion with
  | .still | .halted =>
    if (e.startSpeed n : Int) ≤ c.speed then
      if c.startCount + 1 < 2 then { c with startCount := c.startCount + 1 }
      else { c with motion := .moving, startCount := 0 }
    else { c with startCount := 0 }
  | .moving =>
    if c.speed < (e.stopSpeed n : Int) then
      if c.dwell.isSome then c else { c with dwell := some windowEnd, stopCapture := some c.hw }
    else if c.dwell.isSome then { c with dwell := none, stopCapture := none } else c

/-- The clock value at which the current speed window ends (R60). -/
def Channel.windowEnd (c : Channel) : Nat := c.windowStart + Config.speedWindow

/-- The channel at the end of its speed window (R60). -/
def Channel.endWindow (c : Channel) (e : Env) (n : Strand) : Channel :=
  Channel.judge { c with speed := windowSpeed e n c.windowSum, windowSum := 0, windowStart := c.windowEnd } e n c.windowEnd

/-- The end of a speed window on a strand, with what the receiver does when a TRACKING strand enters MOVING (R60, R82). -/
def StrandState.endWindow (st : StrandState) (e : Env) (n : Strand) : StrandState :=
  let st' := { st with chan := st.chan.endWindow e n }
  if st.chan.motion ≠ .moving ∧ st'.chan.motion = .moving ∧ st.track = .tracking ∧ st.port.stale = .lapsed then
    st'.goStale e n
  else st'

/-- The stop dwell expires: the strand becomes HALTED, and a WAITING or TRACKING strand's stop capture is handed to the forecast
unit (R63). -/
def StrandState.expireDwell (st : StrandState) : StrandState :=
  let handed := st.track == .waiting || st.track == .tracking
  { st with
    chan := { st.chan with motion := .halted, startCount := 0, dwell := none }
    stopMail := if handed then st.stopMail ++ st.chan.stopCapture.toList else st.stopMail }

/-- Has the stop dwell's time passed (R63)? -/
def Channel.dwellOver (c : Channel) (e : Env) (n : Strand) : Bool :=
  c.dwell.elim false (fun t => t + e.stopDwell n ≤ e.clock)

/-- What ARM RUN clears of a named channel (R64). -/
def Channel.arm (c : Channel) : Channel :=
  { c with acc := 0, hw := 0, reverse := false, capReached := false, dwell := none, stopCapture := none }

/-- The channel at the end of initialisation or of a part restart: the levels are sampled and a window begins (R65). -/
def Channel.begin' (c : Channel) (clock : Nat) : Channel :=
  { c with lastA := c.pinA, lastB := c.pinB, windowStart := clock }

end Sys2Proof.Machine
end

