-- ==== Sys2Proof/Machine/Operands.lean ====
section
/-! DEFINITION. The fields the controller reads from host-written structures (R186, 12.1, 12.2), their checks (R12, R19 to R21, R26,
R27), and the answers of orders (1.5). -/

namespace Sys2Proof.Machine

/-! ## Answers (1.5) -/

/-- DONE with a detail: 0, REPLACED 1, CLAMPED 2. -/
def Answer.done (detail : Nat) : Answer := ⟨0, detail⟩

/-- BAD_ORDER. -/
def Answer.badOrder : Answer := ⟨1, 0⟩

/-- BAD_OPERAND with the operand number. -/
def Answer.badOperand (k : Nat) : Answer := ⟨2, k⟩

/-- NO_STATION. -/
def Answer.noStation : Answer := ⟨3, 0⟩

/-- RUN_OPEN. -/
def Answer.runOpen : Answer := ⟨4, 0⟩

/-- NO_RUN. -/
def Answer.noRun : Answer := ⟨5, 0⟩

/-- BUSY. -/
def Answer.busy : Answer := ⟨6, 0⟩

/-- BAD_STATION with the field number. -/
def Answer.badStation (field : Nat) : Answer := ⟨7, field⟩

/-- BAD_RECIPE with the field number. -/
def Answer.badRecipe (field : Nat) : Answer := ⟨8, field⟩

/-- IN_USE. -/
def Answer.inUse : Answer := ⟨9, 0⟩

/-- INCOMPATIBLE. -/
def Answer.incompatible : Answer := ⟨10, 0⟩

/-- ZONE_PASSED. -/
def Answer.zonePassed : Answer := ⟨11, 0⟩

/-- FORECAST_FULL. -/
def Answer.forecastFull : Answer := ⟨12, 0⟩

/-- ABORTED. -/
def Answer.aborted : Answer := ⟨13, 0⟩

/-! ## Order cells (12.1) -/

/-- The order a cell holds: kind, tag and operands as posted (R11). -/
def readOrder (m : Memory) (i : Fin 32) : Order :=
  let b := cellBase i.val
  { kind := m.rd32 (b + 4), tag := BitVec.ofNat 32 (m.rd32 (b + 8)), op1 := m.rd32 (b + 12), op2 := m.rd32 (b + 16),
    op3 := m.rd32 (b + 20), op4 := m.rd32 (b + 24), cell := i }

/-- Does a value lie in a range? -/
def within (lo hi v : Nat) : Bool := lo ≤ v && v ≤ hi

/-- The number of the first check that fails. -/
def firstFailing : List (Nat × Bool) → Option Nat
  | [] => none
  | (k, ok) :: rest => if ok then firstFailing rest else some k

/-- The operand checks of each order kind, in operand order (1.5). -/
def operandChecks (o : Order) : List (Nat × Bool) :=
  match o.kind with
  | 2 => [(1, within 0 7 o.op1)]
  | 3 => [(1, within 0 7 o.op1), (2, within 1 15 o.op2)]
  | 4 => [(1, within 0 7 o.op1)]
  | 7 => [(1, within 1 4 o.op1), (2, within 0 Config.coordCap o.op2), (3, within 1 (Config.coordCap - o.op2) o.op3),
      (4, within 0 65535 o.op4)]
  | 8 => [(1, within 1 15 o.op1)]
  | 9 => [(1, within 1 4 o.op1), (2, within 1 3 o.op2)]
  | _ => []

/-- What the order unit itself answers, where it does (R12 steps 1 and 2). -/
def unitAnswer (o : Order) : Option Answer :=
  if within 1 9 o.kind then (firstFailing (operandChecks o)).map Answer.badOperand else some .badOrder

/-- The store index an operand names. -/
def entryOf (op : Nat) : Fin 8 := Fin.ofNat 8 op

/-! ## Station page (12.2) -/

/-- One strand block of the station page, as written. -/
structure RawStrand where
  present : Nat
  markerPresent : Nat
  mode : Nat
  thermalHold : Nat
  gauge : Nat
  saw : Nat
  marker : Nat
  wheelStep : Nat
  startSpeed : Nat
  stopSpeed : Nat
  stopDwell : Nat
  bandLow : Nat
  bandHigh : Nat
  staleTime : Nat
  tailConfirm : Nat
deriving DecidableEq, Repr

/-- The block of strand n. -/
def readStrand (m : Memory) (n : Nat) : RawStrand :=
  let b := stationBase + 64 * n
  { present := m.rdNat b 1, markerPresent := m.rdNat (b + 1) 1, mode := m.rdNat (b + 2) 1, thermalHold := m.rdNat (b + 3) 1,
    gauge := m.rdNat (b + 4) 4, saw := m.rdNat (b + 8) 4, marker := m.rdNat (b + 12) 4, wheelStep := m.rdNat (b + 16) 4,
    startSpeed := m.rdNat (b + 20) 2, stopSpeed := m.rdNat (b + 22) 2, stopDwell := m.rdNat (b + 24) 2,
    bandLow := m.rdNat (b + 26) 2, bandHigh := m.rdNat (b + 28) 2, staleTime := m.rdNat (b + 30) 2,
    tailConfirm := m.rdNat (b + 32) 1 }

/-- The checks of strand n's fields in ascending field number (2.1, R20, R21). Where present is 0 the rest is not checked. -/
def strandChecks (n : Nat) (r : RawStrand) : List (Nat × Bool) :=
  if r.present = 0 then []
  else
    [(100 * n + 1, within 0 1 r.present),
     (100 * n + 2, within 1000 400000 r.gauge),
     (100 * n + 3, within 1000 400000 r.saw),
     (100 * n + 4, within 0 1 r.markerPresent),
     (100 * n + 5, r.markerPresent == 0 || within 0 400000 r.marker),
     (100 * n + 6, within 1000 1000000 r.wheelStep),
     (100 * n + 7, within 0 1 r.mode),
     (100 * n + 8, within 1 5000 r.startSpeed),
     (100 * n + 9, r.stopSpeed < r.startSpeed),
     (100 * n + 10, within 20 5000 r.stopDwell),
     (100 * n + 11, within 200 650 r.bandLow),
     (100 * n + 12, within 200 650 r.bandHigh && r.bandLow < r.bandHigh),
     (100 * n + 13, within 0 255 r.thermalHold),
     (100 * n + 14, within 5 500 r.staleTime),
     (100 * n + 15, within 1 255 r.tailConfirm)]

/-- The checks of the whole station page in ascending field number (R19). -/
def stationChecks (m : Memory) : List (Nat × Bool) :=
  [(1, within 1 50 (m.rdNat stationBase 2)),
   (2, within 1 50 (m.rdNat (stationBase + 2) 2)),
   (3, within 0 5000 (m.rdNat (stationBase + 4) 2)),
   (4, within 0 10000 (m.rdNat (stationBase + 6) 2))] ++
  (strandChecks 1 (readStrand m 1) ++ (strandChecks 2 (readStrand m 2) ++ (strandChecks 3 (readStrand m 3) ++
    strandChecks 4 (readStrand m 4))))

/-- What the adopted geometry records of a strand: nothing where it is absent (R20). -/
def adoptStrand (r : RawStrand) : Option StrandStation :=
  if r.present = 0 then none
  else some
    { gauge := r.gauge, saw := r.saw, marker := if r.markerPresent = 0 then none else some r.marker, wheelStep := r.wheelStep,
      mode := if r.mode = 0 then .quadrature else .single, startSpeed := r.startSpeed, stopSpeed := r.stopSpeed,
      stopDwell := r.stopDwell, bandLow := r.bandLow, bandHigh := r.bandHigh, thermalHold := r.thermalHold,
      staleTime := r.staleTime, tailConfirm := r.tailConfirm }

/-- The geometry the station page holds. -/
def readStation (m : Memory) : Station :=
  { seamQualification := m.rdNat stationBase 2, sawQualification := m.rdNat (stationBase + 2) 2,
    linger := m.rdNat (stationBase + 4) 2, minimumGap := m.rdNat (stationBase + 6) 2,
    strands := Four.build (fun n => adoptStrand (readStrand m n.num)) }

/-! ## Recipe slots (12.2) -/

/-- Feature f (1 to 24) of the slot at b. -/
def readFeature (m : Memory) (b f : Nat) : Feature :=
  let a := b + 128 + 16 * (f - 1)
  { nominal := m.rdNat a 4, lower := m.rdNat (a + 4) 4, upper := m.rdNat (a + 8) 4, guardPercent := m.rdNat (a + 12) 1,
    minConfidence := m.rdNat (a + 13) 1 }

/-- Hole h (1 to 4) of the slot at b. -/
def readHole (m : Memory) (b h : Nat) : Hole :=
  { lead := m.rdNat (b + 56 + 4 * (h - 1)) 4, length := m.rdNat (b + 72 + 4 * (h - 1)) 4 }

/-- 1 to n. -/
def upTo (n : Nat) : List Nat := (List.range n).map (· + 1)

/-- The recipe the slot at b holds (R25): holes 1 to hole count and features 1 to n. -/
def readRecipe (m : Memory) (b : Nat) : Recipe :=
  { id := m.rdNat b 2, edition := m.rdNat (b + 2) 2, name := m.rdBytes (b + 4) 32, alpha := m.rdNat (b + 44) 2,
    defaultTemp := m.rdNat (b + 46) 2, outConfirm := m.rdNat (b + 38) 1, inConfirm := m.rdNat (b + 39) 1,
    blindConfirm := m.rdNat (b + 40) 1, halfLength := m.rdNat (b + 48) 2, minUsable := m.rdNat (b + 52) 4,
    tolerate := m.rdNat (b + 41) 1 == 1, markMask := m.rdNat (b + 42) 1,
    holes := (upTo (min (m.rdNat (b + 37) 1) 4)).map (readHole m b),
    features := (upTo (min (m.rdNat (b + 36) 1) 24)).map (readFeature m b) }

/-- The checks of feature f's fields. -/
def featureChecks (f : Nat) (t : Feature) : List (Nat × Bool) :=
  [(100 * f + 1, within 100 999999 t.nominal), (100 * f + 2, within 1 99999 t.lower), (100 * f + 3, within 1 99999 t.upper),
   (100 * f + 4, within 50 100 t.guardPercent), (100 * f + 5, within 0 15 t.minConfidence)]

/-- The checks of a recipe copy in ascending field number (R27). Field 3, the name, always passes. -/
def recipeChecks (m : Memory) (b : Nat) : List (Nat × Bool) :=
  let r := readRecipe m b
  [(1, within 1 65535 r.id), (2, within 0 255 r.edition), (4, within 1 24 (m.rdNat (b + 36) 1)), (5, within 1800 2800 r.alpha),
   (6, within 250 650 r.defaultTemp), (7, within 1 32 r.outConfirm), (8, within 1 32 r.inConfirm), (9, within 1 32 r.blindConfirm),
   (10, within 1 4 (m.rdNat (b + 37) 1)), (11, within 0 5000 r.halfLength), (12, within 10000 700000 r.minUsable),
   (13, within 0 1 (m.rdNat (b + 41) 1)), (14, r.markMask % 2 == 0 && r.markMask < 64)] ++
  ((upTo r.holes.length).zipWith (fun h t => (20 + h, within 0 200000 t.lead)) r.holes ++
   ((upTo r.holes.length).zipWith (fun h t => (30 + h, within 1000 60000 t.length)) r.holes ++
    ((upTo r.features.length).zipWith featureChecks r.features).flatten))

end Sys2Proof.Machine
end

