-- ==== Sys2Proof/Machine/Statistics.lean ====
section
/-! DEFINITION. The statistics of segments and side accumulators (6.6): folding a scan, joining two, sharing one out at a split
(R140), and the means (R107). -/

namespace Sys2Proof.Machine

/-! ## Limits and rounding -/

/-- A 32-bit count, held at its greatest value (R106). -/
def hold32 (n : Nat) : Nat := min n Config.max32

/-- A sum of deviations, held at its 48-bit limits (R106). -/
def holdSum (z : Int) : Int := max (-Config.maxSum) (min z Config.maxSum)

/-- A quotient of non-negative numbers, rounded half up. -/
def roundHalfUp (a b : Nat) : Nat := (2 * a + b) / (2 * b)

/-- A signed quotient, rounded half away from zero. -/
def roundHalfAway (z : Int) (b : Nat) : Int :=
  if z < 0 then -(roundHalfUp z.natAbs b : Int) else (roundHalfUp z.natAbs b : Int)

/-- The lesser of two values, an absent one giving way. -/
def leastOf : Option Int → Option Int → Option Int
  | none, b => b
  | a, none => a
  | some a, some b => some (min a b)

/-- The greater of two values, an absent one giving way. -/
def greatestOf : Option Int → Option Int → Option Int
  | none, b => b
  | a, none => a
  | some a, some b => some (max a b)

/-! ## What a scan contributes (R104) -/

/-- The bands of step 7 (R97). -/
inductive Band where
  | inside | guarded | outside
deriving DecidableEq, Repr

/-- What a scan contributes to the statistics: its resolved temperature, whether it is thermal-assumed, and for each index 1 to 24
the deviation and band of a valid feature. -/
structure Contribution where
  temp : Nat
  thermal : Bool
  feats : List (Option (Int × Band))
deriving DecidableEq, Repr

/-- A valid feature is folded (R104). A valid count at its limit takes no more into the count, the sum or the out and guard
counts (R106). -/
def FeatStat.fold (f : FeatStat) : Option (Int × Band) → FeatStat
  | none => f
  | some (d, band) =>
    let f' := { f with least := leastOf f.least (some d), greatest := greatestOf f.greatest (some d) }
    if f.valid < Config.max32 then
      { f' with
        valid := f.valid + 1
        sum := holdSum (f.sum + d)
        outCount := hold32 (f.outCount + if band = .outside then 1 else 0)
        guardCount := hold32 (f.guardCount + if band = .guarded then 1 else 0) }
    else f'

/-- A scan is folded (R104). -/
def Stats.fold (s : Stats) (c : Contribution) : Stats :=
  { scans := hold32 (s.scans + 1)
    tempSum := min (s.tempSum + c.temp) Config.maxTempSum
    thermal := s.thermal || c.thermal
    feats := List.zipWith FeatStat.fold s.feats c.feats }

/-- Two features' statistics joined (R105). -/
def FeatStat.add (f g : FeatStat) : FeatStat :=
  { valid := hold32 (f.valid + g.valid)
    least := leastOf f.least g.least
    greatest := greatestOf f.greatest g.greatest
    sum := holdSum (f.sum + g.sum)
    outCount := hold32 (f.outCount + g.outCount)
    guardCount := hold32 (f.guardCount + g.guardCount) }

/-- Two statistics joined (R105). -/
def Stats.add (s t : Stats) : Stats :=
  { scans := hold32 (s.scans + t.scans)
    tempSum := min (s.tempSum + t.tempSum) Config.maxTempSum
    thermal := s.thermal || t.thermal
    feats := List.zipWith FeatStat.add s.feats t.feats }

/-! ## Sharing out at a split (R140) -/

/-- The share `num / den` of a count, rounded down. -/
def share (count num den : Nat) : Nat := count * num / den

/-- The first part's statistics of a feature. -/
def FeatStat.first (f : FeatStat) (num den : Nat) : FeatStat :=
  let v := share f.valid num den
  { valid := v
    least := if v = 0 then none else f.least
    greatest := if v = 0 then none else f.greatest
    sum := if f.valid = 0 then 0 else (f.sum * v).tdiv f.valid
    outCount := share f.outCount num den
    guardCount := share f.guardCount num den }

/-- The second part's statistics of a feature: the rest. -/
def FeatStat.second (f : FeatStat) (num den : Nat) : FeatStat :=
  let g := f.first num den
  { valid := f.valid - g.valid
    least := if f.valid - g.valid = 0 then none else f.least
    greatest := if f.valid - g.valid = 0 then none else f.greatest
    sum := f.sum - g.sum
    outCount := f.outCount - g.outCount
    guardCount := f.guardCount - g.guardCount }

/-- The first part's statistics. -/
def Stats.first (s : Stats) (num den : Nat) : Stats :=
  let k := share s.scans num den
  { scans := k
    tempSum := if s.scans = 0 then 0 else s.tempSum * k / s.scans
    thermal := s.thermal
    feats := s.feats.map (fun f => f.first num den) }

/-- The second part's statistics: the rest. -/
def Stats.second (s : Stats) (num den : Nat) : Stats :=
  let t := s.first num den
  { scans := s.scans - t.scans
    tempSum := s.tempSum - t.tempSum
    thermal := s.thermal
    feats := s.feats.map (fun f => f.second num den) }

/-! ## Means (R107) -/

/-- The mean deviation of a feature, absent when the valid count is 0. -/
def FeatStat.mean (f : FeatStat) : Option Int := if f.valid = 0 then none else some (roundHalfAway f.sum f.valid)

/-- The mean temperature, absent when the scan count is 0. -/
def Stats.meanTemp (s : Stats) : Option Nat := if s.scans = 0 then none else some (roundHalfUp s.tempSum s.scans)

end Sys2Proof.Machine
end

