-- ==== Sys2Proof/Machine/Zones.lean ====
section
/-! DEFINITION. The forecast list of a strand (chapter 7): zones entering, merging, becoming OVER and leaving, and the intervals
sent to the marker unit. -/

namespace Sys2Proof.Machine

/-! ## The list -/

/-- The zones OVER give the overlay class: the highest among them, or NONE (R119). -/
def Forecast.overlay (f : Forecast) : Option ZoneClass :=
  f.zones.foldl (fun o z => if z.phase = .over then higherOverlay o (some z.cls) else o) none

/-- A zone enters after every zone whose start is at or below its own (R111). -/
def insertZone (zs : List Zone) (z : Zone) : List Zone :=
  zs.takeWhile (fun y => y.start ≤ z.start) ++ z :: zs.dropWhile (fun y => y.start ≤ z.start)

/-- What one zone becomes at a boundary: it leaves where its end lies there, and an AHEAD zone whose start lies there becomes OVER
(R119). -/
def Zone.at' (z : Zone) (b : Nat) : Option Zone :=
  if z.stop = b then none else some (if z.phase = .ahead ∧ z.start = b then { z with phase := .over } else z)

/-- The forecast unit acts on its zones at a boundary (R119). -/
def Forecast.act (f : Forecast) (b : Nat) : Forecast :=
  { zones := f.zones.filterMap (fun z => z.at' b)
    classBoundary := if f.classBoundary = some b then none else f.classBoundary }

/-- What one zone becomes when the frontier of a WAITING strand moves (R121). -/
def Zone.reached (z : Zone) (x : Nat) : Option Zone :=
  if z.stop ≤ x then none else some (if z.phase = .ahead ∧ z.start ≤ x then { z with phase := .over } else z)

/-- The forecast unit acts on its zones as the frontier of a WAITING strand moves (R121). -/
def Forecast.advance (f : Forecast) (x : Nat) : Forecast :=
  { f with zones := f.zones.filterMap (fun z => z.reached x) }

/-- The boundaries a list offers: the start of each AHEAD zone, every end, and the class boundary of a merge (R119). -/
def Forecast.offers (f : Forecast) : List Nat :=
  f.zones.flatMap (fun z => if z.phase = .ahead then [z.start, z.stop] else [z.stop]) ++ f.classBoundary.toList

/-- The list emptied; a class boundary still offered is withdrawn (R116, R125). -/
def Forecast.empty : Forecast := {}

/-! ## Marks of zones (R118) -/

/-- The forecast unit sends the marker unit the interval of [start, stop), where the class is in the governing mask and the strand
has a marker; not where the ON is held at the cap (R118). -/
def StrandState.sendZoneMark (st : StrandState) (e : Env) (n : Strand) (governing : Recipe) (cls : ZoneClass)
    (start stop : Nat) : StrandState :=
  match e.marker n with
  | none => st
  | some m =>
    if governing.marks cls.severity ∧ start + m < Config.coordCap then
      { st with foreMail := st.foreMail ++
          [{ requester := .forecast, on := start + m, off := some (min (stop + m) Config.coordCap), source := start }] }
    else st

/-- A zone enters the list and is offered to the marker unit (R114 step 4, R117, R118). -/
def StrandState.enterZone (st : StrandState) (e : Env) (n : Strand) (governing : Recipe) (z : Zone) : StrandState :=
  StrandState.sendZoneMark { st with fore := { st.fore with zones := insertZone st.fore.zones z } }
    e n governing z.cls z.start z.stop

/-! ## A full list (R115, R116) -/

/-- The neighbour of an incoming zone: true for the predecessor, false for the successor; the nearer, the predecessor on equal
gaps (R115). The arguments are the predecessor and successor, where there is one. -/
def neighbourIsPredecessor (z : Zone) : Option Zone → Option Zone → Bool
  | some p, some s => z.start - p.stop ≤ s.start - z.stop
  | some _, none => true
  | none, _ => false

/-- The zone that replaces the neighbour (R116). -/
def Zone.merge (neighbour incoming : Zone) : Zone :=
  let raised := decide (neighbour.cls.severity < incoming.cls.severity)
  { start := min neighbour.start incoming.start
    stop := max neighbour.stop incoming.stop
    cls := neighbour.cls.higher incoming.cls
    origin := if raised then incoming.origin else neighbour.origin
    note := if raised then incoming.note else neighbour.note
    phase := neighbour.phase }

/-- The neighbour of an incoming zone and the list without it (R115); none where the list is empty. -/
def takeNeighbour (zs : List Zone) (z : Zone) : Option (Zone × List Zone) :=
  let before := zs.takeWhile (fun y => y.start ≤ z.start)
  let after := zs.dropWhile (fun y => y.start ≤ z.start)
  if neighbourIsPredecessor z before.getLast? after.head? then
    before.getLast?.map (fun p => (p, before.dropLast ++ after))
  else after.head?.map (fun s => (s, before ++ after.tail))

/-- Code of an origin (7.1). -/
def Origin.code : Origin → Nat
  | .stop => 1
  | .seam => 2
  | .order => 3

/-- An incoming zone is merged into a full list (R116, R118). -/
def StrandState.mergeZone (st : StrandState) (e : Env) (n : Strand) (governing : Recipe) (z : Zone) : StrandState :=
  match takeNeighbour st.fore.zones z with
  | none => st
  | some (neighbour, rest) =>
    let merged := neighbour.merge z
    let frontier := st.map.frontier
    let raises := neighbour.phase = .over ∧ neighbour.cls.severity < merged.cls.severity ∧ st.track = .tracking
    let st1 := { st with fore :=
      { zones := insertZone rest merged
        classBoundary := if raises then some frontier else st.fore.classBoundary } }
    let st2 := st1.raise e n .forecastMerged merged.cls.severity z.start (merged.origin.code * 65536 + merged.note)
    st2.sendZoneMark e n governing merged.cls (max merged.start frontier) merged.stop

/-- An automatic zone [start, stop): cap, passed, overtaken start, entry or merge (R114). -/
def StrandState.autoZone (st : StrandState) (e : Env) (n : Strand) (governing : Recipe) (cls : ZoneClass) (origin : Origin)
    (start stop : Nat) : StrandState :=
  let stop := min stop Config.coordCap
  if Config.coordCap ≤ start then st
  else if stop ≤ st.map.frontier then st
  else
    let z : Zone := { start := max start st.map.frontier, stop := stop, cls := cls, origin := origin, note := 0, phase := .ahead }
    if st.fore.zones.length < Config.forecastZones then st.enterZone e n governing z
    else st.mergeZone e n governing z

/-! ## Forecasts from the line (R112, R113) -/

/-- Hole n of a recipe. -/
def Recipe.hole (r : Recipe) (n : Strand) : Option Hole := r.holes[n.num - 1]?

/-- A qualified seam at one strand (R112). The weld values are read from the entry handed with the seam as the store holds it at this
event; where it has no hole n then, or is EMPTY, no zone is formed: the model's choice, log 39. -/
def StrandState.forecastSeam (st : StrandState) (e : Env) (n : Strand) (grant : Option SeamGrant) : StrandState :=
  match grant, st.track with
  | some g, .waiting | some g, .tracking =>
    match (e.entry g.entry).hole n with
    | none => st
    | some h =>
      let start := g.capture + e.gauge n + h.lead
      st.autoZone e n (e.entry g.entry) .weld .seam start (start + h.length)
  | _, _ => st

/-- A stop capture at one strand (R113). -/
def StrandState.forecastStop (st : StrandState) (e : Env) (n : Strand) (capture : Nat) : StrandState :=
  match st.track with
  | .waiting | .tracking =>
    let half := (e.recipe st).halfLength
    if half = 0 then st
    else
      let middle := capture + e.gauge n
      st.autoZone e n (e.recipe st) .stopMark .stop (middle - half) (middle + half)
  | .off | .tailed => st

/-- The next stop capture handed to the forecast unit is taken (R113). -/
def StrandState.takeStop (st : StrandState) (e : Env) (n : Strand) : StrandState :=
  match st.stopMail with
  | [] => st
  | c :: rest => StrandState.forecastStop { st with stopMail := rest } e n c

end Sys2Proof.Machine
end

