-- ==== Sys2Proof/Machine/Map.lean ====
section
/-! DEFINITION. The strand map (chapter 8): boundaries, recolouring, refusal at capacity, switches, gaps, extension, splits and
joins, the map mark, and the flags the marker unit reports. -/

namespace Sys2Proof.Machine

/-- The segments a map holds, the open one counted (R127). -/
def StrandMap.count (m : StrandMap) : Nat := m.closed.length + if m.cur.isSome then 1 else 0

/-! ## The map mark (8.6) -/

/-- Is a segment map-marked under a recipe: its class in the mark mask, and OFF_GAUGE or UNMEASURED or merged (R142)? -/
def SegBody.marked (b : SegBody) (r : Recipe) : Bool :=
  r.marks b.cls.severity && (b.cls == .offGauge || b.cls == .unmeasured || b.flags.merged)

/-- Is the open segment map-marked (R142)? -/
def StrandState.mapMarked (st : StrandState) (e : Env) : Bool := st.map.cur.elim false (fun b => b.marked (e.recipe st))

/-- The map unit sends a request with its OFF open from coordinate x, where the strand has a marker and the ON lies below the
cap (R142). -/
def StrandState.startMark (st : StrandState) (e : Env) (n : Strand) (x : Nat) : StrandState :=
  match e.marker n with
  | none => st
  | some m =>
    if x + m < Config.coordCap then
      { st with
        map := { st.map with mapMark := some (x + m) }
        mapMail := st.mapMail ++ [.request { requester := .map, on := x + m, off := none, source := x }] }
    else st

/-- The map unit sends the OFF of its open map mark at coordinate y (R143). -/
def StrandState.endMark (st : StrandState) (e : Env) (n : Strand) (y : Nat) : StrandState :=
  match st.map.mapMark with
  | none => st
  | some _ =>
    { st with
      map := { st.map with mapMark := none }
      mapMail := st.mapMail ++ [.off (min (y + (e.marker n).getD 0) Config.coordCap)] }

/-- The open segment is judged for a map mark: from x where it becomes marked, to y where it stops being marked (R142, R143). -/
def StrandState.judgeMark (st : StrandState) (e : Env) (n : Strand) (x y : Nat) : StrandState :=
  if st.mapMarked e then
    if st.map.mapMark.isSome then st else st.startMark e n x
  else st.endMark e n y

/-! ## Boundaries (8.2, 8.4) -/

/-- The sources of a boundary, by the code MAP_MERGED shows (R136). -/
inductive BoundarySource where
  | confirmation | zone | switch | gap | resumption | notice
deriving DecidableEq, Repr

/-- The source's code (R136). -/
def BoundarySource.code : BoundarySource → Nat
  | .confirmation => 1
  | .zone => 2
  | .switch => 3
  | .gap => 4
  | .resumption => 5
  | .notice => 6

/-- The source MAP_MERGED shows of the sources that fall at one refused boundary at b: free where there are more than one (log 16). -/
def BoundarySource.shown (b : Nat) : List BoundarySource → BoundarySource
  | [] => .zone
  | s :: rest => (s :: rest).getD (Config.mergedSource b % (rest.length + 1)) s

/-- A side accumulator's start is raised to a new open segment's start (R101). -/
def Evaluator.raiseSide (v : Evaluator) (b : Nat) : Evaluator :=
  { v with candidate := v.candidate.map (fun c => { c with start := max c.start b }) }

/-- The segment a boundary at b opens (R128). -/
def StrandState.newSegment (st : StrandState) (e : Env) (b : Nat) (dim : DimClass) (stats : Stats) : SegBody :=
  { start := b, dim := dim, overlay := st.fore.overlay, index := st.index, edition := (e.recipe st).edition, stats := stats }

/-- The open segment closes at b and a new one opens there (R128). -/
def StrandState.breakAt (st : StrandState) (e : Env) (n : Strand) (cur : SegBody) (b : Nat) (dim : DimClass) (stats : Stats) :
    StrandState :=
  StrandState.judgeMark
    { st with
      map := { st.map with
        closed := st.map.closed ++ [{ body := cur, stop := b }]
        cur := some (st.newSegment e b dim stats) }
      eval := st.eval.raiseSide b }
    e n b b

/-- The open segment is recoloured at its start; on a MERGED segment each class takes the higher (R129). Statistics handed with a
confirmation are folded into it (R100). That R129 holds at the gap boundary of an extension too, so that a MERGED segment whose class lies
above UNMEASURED keeps it, where R134 step 1 says UNMEASURED either way, is the model's choice, log 41. -/
def StrandState.recolour (st : StrandState) (e : Env) (n : Strand) (cur : SegBody) (dim : DimClass) (stats : Stats) :
    StrandState :=
  let cur' := { cur with
    dim := if cur.flags.merged then cur.dim.higher dim else dim
    overlay := if cur.flags.merged then higherOverlay cur.overlay st.fore.overlay else st.fore.overlay
    index := st.index
    edition := (e.recipe st).edition
    stats := cur.stats.add stats }
  StrandState.judgeMark { st with map := { st.map with cur := some cur' } } e n cur.start cur.start

/-- An ordinary boundary at b is refused for capacity and merges into the open segment (R136). -/
def StrandState.refuse (st : StrandState) (e : Env) (n : Strand) (cur : SegBody) (b : Nat) (dim : DimClass) (stats : Stats)
    (source : BoundarySource) : StrandState :=
  let cur' := { cur with
    dim := cur.dim.higher dim
    overlay := higherOverlay cur.overlay st.fore.overlay
    flags := { cur.flags with merged := true }
    stats := cur.stats.add stats }
  StrandState.judgeMark
    (StrandState.raise { st with map := { st.map with cur := some cur' } } e n .mapMerged cur'.cls.severity b source.code)
    e n b (Config.markEndAtMerge cur.start b)

/-- The sources of a boundary at b: those given, and a zone where the forecast unit offers b (R119, R129). -/
def StrandState.sourcesAt (st : StrandState) (b : Nat) (others : List BoundarySource) : List BoundarySource :=
  others ++ if st.fore.offers.contains b then [.zone] else []

/-- An ordinary boundary at b, with every source that acts there: the forecast unit acts on its zones, then the open segment is broken,
recoloured, or merged, once (R119, R128, R129, R135). `others` are the sources beside the zones. -/
def StrandState.boundary (st : StrandState) (e : Env) (n : Strand) (b : Nat) (dim : DimClass) (stats : Stats)
    (others : List BoundarySource) : StrandState :=
  let source := BoundarySource.shown b (st.sourcesAt b others)
  let st := { st with fore := st.fore.act b }
  match st.map.cur with
  | none => st
  | some cur =>
    if b ≤ cur.start then st.recolour e n cur dim stats
    else if st.map.count < Config.ordinarySegments then st.breakAt e n cur b dim stats
    else st.refuse e n cur b dim stats source

/-! ## Switches and offered boundaries (R43, R130) -/

/-- A pending switch whose coordinate x has reached is passed: the strand recipe becomes its entry (R43). -/
def StrandState.passSwitch (st : StrandState) (x : Nat) : StrandState :=
  match st.switch with
  | none => st
  | some w => if w.coord ≤ x then { st with recipe := some w.entry, switch := none } else st

/-- The boundary of a switch that x passes: its coordinate, or the frontier before the taking where that lies beyond it (R130). -/
def StrandState.switchBoundary (st : StrandState) (x : Nat) : Option Nat :=
  st.switch.bind (fun w => if w.coord ≤ x then some (max w.coord st.map.frontier) else none)

/-- A coordinate put into an ascending list that holds each once. -/
def insertCoord (x : Nat) : List Nat → List Nat
  | [] => [x]
  | y :: ys => if x < y then x :: y :: ys else if x = y then y :: ys else y :: insertCoord x ys

/-- Coordinates in ascending order, each once. -/
def ascending (xs : List Nat) : List Nat := xs.foldr insertCoord []

/-- A confirmation that a scan taking comes to: the state it confirms and the start of the candidate (R99, R100). -/
abbrev Confirming := Option (DimClass × Nat)

/-- The sources beside the zones of a boundary at b in a scan taking or an extension: a switch passed there, a confirmation that falls
there (R129, R130). -/
def offerSources (switchAt : Option Nat) (joint : Confirming) (b : Nat) : List BoundarySource :=
  (if switchAt = some b then [.switch] else []) ++ if joint.any (fun c => c.2 == b) then [.confirmation] else []

/-- The dimensional class from an offered boundary at b on: UNMEASURED inside an extension's gap, the state confirmed where the
taking's confirmation falls there too, otherwise the confirmed state (R128, R129, R134). -/
def StrandState.offeredClass (st : StrandState) (inGap : Bool) (joint : Confirming) (b : Nat) : DimClass :=
  if inGap then .unmeasured
  else
    match joint with
    | some (d, y) => if y = b then d else st.eval.confirmed
    | none => st.eval.confirmed

/-- The boundaries offered at the coordinates `coords` are made in ascending order (R128, R130, R134). `joint` is the confirmation of
the taking with the coordinate it falls at: where that is an offered coordinate the two make one boundary (R129). -/
def StrandState.makeOffers (st : StrandState) (e : Env) (n : Strand) (switchAt : Option Nat) (inGap : Bool) (joint : Confirming)
    (coords : List Nat) : StrandState :=
  coords.foldl (fun st b => st.boundary e n b (st.offeredClass inGap joint b) {} (offerSources switchAt joint b)) st

/-- The frontier moves to x, and a switch it reaches is passed (R130 step 1). -/
def StrandState.moveFrontier (st : StrandState) (x : Nat) : StrandState :=
  StrandState.passSwitch { st with map := { st.map with frontier := x } } x

/-- The coordinates of the boundaries offered at or below x, in ascending order, given the boundary of a switch passed (R130 step 2). -/
def StrandState.offeredUpTo (st : StrandState) (switchAt : Option Nat) (x : Nat) : List Nat :=
  ascending (st.fore.offers.filter (· ≤ x) ++ switchAt.toList)

/-- The coordinate a confirmation of this taking falls at: the candidate's start, raised to the start of the segment that is open once
the offered boundaries are made (R100, R101). -/
def StrandState.confirmationAt (st : StrandState) (start : Nat) : Nat := max start (st.map.cur.elim 0 (·.start))

/-- The frontier of a strand with an open segment moves to x: a switch is passed, then every boundary offered at or below x is
made (R130 steps 1 and 2), one that falls together with the confirmation `conf` of the taking as one with it (R129). -/
def StrandState.advanceMap (st : StrandState) (e : Env) (n : Strand) (x : Nat) (conf : Confirming) : StrandState :=
  let switchAt := st.switchBoundary x
  let st' := st.moveFrontier x
  let coords := st'.offeredUpTo switchAt x
  let joint := conf.map (fun c => (c.1, (st'.makeOffers e n switchAt false none coords).confirmationAt c.2))
  st'.makeOffers e n switchAt false joint coords

/-! ## Resumption and extension (8.3) -/

/-- A cut at the tail whose place is HELD gets its place USED by the gap a resumption opens there (R135, R137). A cut there whose place
is NONE keeps it: the model's choice, log 32. -/
def PendingCut.useHeld (t : Nat) (p : PendingCut) : PendingCut :=
  if p.coord = t ∧ p.place = .held then { p with place := .used } else p

/-- Does a pending cut lie at the tail with its place HELD (R137)? -/
def StrandState.heldAt (st : StrandState) (t : Nat) : Bool := st.cuts.pending.any (fun p => p.coord = t && p.place == .held)

/-- The gap segment of a resumption opens at the tail coordinate t, UNMEASURED, or with the state that a confirmation of the same taking
at t confirms; the zones that start or end at t have acted (R129, R133). -/
def StrandState.openGap (st : StrandState) (e : Env) (n : Strand) (t : Nat) (dim : DimClass) : StrandState :=
  let st := { st with fore := st.fore.act t }
  StrandState.judgeMark
    { st with
      map := { st.map with cur := some (st.newSegment e t dim {}) }
      cuts := { st.cuts with pending := st.cuts.pending.map (PendingCut.useHeld t) } }
    e n t t

/-- The last segment reopens where no place is free (R137; its overlay by R136, log 19). What else falls at the tail coordinate t is
refused with it (R129). -/
def StrandState.reopen (st : StrandState) (e : Env) (n : Strand) (t : Nat) (dim : DimClass) (last : Segment) : StrandState :=
  let st := { st with fore := st.fore.act t }
  let cur' := { last.body with
    dim := (last.body.dim.higher .unmeasured).higher dim
    overlay := higherOverlay last.body.overlay st.fore.overlay
    flags := { last.body.flags with merged := true } }
  StrandState.judgeMark
    (StrandState.raise { st with map := { st.map with closed := st.map.closed.dropLast, cur := some cur' } } e n .mapMerged
      cur'.cls.severity t BoundarySource.resumption.code)
    e n t (Config.markEndAtMerge cur'.start t)

/-- A resumption at the map: the gap segment, or the last segment reopened (R133, R137). -/
def StrandState.resumeMap (st : StrandState) (e : Env) (n : Strand) (t : Nat) (dim : DimClass) : StrandState :=
  if st.map.count < Config.ordinarySegments || st.heldAt t then st.openGap e n t dim
  else
    match st.map.closed.getLast? with
    | none => st.openGap e n t dim
    | some last => st.reopen e n t dim last

/-- The boundary at a cut beyond the frontier: always made, with the tracker's confirmed state (R134 step 4, R135). -/
def StrandState.cutBoundary (st : StrandState) (e : Env) (n : Strand) (c : Nat) : StrandState :=
  let st := { st with fore := st.fore.act c }
  match st.map.cur with
  | none => st
  | some cur => st.breakAt e n cur c st.eval.confirmed {}

/-- The gap of an extension: a boundary at the frontier, UNMEASURED. A switch whose boundary falls there too makes one boundary with it
(R129, R134 step 1). An open segment that is MERGED and starts at the frontier keeps a higher class: log 41. -/
def StrandState.gapAtFrontier (st : StrandState) (e : Env) (n : Strand) : StrandState :=
  (st.passSwitch st.map.frontier).boundary e n st.map.frontier .unmeasured {}
    (.gap :: (st.switchBoundary st.map.frontier).toList.map (fun _ => .switch))

/-- A cut beyond the frontier of a TRACKING strand extends the map (R134). -/
def StrandState.extend (st : StrandState) (e : Env) (n : Strand) (c : Nat) : StrandState :=
  let st1 := st.gapAtFrontier e n
  let switchAt := st1.switchBoundary c
  let st2 := st1.moveFrontier c
  let st3 := st2.makeOffers e n switchAt true none
    (ascending (st2.fore.offers.filter (· < c) ++ switchAt.toList.filter (· < c)))
  st3.cutBoundary e n c

/-! ## Splits (R140) -/

/-- The first part [start, c) of a segment that ends at `stop`. -/
def SegBody.firstPart (b : SegBody) (stop c : Nat) : SegBody :=
  { b with
    flags := { b.flags with split := true, tail := false }
    stats := b.stats.first (c - b.start) (stop - b.start) }

/-- The second part, from c on. -/
def SegBody.secondPart (b : SegBody) (stop c : Nat) : SegBody :=
  { b with
    start := c
    flags := { b.flags with split := true }
    stats := b.stats.second (c - b.start) (stop - b.start) }

/-- Does c lie inside a closed segment? -/
def Segment.inside (g : Segment) (c : Nat) : Bool := g.body.start < c && c < g.stop

/-- The closed segments with the one that holds c split there. -/
def splitClosed (c : Nat) : List Segment → List Segment
  | [] => []
  | g :: gs =>
    if g.inside c then
      { body := g.body.firstPart g.stop c, stop := c } :: { body := g.body.secondPart g.stop c, stop := g.stop } :: gs
    else g :: splitClosed c gs

/-- The open segment split at c; the second part is the new open segment (R139, R101). -/
def StrandState.splitOpen (st : StrandState) (cur : SegBody) (c : Nat) : StrandState :=
  { st with
    map := { st.map with
      closed := st.map.closed ++ [{ body := cur.firstPart st.map.frontier c, stop := c }]
      cur := some (cur.secondPart st.map.frontier c) }
    eval := st.eval.raiseSide c }

/-- Does c lie inside the open segment: above its start and at or below the frontier (R139)? -/
def StrandMap.insideOpen (m : StrandMap) (c : Nat) : Bool := m.cur.elim false (fun b => b.start < c && c ≤ m.frontier)

/-- The place of a cut (R135, R139). -/
def StrandState.cutPlace (st : StrandState) (c : Nat) : CutPlace :=
  if st.track = .tracking ∧ st.map.frontier < c then .used
  else if st.track = .tailed ∧ st.map.tail = some c then .held
  else if st.map.closed.any (fun g => g.inside c) || st.map.insideOpen c then .used
  else .none

/-- The map is divided at an accepted cut (R139). -/
def StrandState.divideMap (st : StrandState) (e : Env) (n : Strand) (c : Nat) : StrandState :=
  if st.track = .tracking ∧ st.map.frontier < c then st.extend e n c
  else if st.map.closed.any (fun g => g.inside c) then
    { st with map := { st.map with closed := splitClosed c st.map.closed } }
  else
    match st.map.cur with
    | none => st
    | some cur => if st.map.insideOpen c then st.splitOpen cur c else st

/-! ## Joins (R138) -/

/-- Two segments joined: the first's start and recipe, the higher classes, the union of the flags, MERGED where they differed in
any class. -/
def SegBody.join (a b : SegBody) : SegBody :=
  { a with
    dim := a.dim.higher b.dim
    overlay := higherOverlay a.overlay b.overlay
    flags :=
      { merged := a.flags.merged || b.flags.merged || a.dim != b.dim || a.overlay != b.overlay
        split := a.flags.split || b.flags.split
        markLate := a.flags.markLate || b.flags.markLate
        markMissed := a.flags.markMissed || b.flags.markMissed
        rescan := a.flags.rescan || b.flags.rescan
        tail := a.flags.tail || b.flags.tail }
    stats := a.stats.add b.stats }

/-- The segments that meet after the first `k` closed ones are joined; a join into the open segment is judged for a map mark at
the old coordinate (R138). Where a segment of no length stands at the old coordinate, so that three meet there, the cut's last segment
is joined with the one right after it: the model's choice, log 33. -/
def StrandState.joinAt (st : StrandState) (e : Env) (n : Strand) (k old : Nat) : StrandState :=
  match st.map.closed.take k |>.getLast?, st.map.closed.drop k with
  | some a, b :: rest =>
    { st with map := { st.map with
      closed := (st.map.closed.take k).dropLast ++ { body := a.body.join b.body, stop := b.stop } :: rest } }
  | some a, [] =>
    match st.map.cur with
    | none => st
    | some b =>
      StrandState.judgeMark
        { st with map := { st.map with closed := (st.map.closed.take k).dropLast, cur := some (a.body.join b) } }
        e n old (Config.markEndAtMerge a.body.start old)
  | none, _ => st

/-! ## Flags reported by the marker unit (R144) -/

/-- MARK_LATE or MARK_MISSED is set on a segment. -/
def SegBody.flagMark (b : SegBody) (missed : Bool) : SegBody :=
  { b with flags := if missed then { b.flags with markMissed := true } else { b.flags with markLate := true } }

/-- The first closed segment that holds a coordinate is flagged. -/
def flagClosed (x : Nat) (missed : Bool) : List Segment → List Segment
  | [] => []
  | g :: gs =>
    if g.body.start ≤ x ∧ x < g.stop then { g with body := g.body.flagMark missed } :: gs
    else g :: flagClosed x missed gs

/-- The last closed segment is flagged. -/
def flagLast (missed : Bool) : List Segment → List Segment
  | [] => []
  | [g] => [{ g with body := g.body.flagMark missed }]
  | g :: gs => g :: flagLast missed gs

/-- The segment a source coordinate falls in is flagged (R144). -/
def StrandMap.flagMark (m : StrandMap) (tailed : Bool) (x : Nat) (missed : Bool) : StrandMap :=
  match m.cur with
  | some b =>
    if b.start ≤ x then { m with cur := some (b.flagMark missed) } else { m with closed := flagClosed x missed m.closed }
  | none =>
    if tailed ∧ m.tail.elim false (fun t => t ≤ x) then { m with closed := flagLast missed m.closed }
    else { m with closed := flagClosed x missed m.closed }

/-! ## The end of a map (R45, R47, R146) -/

/-- The closed segments that belong to the pending cuts. -/
def heldSegs (ps : List PendingCut) : Nat := (ps.map (·.segs)).sum

/-- One more closed segment belongs to the newest pending cut. -/
def growNewest : List PendingCut → List PendingCut
  | [] => []
  | [p] => [{ p with segs := p.segs + 1 }]
  | p :: ps => p :: growNewest ps

/-- Does the segment that END RUN closes belong to the newest pending cut: it ends at or below the cut's coordinate, and follows the
cut's segments (R139)? It does not where a segment between them stays beyond the cut, nor with no pending cut (log 35). -/
def StrandState.closesBelowCut (st : StrandState) : Bool :=
  st.cuts.pending.getLast?.any (fun p => st.map.frontier ≤ p.coord) && heldSegs st.cuts.pending == st.map.closed.length

/-- END RUN at the map of a TRACKING strand: the open segment closes at the frontier and an open map mark is closed there (R143,
R146). One of no length at the newest pending cut belongs to that cut's piece (R139). -/
def StrandState.closeMap (st : StrandState) (e : Env) (n : Strand) : StrandState :=
  match st.map.cur with
  | none => st
  | some cur =>
    StrandState.endMark
      { st with
        map := { st.map with closed := st.map.closed ++ [{ body := cur, stop := st.map.frontier }], cur := none }
        cuts := if st.closesBelowCut then { st.cuts with pending := growNewest st.cuts.pending } else st.cuts }
      e n st.map.frontier

end Sys2Proof.Machine
end

