-- ==== Sys2Proof/Machine/Records.lean ====
section
/-! DEFINITION. The byte layouts of records and of the status block (chapter 12). -/

namespace Sys2Proof.Machine

/-! ## Codes -/

/-- Incident kinds (R183). -/
def IncidentKind.code : IncidentKind → Nat
  | .linkCheck => 1
  | .seqGap => 2
  | .fifoOverrun => 3
  | .headFault => 4
  | .stale => 5
  | .thermalDefault => 6
  | .reverse => 7
  | .coordLimit => 8
  | .shortPulse => 9
  | .forecastMerged => 10
  | .mapMerged => 11
  | .materialResumed => 12
  | .sawOrder => 13
  | .cutEmpty => 14
  | .joined => 15
  | .markLate => 16
  | .markMissed => 17

/-- The block that raises a kind of incident (R183). -/
def IncidentKind.raiser : IncidentKind → Raiser
  | .linkCheck | .seqGap | .fifoOverrun | .headFault | .stale => .receiver
  | .thermalDefault => .evaluator
  | .reverse | .coordLimit => .channel
  | .shortPulse => .inputs
  | .forecastMerged => .forecast
  | .mapMerged | .materialResumed => .map
  | .sawOrder | .cutEmpty | .joined => .pieces
  | .markLate | .markMissed => .marker

/-- RUN record events (12.3). -/
def RunEvent.code : RunEvent → Nat
  | .opened => 1
  | .amended => 2
  | .closed => 3
  | .abandoned => 4

/-- Piece verdicts (12.3). -/
def Verdict.code : Verdict → Nat
  | .accept => 1
  | .short => 2
  | .trim => 3
  | .reject => 4

/-- Run states (12.1). -/
def RunState.code : RunState → Nat
  | .idle => 0
  | .armed => 1
  | .active => 2
  | .finishing => 3

/-- Track states (12.1). -/
def TrackState.code : TrackState → Nat
  | .off => 0
  | .waiting => 1
  | .tracking => 2
  | .tailed => 3

/-- Motion states (12.1). -/
def Motion.code : Motion → Nat
  | .still => 0
  | .moving => 1
  | .halted => 2

/-- Reset causes (12.1); 0 before the end of power-on initialisation. -/
def causeCode : Option ResetCause → Nat
  | none => 0
  | some .powerOn => 1
  | some .restart => 2

/-- The strand byte of a record: 0 where there is no strand (R187). -/
def strandCode : Option Strand → Nat
  | none => 0
  | some n => n.num

/-- A signed deviation field, or its absent marker 0x80000000 (R188). -/
def optInt : Option Int → List Byte
  | none => leBytes 4 0x80000000
  | some d => leInt d

/-- Bits given as a number, the first the least significant. -/
def bitsCode : List Bool → Nat
  | [] => 0
  | b :: bs => b.toNat + 2 * bitsCode bs

/-! ## Records (12.3) -/

/-- The length of a record (R187). -/
def Record.length : Record → Nat
  | .incident _ => 32
  | .run _ => 72
  | .piece p => 48 + 8 * p.keeps.length + 16 * p.features.length + 32 * p.segments.length

/-- The common header (R187): kind, strand, length. -/
def recordHeader (kind strand length : Nat) : List Byte := leBytes 1 kind ++ leBytes 1 strand ++ leBytes 2 length

/-- An INCIDENT record. -/
def incidentBytes (r : Incident) : List Byte :=
  recordHeader 3 (strandCode r.strand) 32 ++ leBytes 2 r.kind.code ++ leBytes 2 r.code ++ leBytes 2 r.repeats ++
    leBytes 2 r.lost ++ leBytes 4 r.coordinate ++ leBytes 4 r.time.toNat ++ leBytes 4 r.detail ++ leBytes 8 0

/-- The fields of one strand in a RUN record; an absent nose is 0xFFFFFFFF (R188). -/
def runStrandBytes (r : RunStrand) : List Byte :=
  leBytes 4 (r.nose.getD 0xFFFFFFFF) ++ leBytes 4 r.frontier ++ leBytes 4 r.pieces

/-- A RUN record. -/
def runBytes (r : RunRecord) : List Byte :=
  recordHeader 2 0 72 ++ leBytes 1 r.event.code ++ leBytes 1 r.index.val ++ leBytes 1 r.edition ++ leBytes 1 (maskCode r.mask) ++
    leBytes 4 r.runId.toNat ++ leBytes 2 r.recipeId ++ leBytes 2 r.billets ++ leBytes 4 r.time.toNat ++ leBytes 4 0 ++
    (runStrandBytes r.strands.one ++ runStrandBytes r.strands.two ++ runStrandBytes r.strands.three ++
      runStrandBytes r.strands.four)

/-- One keep span entry. -/
def keepBytes (p : Nat × Nat) : List Byte := leBytes 4 p.1 ++ leBytes 4 p.2

/-- One feature summary entry; its counts are held at 65,535 (R188). -/
def summaryBytes (f : FeatureSummary) : List Byte :=
  optInt f.least ++ optInt f.greatest ++ optInt f.mean ++ leBytes 2 (min f.outCount 65535) ++ leBytes 2 (min f.guardCount 65535)

/-- The flags byte of a segment entry. -/
def segFlagsCode (g : SegEntry) : Nat :=
  bitsCode [g.flags.merged, g.flags.split, g.thermal, g.flags.markLate, g.flags.markMissed, g.flags.rescan, g.flags.tail]

/-- The overlay class byte; 0xFF is NONE (R188). -/
def overlayCode : Option ZoneClass → Nat
  | none => 0xFF
  | some z => z.severity

/-- One segment entry. -/
def segEntryBytes (g : SegEntry) : List Byte :=
  leBytes 4 g.start ++ leBytes 4 g.stop ++ leBytes 1 g.dim.severity ++ leBytes 1 (overlayCode g.overlay) ++
    leBytes 1 g.cls.severity ++ leBytes 1 (segFlagsCode g) ++ leBytes 4 g.scans ++ leBytes 1 g.index.val ++
    leBytes 1 g.edition ++ leBytes 2 g.worst ++ leBytes 2 (g.tempMean.getD 0xFFFF) ++ leBytes 2 g.worstExcursion ++
    optInt g.worstLeast ++ optInt g.worstGreatest

/-- The flags byte of a PIECE record. -/
def pieceFlagsCode (p : PieceRecord) : Nat := bitsCode [p.isFinal, p.joined, p.hasMerged, p.hasSplit, p.tolerated]

/-- The fixed part of a PIECE record, 48 bytes. -/
def pieceFixedBytes (p : PieceRecord) : List Byte :=
  recordHeader 1 p.strand.num (Record.length (.piece p)) ++ leBytes 4 p.runId.toNat ++ leBytes 4 p.number ++
    leBytes 4 p.time.toNat ++ leBytes 4 p.start ++ leBytes 4 p.stop ++ leBytes 2 p.recipeId ++ leBytes 1 p.index.val ++
    leBytes 1 p.edition ++ leBytes 1 p.verdict.code ++ leBytes 1 (pieceFlagsCode p) ++ leBytes 1 p.keeps.length ++
    leBytes 1 p.features.length ++ leBytes 2 p.segments.length ++ leBytes 14 0

/-- A PIECE record. -/
def pieceBytes (p : PieceRecord) : List Byte :=
  pieceFixedBytes p ++
    (p.keeps.flatMap keepBytes ++ (p.features.flatMap summaryBytes ++ p.segments.flatMap segEntryBytes))

/-- The bytes of a record. -/
def Record.bytes : Record → List Byte
  | .incident r => incidentBytes r
  | .run r => runBytes r
  | .piece p => pieceBytes p

/-- A RUN record with event CLOSED or ABANDONED closes its page (R178). -/
def Record.closesPage : Record → Bool
  | .run r => r.event == .closed || r.event == .abandoned
  | .piece _ => false
  | .incident _ => false

/-! ## Page headers (12.3) -/

/-- The header of a report page. -/
def headerBytes (state : PageState) (truncated : Bool) (f : Filling) : List Byte :=
  leBytes 4 state.code ++ leBytes 4 truncated.toNat ++ leBytes 8 f.serial.toNat ++ leBytes 4 f.count ++ leBytes 4 f.used ++
    leBytes 4 f.first.toNat ++ leBytes 4 f.last.toNat

/-! ## The status block (12.1) -/

/-- One strand entry of the status block. -/
def shownStrandBytes (t : ShownStrand) : List Byte :=
  leBytes 1 t.track.code ++ leBytes 1 t.motion.code ++ leBytes 2 t.confirmed.severity ++ leBytes 4 t.hw ++
    leBytes 4 t.frontier ++ leInt t.speed ++ leBytes 2 t.temp ++ leBytes 1 t.segments ++ leBytes 1 t.zones ++
    leBytes 1 t.marks ++ leBytes 1 t.cuts ++ leBytes 10 0

/-- The assigned bytes of the status block, offsets 0 to 191; the rest of its 4,096 bytes is zero. -/
def statusBytes (seq time : Word32) (w : Shown) : List Byte :=
  leBytes 4 w.ident.toNat ++ leBytes 4 seq.toNat ++ leBytes 4 time.toNat ++ leBytes 1 (causeCode w.cause) ++
    leBytes 3 w.runState.code ++ leBytes 4 w.restarts.toNat ++ leBytes 4 w.runId.toNat ++ leBytes 4 w.lastRefused.toNat ++
    leBytes 1 w.depth ++ leBytes 1 w.freePages ++ leBytes 2 w.lost ++ leBytes 32 0 ++
    (shownStrandBytes w.strands.one ++ shownStrandBytes w.strands.two ++ shownStrandBytes w.strands.three ++
      shownStrandBytes w.strands.four)

end Sys2Proof.Machine
end

