-- ==== Sys2Proof/Machine/Report.lean ====
section
/-! DEFINITION. The report unit (chapter 11, R14): the status block, the holding queue and the report pages. -/

namespace Sys2Proof.Machine

/-! ## The status block (R14, R184) -/

/-- What the status block would show of a strand now; speed and high-water coordinate stand as the last window handed them. -/
def StrandState.shown (st : StrandState) (old : ShownStrand) : ShownStrand :=
  { track := st.track, motion := st.chan.motion, confirmed := st.eval.confirmed, hw := old.hw, frontier := st.map.frontier,
    speed := old.speed, temp := st.eval.resolved, segments := st.map.count, zones := st.fore.zones.length,
    marks := st.marker.queue.length, cuts := st.cuts.pending.length }

/-- The count of FREE report pages. -/
def State.freePages (s : State) : Nat := s.xp.pages.toList.countP (· == .free)

/-- What the status block would show now. -/
def State.shownNow (s : State) : Shown :=
  { s.report.shown with
    runState := s.run.state, runId := s.run.runId, depth := s.report.queue.length, freePages := s.freePages,
    lost := s.report.lost,
    strands := Four.build (fun n => (s.strand n).shown (s.report.shown.strands.get n)) }

/-- The status block's bytes are stored. -/
def State.storeStatus (s : State) : State :=
  { s with xp := { s.xp with mem := s.xp.mem.write 0 (statusBytes s.report.updateSeq s.report.updateTime s.report.shown) } }

/-- One rewrite of the status block: the update sequence is incremented before and after the fields and the update time (R14). -/
def State.putStatus (s : State) (w : Shown) : State :=
  State.storeStatus
    { s with report := { s.report with updateSeq := s.report.updateSeq + 2#32, updateTime := s.time, shown := w } }

/-- The block is rewritten where a value it shows has changed (R14). -/
def State.showIfChanged (s : State) (w : Shown) : State := if w = s.report.shown then s else s.putStatus w

/-- The end of every event: a backlog that begins is noted, and the status block is kept current (R14, R182, log 7). -/
def State.settle (s : State) : State :=
  let s := s.noteBacklog
  s.showIfChanged s.shownNow

/-! ## Pages (11.2) -/

/-- A report page changes its state: the port's copy; the state word is stored with the header (R7). -/
def State.setPage (s : State) (p : Fin 54) (t : PageState) : State :=
  { s with xp := { s.xp with pages := s.xp.pages.set p t } }

/-- The header of the FILLING page is stored. -/
def State.storeHeader (s : State) (state : PageState) (truncated : Bool) (f : Filling) : State :=
  { s with xp := { s.xp with mem := s.xp.mem.write (pageBase f.page.val) (headerBytes state truncated f) } }

/-- The FILLING page closes (R179); TRUNCATED is set by a part restart (R185). -/
def State.closePage (s : State) (f : Filling) (truncated : Bool) : State :=
  let s1 := (s.storeHeader .closed truncated f).setPage f.page .closed
  State.setReason { s1 with report := { s1.report with fill := none } } .page

/-- The header after a record of a length is written at a part time (R178). -/
def Filling.grow (f : Filling) (length : Nat) (time : Word32) : Filling :=
  { f with count := f.count + 1, used := f.used + length, first := if f.count = 0 then time else f.first, last := time }

/-- A record that fits is written into the FILLING page and leaves the queue; a RUN record CLOSED or ABANDONED closes the page
(R178). -/
def State.writeRecord (s : State) (f : Filling) (r : Record) (rest : List Record) : State :=
  let f' := f.grow r.length s.time
  let s1 := { s with
    xp := { s.xp with mem := s.xp.mem.write (pageBase f.page.val + 64 + f.used) r.bytes }
    report := { s.report with queue := rest, fill := some f' } }
  let s2 := s1.storeHeader .filling false f'
  if r.closesPage then s2.closePage f' false else s2

/-- The head record is written, or the page closes FULL (R178). -/
def State.writeHead (s : State) : State :=
  match s.report.fill, s.report.queue with
  | some f, r :: rest => if f.used + r.length ≤ Config.recordArea then s.writeRecord f r rest else s.closePage f false
  | _, _ => s

/-- The order in which the report unit looks for a FREE page: cursor + 1 on, the cursor last (R177). -/
def pageOrder (cursor : Fin 54) : List (Fin 54) := (List.range 54).map (fun i => Fin.ofNat 54 (cursor.val + 1 + i))

/-- The next FREE page (R177). -/
def State.nextFree (s : State) : Option (Fin 54) := (pageOrder s.report.cursor).find? (fun p => s.xp.pages.get p == .free)

/-- The serial after an opening; free where the counter stands at its greatest value (log 14). -/
def State.nextSerial (s : State) : Word64 :=
  if s.report.serial = BitVec.allOnes 64 then Config.serialPast s.clock else s.report.serial + 1#64

/-- The linger timer's start at an opening: none with page linger 0 or no station (R180). -/
def State.lingerStart (s : State) : Option Nat :=
  s.run.station.bind (fun t => if 0 < t.linger then some s.clock else none)

/-- A FREE page is opened (R177). -/
def State.openPage (s : State) (p : Fin 54) : State :=
  let f : Filling := { page := p, serial := s.nextSerial, count := 0, used := 0, first := 0#32, last := 0#32,
                       linger := s.lingerStart }
  let s1 := { s with
    xp := { s.xp with mem := s.xp.mem.clear (pageBase p.val) 8192 }
    report := { s.report with serial := f.serial, cursor := p, fill := some f } }
  ((s1.storeHeader .filling false f).setPage p .filling).writeHead

/-- Has the linger timer's time passed (R180)? -/
def State.lingerOver (s : State) (f : Filling) : Bool :=
  f.linger.elim false (fun t => s.run.station.elim false (fun st => t + st.linger ≤ s.clock))

/-! ## The holding queue (11.1) -/

/-- The queue holds fewer than 8 records (R175). -/
def State.queueRoom (s : State) : Bool := s.report.queue.length < Config.holdingRecords

/-- A record enters the queue at the tail (R175). -/
def State.enqueue (s : State) (r : Record) : State :=
  { s with report := { s.report with queue := s.report.queue ++ [r] } }

/-- Is a record an INCIDENT of the same kind and strand (R176)? -/
def Record.sameIncident (i : Incident) : Record → Bool
  | .incident j => j.kind == i.kind && j.strand == i.strand
  | .run _ => false
  | .piece _ => false

/-- A repeat is counted on a record, held at 65,535 (R176). -/
def Record.bump : Record → Record
  | .incident j => .incident { j with repeats := min (j.repeats + 1) 65535 }
  | .run r => .run r
  | .piece p => .piece p

/-- A repeat is counted on the first record of the same kind and strand. -/
def bumpFirst (i : Incident) : List Record → List Record
  | [] => []
  | r :: rs => if r.sameIncident i then r.bump :: rs else r :: bumpFirst i rs

/-- An incident reaches the report unit: repeat, entry, or drop (R176). -/
def State.arriveIncident (s : State) (i : Incident) : State :=
  if s.report.queue.any (Record.sameIncident i) then
    { s with report := { s.report with queue := bumpFirst i s.report.queue } }
  else if s.queueRoom then
    let s1 := s.enqueue (.incident { i with repeats := 0, lost := s.report.lost })
    State.setReason { s1 with report := { s1.report with lost := 0 } } .incident
  else { s with report := { s.report with lost := min (s.report.lost + 1) 65535 } }

/-- The oldest incident a block raised, and the others. -/
def takeRaised (raiser : Raiser) : List Incident → Option (Incident × List Incident)
  | [] => none
  | i :: is =>
    if i.kind.raiser = raiser then some (i, is)
    else (takeRaised raiser is).map (fun p => (p.1, i :: p.2))

end Sys2Proof.Machine
end

