-- ==== Sys2Proof/Machine/Orders.lean ====
section
/-! DEFINITION. The order unit (1.5): answering the order in hand, searching the board, and carrying out an order at its owning
block; the meaning of ORDER_SEARCH. -/

namespace Sys2Proof.Machine

/-! ## The board -/

/-- A cell changes its state: the stored word and the port's copy together (R7). -/
def State.setCell (s : State) (i : Fin 32) (t : CellState) : State :=
  { s with xp := { s.xp with
    mem := s.xp.mem.write (cellBase i.val) (leBytes 4 t.code)
    cells := s.xp.cells.set i t } }

/-- The bytes of an answer: result, detail, answer tag and answer time (R13). -/
def answerBytes (o : Order) (a : Answer) (time : Word32) : List Byte :=
  leBytes 4 a.result ++ leBytes 4 a.detail ++ leBytes 4 o.tag.toNat ++ leBytes 4 time.toNat

/-- The order unit answers the order in hand in the cell it took, and discards it; a search is due (R13). -/
def State.answer (s : State) (o : Order) (a : Answer) : State :=
  let s1 := { s with
    xp := { s.xp with mem := s.xp.mem.write (cellBase o.cell.val + 64) (answerBytes o a s.time) }
    orders := { s.orders with hand := none, searchDue := true } }
  State.setReason (s1.setCell o.cell .answered) .answer

/-- The result of the order in hand is known: it is answered in the same event, or the answer is still to be written (R13, log 31). -/
def State.conclude (s : State) (o : Order) (a : Answer) (answered : Bool) : State :=
  if answered then s.answer o a
  else { s with orders := { s.orders with hand := some { o with waiting := false, result := some a } } }

/-- The order of a search: last-taken + 1 on, wrapping once, the last-taken cell last (R11). -/
def searchOrder (last : Fin 32) : List (Fin 32) := (List.range 32).map (fun i => Fin.ofNat 32 (last.val + 1 + i))

/-- The first POSTED cell among the next `cells` cells of a search that has looked at `k` cells (R11). -/
def State.postedCell (s : State) (k cells : Nat) : Option (Fin 32) :=
  (((searchOrder s.orders.lastTaken).drop k).take cells).find? (fun i => s.xp.cells.get i == .posted)

/-- A POSTED cell is taken, which ends the search (R11); where the order unit's own checks fail its result is known (R12). -/
def State.takeCell (s : State) (i : Fin 32) (answered : Bool) : State :=
  let o := readOrder s.xp.mem i
  let s1 := State.setCell { s with orders := { s.orders with search := none, lastTaken := i, hand := some o } } i .taken
  match unitAnswer o with
  | none => s1
  | some a => s1.conclude o a answered

/-- A search that has looked at `k` cells looks at the next `cells` of them: it takes the first POSTED one, ends after cell 32, or else
goes on later (R11, log 8). -/
def State.search (s : State) (k cells : Nat) (answered : Bool) : State :=
  match s.postedCell k cells with
  | some i => s.takeCell i answered
  | none => { s with orders := { s.orders with search := if k + cells < 32 then some (k + cells) else none } }

/-- The order unit, IDLE, goes on with the search under way. Otherwise it starts one: after an answer, or from the attention flag,
which it clears first (R11). The flag may be set again between the commands of one search (R10, R11). -/
def State.searchBoard (s : State) (cells : Nat) (answered : Bool) : State :=
  match s.orders.search with
  | some k => s.search k cells answered
  | none =>
    if s.orders.searchDue then State.search { s with orders := { s.orders with searchDue := false } } 0 cells answered
    else if s.orders.attention then State.search { s with orders := { s.orders with attention := false } } 0 cells answered
    else s

/-- The order unit answers the order in hand once its result is known; with no order in hand it searches (R11, R13). -/
def State.orderUnit (s : State) (cells : Nat) (answered : Bool) : State :=
  if s.ready then
    match s.orders.hand with
    | none => s.searchBoard cells answered
    | some o =>
      match o.result with
      | none => s
      | some a => s.answer o a
  else s

/-! ## Orders at their owning blocks -/

/-- An order of a kind that is in hand, its result not yet known, is carried out, its checks and effect as one event (R12); otherwise
nothing happens (log 1). The answer is written in the same event or in a later one (R13). A part restart between the two answers it
ABORTED with the effect taken; one before it, with none (R16, R24, R31, R51, log 31). -/
def State.carryOut (s : State) (answered : Bool) (kind : Nat) (effect : State → Order → State × Answer) : State :=
  match s.orders.hand with
  | none => s
  | some o =>
    if o.kind = kind ∧ o.result = none then
      let r := effect s o
      r.1.conclude o r.2 answered
    else s

/-- The order in hand waits at the run controller (R49). -/
def State.holdOrder (s : State) (kind : Nat) : State :=
  match s.orders.hand with
  | none => s
  | some o =>
    if o.kind = kind ∧ o.result = none then { s with orders := { s.orders with hand := some { o with waiting := true } } } else s

/-- An order that forms a run record waits while the run record slot is full, unchecked and unanswered (R49). The model's choice, log 40:
ARM RUN and ABANDON RUN wait in every run state, an ABANDON RUN in IDLE too, which R33 answers NO_RUN and which forms no record. -/
def State.carryOutRecorded (s : State) (answered : Bool) (kind : Nat) (effect : State → Order → State × Answer) : State :=
  if s.run.slot.isSome then s.holdOrder kind else s.carryOut answered kind effect

/-! ## Meanings -/

/-- ORDER_SEARCH (R11, R13). -/
def execOrderSearch (s : State) (cells : Nat := 32) (answered : Bool := true) : Host.Outcome State Fault Refusal :=
  .next (s.orderUnit cells answered).settle

end Sys2Proof.Machine
end

