-- ==== Sys2Proof/Machine/Scan.lean ====
section
/-! DEFINITION. Scan evaluation (chapter 6): temperature, validity, thermal correction, deviation, excursion and band, verdict, the
dimensional tracker, and the taking of a scan or a stale notice on a strand (with R37 to R40 of chapter 3). -/

namespace Sys2Proof.Machine

/-! ## Temperature (6.3) -/

/-- Does a reading lie in the strand's temperature band (R92)? -/
def inBand (t : StrandStation) (reading : Nat) : Bool :=
  reading != Config.noReading && t.bandLow ≤ reading && reading ≤ t.bandHigh

/-- The outcome of step 3: the resolved temperature, whether the scan is thermal-assumed, and the state after (R92). -/
structure Resolved where
  temp : Nat
  assumed : Bool
  eval : Evaluator
deriving DecidableEq, Repr

/-- Step 3 (R92, R93): the reading in the band, the last valid temperature held, or the default exit temperature. -/
def Evaluator.resolve (v : Evaluator) (station : Option StrandStation) (defaultTemp reading : Nat) : Resolved :=
  if station.elim false (fun t => inBand t reading) then
    { temp := reading, assumed := false
      eval := { v with lastValid := some reading, hold := 0, episode := false, resolved := reading } }
  else
    let assume' : Resolved := { temp := defaultTemp, assumed := true, eval := { v with episode := true, resolved := defaultTemp } }
    match v.lastValid with
    | none => assume'
    | some last =>
      if v.hold < station.elim 0 (·.thermalHold) then
        { temp := last, assumed := false, eval := { v with hold := v.hold + 1, resolved := last } }
      else assume'

/-! ## Features (6.4) -/

/-- Is a feature valid for a scan (R94)? -/
def featureValid (sc : Scan) (f : Feature) (r : Option Reading) : Option Nat :=
  match r with
  | none => none
  | some r => if r.value ≤ 999999 ∧ f.minConfidence ≤ r.confidence ∧ sc.laserFault = false then some r.value else none

/-- The valid hot values of a scan for the features of its recipe (R94). -/
def validValues (sc : Scan) (r : Recipe) : List (Option Nat) := List.zipWith (featureValid sc) r.features sc.feats

/-- The cold value (R95). -/
def coldValue (hot alpha temp : Nat) : Nat := roundHalfUp (hot * 100000000) (100000000 + alpha * (temp - 20))

/-- The deviation, saturated (R96). -/
def deviation (cold nominal : Nat) : Int :=
  max (-Config.maxDeviation) (min ((cold : Int) - nominal) Config.maxDeviation)

/-- The excursion in per-mille of the tolerance on the deviation's side (R97). -/
def excursion (d : Int) (lower upper : Nat) : Nat :=
  min (if 0 ≤ d then roundHalfUp (d.natAbs * 1000) upper else roundHalfUp (d.natAbs * 1000) lower) 9999

/-- The band of a deviation (R97). -/
def bandOf (d : Int) (f : Feature) : Band :=
  if (f.upper : Int) < d ∨ d < -(f.lower : Int) then .outside
  else if f.guardPercent * 10 < excursion d f.lower f.upper then .guarded
  else .inside

/-- Steps 5 to 7 for one valid feature: its deviation and band. -/
def gradeFeature (alpha temp : Nat) (f : Feature) (hot : Option Nat) : Option (Int × Band) :=
  hot.map fun v =>
    let d := deviation (coldValue v alpha temp) f.nominal
    (d, bandOf d f)

/-- A list of feature results over the indexes 1 to 24: features beyond n are ignored (R91). -/
def padFeatures {α : Type} (xs : List (Option α)) : List (Option α) := (xs ++ List.replicate 24 none).take 24

/-- Steps 4 to 7: the deviation and band of each valid feature, over the indexes 1 to 24. -/
def gradeScan (sc : Scan) (r : Recipe) (temp : Nat) : List (Option (Int × Band)) :=
  padFeatures (List.zipWith (gradeFeature r.alpha temp) r.features (validValues sc r))

/-- Step 8: the dimensional state of a scan from its graded features (R98). -/
def scanState (feats : List (Option (Int × Band))) : DimClass :=
  if feats.all Option.isNone then .unmeasured
  else if feats.any (fun f => f.elim false (fun p => p.2 == .outside)) then .offGauge
  else .sound

/-! ## The dimensional tracker (6.5) -/

/-- The threshold of a candidate's state (6.5). -/
def Recipe.threshold (r : Recipe) : DimClass → Nat
  | .sound => r.inConfirm
  | .offGauge => r.outConfirm
  | .unmeasured => r.blindConfirm

/-- The open segment with its statistics changed. -/
def StrandState.onOpen (st : StrandState) (f : SegBody → SegBody) : StrandState :=
  { st with map := { st.map with cur := st.map.cur.map f } }

/-- The side accumulator, if any, is folded into the open segment and the candidate becomes none. -/
def StrandState.dropCandidate (st : StrandState) : StrandState :=
  match st.eval.candidate with
  | none => st
  | some c =>
    StrandState.onOpen { st with eval := { st.eval with candidate := none } } (fun b => { b with stats := b.stats.add c.side })

/-- A scan is folded into the open segment (R104). -/
def StrandState.foldOpen (st : StrandState) (c : Contribution) : StrandState :=
  st.onOpen (fun b => { b with stats := b.stats.fold c })

/-- Confirmation of a candidate at its start coordinate, raised to the open segment's start (R100, R136). `made` are the coordinates of
the boundaries this taking has made: at one of them the confirmation has made one boundary with them, and only its side accumulator
is left to fold (R129). -/
def StrandState.confirm (st : StrandState) (e : Env) (n : Strand) (made : List Nat) (c : Candidate) : StrandState :=
  let st' := { st with eval := { st.eval with confirmed := c.state, candidate := none } }
  let y := st.confirmationAt c.start
  if made.contains y then st'.onOpen (fun b => { b with stats := b.stats.add c.side })
  else st'.boundary e n y c.state c.side [.confirmation]

/-- A candidate as it stands after a scan: confirmed where its count has reached the threshold (R99). -/
def StrandState.holdCandidate (st : StrandState) (e : Env) (n : Strand) (made : List Nat) (c : Candidate) : StrandState :=
  if (e.recipe st).threshold c.state ≤ c.count then st.confirm e n made c
  else { st with eval := { st.eval with candidate := some c } }

/-- Step 9 for a scan at x with dimensional state s (R99), in a taking that has made boundaries at `made`. -/
def StrandState.track9 (st : StrandState) (e : Env) (n : Strand) (x : Nat) (s : DimClass) (c : Contribution)
    (made : List Nat := []) : StrandState :=
  if s = st.eval.confirmed then st.dropCandidate.foldOpen c
  else
    match st.eval.candidate with
    | some k =>
      if s = k.state then st.holdCandidate e n made { k with count := k.count + 1, side := k.side.fold c }
      else
        st.dropCandidate.holdCandidate e n made { state := s, count := 1, start := x, side := Stats.fold ({} : Stats) c }
    | none => st.holdCandidate e n made { state := s, count := 1, start := x, side := Stats.fold ({} : Stats) c }

/-- Does step 9 of a scan at x with dimensional state s come to a confirmation, and of what, from which start (R99)? -/
def StrandState.confirming (st : StrandState) (e : Env) (x : Nat) (s : DimClass) : Confirming :=
  let k : Nat × Nat :=
    match st.eval.candidate with
    | some k => if s = k.state then (k.count + 1, k.start) else (1, x)
    | none => (1, x)
  if s ≠ st.eval.confirmed ∧ (e.recipe st).threshold s ≤ k.1 then some (s, k.2) else none

/-! ## Material scans: steps 3 to 9 -/

/-- The dimensional state that steps 3 to 8 give a scan with MATERIAL (R92 to R98). -/
def StrandState.stateOf (st : StrandState) (e : Env) (n : Strand) (sc : Scan) : DimClass :=
  let r := e.recipe st
  scanState (gradeScan sc r (st.eval.resolve (e.strand n) r.defaultTemp sc.temp).temp)

/-- Steps 3 to 9 of a scan with MATERIAL at x (R92 to R99), in a taking that has made boundaries at `made`. -/
def StrandState.measure (st : StrandState) (e : Env) (n : Strand) (x : Nat) (sc : Scan) (made : List Nat := []) : StrandState :=
  let r := e.recipe st
  let t := st.eval.resolve (e.strand n) r.defaultTemp sc.temp
  let opens := t.assumed && !st.eval.episode
  let st1 := { st with eval := t.eval }
  let st2 := if opens then st1.raise e n .thermalDefault 0 x sc.temp else st1
  let feats := gradeScan sc r t.temp
  st2.track9 e n x (scanState feats) { temp := t.temp, thermal := t.assumed, feats := feats } made

/-- The contribution of a no-material scan: the last resolved temperature, no feature (R90, R104). -/
def StrandState.blindContribution (st : StrandState) : Contribution :=
  { temp := st.eval.resolved, thermal := false, feats := List.replicate 24 none }

/-! ## Nose, tail and resumption (3.3) -/

/-- A scan that passes step 1 at x on a WAITING strand: the frontier moves, a switch is passed, zones are reached (R89, R43, R121). -/
def StrandState.waitAt (st : StrandState) (x : Nat) : StrandState :=
  StrandState.passSwitch { st with map := { st.map with frontier := x }, fore := st.fore.advance x } x

/-- The nose is made at x (R37): the map opens, the last cut is the nose, the strand becomes TRACKING. -/
def StrandState.makeNose (st : StrandState) (e : Env) (n : Strand) (x : Nat) : StrandState :=
  let st1 := { st with
    eval := { st.eval with confirmed := .sound, candidate := none }
    track := .tracking
    tailCount := 0
    cuts := { st.cuts with lastCut := some x } }
  let st2 := { st1 with map := { st1.map with nose := some x, cur := some (st1.newSegment e x .sound {}) } }
  (st2.judgeMark e n x x).startStale e n

/-- A scan on a WAITING strand (R37, R90). -/
def StrandState.scanWaiting (st : StrandState) (e : Env) (n : Strand) (x : Nat) (sc : Scan) : StrandState :=
  let st1 := st.waitAt x
  if sc.material && (validValues sc (e.recipe st1)).any Option.isSome then
    StrandState.measure { st1.makeNose e n x with lastMaterial := x } e n x sc
  else st1

/-- The tail is confirmed by a no-material scan (R38, R90, R132). -/
def StrandState.confirmTail (st : StrandState) (e : Env) (n : Strand) : StrandState :=
  let st1 := st.dropCandidate.foldOpen st.blindContribution
  match st1.map.cur with
  | none => st1
  | some cur =>
    let tail := max st.lastMaterial cur.start
    let last : Segment := { body := { cur with flags := { cur.flags with tail := true } }, stop := tail }
    let st2 := { st1 with
      map := { st1.map with
        closed := st1.map.closed ++ [last]
        cur := none
        frontier := tail
        tail := some tail }
      fore := { st1.fore with classBoundary := none } }
    let st3 := st2.endMark e n tail
    let st4 := { st3 with
      recipe := st3.switch.elim st3.recipe (fun w => some w.entry)
      switch := none
      track := .tailed }
    st4.disarmStale

/-- Does a no-material scan confirm the tail (R38)? -/
def StrandState.tailReached (st : StrandState) (e : Env) (n : Strand) : Bool :=
  (e.strand n).elim 0 (·.tailConfirm) ≤ st.tailCount + 1

/-- A no-material scan on a TRACKING strand, after the boundaries at or below x, which were made at `made` (R38, R90). -/
def StrandState.scanBlind (st : StrandState) (e : Env) (n : Strand) (x : Nat) (made : List Nat) : StrandState :=
  let st1 : StrandState := { st with tailCount := st.tailCount + 1 }
  if st.tailReached e n then st1.confirmTail e n
  else st1.track9 e n x .unmeasured st1.blindContribution made

/-- A scan on a TRACKING strand (R90, R130). -/
def StrandState.scanTracking (st : StrandState) (e : Env) (n : Strand) (x : Nat) (sc : Scan) : StrandState :=
  let st0 := st.moveFrontier x
  let made := st0.offeredUpTo (st.switchBoundary x) x
  if sc.material then
    let st1 := st.advanceMap e n x (st0.confirming e x (st0.stateOf e n sc))
    StrandState.measure { st1 with tailCount := 0, lastMaterial := x } e n x sc made
  else
    let st1 := st.advanceMap e n x (if st.tailReached e n then none else st0.confirming e x .unmeasured)
    st1.scanBlind e n x made

/-- A material scan resumes a TAILED strand (R40, R103, R133). A confirmation by the resuming scan at the tail coordinate itself makes
one boundary with the resumption (R129). -/
def StrandState.scanResuming (st : StrandState) (e : Env) (n : Strand) (x : Nat) (sc : Scan) : StrandState :=
  let t := st.map.tail.getD st.map.frontier
  let st1 := { st with
    track := .tracking
    tailCount := 0
    lastMaterial := x
    eval := { st.eval with confirmed := .unmeasured, candidate := none } }
  let conf := (st1.moveFrontier x).confirming e x ((st1.moveFrontier x).stateOf e n sc)
  let gap := if x = t then conf.elim .unmeasured (·.1) else .unmeasured
  let st2 := st1.resumeMap e n t gap
  let made := t :: (st2.moveFrontier x).offeredUpTo (st2.switchBoundary x) x
  let st3 := (st2.advanceMap e n x conf).startStale e n
  (st3.measure e n x sc made).raise e n .materialResumed 0 t x

/-! ## The taking (R87 to R90, R102) -/

/-- RESCAN is set on the open segment of a TRACKING strand (R89). -/
def StrandState.flagRescan (st : StrandState) : StrandState :=
  st.onOpen (fun b => { b with flags := { b.flags with rescan := true } })

/-- Step 1: is a scan a rescan or late (R89)? -/
def StrandState.isRescan (st : StrandState) (sc : Scan) : Bool := sc.stamp < sc.hw || sc.stamp < st.map.frontier

/-- The taking of a scan on its strand (R87 to R90). -/
def StrandState.takeScan (st : StrandState) (e : Env) (n : Strand) (sc : Scan) : StrandState :=
  match st.track with
  | .off => st
  | .waiting => if st.isRescan sc then st else st.scanWaiting e n sc.stamp sc
  | .tracking => if st.isRescan sc then st.flagRescan else st.scanTracking e n sc.stamp sc
  | .tailed => if st.isRescan sc || !sc.material then st else st.scanResuming e n sc.stamp sc

/-- The taking of a stale notice on a strand (R88, R102). -/
def StrandState.takeNotice (st : StrandState) (e : Env) (n : Strand) : StrandState :=
  if st.track ≠ .tracking then st
  else
    let st1 := st.dropCandidate
    if st.eval.confirmed = .unmeasured then st1
    else
      StrandState.boundary { st1 with eval := { st1.eval with confirmed := .unmeasured } } e n st1.map.frontier .unmeasured {} [.notice]

end Sys2Proof.Machine
end

