-- ==== Sys2Proof/Machine/Pieces.lean ====
section
/-! DEFINITION. The piece builder on one strand (chapter 9): judging and accepting cuts, and forming a piece's record. -/

namespace Sys2Proof.Machine

/-! ## Cuts (9.1, 9.2) -/

/-- The sources of a cut (R150). -/
inductive CutSource where
  | saw | soft | final
deriving DecidableEq, Repr

/-- The source's code (R150). -/
def CutSource.code : CutSource → Nat
  | .saw => 1
  | .soft => 2
  | .final => 3

/-- The newest cut: the newest pending cut's coordinate, or the last cut (9). -/
def Cutter.newest (c : Cutter) : Option Nat :=
  match c.pending.getLast? with
  | some p => some p.coord
  | none => c.lastCut

/-- The verdict copy (R152). -/
def verdictCopy (e : Env) (st : StrandState) : VerdictCopy :=
  let r := e.recipe st
  { index := st.index, recipeId := r.id, edition := r.edition,
    tolerances := r.features.map (fun f => { lower := f.lower, upper := f.upper }),
    minUsable := r.minUsable, tolerate := r.tolerate }

/-- The map is divided at c and the cut enters the list with the closed segments that belong to it (R151 steps 2 and 3, R139). -/
def StrandState.appendCut (st : StrandState) (e : Env) (n : Strand) (c : Nat) (isFinal joined : Bool) (copy : VerdictCopy) :
    StrandState :=
  let place := st.cutPlace c
  let st1 := st.divideMap e n c
  let segs := st1.map.closed.countP (fun g => g.stop ≤ c) - heldSegs st1.cuts.pending
  { st1 with cuts := { st1.cuts with pending := st1.cuts.pending ++
      [{ coord := c, isFinal := isFinal, joined := joined, copy := copy, place := place, segs := segs }] } }

/-- The newest pending cut's place is withdrawn and the cut leaves the list (R138, R153 step 1). -/
def StrandState.withdrawNewest (st : StrandState) (e : Env) (n : Strand) (p : PendingCut) : StrandState :=
  let st1 := if p.place = .used then st.joinAt e n (heldSegs st.cuts.pending) p.coord else st
  { st1 with cuts := { st1.cuts with pending := st1.cuts.pending.dropLast } }

/-- An accepted cut (R151, R153). -/
def StrandState.acceptCut (st : StrandState) (e : Env) (n : Strand) (source : CutSource) (c : Nat) : StrandState :=
  let copy := verdictCopy e st
  let isFinal := source == .final
  if st.cuts.pending.length < Config.pendingCuts then st.appendCut e n c isFinal false copy
  else
    match st.cuts.pending.getLast? with
    | none => st
    | some p =>
      ((st.withdrawNewest e n p).appendCut e n c (p.isFinal || isFinal) true copy).raise e n .joined source.code c p.coord

/-- A cut at or below the newest cut. -/
def Cutter.atOrBelowNewest (k : Cutter) (c : Nat) : Bool := k.newest.elim false (fun w => c ≤ w)

/-- A cut formed by a saw or SOFT CUT is judged (R150). -/
def StrandState.judgeCut (st : StrandState) (e : Env) (n : Strand) (source : CutSource) (c : Nat) : StrandState :=
  match st.map.nose with
  | none => st
  | some nose =>
    if c ≤ nose then st
    else if st.cuts.atOrBelowNewest c then st.raise e n .sawOrder source.code c (st.cuts.newest.getD 0)
    else
      match st.track, st.map.tail with
      | .tailed, some t =>
        if t < c then
          if st.cuts.atOrBelowNewest t then st.raise e n .cutEmpty source.code t c else st.acceptCut e n source t
        else st.acceptCut e n source c
      | _, _ => st.acceptCut e n source c

/-- A cut at a capture or high-water coordinate less S; none where it lies below S (R148, R149). -/
def StrandState.cutBehind (st : StrandState) (e : Env) (n : Strand) (source : CutSource) (at' : Nat) : StrandState :=
  if at' < e.saw n then st else st.judgeCut e n source (at' - e.saw n)

/-- The newest pending cut is given FINAL (R161). -/
def markFinal : List PendingCut → List PendingCut
  | [] => []
  | [p] => [{ p with isFinal := true }]
  | p :: ps => p :: markFinal ps

/-- The final cut of a TRACKING or TAILED strand at END RUN, at the frontier where it lies beyond the newest cut; otherwise the
newest pending cut is given FINAL (R45, R161). -/
def StrandState.finalCut (st : StrandState) (e : Env) (n : Strand) : StrandState :=
  if st.cuts.atOrBelowNewest st.map.frontier then { st with cuts := { st.cuts with pending := markFinal st.cuts.pending } }
  else st.acceptCut e n .final st.map.frontier

/-! ## Short entries (R157) -/

/-- The greater excursion of a feature's minimum and maximum in a segment (R157). -/
def statExcursion (f : FeatStat) (t : Tolerance) : Nat :=
  max (f.least.elim 0 (fun d => excursion d t.lower t.upper)) (f.greatest.elim 0 (fun d => excursion d t.lower t.upper))

/-- The worst feature from index i on, given the best so far: feature number and excursion; 0 when none has a valid scan. -/
def worstFrom : Nat → Nat × Nat → List Tolerance → List FeatStat → Nat × Nat
  | i, best, t :: ts, f :: fs =>
    let x := statExcursion f t
    worstFrom (i + 1) (if 0 < f.valid ∧ (best.1 = 0 ∨ best.2 < x) then (i, x) else best) ts fs
  | _, best, _, _ => best

/-- The short entry of a segment (R157). -/
def segEntry (copy : VerdictCopy) (g : Segment) : SegEntry :=
  let b := g.body
  let w := worstFrom 1 (0, 0) copy.tolerances b.stats.feats
  let stat := if w.1 = 0 then none else b.stats.feats[w.1 - 1]?
  { start := b.start, stop := g.stop, dim := b.dim, overlay := b.overlay, cls := b.cls, flags := b.flags,
    thermal := b.stats.thermal, scans := b.stats.scans, index := b.index, edition := b.edition,
    tempMean := b.stats.meanTemp, worst := w.1, worstLeast := stat.bind (·.least), worstGreatest := stat.bind (·.greatest),
    worstExcursion := w.2 }

/-- The statistics of a piece: those of its segments joined (R156). -/
def joinedStats (gs : List Segment) : Stats := gs.foldl (fun s g => s.add g.body.stats) {}

/-- One entry of the feature summary (R156). -/
def featureSummary (f : FeatStat) : FeatureSummary :=
  { least := f.least, greatest := f.greatest, mean := f.mean, outCount := f.outCount, guardCount := f.guardCount }

/-! ## Verdicts and keep spans (9.5) -/

/-- Is a segment scrap under an unmeasured policy (R158)? -/
def Segment.scrap (tolerate : Bool) (g : Segment) : Bool :=
  g.body.start < g.stop &&
    match g.body.cls with
    | .sound => false
    | .unmeasured => !tolerate
    | .stopMark | .manual | .offGauge | .weld => true

/-- The clean spans of a piece, given the span that is running (R158). -/
def cleanSpans (tolerate : Bool) : Option (Nat × Nat) → List Segment → List (Nat × Nat)
  | run, [] => run.toList
  | run, g :: gs =>
    if g.stop ≤ g.body.start then cleanSpans tolerate run gs
    else if g.scrap tolerate then run.toList ++ cleanSpans tolerate none gs
    else cleanSpans tolerate (some ((run.elim g.body.start (·.1)), g.stop)) gs

/-- The length of a span. -/
def spanLength (p : Nat × Nat) : Nat := p.2 - p.1

/-- Does a span come before another for a place in the keep list: longer, or as long and earlier (R158)? -/
def spanBefore (p q : Nat × Nat) : Bool := spanLength q < spanLength p || (spanLength p == spanLength q && p.1 < q.1)

/-- The keep list: the usable spans, the best four where there are more, in coordinate order (R158). -/
def keepList (minUsable : Nat) (spans : List (Nat × Nat)) : List (Nat × Nat) :=
  let usable := spans.filter (fun p => minUsable ≤ spanLength p)
  usable.filter (fun p => usable.countP (fun q => spanBefore q p) < 4)

/-- The verdict (R159). -/
def verdictOf (scrap : Bool) (keeps : List (Nat × Nat)) : Verdict :=
  match scrap, keeps.isEmpty with
  | false, false => .accept
  | false, true => .short
  | true, false => .trim
  | true, true => .reject

/-! ## The piece (R155, R156, R160) -/

/-- The piece counter after a build; free where it stands at its greatest value (log 14). -/
def nextPiece (e : Env) (pieces : Nat) : Nat :=
  if pieces < Config.max32 then pieces + 1 else Config.pieceCounterPast e.clock % (Config.max32 + 1)

/-- The PIECE record of a strand's oldest pending cut (R155 to R160). -/
def pieceRecord (e : Env) (n : Strand) (runId : Word32) (st : StrandState) (p : PendingCut) : PieceRecord :=
  let gs := st.map.closed.take p.segs
  let keeps := keepList p.copy.minUsable (cleanSpans p.copy.tolerate none gs)
  { strand := n, runId := runId, number := nextPiece e st.cuts.pieces, time := e.time,
    start := st.cuts.lastCut.getD 0, stop := p.coord,
    recipeId := p.copy.recipeId, index := p.copy.index, edition := p.copy.edition,
    verdict := verdictOf (gs.any (Segment.scrap p.copy.tolerate)) keeps,
    isFinal := p.isFinal, joined := p.joined,
    hasMerged := gs.any (fun g => g.body.flags.merged),
    hasSplit := gs.any (fun g => g.body.flags.split),
    tolerated := p.copy.tolerate && gs.any (fun g => g.body.start < g.stop && g.body.cls == .unmeasured),
    keeps := keeps,
    features := (List.zipWith (fun (_ : Tolerance) f => featureSummary f) p.copy.tolerances (joinedStats gs).feats),
    segments := gs.map (segEntry p.copy) }

/-- The strand after its oldest pending cut's piece is built (R155). -/
def StrandState.afterBuild (st : StrandState) (e : Env) (p : PendingCut) : StrandState :=
  { st with
    map := { st.map with closed := st.map.closed.drop p.segs }
    cuts := { st.cuts with
      lastCut := some p.coord
      pending := st.cuts.pending.tail
      pieces := nextPiece e st.cuts.pieces } }

/-! ## Requests at the marker unit (10.2) -/

/-- Code of a requester (10.2). -/
def requesterCode : Requester → Nat
  | .forecast => 1
  | .map => 2

/-- The marker unit finds a request missed or late: the incident, and the flag at the map unit (R166, R144). -/
def StrandState.reportMark (st : StrandState) (e : Env) (n : Strand) (r : MarkRequest) (missed : Bool) (detail : Nat) :
    StrandState :=
  let st1 := st.raise e n (if missed then .markMissed else .markLate) (requesterCode r.requester) r.on detail
  { st1 with map := st1.map.flagMark (st1.track == .tailed) r.source missed }

/-- The marker unit takes a request (R166, R167, R170). -/
def StrandState.takeRequest (st : StrandState) (e : Env) (n : Strand) (r : MarkRequest) : StrandState :=
  let hw := st.chan.hw
  let place := fun (st : StrandState) =>
    StrandState.serve { st with marker := { st.marker with
      queue := placeInterval e.minimumGap st.marker.queue { on := r.on, off := r.off, floor := 0 } } }
  match r.off with
  | some o =>
    if o ≤ hw then st.reportMark e n r true o
    else if r.on ≤ hw then (place st).reportMark e n r false hw
    else place st
  | none => if r.on ≤ hw then (place st).reportMark e n r false hw else place st

/-- The next request of a requester on its way is taken (R166). A waiting OFF of the map unit is taken first (log 11). -/
def StrandState.takeNextRequest (st : StrandState) (e : Env) (n : Strand) : Requester → StrandState
  | .forecast =>
    match st.foreMail with
    | [] => st
    | r :: rest => StrandState.takeRequest { st with foreMail := rest } e n r
  | .map =>
    match st.mapMail with
    | .request r :: rest => StrandState.takeRequest { st with mapMail := rest } e n r
    | _ => st

/-- The next OFF of the map unit on its way is taken (R169). -/
def StrandState.takeNextOff (st : StrandState) : StrandState :=
  match st.mapMail with
  | .off y :: rest => { st with mapMail := rest, marker := st.marker.close y st.chan.hw }
  | _ => st

end Sys2Proof.Machine
end

