-- ==== Sys2Proof/Machine/Runs.lean ====
section
/-! DEFINITION. The run controller's operations (chapter 3): run records, pins, switch-over, opening, ending and abandoning a run. -/

namespace Sys2Proof.Machine

/-! ## Records, pins, strands -/

/-- The fields of one strand in a RUN record formed now; a strand outside the mask shows an absent nose and zeros (R48). -/
def State.runStrand (s : State) (n : Strand) : RunStrand :=
  if s.inMask n then
    { nose := (s.strand n).map.nose, frontier := (s.strand n).map.frontier, pieces := (s.strand n).cuts.pieces }
  else { nose := none, frontier := 0, pieces := 0 }

/-- The RUN record an event forms now (R48). -/
def State.runRecord (s : State) (event : RunEvent) : RunRecord :=
  let k := s.run.recipe.getD 0
  { event := event, index := k, recipeId := (s.env.entry k).id, edition := (s.env.entry k).edition, mask := s.run.mask,
    runId := s.run.runId, billets := s.run.billets, time := s.time, strands := Four.build s.runStrand }

/-- A RUN record is formed in the run record slot (R49). -/
def State.formRecord (s : State) (event : RunEvent) : State :=
  { s with run := { s.run with slot := some (s.runRecord event) } }

/-- Is a store entry pinned (R28)? A waiting switch-over counts with the pending switches: they pin until the run recipe is the
new entry. -/
def State.pinned (s : State) (k : Fin 8) : Bool :=
  s.run.recipe == some k || s.run.staged == some k || s.run.waitingSwitch == some k ||
    s.strands.list.any (fun st => st.recipe == some k || st.switch.any (fun w => w.entry == k))

/-- The state with the blocks of each run strand changed. -/
def State.onRun (s : State) (f : Strand → StrandState → StrandState) : State :=
  s.onAll (fun n st => if s.inMask n then f n st else st)

/-- Is a run strand MOVING? -/
def State.anyMoving (s : State) : Bool :=
  strandsAscending.any (fun n => s.inMask n && (s.strand n).chan.motion == .moving)

/-! ## Switch-over (R44) -/

/-- The switch-over: the entry becomes the run recipe and a RUN record AMENDED is formed (R44). -/
def State.switchOver (s : State) (k : Fin 8) : State :=
  State.formRecord { s with run := { s.run with recipe := some k, waitingSwitch := none } } .amended

/-- The switch-over takes place, or waits while the run record slot is full (R44). -/
def State.reachSwitchOver (s : State) (k : Fin 8) : State :=
  if s.run.slot.isSome then { s with run := { s.run with waitingSwitch := some k } } else s.switchOver k

/-- A waiting switch-over is made once the slot is empty (R44, R49). -/
def State.waitedSwitchOver (s : State) : State :=
  match s.run.slot, s.run.waitingSwitch with
  | none, some k => s.switchOver k
  | _, _ => s

/-- No strand has a pending switch. -/
def State.noSwitch (s : State) : Bool := s.strands.all (fun st => st.switch.isNone)

/-- An event of a strand; where the strand passes the last pending switch of the run in it, the switch-over follows (R44, log 24). In a
cut event over several strands the record AMENDED is formed before the later strands are cut, and shows their frontiers as they stand
then (R48): the model's choice, log 38. -/
def State.strandEvent (s : State) (n : Strand) (f : StrandState → StrandState) : State :=
  let s' := s.onStrand n f
  match (s.strand n).switch, (s'.strand n).switch with
  | some w, none => if s'.noSwitch then s'.reachSwitchOver w.entry else s'
  | _, _ => s'

/-! ## ARM RUN (R35, R36) -/

/-- Does a mask name only strands that the station holds and the recipe has a hole for (R35)? -/
def State.maskOk (s : State) (mask : Four Bool) (r : Recipe) : Bool :=
  strandsAscending.all (fun n => !mask.get n || ((s.env.strand n).isSome && n.num ≤ r.holes.length))

/-- The checks of ARM RUN in their order (R35). -/
def State.armCheck (s : State) (o : Order) : Option Answer :=
  if s.run.station.isNone then some .noStation
  else if s.run.state ≠ .idle then some .runOpen
  else
    match s.run.store.get (entryOf o.op1) with
    | none => some (.badOperand 1)
    | some r => if s.maskOk (maskOf o.op2) r then none else some (.badOperand 2)

/-- What ARM RUN makes of a strand in its mask (R36, R64, R85, R125, R146, R164, R172). Requests of the strand on their way to its
forecast unit and marker unit are discarded with what they would have joined (log 11). -/
def StrandState.arm (st : StrandState) (k : Fin 8) : StrandState :=
  { st with
    track := .waiting
    recipe := some k
    switch := none
    tailCount := 0
    lastMaterial := 0
    chan := st.chan.arm
    port := { st.port with fifo := [], fault := false, stale := .notArmed }
    eval := {}
    fore := {}
    map := {}
    cuts := {}
    marker := st.marker.empty
    stopMail := []
    foreMail := []
    mapMail := [] }

/-- What ARM RUN makes of a strand outside its mask (R36). -/
def StrandState.leave (st : StrandState) : StrandState := { st with track := .off, switch := none }

/-- ARM RUN opens the run (R36, R34). -/
def State.openRun (s : State) (k : Fin 8) (mask : Four Bool) (id : Word32) : State :=
  let s1 := { s with
    run := { s.run with runId := id, recipe := some k, mask := mask, billets := 0, staged := none }
    service := s.service.map (fun (v : Service) => { v with armed := v.armed || mask.get v.port })
    seamMail := []
    grantMail := []
    sawMail := [] }
  let s2 := s1.onAll (fun n st => if mask.get n then st.arm k else st.leave)
  State.formRecord (s2.setRun (if s2.anyMoving then .active else .armed)) .opened

/-- ARM RUN at the run controller (R35, R36). -/
def armRun (s : State) (o : Order) : State × Answer :=
  match s.armCheck o with
  | some a => (s, a)
  | none => (s.openRun (entryOf o.op1) (maskOf o.op2) (BitVec.ofNat 32 o.op3), .done 0)

/-! ## AMEND RUN (R41) -/

/-- Do two recipes agree in feature count and hole count (R41)? -/
def Recipe.compatible (a b : Recipe) : Bool := a.features.length == b.features.length && a.holes.length == b.holes.length

/-- AMEND RUN at the run controller (R33, R41). -/
def amendRun (s : State) (o : Order) : State × Answer :=
  let k := entryOf o.op1
  match s.run.state with
  | .idle => (s, .noRun)
  | .finishing => (s, .busy)
  | .armed | .active =>
    match s.run.store.get k with
    | none => (s, .badOperand 1)
    | some r =>
      if r.compatible (s.env.entry (s.run.recipe.getD 0)) then
        ({ s with run := { s.run with staged := some k } }, .done (if s.run.staged.isSome then 1 else 0))
      else (s, .incompatible)

/-! ## Leaving ARMED or ACTIVE -/

/-- A TIMING qualifier is set aside: HELD, with its latches empty (R70). -/
def Input.setAside (i : Input) : Input :=
  match i.state with
  | .timing _ => { i with state := .held, latches := ⟨none, none, none, none⟩ }
  | .quiet | .held => i

/-- Both qualifiers are set aside (R70). -/
def State.setAside (s : State) : State :=
  { s with inputs := { s.inputs with seam := s.inputs.seam.setAside, saw := s.inputs.saw.setAside } }

/-! ## END RUN (R45) -/

/-- What END RUN makes of a run strand (R45, R80, R103, R125, R146, R161). -/
def StrandState.endRun (st : StrandState) (e : Env) (n : Strand) : StrandState :=
  let st1 :=
    match st.track with
    | .tracking => StrandState.finalCut { st.dropCandidate.closeMap e n with track := .off } e n
    | .tailed => st.finalCut e n
    | .waiting | .off => st
  StrandState.disarmStale { st1 with track := .off, switch := none, fore := {} }

/-- END RUN at the run controller (R33, R45). -/
def endRun (s : State) (_ : Order) : State × Answer :=
  match s.run.state with
  | .idle => (s, .noRun)
  | .finishing => (s, .busy)
  | .armed | .active =>
    let s1 := s.onRun (fun n st => st.endRun s.env n)
    (State.setRun (State.setAside { s1 with run := { s1.run with staged := none } }) .finishing, .done 0)

/-! ## ABANDON RUN (R47) -/

/-- What ABANDON RUN makes of a run strand (R47, R80, R103, R125, R146, R162). -/
def StrandState.abandon (st : StrandState) (e : Env) (n : Strand) : StrandState :=
  let st1 := st.endMark e n st.map.frontier
  StrandState.disarmStale { st1 with
    track := .off
    recipe := none
    switch := none
    eval := { st1.eval with candidate := none }
    fore := {}
    map := { st1.map with closed := [], cur := none }
    cuts := { st1.cuts with pending := [] } }

/-- ABANDON RUN at the run controller (R33, R47). -/
def abandonRun (s : State) (_ : Order) : State × Answer :=
  match s.run.state with
  | .idle => (s, .noRun)
  | .armed | .active | .finishing =>
    let s1 := s.formRecord .abandoned
    let s2 := s1.onRun (fun n st => st.abandon s.env n)
    let s3 := { s2 with run := { s2.run with recipe := none, staged := none, waitingSwitch := none } }
    (s3.setAside.setRun .idle, .done 0)

/-! ## The end of FINISHING (R46) -/

/-- Are the conditions of RUN_CLOSED met (R46)? -/
def State.closable (s : State) : Bool :=
  s.run.state == .finishing && s.run.slot.isNone && s.run.waitingSwitch.isNone &&
    strandsAscending.all (fun n => !s.inMask n || (s.strand n).cuts.pending.isEmpty)

/-- The run returns to IDLE as RUN_CLOSED enters the holding queue: the run recipe and every strand recipe become none (R46). -/
def State.closeRun (s : State) : State :=
  let s1 := s.onAll (fun _ st => { st with recipe := none })
  State.setRun { s1 with run := { s1.run with recipe := none } } .idle

end Sys2Proof.Machine
end

