-- ==== Sys2Proof/Machine/Adoption.lean ====
section
/-! DEFINITION. Adopting a station and recipes (chapter 2): what an adoption does in the blocks at work; the meanings of SET_STATION
and ADOPT_RECIPE. -/

namespace Sys2Proof.Machine

/-! ## An adoption's effect in the blocks (R22, R23) -/

/-- A running stop dwell is judged against the new stop dwell (R22). -/
def StrandState.rejudgeDwell (st : StrandState) (e : Env) (n : Strand) : StrandState :=
  if st.chan.dwellOver e n then st.expireDwell else st

/-- A strand left without a marker: its queue empty, no force, the output inactive (R23). Requests on their way to its marker unit
are discarded (log 11). -/
def StrandState.loseMarker (st : StrandState) : StrandState := { st with marker := {}, foreMail := [], mapMail := [] }

/-- What an adoption makes of a strand (R22, R23). -/
def StrandState.adopt (st : StrandState) (e : Env) (n : Strand) : StrandState :=
  let st1 := st.rejudgeDwell e n
  if (e.marker n).isNone then st1.loseMarker else st1

/-- A running linger timer is judged against the new page linger (R22). -/
def State.rejudgeLinger (s : State) : State :=
  match s.report.fill, s.run.station with
  | some f, some t =>
    if t.linger = 0 then { s with report := { s.report with fill := some { f with linger := none } } }
    else if s.lingerOver f then s.closePage f false
    else s
  | _, _ => s

/-- A geometry is adopted (R19, R22, R23). -/
def State.adoptStation (s : State) (t : Station) : State :=
  let s1 := { s with run := { s.run with station := some t } }
  (s1.onAll (fun n st => st.adopt s1.env n)).rejudgeLinger

/-! ## The orders -/

/-- SET STATION at the run controller (R19). -/
def setStation (s : State) (_ : Order) : State × Answer :=
  if s.run.state ≠ .idle then (s, .runOpen)
  else
    match firstFailing (stationChecks s.xp.mem) with
    | some field => (s, .badStation field)
    | none => (s.adoptStation (readStation s.xp.mem), .done 0)

/-- The store with one entry given new content. -/
def State.setEntry (s : State) (k : Fin 8) (r : Option Recipe) : State :=
  { s with run := { s.run with store := s.run.store.set k r } }

/-- ADOPT RECIPE at the run controller (R26). -/
def adoptRecipe (s : State) (o : Order) : State × Answer :=
  let k := entryOf o.op1
  if s.pinned k then (s, .inUse)
  else
    match firstFailing (recipeChecks s.xp.mem (slotBase k.val)) with
    | some field => (s.setEntry k none, .badRecipe field)
    | none => (s.setEntry k (some (readRecipe s.xp.mem (slotBase k.val))), .done 0)

/-! ## Meanings -/

/-- SET_STATION (R19). -/
def execSetStation (s : State) (answered : Bool := true) : Host.Outcome State Fault Refusal :=
  .next (s.carryOut answered 1 setStation).settle

/-- ADOPT_RECIPE (R26). -/
def execAdoptRecipe (s : State) (answered : Bool := true) : Host.Outcome State Fault Refusal :=
  .next (s.carryOut answered 2 adoptRecipe).settle

end Sys2Proof.Machine
end

