-- ==== Sys2Proof/Machine/Evaluation.lean ====
section
/-! DEFINITION. Events of the gauge link and the scan evaluator (chapters 5 and 6): the meanings of START_DELIMITER, FRAME_ARRIVAL,
STALE_TIMER_EXPIRY, ARBITER_LOOK, SCAN_TAKING and STALE_NOTICE_TAKING. -/

namespace Sys2Proof.Machine

/-! ## Frames (R72) -/

/-- The assembly of a frame begins or ends at a port. -/
def StrandState.setAssembling (st : StrandState) (on : Bool) : StrandState :=
  { st with port := { st.port with assembling := on } }

/-- A frame being assembled arrives: at its end delimiter, or unfinished at a start delimiter, from which the next frame is assembled.
An end delimiter with no frame being assembled is ignored (R72). -/
def State.frameArrival (s : State) (n : Strand) (content : List Byte) (ending : FrameEnd) : State :=
  if s.ready && (s.strand n).port.assembling then
    match ending with
    | .endDelimiter => s.onStrand n (fun st => (st.setAssembling false).arrive s.env n content true)
    | .startDelimiter => s.onStrand n (fun st => (st.setAssembling true).arrive s.env n content false)
  else s

/-- A start delimiter: the assembly of a frame begins; one being assembled arrives unfinished (R72). Nothing is received before the
end of initialisation or during a part restart (R86). -/
def State.startDelimiter (s : State) (n : Strand) : State :=
  if s.ready then
    if (s.strand n).port.assembling then s.onStrand n (fun st => (st.setAssembling true).arrive s.env n [] false)
    else s.onStrand n (fun st => st.setAssembling true)
  else s

/-! ## The stale timer (R81) -/

/-- Is a port's stale timer RUNNING with its time passed (R81)? -/
def State.staleOver (s : State) (n : Strand) : Bool :=
  match (s.strand n).port.stale with
  | .running due => due ≤ s.clock
  | .notArmed => false
  | .lapsed => false
  | .stale => false

/-! ## The arbiter (R83) -/

/-- The oldest entry of a port's FIFO goes into service (R83). -/
def State.serve (s : State) (n : Strand) : State :=
  match (s.strand n).port.fifo with
  | [] => s
  | x :: rest =>
    let s1 := s.onStrand n (fun st => { st with port := { st.port with fifo := rest } })
    { s1 with lastServed := n, service := some { port := n, entry := x } }

/-- The first port whose FIFO holds an entry, in the arbiter's order (R83). -/
def State.nextPort (s : State) : Option Strand :=
  (turnAfter s.lastServed).find? (fun n => !(s.strand n).port.fifo.isEmpty)

/-- The arbiter looks, with no entry in service (R83). -/
def State.arbiterLook (s : State) : State :=
  if s.service.isSome then s
  else
    match s.nextPort with
    | none => s
    | some n => s.serve n

/-! ## Takings (R87, R88) -/

/-- The end of the service of a scan: its taking, unless an ARM RUN has named the strand since (R87, R88). -/
def State.takeScan (s : State) : State :=
  match s.service with
  | some ⟨n, .scan sc, armed⟩ =>
    let s1 := { s with service := none }
    if armed then s1 else s1.strandEvent n (fun st => st.takeScan s.env n sc)
  | some ⟨_, .notice, _⟩ => s
  | none => s

/-- The end of the service of a stale notice (R88, R102). -/
def State.takeNotice (s : State) : State :=
  match s.service with
  | some ⟨n, .notice, armed⟩ =>
    let s1 := { s with service := none }
    if armed then s1 else s1.onStrand n (fun st => st.takeNotice s.env n)
  | some ⟨_, .scan _, _⟩ => s
  | none => s

/-! ## Meanings -/

/-- START_DELIMITER (R72). -/
def execStartDelimiter (port : Strand) (s : State) : Host.Outcome State Fault Refusal := .next (s.startDelimiter port).settle

/-- FRAME_ARRIVAL (R72 to R80). -/
def execFrameArrival (port : Strand) (content : List Byte) (ending : FrameEnd) (s : State) : Host.Outcome State Fault Refusal :=
  .next (s.frameArrival port content ending).settle

/-- STALE_TIMER_EXPIRY (R81). -/
def execStaleTimerExpiry (port : Strand) (s : State) : Host.Outcome State Fault Refusal :=
  .next (if s.staleOver port then (s.onStrand port (fun st => st.expireStale s.env port)).settle else s)

/-- ARBITER_LOOK (R83). -/
def execArbiterLook (s : State) : Host.Outcome State Fault Refusal := .next s.arbiterLook

/-- SCAN_TAKING (R87). -/
def execScanTaking (s : State) : Host.Outcome State Fault Refusal := .next s.takeScan.settle

/-- STALE_NOTICE_TAKING (R102). -/
def execStaleNoticeTaking (s : State) : Host.Outcome State Fault Refusal := .next s.takeNotice.settle

end Sys2Proof.Machine
end

