-- ==== Sys2Proof/Machine/Exchange.lean ====
section
/-! DEFINITION. Host writes to the exchange window (R5 to R9): which bytes are accepted, what an accepted and a refused write do;
what a host read returns; the meanings of EXCHANGE_WRITE, CELL_POST, CELL_FREE and PAGE_RETURN. -/

namespace Sys2Proof.Machine

/-! ## Acceptance -/

/-- Does a write cover exactly the four bytes of the watched word at `w` (R7)? -/
def coversWord (w offset : Nat) (bytes : List Byte) : Bool := offset == w && bytes.length == 4

/-- Is a host write of a value to a cell's state word accepted (R8)? -/
def CellState.takes : CellState → Nat → Bool
  | .free, v => v == CellState.posted.code
  | .answered, v => v == CellState.free.code
  | .posted, _ => false
  | .taken, _ => false

/-- Is a host write of a value to a page's state word accepted (R9)? -/
def PageState.takes : PageState → Nat → Bool
  | .closed, v => v == PageState.free.code
  | .free, _ => false
  | .filling, _ => false

/-- The cell that holds an offset of the order board. -/
def cellAt (a : Nat) : Fin 32 := Fin.ofNat 32 ((a - 0x1000) / 128)

/-- The report page that holds an offset of pages 10 to 63. -/
def pageAt (a : Nat) : Fin 54 := Fin.ofNat 54 (a / 0x2000 - 10)

/-- Is the byte at offset `a` of a host write accepted in its own region or cell (R5 to R9)? -/
def ExchangePort.accepts (x : ExchangePort) (offset : Nat) (bytes : List Byte) (a : Nat) : Bool :=
  if a < 0x1000 then false
  else if a < 0x2000 then
    if (a - 0x1000) % 128 < 4 then
      coversWord (cellBase (cellAt a).val) offset bytes && (x.cells.get (cellAt a)).takes (leNat bytes)
    else x.cells.get (cellAt a) == .free
  else if a < 0x14000 then true
  else
    a % 0x2000 < 4 && coversWord (pageBase (pageAt a).val) offset bytes && (x.pages.get (pageAt a)).takes (leNat bytes)

/-- Is every byte of a host write accepted (R5)? -/
def ExchangePort.acceptsAll (x : ExchangePort) (offset : Nat) (bytes : List Byte) : Bool :=
  (List.range bytes.length).all (fun k => x.accepts offset bytes (offset + k))

/-! ## Effect -/

/-- The cell whose state word a write covers exactly, if any (R7). -/
def postedTo (offset : Nat) (bytes : List Byte) : Option (Fin 32) :=
  if 0x1000 ≤ offset ∧ offset < 0x2000 ∧ (offset - 0x1000) % 128 = 0 ∧ bytes.length = 4 then some (cellAt offset) else none

/-- The report page whose state word a write covers exactly, if any (R7). -/
def returnedTo (offset : Nat) (bytes : List Byte) : Option (Fin 54) :=
  if 0x14000 ≤ offset ∧ offset % 0x2000 = 0 ∧ bytes.length = 4 then some (pageAt offset) else none

/-- The state an accepted write gives a cell: POSTED where it was FREE, FREE where it was ANSWERED (R8). -/
def CellState.written : CellState → CellState
  | .free => .posted
  | .answered => .free
  | .posted => .posted
  | .taken => .taken

/-- An accepted write of a cell's state word updates the port's copy; POSTED is an attention event (R8, R10). -/
def State.cellWritten (s : State) (i : Fin 32) : State :=
  let t := (s.xp.cells.get i).written
  { s with
    xp := { s.xp with cells := s.xp.cells.set i t }
    orders := { s.orders with attention := s.orders.attention || t == .posted } }

/-- An accepted write updates the port's copy of the state word it covers (R7, R9, R181). -/
def State.wordWritten (s : State) (offset : Nat) (bytes : List Byte) : State :=
  match postedTo offset bytes, returnedTo offset bytes with
  | some i, _ => s.cellWritten i
  | none, some p => s.setPage p .free
  | none, none => s

/-- An accepted write is stored in full, and where it covers a state word its event follows (R5, R7). -/
def State.acceptWrite (s : State) (offset : Nat) (bytes : List Byte) : State :=
  State.wordWritten { s with xp := { s.xp with mem := s.xp.mem.write offset bytes } } offset bytes

/-- A refused write: nothing is stored, REFUSED is set, and the offset of its first byte is shown (R5, R14). -/
def State.refuseWrite (s : State) (offset : Nat) : State :=
  let s1 := s.setReason .refused
  s1.showIfChanged { s1.shownNow with lastRefused := BitVec.ofNat 32 offset }

/-- A host write to the exchange window: dropped while IDENT reads 0, otherwise stored in full or refused (R5). -/
def State.hostWrite (s : State) (offset : Nat) (bytes : List Byte) : State :=
  if s.ready then
    if s.xp.acceptsAll offset bytes then (s.acceptWrite offset bytes).settle else (s.refuseWrite offset).settle
  else s

/-- What a host read of the exchange window returns; it changes nothing (R5). -/
def State.readExchange (s : State) (offset length : Nat) : List Byte := s.xp.mem.rdBytes offset length

/-! ## Meanings -/

/-- EXCHANGE_WRITE (R5); a write that leaves the window is at no address of the part (log 9). It covers one run of bytes without a gap:
the model's choice, log 37. -/
def execExchangeWrite (offset : Nat) (bytes : List Byte) (s : State) : Host.Outcome State Fault Refusal :=
  if offset + bytes.length ≤ Config.windowBytes then .next (s.hostWrite offset bytes) else .fault .outsideExchangeWindow

/-- CELL_POST: the host writes POSTED to a cell's state word (R8). -/
def execCellPost (cell : Fin 32) (s : State) : Host.Outcome State Fault Refusal :=
  .next (s.hostWrite (cellBase cell.val) (leBytes 4 CellState.posted.code))

/-- CELL_FREE: the host writes FREE to a cell's state word (R8). -/
def execCellFree (cell : Fin 32) (s : State) : Host.Outcome State Fault Refusal :=
  .next (s.hostWrite (cellBase cell.val) (leBytes 4 CellState.free.code))

/-- PAGE_RETURN: the host writes FREE to a report page's state word (R9, R181). -/
def execPageReturn (page : Fin 54) (s : State) : Host.Outcome State Fault Refusal :=
  .next (s.hostWrite (pageBase page.val) (leBytes 4 PageState.free.code))

end Sys2Proof.Machine
end

