-- ==== Sys2Proof/Machine/Line.lean ====
section
/-! DEFINITION. Events of the length channels and the line event inputs (chapter 4), and what the run controller, the forecast unit
and the piece builder make of them (R42, R69, R112, R113, R148): the meanings of ENCODER_EDGE to QUALIFIED_SAW. -/

namespace Sys2Proof.Machine

/-! ## Length channels -/

/-- The pins of a channel take new levels; the channel samples them from the end of initialisation on, and not during a part restart
(R53, R65). -/
def State.encoderEdge (s : State) (n : Strand) (a b : Bool) : State :=
  let s1 := s.onStrand n (fun st => { st with chan := { st.chan with pinA := a, pinB := b } })
  if s.ready then s1.onStrand n (fun st => st.sampleEdge s.env n a b) else s1

/-- The first entry of a run strand into MOVING moves the run from ARMED to ACTIVE (R34). -/
def State.noteMoving (s : State) (n : Strand) (before : Motion) : State :=
  if s.run.state = .armed ∧ s.inMask n ∧ before ≠ .moving ∧ (s.strand n).chan.motion = .moving then s.setRun .active else s

/-- What the status block shows after a channel has handed over its speed and high-water coordinate (R60). -/
def State.windowShown (s : State) (n : Strand) : Shown :=
  let w := s.shownNow
  let t : ShownStrand := { w.strands.get n with hw := (s.strand n).chan.hw, speed := (s.strand n).chan.speed }
  { w with strands := w.strands.set n t }

/-- Is a channel's speed window over (R60, log 3)? -/
def State.windowOver (s : State) (n : Strand) : Bool := s.ready && (s.strand n).chan.windowEnd ≤ s.clock

/-- A speed window ends: speed, motion, the run's first motion, a lapsed stale timer, and the status block, which is rewritten at every
window (R14, R34, R60, R82). -/
def State.endWindow (s : State) (n : Strand) : State :=
  let s1 := s.onStrand n (fun st => st.endWindow s.env n)
  let s2 := s1.noteMoving n (s.strand n).chan.motion
  s2.putStatus (s2.windowShown n)

/-- Is a channel's stop dwell over (R63)? -/
def State.dwellOver (s : State) (n : Strand) : Bool := (s.strand n).chan.dwellOver s.env n

/-! ## Line event inputs -/

/-- One of the two inputs. -/
def Inputs.get (i : Inputs) : LineInput → Input
  | .seam => i.seam
  | .saw => i.saw

/-- The state with one input changed. -/
def State.onInput (s : State) (i : LineInput) (f : Input → Input) : State :=
  match i with
  | .seam => { s with inputs := { s.inputs with seam := f s.inputs.seam } }
  | .saw => { s with inputs := { s.inputs with saw := f s.inputs.saw } }

/-- The qualification time of an input in ms (2.1). Read for an open run only, which has a station (R35). -/
def State.qualification (s : State) (i : LineInput) : Nat :=
  match i, s.run.station with
  | .seam, some t => t.seamQualification
  | .saw, some t => t.sawQualification
  | _, none => 0

/-- The high-water coordinates of the run strands (R66). -/
def State.captures (s : State) : Captures :=
  Four.build (fun n => if s.inMask n then some (s.strand n).chan.hw else none)

/-- A leading edge at a QUIET qualifier (R66). -/
def State.leadingEdge (s : State) (i : LineInput) : State :=
  let s1 := s.onInput i (fun q => { q with active := true })
  if s.ready ∧ (s.inputs.get i).state = .quiet then
    if s.grading then
      s1.onInput i (fun q => { q with state := .timing (s.clock + s.qualification i), latches := s.captures })
    else s1.onInput i (fun q => { q with state := .held })
  else s1

/-- A qualified event goes to its receiving block (R69). -/
def State.handOn (s : State) (i : LineInput) (c : Captures) : State :=
  match i with
  | .seam => { s with seamMail := s.seamMail ++ [c] }
  | .saw => { s with sawMail := s.sawMail ++ [c] }

/-- The qualification timer of a TIMING qualifier expires (R67, R69). -/
def State.qualify (s : State) (i : LineInput) : State :=
  match (s.inputs.get i).state with
  | .timing due =>
    if due ≤ s.clock then
      (s.onInput i (fun q => { q with state := .held, latches := ⟨none, none, none, none⟩ })).handOn i (s.inputs.get i).latches
    else s
  | .quiet | .held => s

/-- The detail of a short pulse: 1 SEAM, 2 SAW (R68). -/
def inputCode : LineInput → Nat
  | .seam => 1
  | .saw => 2

/-- The line event inputs raise SHORT_PULSE (R68). -/
def State.raiseShort (s : State) (i : LineInput) : State :=
  { s with inputs := { s.inputs with raised := s.inputs.raised ++
      [{ kind := .shortPulse, strand := none, code := 0, coordinate := 0, detail := inputCode i, time := s.time }] } }

/-- An input goes inactive (R67, R68). -/
def State.inputInactive (s : State) (i : LineInput) : State :=
  let s1 := s.onInput i (fun q => { q with active := false })
  if s.ready then
    match (s.inputs.get i).state with
    | .quiet => s1
    | .held => s1.onInput i (fun q => { q with state := .quiet })
    | .timing _ => (s1.onInput i (fun q => { q with state := .quiet, latches := ⟨none, none, none, none⟩ })).raiseShort i
  else s1

/-! ## A qualified seam (R42, R69, R112) -/

/-- What a seam that turns the staged amendment into pending switches makes of a run strand (R42, R43). -/
def StrandState.takeSwitch (st : StrandState) (k : Fin 8) (capture : Option Nat) : StrandState :=
  match st.track, capture with
  | .waiting, some c => { st with switch := some { entry := k, coord := c } }
  | .tracking, some c => { st with switch := some { entry := k, coord := c } }
  | .tailed, _ => { st with recipe := some k }
  | _, _ => st

/-- The staged amendment becomes pending switches at a seam; where every run strand is TAILED the switch-over follows (R42). -/
def State.applyStaged (s : State) (k : Fin 8) (c : Captures) : State :=
  let s1 := s.onRun (fun n st => st.takeSwitch k (c.get n))
  let s2 := { s1 with run := { s1.run with staged := none } }
  if s2.noSwitch then s2.reachSwitchOver k else s2

/-- What the run controller hands the forecast unit: per run strand its capture and the entry whose weld geometry applies (R69). -/
def State.grants (s : State) (switching : Option (Fin 8)) (c : Captures) : Four (Option SeamGrant) :=
  Four.build (fun n =>
    if s.inMask n then (c.get n).map (fun x => { capture := x, entry := switching.getD (s.strand n).index }) else none)

/-- The entry a seam switches to: the staged amendment, where no pending switch remains (R42). -/
def State.switching (s : State) : Option (Fin 8) := if s.noSwitch then s.run.staged else none

/-- A qualified seam of the run at the run controller (R42, R69). -/
def State.seamAtRun (s : State) (c : Captures) : State :=
  let s1 := { s with run := { s.run with billets := min (s.run.billets + 1) 65535 } }
  let s2 :=
    match s1.switching with
    | none => s1
    | some k => s1.applyStaged k c
  { s2 with grantMail := s2.grantMail ++ [s2.grants s1.switching c] }

/-- The next qualified seam is taken by the run controller; one of a run that has ended does nothing (R42, log 21). -/
def State.qualifiedSeam (s : State) : State :=
  match s.seamMail with
  | [] => s
  | c :: rest =>
    let s1 := { s with seamMail := rest }
    if s1.grading then s1.seamAtRun c else s1

/-- The next qualified seam is taken by the forecast unit (R112). -/
def State.seamForecast (s : State) : State :=
  match s.grantMail with
  | [] => s
  | g :: rest => State.onAll { s with grantMail := rest } (fun n st => st.forecastSeam s.env n (g.get n))

/-! ## A qualified saw (R148) -/

/-- The cut of a qualified saw on one strand (R148). -/
def State.sawAt (s : State) (c : Captures) (n : Strand) : State :=
  match c.get n with
  | none => s
  | some x => s.strandEvent n (fun st => st.cutBehind s.env n .saw x)

/-- The next qualified saw is taken by the piece builder; outside ARMED and ACTIVE it forms no cut (R148). -/
def State.qualifiedSaw (s : State) : State :=
  match s.sawMail with
  | [] => s
  | c :: rest =>
    let s1 := { s with sawMail := rest }
    if s1.grading then strandsAscending.foldl (fun s n => s.sawAt c n) s1 else s1

/-! ## Meanings -/

/-- ENCODER_EDGE (R52 to R58). -/
def execEncoderEdge (channel : Strand) (a b : Bool) (s : State) : Host.Outcome State Fault Refusal :=
  .next (s.encoderEdge channel a b).settle

/-- SPEED_WINDOW_END (R60 to R62). -/
def execSpeedWindowEnd (channel : Strand) (s : State) : Host.Outcome State Fault Refusal :=
  .next (if s.windowOver channel then (s.endWindow channel).settle else s)

/-- STOP_DWELL_EXPIRY (R63). -/
def execStopDwellExpiry (channel : Strand) (s : State) : Host.Outcome State Fault Refusal :=
  .next (if s.dwellOver channel then (s.onStrand channel (fun st => st.expireDwell)).settle else s)

/-- STOP_FORECAST (R113). -/
def execStopForecast (strand : Strand) (s : State) : Host.Outcome State Fault Refusal :=
  .next (s.onStrand strand (fun st => st.takeStop s.env strand)).settle

/-- LEADING_EDGE (R66). -/
def execLeadingEdge (input : LineInput) (s : State) : Host.Outcome State Fault Refusal := .next (s.leadingEdge input)

/-- QUALIFICATION_EXPIRY (R67). -/
def execQualificationExpiry (input : LineInput) (s : State) : Host.Outcome State Fault Refusal := .next (s.qualify input)

/-- INPUT_INACTIVE (R67, R68). -/
def execInputInactive (input : LineInput) (s : State) : Host.Outcome State Fault Refusal := .next (s.inputInactive input)

/-- QUALIFIED_SEAM (R42). -/
def execQualifiedSeam (s : State) : Host.Outcome State Fault Refusal := .next s.qualifiedSeam.settle

/-- SEAM_FORECAST (R112). -/
def execSeamForecast (s : State) : Host.Outcome State Fault Refusal := .next s.seamForecast.settle

/-- QUALIFIED_SAW (R148). -/
def execQualifiedSaw (s : State) : Host.Outcome State Fault Refusal := .next s.qualifiedSaw.settle

end Sys2Proof.Machine
end

