-- ==== Sys2Proof/Machine/Reporting.lean ====
section
/-! DEFINITION. Events of the run record slot, the piece builder, the marker unit and the report unit (chapters 3, 9, 10, 11): the
meanings of SWITCH_OVER, RUN_CLOSED, RUN_RECORD_ENTRY, PIECE_BUILD, MARK_REQUEST, MARK_OFF, INCIDENT_ARRIVAL, PAGE_OPEN, RECORD_WRITE
and LINGER_EXPIRY; and the passing of a millisecond. -/

namespace Sys2Proof.Machine

/-! ## The run record slot (R46, R49) -/

/-- The order that waits for the slot is taken at once as it empties (R49). -/
def State.takeWaiting (s : State) (answered : Bool) : State :=
  match s.orders.hand with
  | none => s
  | some o => if o.waiting then (s.carryOut answered 3 armRun).carryOut answered 6 abandonRun else s

/-- The RUN record in the slot enters the holding queue, and the slot empties; RUN_CLOSED returns the run to IDLE. A waiting order is
then taken, and after it a waiting switch-over is made (R46, R49, R175). -/
def State.enterRunRecord (s : State) (r : RunRecord) (answered : Bool) : State :=
  let s1 := State.enqueue { s with run := { s.run with slot := none } } (.run r)
  let s2 := if r.event = .closed then s1.closeRun else s1
  (s2.takeWaiting answered).waitedSwitchOver

/-- The RUN record entry, where the slot holds a record and the queue has room (R175). -/
def State.runRecordEntry (s : State) (answered : Bool) : State :=
  match s.run.slot with
  | none => s
  | some r => if s.queueRoom then s.enterRunRecord r answered else s

/-! ## Piece builds (R154, R155) -/

/-- The first strand with a pending cut, in the piece builder's order (R154). -/
def State.nextBuild (s : State) : Option Strand :=
  (turnAfter s.pieceServed).find? (fun n => !(s.strand n).cuts.pending.isEmpty)

/-- The piece of a strand's oldest pending cut is built, and its record enters the holding queue (R155). -/
def State.buildPiece (s : State) (n : Strand) : State :=
  match (s.strand n).cuts.pending with
  | [] => s
  | p :: _ =>
    let s1 := s.enqueue (.piece (pieceRecord s.env n s.run.runId (s.strand n) p))
    let s2 := s1.onStrand n (fun st => st.afterBuild s.env p)
    { s2 with pieceServed := n }

/-- The piece builder builds a piece, where the queue has room and a strand holds a pending cut (R154). -/
def State.pieceBuild (s : State) : State :=
  if s.queueRoom then
    match s.nextBuild with
    | none => s
    | some n => s.buildPiece n
  else s

/-! ## Incidents (R176) -/

/-- The next incident a block has raised for a strand reaches the report unit. -/
def State.strandIncident (s : State) (n : Strand) (raiser : Raiser) : State :=
  match takeRaised raiser (s.strand n).raised with
  | none => s
  | some (i, rest) => (s.onStrand n (fun st => { st with raised := rest })).arriveIncident i

/-- The next incident of the line event inputs reaches the report unit. -/
def State.inputIncident (s : State) (raiser : Raiser) : State :=
  match takeRaised raiser s.inputs.raised with
  | none => s
  | some (i, rest) => State.arriveIncident { s with inputs := { s.inputs with raised := rest } } i

/-- The next incident of a block, by strand, or of the line event inputs, which carry none (R176, R183). -/
def State.incidentArrival (s : State) (strand : Option Strand) (raiser : Raiser) : State :=
  match strand with
  | some n => s.strandIncident n raiser
  | none => s.inputIncident raiser

/-! ## Pages (R177 to R180) -/

/-- The report unit opens the next FREE page, where a record waits and no page is FILLING (R177). -/
def State.pageOpen (s : State) : State :=
  if s.report.queue.isEmpty || s.report.fill.isSome then s
  else
    match s.nextFree with
    | none => s
    | some p => s.openPage p

/-- The FILLING page closes at the linger timer's expiry (R180). -/
def State.lingerExpiry (s : State) : State :=
  match s.report.fill with
  | none => s
  | some f => if s.lingerOver f then s.closePage f false else s

/-! ## Time -/

/-- One millisecond passes: what a step does when no command waits (log 2). -/
def State.tick (s : State) : State := { s with clock := s.clock + 1 }

/-! ## Meanings -/

/-- SWITCH_OVER (R44). -/
def execSwitchOver (s : State) : Host.Outcome State Fault Refusal := .next s.waitedSwitchOver.settle

/-- RUN_CLOSED (R46). -/
def execRunClosed (s : State) : Host.Outcome State Fault Refusal :=
  .next (if s.closable then s.formRecord .closed else s)

/-- RUN_RECORD_ENTRY (R175). -/
def execRunRecordEntry (s : State) (answered : Bool := true) : Host.Outcome State Fault Refusal :=
  .next (s.runRecordEntry answered).settle

/-- PIECE_BUILD (R154, R155). -/
def execPieceBuild (s : State) : Host.Outcome State Fault Refusal := .next s.pieceBuild.settle

/-- MARK_REQUEST (R166). -/
def execMarkRequest (strand : Strand) (requester : Requester) (s : State) : Host.Outcome State Fault Refusal :=
  .next (s.onStrand strand (fun st => st.takeNextRequest s.env strand requester)).settle

/-- MARK_OFF (R169). -/
def execMarkOff (strand : Strand) (s : State) : Host.Outcome State Fault Refusal :=
  .next (s.onStrand strand (fun st => st.takeNextOff)).settle

/-- INCIDENT_ARRIVAL (R176). -/
def execIncidentArrival (strand : Option Strand) (raiser : Raiser) (s : State) : Host.Outcome State Fault Refusal :=
  .next (s.incidentArrival strand raiser).settle

/-- PAGE_OPEN (R177). -/
def execPageOpen (s : State) : Host.Outcome State Fault Refusal := .next s.pageOpen.settle

/-- RECORD_WRITE (R178). -/
def execRecordWrite (s : State) : Host.Outcome State Fault Refusal := .next s.writeHead.settle

/-- LINGER_EXPIRY (R180). -/
def execLingerExpiry (s : State) : Host.Outcome State Fault Refusal := .next s.lingerExpiry.settle

end Sys2Proof.Machine
end

