-- ==== Sys2Proof/Machine/Resets.lean ====
section
/-! DEFINITION. The register window and the three resets (R1 to R4, R15 to R17, and the reset rules of every block): the meanings of
POWER_ON, POWER_ON_INIT_END, RESTART, RESTART_END, PCIE_LINK_RESET, MSI_ENABLE, MSI_DISABLE and the register writes. -/

namespace Sys2Proof.Machine

/-! ## Power-on (R15) -/

/-- A channel's pins through a reset: the levels outside stay (log 4). -/
def Channel.pinsOnly (c : Channel) : Channel := { pinA := c.pinA, pinB := c.pinB }

/-- A line event input's level through a reset. -/
def Input.levelOnly (i : Input) : Input := { active := i.active }

/-- Power is applied: every block at its power-on values. The levels of the pins, whether MSI is enabled, and the waiting commands
are outside the part and stay (log 4). -/
def State.powerOn (s : State) : State :=
  { State.reset with
    pending := s.pending
    xp := { State.reset.xp with msiEnabled := s.xp.msiEnabled }
    strands := Four.build (fun n => { chan := (s.strand n).chan.pinsOnly })
    inputs := { seam := s.inputs.seam.levelOnly, saw := s.inputs.saw.levelOnly } }

/-- The qualifier as the input's level gives it, its timer stopped and its latches empty (R71). -/
def Input.settleLevel (i : Input) : Input := { active := i.active, state := if i.active then .held else .quiet }

/-- What ends every initialisation and part restart at the line: levels are sampled and speed windows begin (R65, R71). -/
def State.sampleLines (s : State) : State :=
  let s1 := s.onAll (fun _ st => { st with chan := st.chan.begin' s.clock })
  { s1 with inputs := { s1.inputs with seam := s1.inputs.seam.settleLevel, saw := s1.inputs.saw.settleLevel } }

/-- Power-on initialisation ends: the part is ready, the levels are sampled, and the status block shows the IDENT copy and the cause
POWER_ON, the update sequence still 0 (R14, R15, R184, log 6). -/
def State.endPowerOn (s : State) : State :=
  let s1 := s.sampleLines
  State.storeStatus
    { s1 with
      xp := { s1.xp with phase := .ready }
      report := { s1.report with
        shown := { s1.report.shown with ident := Config.identValue, cause := some .powerOn } } }

/-! ## Part restart (R16) -/

/-- The order unit at a part restart: NOTICE has been cleared; an order in hand is answered ABORTED, whether or not its effect has
been taken (log 31), the attention flag is cleared, the last-taken index kept (R16), and a search under way is given up. -/
def State.restartOrders (s : State) : State :=
  let s1 :=
    match s.orders.hand with
    | none => s
    | some o => s.answer o .aborted
  { s1 with orders := { s1.orders with attention := false, searchDue := false, search := none } }

/-- The run controller at a part restart: IDLE, which sets RUN where a run was open; the adopted station and the recipe store are
kept, all else cleared (R24, R31, R50). -/
def State.restartRun (s : State) : State :=
  let s1 := s.setRun .idle
  { s1 with run := { station := s1.run.station, store := s1.run.store } }

/-- A channel at a part restart: every value cleared but for the last sampled levels (R65). -/
def Channel.restart (c : Channel) : Channel :=
  { pinA := c.pinA, pinB := c.pinB, lastA := c.lastA, lastB := c.lastB, windowStart := c.windowStart }

/-- The blocks of a strand at a part restart (R50, R65, R86, R109, R125, R146, R164, R173). -/
def StrandState.restart (st : StrandState) : StrandState := { chan := st.chan.restart }

/-- The report unit at a part restart: the FILLING page is closed TRUNCATED, the queue discarded, the lost count 0; the serial counter
and the cursor are kept (R185). -/
def State.restartReport (s : State) : State :=
  let s1 :=
    match s.report.fill with
    | none => s
    | some f => s.closePage f true
  { s1 with report := { s1.report with queue := [], lost := 0, backlog := false } }

/-- The line event inputs, the arbiter, the evaluator and the piece builder at a part restart, with every request on its way
(R71, R86, R109, R164, log 11). -/
def State.restartBlocks (s : State) : State :=
  let s1 := s.onAll (fun _ st => st.restart)
  { s1 with
    inputs := { seam := s1.inputs.seam.settleLevel, saw := s1.inputs.saw.settleLevel }
    lastServed := .s4
    service := none
    pieceServed := .s4
    seamMail := []
    grantMail := []
    sawMail := [] }

/-- A part restart is taken while the controller is ready (R2): IDENT reads 0, NOTICE is cleared, and every block restarts (R16,
log 28). -/
def State.restart (s : State) : State :=
  if s.ready then
    let s1 := { s with xp := ({ s.xp with phase := .restarting } : ExchangePort).putNotice 0#6 s.xp.mask }
    s1.restartOrders.restartRun.restartBlocks.restartReport.settle
  else s

/-- What the status block shows at the end of a part restart: the values the blocks then hold, the cause RESTART and the restart count
increased by 1, which is free past its greatest value (R14, R184, log 14). -/
def State.restartShown (s : State) : Shown :=
  let w := s.shownNow
  { w with
    ident := Config.identValue
    cause := some .restart
    restarts := if w.restarts = BitVec.allOnes 32 then Config.restartCountPast s.clock else w.restarts + 1#32
    strands := Four.build (fun n => { w.strands.get n with hw := (s.strand n).chan.hw, speed := (s.strand n).chan.speed }) }

/-- The part restart ends: the part is ready, the levels are sampled, the status block is rewritten, and the order unit searches the
board, `cells` cells of it before the next command (R11, R16, log 8). -/
def State.endRestart (s : State) (cells : Nat) (answered : Bool) : State :=
  let s1 := State.sampleLines { s with xp := { s.xp with phase := .ready } }
  let s2 := s1.putStatus s1.restartShown
  s2.search 0 cells answered

/-! ## The register window (R1 to R4) -/

/-- What a read of a register returns (R1 to R4). -/
def State.readRegister (s : State) : Register → Word32
  | .ident => if s.ready then Config.identValue else 0#32
  | .notice => s.xp.notice.zeroExtend 32
  | .noticeMask => s.xp.mask.zeroExtend 32
  | .restart => 0#32

/-- What a read of `length` bytes of a register from its byte `first` on returns: the addressed bytes (R1). The byte order of a register
is little-endian, as the exchange window's fields are: presumed, log 36. -/
def State.readRegisterBytes (s : State) (reg : Register) (first length : Nat) : List Byte :=
  ((leBytes 4 (s.readRegister reg).toNat).drop first).take length

/-- A host write of a whole word to a register (R1 to R4). -/
def State.writeRegister (s : State) (reg : Register) (value : Word32) : State :=
  match reg with
  | .ident => s
  | .notice => s.clearNotice value
  | .noticeMask => s.writeMask value
  | .restart => if value = Config.restartKey then s.restart else s

/-- A host write to a register; one of fewer than four bytes is ignored (R1). -/
def State.hostRegister (s : State) (reg : Register) (data : RegData) : State :=
  match data with
  | .word value => s.writeRegister reg value
  | .short _ => s

/-! ## Meanings -/

/-- POWER_ON (R15). -/
def execPowerOn (s : State) : Host.Outcome State Fault Refusal := .next s.powerOn

/-- POWER_ON_INIT_END (R15). -/
def execPowerOnInitEnd (s : State) : Host.Outcome State Fault Refusal :=
  .next (if s.xp.phase = .initialising then s.endPowerOn else s)

/-- RESTART (R2, R16). -/
def execRestart (s : State) : Host.Outcome State Fault Refusal := .next s.restart

/-- RESTART_END (R16). -/
def execRestartEnd (s : State) (cells : Nat := 32) (answered : Bool := true) : Host.Outcome State Fault Refusal :=
  .next (if s.xp.phase = .restarting then (s.endRestart cells answered).settle else s)

/-- PCIE_LINK_RESET (R17): NOTICE_MASK becomes 0. -/
def execPcieLinkReset (s : State) : Host.Outcome State Fault Refusal := .next (s.writeMask 0#32)

/-- MSI_ENABLE (R4): no message is sent, and the legacy interrupt is deasserted. -/
def execMsiEnable (s : State) : Host.Outcome State Fault Refusal :=
  .next { s with xp := { s.xp with msiEnabled := true } }

/-- MSI_DISABLE (R4): the legacy interrupt follows the masked notice. -/
def execMsiDisable (s : State) : Host.Outcome State Fault Refusal :=
  .next { s with xp := { s.xp with msiEnabled := false } }

/-- NOTICE_WRITE (R3). -/
def execNoticeWrite (value : Word32) (s : State) : Host.Outcome State Fault Refusal :=
  .next (s.writeRegister .notice value)

/-- NOTICE_MASK_WRITE (R4). -/
def execNoticeMaskWrite (value : Word32) (s : State) : Host.Outcome State Fault Refusal :=
  .next (s.writeRegister .noticeMask value)

/-- REGISTER_WRITE_IGNORED (R1, R2): any register write the host makes, by the rules of its register; the row's writes are those the
rules ignore (log 10). -/
def execRegisterWriteIgnored (reg : Register) (data : RegData) (s : State) : Host.Outcome State Fault Refusal :=
  .next (s.hostRegister reg data)

end Sys2Proof.Machine
end

