-- ==== Sys2Proof/Machine/RunOrders.lean ====
section
/-! DEFINITION. The meanings of the run orders (chapter 3) and of the orders of the forecast unit, the piece builder and the marker
unit. -/

namespace Sys2Proof.Machine

/-! ## ADD ZONE (R117) -/

/-- The MANUAL zone an ADD ZONE forms at a frontier (R117). -/
def manualZone (o : Order) (frontier : Nat) : Zone :=
  { start := max o.op2 frontier, stop := o.op2 + o.op3, cls := .manual, origin := .order, note := o.op4, phase := .ahead }

/-- ADD ZONE at the forecast unit on a run strand, from its third check on (R117). -/
def State.addZoneTo (s : State) (o : Order) (n : Strand) : State × Answer :=
  let st := s.strand n
  if o.op2 + o.op3 ≤ st.map.frontier then (s, .zonePassed)
  else if Config.forecastZones ≤ st.fore.zones.length then (s, .forecastFull)
  else
    (s.onStrand n (fun st => st.enterZone s.env n (s.env.recipe st) (manualZone o st.map.frontier)),
      .done (if o.op2 < st.map.frontier then 2 else 0))

/-- ADD ZONE at the forecast unit (R117). -/
def addZone (s : State) (o : Order) : State × Answer :=
  match s.run.state with
  | .idle => (s, .noRun)
  | .finishing => (s, .busy)
  | .armed | .active =>
    match strandOf o.op1 with
    | none => (s, .badOperand 1)
    | some n => if s.inMask n then s.addZoneTo o n else (s, .badOperand 1)

/-! ## SOFT CUT (R149) -/

/-- Does a mask name only run strands (R149)? -/
def State.maskInRun (s : State) (mask : Four Bool) : Bool := strandsAscending.all (fun n => !mask.get n || s.inMask n)

/-- The cut of a SOFT CUT on one strand (R149). -/
def State.softCutAt (s : State) (n : Strand) : State :=
  s.strandEvent n (fun st => st.cutBehind s.env n .soft st.chan.hw)

/-- SOFT CUT at the piece builder (R149). -/
def softCut (s : State) (o : Order) : State × Answer :=
  match s.run.state with
  | .idle => (s, .noRun)
  | .finishing => (s, .busy)
  | .armed | .active =>
    if s.maskInRun (maskOf o.op1) then
      (strandsAscending.foldl (fun s n => if (maskOf o.op1).get n then s.softCutAt n else s) s, .done 0)
    else (s, .badOperand 1)

/-! ## FORCE MARKER (R171) -/

/-- The force mode an order's mode operand gives: ON 1, OFF 2, RELEASE 3. -/
def forceOf : Nat → ForceMode
  | 1 => .on
  | 2 => .off
  | _ => .none

/-- FORCE MARKER at the marker unit (R171). -/
def forceMarker (s : State) (o : Order) : State × Answer :=
  match strandOf o.op1 with
  | none => (s, .badOperand 1)
  | some n =>
    if (s.env.marker n).isNone then (s, .badOperand 1)
    else (s.onStrand n (fun st => { st with marker := st.marker.setForce (forceOf o.op2) st.chan.hw }), .done 0)

/-! ## Meanings -/

/-- ARM_RUN (R35, R36, R49). -/
def execArmRun (s : State) (answered : Bool := true) : Host.Outcome State Fault Refusal :=
  .next (s.carryOutRecorded answered 3 armRun).settle

/-- AMEND_RUN (R41). -/
def execAmendRun (s : State) (answered : Bool := true) : Host.Outcome State Fault Refusal :=
  .next (s.carryOut answered 4 amendRun).settle

/-- END_RUN (R45). -/
def execEndRun (s : State) (answered : Bool := true) : Host.Outcome State Fault Refusal :=
  .next (s.carryOut answered 5 endRun).settle

/-- ABANDON_RUN (R47, R49). -/
def execAbandonRun (s : State) (answered : Bool := true) : Host.Outcome State Fault Refusal :=
  .next (s.carryOutRecorded answered 6 abandonRun).settle

/-- ADD_ZONE (R117). -/
def execAddZone (s : State) (answered : Bool := true) : Host.Outcome State Fault Refusal :=
  .next (s.carryOut answered 7 addZone).settle

/-- SOFT_CUT (R149). -/
def execSoftCut (s : State) (answered : Bool := true) : Host.Outcome State Fault Refusal :=
  .next (s.carryOut answered 8 softCut).settle

/-- FORCE_MARKER (R171). -/
def execForceMarker (s : State) (answered : Bool := true) : Host.Outcome State Fault Refusal :=
  .next (s.carryOut answered 9 forceMarker).settle

end Sys2Proof.Machine
end

