-- ==== Sys2Proof/Machine/Dispatch.lean ====
section
/-! DEFINITION. Each command's meaning: one arm for each constructor. -/

namespace Sys2Proof.Machine

/-- The effect of a command on everything but the queue of waiting commands. -/
def exec (i : Instr) (s : State) : Host.Outcome State Fault Refusal :=
  match i with
  | .powerOn => Sys2Proof.Machine.execPowerOn s
  | .powerOnInitEnd => Sys2Proof.Machine.execPowerOnInitEnd s
  | .restart => Sys2Proof.Machine.execRestart s
  | .restartEnd cells answered => Sys2Proof.Machine.execRestartEnd s cells answered
  | .pcieLinkReset => Sys2Proof.Machine.execPcieLinkReset s
  | .msiEnable => Sys2Proof.Machine.execMsiEnable s
  | .noticeWrite value => Sys2Proof.Machine.execNoticeWrite value s
  | .noticeMaskWrite value => Sys2Proof.Machine.execNoticeMaskWrite value s
  | .registerWriteIgnored reg data => Sys2Proof.Machine.execRegisterWriteIgnored reg data s
  | .exchangeWrite offset bytes => Sys2Proof.Machine.execExchangeWrite offset bytes s
  | .cellPost cell => Sys2Proof.Machine.execCellPost cell s
  | .cellFree cell => Sys2Proof.Machine.execCellFree cell s
  | .pageReturn page => Sys2Proof.Machine.execPageReturn page s
  | .orderSearch cells answered => Sys2Proof.Machine.execOrderSearch s cells answered
  | .setStation answered => Sys2Proof.Machine.execSetStation s answered
  | .adoptRecipe answered => Sys2Proof.Machine.execAdoptRecipe s answered
  | .armRun answered => Sys2Proof.Machine.execArmRun s answered
  | .amendRun answered => Sys2Proof.Machine.execAmendRun s answered
  | .endRun answered => Sys2Proof.Machine.execEndRun s answered
  | .abandonRun answered => Sys2Proof.Machine.execAbandonRun s answered
  | .addZone answered => Sys2Proof.Machine.execAddZone s answered
  | .softCut answered => Sys2Proof.Machine.execSoftCut s answered
  | .forceMarker answered => Sys2Proof.Machine.execForceMarker s answered
  | .encoderEdge channel a b => Sys2Proof.Machine.execEncoderEdge channel a b s
  | .speedWindowEnd channel => Sys2Proof.Machine.execSpeedWindowEnd channel s
  | .stopDwellExpiry channel => Sys2Proof.Machine.execStopDwellExpiry channel s
  | .stopForecast strand => Sys2Proof.Machine.execStopForecast strand s
  | .leadingEdge input => Sys2Proof.Machine.execLeadingEdge input s
  | .qualificationExpiry input => Sys2Proof.Machine.execQualificationExpiry input s
  | .inputInactive input => Sys2Proof.Machine.execInputInactive input s
  | .qualifiedSeam => Sys2Proof.Machine.execQualifiedSeam s
  | .seamForecast => Sys2Proof.Machine.execSeamForecast s
  | .qualifiedSaw => Sys2Proof.Machine.execQualifiedSaw s
  | .frameArrival port content ending => Sys2Proof.Machine.execFrameArrival port content ending s
  | .staleTimerExpiry port => Sys2Proof.Machine.execStaleTimerExpiry port s
  | .arbiterLook => Sys2Proof.Machine.execArbiterLook s
  | .scanTaking => Sys2Proof.Machine.execScanTaking s
  | .staleNoticeTaking => Sys2Proof.Machine.execStaleNoticeTaking s
  | .switchOver => Sys2Proof.Machine.execSwitchOver s
  | .runClosed => Sys2Proof.Machine.execRunClosed s
  | .runRecordEntry answered => Sys2Proof.Machine.execRunRecordEntry s answered
  | .pieceBuild => Sys2Proof.Machine.execPieceBuild s
  | .markRequest strand requester => Sys2Proof.Machine.execMarkRequest strand requester s
  | .markOff strand => Sys2Proof.Machine.execMarkOff strand s
  | .incidentArrival strand raiser => Sys2Proof.Machine.execIncidentArrival strand raiser s
  | .pageOpen => Sys2Proof.Machine.execPageOpen s
  | .recordWrite => Sys2Proof.Machine.execRecordWrite s
  | .lingerExpiry => Sys2Proof.Machine.execLingerExpiry s
  | .startDelimiter port => Sys2Proof.Machine.execStartDelimiter port s
  | .msiDisable => Sys2Proof.Machine.execMsiDisable s

end Sys2Proof.Machine
end

