-- ==== Sys2Proof/Safety.lean ====
section
/-! DEFINITION. The terms claims are made in: what the end of an event adds to its effect, and what the part keeps through every
command. -/

namespace Sys2Proof.Machine

/-! ## The end of an event -/

/-- Does the backlog condition begin with this state (R182)? -/
def State.backlogBegins (u : State) : Bool := u.backlogged && !u.report.backlog

/-- Does setting BACKLOG send a message (R4)? -/
def State.backlogSends (u : State) : Bool :=
  u.backlogBegins && u.xp.msiEnabled && u.xp.masked == 0#6 && (u.xp.notice ||| Reason.bit .backlog) &&& u.xp.mask != 0#6

/-- `t` is `u` after the end of an event: a backlog that begins has set BACKLOG, and the status block shows the present values, rewritten
where they changed (R14, R182). Nothing else differs. That one event makes at most one rewrite, which raises the update sequence by 2, is
the model's reading (log 7). -/
structure Settles (u t : State) : Prop where
  /-- all the rest is as it was -/
  rest : t = { u with
    xp := { u.xp with notice := t.xp.notice, msiSent := t.xp.msiSent, mem := t.xp.mem }
    report := { u.report with
      backlog := t.report.backlog, updateSeq := t.report.updateSeq, updateTime := t.report.updateTime,
      shown := t.report.shown } }
  notice : t.xp.notice = if u.backlogBegins then u.xp.notice ||| Reason.bit .backlog else u.xp.notice
  sent : t.xp.msiSent = if u.backlogSends then u.xp.msiSent + 1 else u.xp.msiSent
  backlog : t.report.backlog = u.backlogged
  shown : t.report.shown = u.shownNow
  kept : u.shownNow = u.report.shown →
    t.xp.mem = u.xp.mem ∧ t.report.updateSeq = u.report.updateSeq ∧ t.report.updateTime = u.report.updateTime
  rewritten : u.shownNow ≠ u.report.shown →
    t.report.updateSeq = u.report.updateSeq + 2#32 ∧ t.report.updateTime = u.time ∧
      t.xp.mem = u.xp.mem.write 0 (statusBytes t.report.updateSeq t.report.updateTime t.report.shown)

/-- A command answers a next state that is `u` after the end of the event. -/
def Completes (c : Instr) (s u : State) : Prop := ∃ t, exec c s = .next t ∧ Settles u t

/-- The order unit holds an order of a kind in hand, its result not yet known (1.5). -/
def State.holds (s : State) (o : Order) (kind : Nat) : Prop := s.orders.hand = some o ∧ o.kind = kind ∧ o.result = none

/-- Nothing of the host's memory but the status block differs: every byte from offset 192 on reads the same (1.3, 12.1). -/
def SameBeyondStatus (m m' : Memory) : Prop := ∀ a, 192 ≤ a → m'.rd a = m.rd a

/-! ## Fields of the exchange memory (chapter 12) -/

/-- The offset of strand n's entry in the status block (12.1). -/
def strandEntry (n : Strand) : Nat := 64 + 32 * (n.num - 1)

/-- Does field f of the station page pass its check: its range (2.1), or its condition (R20, R21)? The fields of a strand whose present
field is 0 are not checked, nor is M where marker present is 0; a number that is no field's passes. -/
def StationFieldOk (m : Memory) (f : Nat) : Prop :=
  let n := f / 100
  let v := fun (offset size : Nat) => m.rdNat (0x2000 + 64 * n + offset) size
  let within := fun (lo hi x : Nat) => lo ≤ x ∧ x ≤ hi
  if n = 0 then
    match f with
    | 1 => within 1 50 (v 0 2)
    | 2 => within 1 50 (v 2 2)
    | 3 => v 4 2 ≤ 5000
    | 4 => v 6 2 ≤ 10000
    | _ => True
  else if n ≤ 4 ∧ v 0 1 ≠ 0 then
    match f % 100 with
    | 1 => v 0 1 = 1
    | 2 => within 1000 400000 (v 4 4)
    | 3 => within 1000 400000 (v 8 4)
    | 4 => v 1 1 ≤ 1
    | 5 => v 1 1 = 0 ∨ v 12 4 ≤ 400000
    | 6 => within 1000 1000000 (v 16 4)
    | 7 => v 2 1 ≤ 1
    | 8 => within 1 5000 (v 20 2)
    | 9 => v 22 2 < v 20 2
    | 10 => within 20 5000 (v 24 2)
    | 11 => within 200 650 (v 26 2)
    | 12 => within 200 650 (v 28 2) ∧ v 26 2 < v 28 2
    | 13 => v 3 1 ≤ 255
    | 14 => within 5 500 (v 30 2)
    | 15 => within 1 255 (v 32 1)
    | _ => True
  else True

/-- Does field f of the recipe slot at b pass its check (2.4, R27)? Holes beyond the hole count and features beyond n are not checked;
a number that is no field's passes. -/
def RecipeFieldOk (m : Memory) (b f : Nat) : Prop :=
  let v := fun (offset size : Nat) => m.rdNat (b + offset) size
  let within := fun (lo hi x : Nat) => lo ≤ x ∧ x ≤ hi
  let n := f / 100
  if n = 0 then
    match f with
    | 1 => within 1 65535 (v 0 2)
    | 2 => v 2 2 ≤ 255
    | 4 => within 1 24 (v 36 1)
    | 5 => within 1800 2800 (v 44 2)
    | 6 => within 250 650 (v 46 2)
    | 7 => within 1 32 (v 38 1)
    | 8 => within 1 32 (v 39 1)
    | 9 => within 1 32 (v 40 1)
    | 10 => within 1 4 (v 37 1)
    | 11 => v 48 2 ≤ 5000
    | 12 => within 10000 700000 (v 52 4)
    | 13 => v 41 1 ≤ 1
    | 14 => v 42 1 % 2 = 0 ∧ v 42 1 < 64
    | _ =>
      (∀ h, 1 ≤ h → h ≤ 4 → h ≤ v 37 1 → f = 20 + h → v (56 + 4 * (h - 1)) 4 ≤ 200000) ∧
        ∀ h, 1 ≤ h → h ≤ 4 → h ≤ v 37 1 → f = 30 + h → within 1000 60000 (v (72 + 4 * (h - 1)) 4)
  else if n ≤ 24 ∧ n ≤ v 36 1 then
    let w := fun (offset size : Nat) => v (128 + 16 * (n - 1) + offset) size
    match f % 100 with
    | 1 => within 100 999999 (w 0 4)
    | 2 => within 1 99999 (w 4 4)
    | 3 => within 1 99999 (w 8 4)
    | 4 => within 50 100 (w 12 1)
    | 5 => w 13 1 ≤ 15
    | _ => True
  else True

/-! ## The switch-over (R44) -/

/-- From s to t the last pending switch of the run, to entry k, has been passed: the run recipe becomes k and a RUN record AMENDED is
formed; with the run record slot full the switch-over waits (R44, R48, R49). `v` is each strand as the record finds it. -/
def SwitchesOver (s t : State) (k : Fin 8) (v : Strand → StrandState) : Prop :=
  (s.run.slot.isSome = true → t.run = { s.run with waitingSwitch := some k }) ∧
  (s.run.slot = none → t.run = { s.run with
    recipe := some k
    waitingSwitch := none
    slot := some {
      event := .amended, index := k, recipeId := (s.env.entry k).id, edition := (s.env.entry k).edition, mask := s.run.mask,
      runId := s.run.runId, billets := s.run.billets, time := s.time,
      strands := Four.build (fun n =>
        if s.inMask n then { nose := (v n).map.nose, frontier := (v n).map.frontier, pieces := (v n).cuts.pieces }
        else { nose := none, frontier := 0, pieces := 0 }) } })

/-! ## Boundaries and marks (R119, R142, R143) -/

/-- A boundary is offered at a as a scan at x is taken: a zone's or a class boundary at or below x, or that of a switch x passes
(R119, R130). -/
def StrandState.Offered (st : StrandState) (x a : Nat) : Prop :=
  (a ∈ st.fore.offers ∧ a ≤ x) ∨ ∃ w, st.switch = some w ∧ w.coord ≤ x ∧ a = max w.coord st.map.frontier

/-- What the map mark and the map unit's messages become from st to t as the open segment b is judged: a mark begins from x, or ends
at y (R142, R143). -/
structure MarkJudged (st t : StrandState) (e : Env) (n : Strand) (b : SegBody) (x y : Nat) : Prop where
  /-- marked, with no map mark open: the request with its OFF open, where the strand has a marker and the ON lies below the cap -/
  begins : b.marked (e.recipe st) = true → st.map.mapMark = none → ∀ m, e.marker n = some m → x + m < 4000000000 →
    t.map.mapMark = some (x + m) ∧
      t.mapMail = st.mapMail ++ [.request { requester := .map, on := x + m, off := none, source := x }]
  notSent : b.marked (e.recipe st) = true → st.map.mapMark = none → (∀ m, e.marker n = some m → 4000000000 ≤ x + m) →
    t.map.mapMark = none ∧ t.mapMail = st.mapMail
  stays : (b.marked (e.recipe st) = true ↔ st.map.mapMark.isSome = true) →
    t.map.mapMark = st.map.mapMark ∧ t.mapMail = st.mapMail
  ends : b.marked (e.recipe st) = false → ∀ on, st.map.mapMark = some on →
    t.map.mapMark = none ∧ t.mapMail = st.mapMail ++ [.off (min (y + (e.marker n).getD 0) 4000000000)]

/-! ## What the port, the report unit and the order unit keep (R7, R13, R14, R177) -/

/-- The stored status block shows what the report unit has last written (R14). -/
def StatusAgrees (s : State) : Prop :=
  s.xp.mem.rdBytes 0 192 = statusBytes s.report.updateSeq s.report.updateTime s.report.shown

/-- The stored state words and the port's copies agree (R7). -/
def CopiesAgree (s : State) : Prop :=
  (∀ i : Fin 32, s.xp.mem.rd32 (cellBase i.val) = (s.xp.cells.get i).code) ∧
    ∀ p : Fin 54, s.xp.mem.rd32 (pageBase p.val) = (s.xp.pages.get p).code

/-- The page the report unit fills is the one page that is FILLING (R177). -/
def FillingAgrees (s : State) : Prop :=
  ∀ p : Fin 54, s.xp.pages.get p = .filling ↔ ∃ f, s.report.fill = some f ∧ f.page = p

/-- The one TAKEN cell is the cell of the order in hand, no order is in hand unless the part is ready, and a search is under way only
while the part is ready and no order is in hand (R11, R13, R16). -/
def OneTaken (s : State) : Prop :=
  (∀ i : Fin 32, s.xp.cells.get i = .taken ↔ ∃ o, s.orders.hand = some o ∧ o.cell = i) ∧
    (s.ready = false → s.orders.hand = none) ∧
    ∀ k, s.orders.search = some k → k < 32 ∧ s.ready = true ∧ s.orders.hand = none

/-! ## What a strand keeps -/

/-- Segments that begin at a coordinate, each where the one before it ends, and end at a coordinate (R127). -/
def Chained : Nat → List Segment → Nat → Prop
  | a, [], b => a = b
  | a, g :: gs, b => g.body.start = a ∧ a ≤ g.stop ∧ Chained g.stop gs b

/-- The pending cuts divide the closed segments: the cuts rise from the last cut, and the segments of each run from the cut before to
its coordinate (R139, R150, R155). -/
def CutsDivide : Nat → List Segment → List PendingCut → Prop
  | _, _, [] => True
  | a, gs, p :: ps => a < p.coord ∧ p.segs ≤ gs.length ∧ Chained a (gs.take p.segs) p.coord ∧ CutsDivide p.coord (gs.drop p.segs) ps

/-- The pending cuts whose place is USED (R135). -/
def Cutter.used (c : Cutter) : Nat := c.pending.countP (fun p => p.place == .used)

/-- The limits of a strand's state: the high-water coordinate and the accumulator (R55, R57), the FIFO (R78), the forecast list (R111),
the pending cuts (R153) and the mark queue (R165). -/
structure StrandState.InLimits (st : StrandState) : Prop where
  acc : st.chan.acc ≤ Config.accumulatorBound
  hw : st.chan.hw ≤ Config.coordCap
  position : st.chan.position ≤ st.chan.hw
  fifo : st.port.scans ≤ Config.fifoScans
  zones : st.fore.zones.length ≤ Config.forecastZones
  cuts : st.cuts.pending.length ≤ Config.pendingCuts
  marks : st.marker.queue.length ≤ Config.markIntervals

/-- A marker output is active exactly when it is forced ON, or when it is not forced and the high-water coordinate lies at or beyond the
head interval's ON and before its OFF; the head of the queue has not been passed (R170). -/
structure StrandState.MarkerAgrees (st : StrandState) : Prop where
  active : st.marker.active = true ↔ st.marker.force = .on ∨
    (st.marker.force = .none ∧ ∃ i, st.marker.queue.head? = some i ∧ i.on ≤ st.chan.hw ∧ ∀ o, i.off = some o → st.chan.hw < o)
  head : ∀ i o, st.marker.queue.head? = some i → i.off = some o → st.chan.hw < o

/-- There is an open segment exactly while the strand is TRACKING (R127). -/
def StrandState.OpenAgrees (st : StrandState) : Prop := st.map.cur.isSome = true ↔ st.track = .tracking

/-- The end of the closed segments: the open segment's start, or the frontier (R127). -/
def StrandMap.closedEnd (m : StrandMap) : Nat := m.cur.elim m.frontier (·.start)

/-- The map of a strand covers it from the last cut to its frontier, without gap or overlap, and is divided at its pending cuts; the
segments beyond the sixtieth are those of the cuts with place USED (R127, R135, R139). -/
structure StrandState.Covers (st : StrandState) (last : Nat) : Prop where
  chain : Chained last st.map.closed st.map.closedEnd
  frontier : st.map.closedEnd ≤ st.map.frontier
  cuts : CutsDivide last st.map.closed st.cuts.pending
  places : st.map.count ≤ Config.ordinarySegments + st.cuts.used
  /-- while the strand is graded a segment follows a newest cut whose place is not HELD -/
  follows : (st.track = .tracking ∨ st.track = .tailed) → ∀ p, st.cuts.pending.getLast? = some p → p.place ≠ .held →
    heldSegs st.cuts.pending < st.map.closed.length ∨ st.map.cur.isSome = true
  /-- while the strand is graded a HELD cut lies at the tail of a TAILED strand -/
  held : (st.track = .tracking ∨ st.track = .tailed) → ∀ p ∈ st.cuts.pending, p.place = .held →
    st.track = .tailed ∧ p.coord = st.map.frontier

/-- A strand of an open run: with a nose its map covers it; without one it holds nothing (3.3, R127). -/
structure StrandState.MapOk (st : StrandState) : Prop where
  tracked : st.track = .tracking ∨ st.track = .tailed → st.map.nose.isSome = true
  tailed : st.track = .tailed → st.map.tail = some st.map.frontier
  waiting : st.track = .waiting → st.map.nose = none
  noNose : st.map.nose = none → st.map.closed = [] ∧ st.map.cur = none ∧ st.cuts.lastCut = none ∧ st.cuts.pending = []
  covers : st.map.nose.isSome = true → ∃ last, st.cuts.lastCut = some last ∧ st.Covers last
  candidate : ∀ c, st.eval.candidate = some c → c.start ≤ st.map.frontier

/-! ## What the run keeps -/

/-- Outside ARMED and ACTIVE every strand is OFF; in them no run strand is; a strand outside the mask is OFF; a RUN record CLOSED in the
slot belongs to a FINISHING run (3.1, 3.3, R36, R46). -/
structure TracksAgree (s : State) : Prop where
  ended : s.grading = false → ∀ n, (s.strand n).track = .off
  graded : s.grading = true → ∀ n, s.inMask n = true → (s.strand n).track ≠ .off
  outside : ∀ n, s.inMask n = false → (s.strand n).track = .off
  closed : ∀ r, s.run.slot = some r → r.event = .closed → s.run.state = .finishing

/-- The counts of the whole part stay in their ranges (R42, R175, R176). -/
structure CountsInLimits (s : State) : Prop where
  queue : s.report.queue.length ≤ Config.holdingRecords
  lost : s.report.lost ≤ 65535
  billets : s.run.billets ≤ 65535

end Sys2Proof.Machine
end

