-- ==== Sys2Proof/Certificates/Slice0/Obligations.lean ====
section
/-! DEFINITION. The statements for the provers. `Completes c s u` says that command c answers a next state that is u after the end of
the event (R14, R182): what u does not change against s, the command does not change. -/

open Sys2Proof Sys2Proof.Machine

/-! ## The queue of commands and time (logs 1, 2, 9) -/

/-- A step with a command at the front of the queue is exec of that command on the state with the queue's rest (the model's
convention, log 1). -/
def Obligations.StepRunsFrontCommand : Prop :=
  ∀ (c : Instr) (s : State), step { s with pending := c :: s.pending } = exec c s

/-- Every command answers a next state from every state, but an EXCHANGE_WRITE that reaches beyond the window, which faults
(log 9). -/
def Obligations.EveryCommandCompletes : Prop :=
  (∀ (c : Instr) (s : State), c.wellFormed = true → ∃ t : State, exec c s = .next t) ∧
    ∀ (offset : Nat) (bytes : List Byte) (s : State), Config.windowBytes < offset + bytes.length →
      exec (.exchangeWrite offset bytes) s = .fault .outsideExchangeWindow

/-- No command changes the queue of commands, and none but POWER_ON the clock; a step with no command waiting passes one millisecond and
changes nothing else (the model's conventions, logs 1, 2, 4). -/
def Obligations.ExecKeepsQueueAndClock : Prop :=
  (∀ (c : Instr) (s t : State), exec c s = .next t →
    t.pending = s.pending ∧ t.clock = if c = .powerOn then 0 else s.clock) ∧
    ∀ s : State, s.pending = [] → step s = .next { s with clock := s.clock + 1 }

/-! ## Resets (R15 to R17) -/

/-- What the part holds right after power-on (R14, R15 and the state tables of chapters 2 to 11). -/
def Obligations.ResetState : Prop :=
  (State.reset.readRegister .ident = 0#32 ∧ State.reset.readRegister .notice = 0#32 ∧
    State.reset.readRegister .noticeMask = 0#32 ∧ State.reset.readRegister .restart = 0#32) ∧
  ((∀ i : Fin 32, State.reset.xp.cells.get i = .free ∧ ∀ k < 128, State.reset.xp.mem.rd (cellBase i.val + k) = 0#8) ∧
    (∀ p : Fin 54, State.reset.xp.pages.get p = .free ∧ ∀ k < 64, State.reset.xp.mem.rd (pageBase p.val + k) = 0#8) ∧
    (∀ a, 0x2000 ≤ a → a < 0x14000 → State.reset.xp.mem.rd a = 0#8) ∧ State.reset.xp.mem.rd32 24 = 0xFFFFFFFF) ∧
  (State.reset.orders.attention = false ∧ State.reset.orders.lastTaken = 31 ∧ State.reset.orders.hand = none ∧
    State.reset.orders.search = none) ∧
  (State.reset.run.station = none ∧ (∀ k, State.reset.run.store.get k = none) ∧ State.reset.run.state = .idle ∧
    State.reset.run.runId = 0#32 ∧ State.reset.run.recipe = none ∧ (∀ n, State.reset.inMask n = false) ∧
    State.reset.run.billets = 0 ∧ State.reset.run.staged = none ∧ State.reset.run.slot = none) ∧
  (∀ n, (State.reset.strand n).track = .off ∧ (State.reset.strand n).recipe = none ∧ (State.reset.strand n).switch = none ∧
    (State.reset.strand n).chan.acc = 0 ∧ (State.reset.strand n).chan.position = 0 ∧ (State.reset.strand n).chan.hw = 0 ∧
    (State.reset.strand n).chan.reverse = false ∧ (State.reset.strand n).chan.capReached = false ∧
    (State.reset.strand n).chan.windowSum = 0 ∧ (State.reset.strand n).chan.speed = 0 ∧
    (State.reset.strand n).chan.motion = .still ∧ (State.reset.strand n).chan.startCount = 0 ∧
    (State.reset.strand n).chan.dwell = none ∧ (State.reset.strand n).chan.stopCapture = none ∧
    (State.reset.strand n).port.fifo = [] ∧ (State.reset.strand n).port.lastSeq = none ∧
    (State.reset.strand n).port.fault = false ∧ (State.reset.strand n).port.stale = .notArmed ∧
    (State.reset.strand n).eval.lastValid = none ∧ (State.reset.strand n).eval.hold = 0 ∧
    (State.reset.strand n).eval.confirmed = .sound ∧ (State.reset.strand n).eval.candidate = none ∧
    (State.reset.strand n).fore.zones = [] ∧ (State.reset.strand n).map.closed = [] ∧ (State.reset.strand n).map.cur = none ∧
    (State.reset.strand n).map.nose = none ∧ (State.reset.strand n).cuts.pending = [] ∧
    (State.reset.strand n).marker.queue = [] ∧ (State.reset.strand n).marker.force = .none ∧
    (State.reset.strand n).marker.active = false) ∧
  (State.reset.lastServed = .s4 ∧ State.reset.service = none ∧ State.reset.pieceServed = .s4 ∧ State.reset.report.queue = [] ∧
    State.reset.report.fill = none ∧ State.reset.report.serial = 0#64 ∧ State.reset.report.cursor = 53 ∧
    State.reset.report.lost = 0)

/-- POWER_ON leaves what right after power-on holds; the levels of the pins, whether MSI is enabled and the waiting commands are
outside the part and stay (R15; what stays is the model's choice, log 4). -/
def Obligations.PowerOnResets : Prop :=
  ∀ s : State, exec .powerOn s = .next
    { State.reset with
      pending := s.pending
      xp := { State.reset.xp with msiEnabled := s.xp.msiEnabled }
      strands := Four.build (fun n =>
        { chan := { pinA := (s.strand n).chan.pinA, pinB := (s.strand n).chan.pinB } })
      inputs := { seam := { active := s.inputs.seam.active }, saw := { active := s.inputs.saw.active } } }

/-- POWER_ON_INIT_END: IDENT reads its value, the A/B levels are sampled and a speed window begins, each qualifier follows its input
level, and the status block shows IDENT and the cause POWER_ON (R14, R15, R65, R71). That the update sequence and update time stay as
they were is the model's choice (log 6). -/
def Obligations.PowerOnInitEndMakesReady : Prop :=
  ∀ s : State, s.xp.phase = .initialising →
    ∃ t : State, exec .powerOnInitEnd s = .next t ∧
      t.readRegister .ident = 0x50470401#32 ∧
      (∀ n, t.strand n = { s.strand n with chan := { (s.strand n).chan with
        lastA := (s.strand n).chan.pinA, lastB := (s.strand n).chan.pinB, windowStart := s.clock } }) ∧
      t.inputs = { s.inputs with
        seam := { active := s.inputs.seam.active, state := if s.inputs.seam.active then .held else .quiet }
        saw := { active := s.inputs.saw.active, state := if s.inputs.saw.active then .held else .quiet } } ∧
      t.xp.mem.rd32 0 = 0x50470401 ∧ t.xp.mem.rd 12 = 1#8 ∧ SameBeyondStatus s.xp.mem t.xp.mem ∧
      t = { s with
        xp := { s.xp with phase := .ready, mem := t.xp.mem }
        strands := t.strands
        inputs := t.inputs
        report := { s.report with shown := t.report.shown } }

/-- The RESTART register (R2). -/
def Obligations.RestartRegister : Prop :=
  ∀ s : State,
    (s.ready = true → ∃ t : State, exec .restart s = .next t ∧ t.xp.phase = .restarting ∧ t.noticed .refused = false) ∧
    (s.ready = false → exec .restart s = .next s ∧
      exec (.registerWriteIgnored .restart (.word 0x3C#32)) s = .next s) ∧
    (∀ v : Word32, v ≠ 0x3C#32 → exec (.registerWriteIgnored .restart (.word v)) s = .next s) ∧
    s.readRegister .restart = 0#32

/-- What a part restart makes of every block (R16, R24, R31, R50, R65, R71, R86, R109, R125, R146, R164, R173, R185). That requests and
raised incidents on their way are discarded, and a search under way is given up, is the model's choice (logs 11 and 8), and so
is that the last levels and window start stay until the end of the restart, and that the qualifiers are set by the input levels as it
begins, and not only at its end (log 28). -/
def Obligations.RestartResetsBlocks : Prop :=
  ∀ s : State, s.ready = true →
    ∃ t : State, exec .restart s = .next t ∧
      (t.readRegister .ident = 0#32 ∧ t.xp.mask = s.xp.mask ∧
        t.xp.notice = (if s.orders.hand.isSome then Reason.bit .answer else 0#6) |||
          (if s.run.state = .idle then 0#6 else Reason.bit .run) ||| (if s.report.fill.isSome then Reason.bit .page else 0#6)) ∧
      t.orders = { attention := false, searchDue := false, search := none, lastTaken := s.orders.lastTaken, hand := none } ∧
      (∀ o, s.orders.hand = some o →
        t.xp.cells.get o.cell = .answered ∧ t.xp.mem.rd32 (cellBase o.cell.val + 64) = 13) ∧
      (∀ i : Fin 32, (∀ o, s.orders.hand = some o → o.cell ≠ i) →
        t.xp.cells.get i = s.xp.cells.get i ∧
          ∀ k < 128, t.xp.mem.rd (cellBase i.val + k) = s.xp.mem.rd (cellBase i.val + k)) ∧
      t.run = { station := s.run.station, store := s.run.store } ∧
      (∀ n, t.strand n = { chan := {
        pinA := (s.strand n).chan.pinA, pinB := (s.strand n).chan.pinB, lastA := (s.strand n).chan.lastA,
        lastB := (s.strand n).chan.lastB, windowStart := (s.strand n).chan.windowStart } }) ∧
      t.inputs = {
        seam := { active := s.inputs.seam.active, state := if s.inputs.seam.active then .held else .quiet }
        saw := { active := s.inputs.saw.active, state := if s.inputs.saw.active then .held else .quiet } } ∧
      (t.lastServed = .s4 ∧ t.service = none ∧ t.pieceServed = .s4 ∧ t.seamMail = [] ∧ t.grantMail = [] ∧ t.sawMail = []) ∧
      (t.report.queue = [] ∧ t.report.fill = none ∧ t.report.lost = 0 ∧ t.report.serial = s.report.serial ∧
        t.report.cursor = s.report.cursor) ∧
      (∀ f, s.report.fill = some f →
        t.xp.pages.get f.page = .closed ∧ t.xp.mem.rd32 (pageBase f.page.val) = 2 ∧
          t.xp.mem.rd32 (pageBase f.page.val + 4) = 1) ∧
      (∀ p : Fin 54, (∀ f, s.report.fill = some f → f.page ≠ p) → t.xp.pages.get p = s.xp.pages.get p)

/-- RESTART_END: the part is ready, levels are sampled, the status block shows the cause RESTART with the restart count one higher, in
its bytes too, and the order unit searches the board with no attention event (R14, R16, R65, R71, 12.1). How many cells that search looks
at before the next command is the command's operand (the model's choice, log 8): it takes the first POSTED one of them, goes on later,
or ends. Whether an order it takes that fails the unit's own checks is answered in the same event is the other (log 31). -/
def Obligations.RestartEndMakesReady : Prop :=
  ∀ (s : State) (cells : Nat) (answered : Bool), s.xp.phase = .restarting →
    ∃ t : State, exec (.restartEnd cells answered) s = .next t ∧
      t.readRegister .ident = 0x50470401#32 ∧ t.report.shown.ident = 0x50470401#32 ∧
      t.report.shown.cause = some .restart ∧
      (s.report.shown.restarts ≠ BitVec.allOnes 32 → t.report.shown.restarts = s.report.shown.restarts + 1#32) ∧
      t.report.shown.lastRefused = s.report.shown.lastRefused ∧
      (t.xp.mem.rd32 0 = 0x50470401 ∧ t.xp.mem.rd 12 = 2#8 ∧
        (s.report.shown.restarts ≠ BitVec.allOnes 32 → t.xp.mem.rd32 16 = s.report.shown.restarts.toNat + 1) ∧
        t.xp.mem.rd32 24 = s.report.shown.lastRefused.toNat ∧
        ∀ n, t.xp.mem.rd32 (strandEntry n + 4) = (s.strand n).chan.hw % 4294967296 ∧
          t.xp.mem.rd32 (strandEntry n + 12) = (BitVec.ofInt 32 (s.strand n).chan.speed).toNat) ∧
      (∀ n, t.strand n = { s.strand n with chan := { (s.strand n).chan with
        lastA := (s.strand n).chan.pinA, lastB := (s.strand n).chan.pinB, windowStart := s.clock } }) ∧
      t.inputs.seam = { active := s.inputs.seam.active, state := if s.inputs.seam.active then .held else .quiet } ∧
      t.inputs.saw = { active := s.inputs.saw.active, state := if s.inputs.saw.active then .held else .quiet } ∧
      ((∀ j < 32, j < cells → s.xp.cells.get (Fin.ofNat 32 (s.orders.lastTaken.val + 1 + j)) ≠ .posted) →
        t.orders = { s.orders with search := if cells < 32 then some cells else none } ∧ t.xp.cells = s.xp.cells) ∧
      (∀ (k : Nat) (i : Fin 32), k < 32 → k < cells → i = Fin.ofNat 32 (s.orders.lastTaken.val + 1 + k) → s.xp.cells.get i = .posted →
        (∀ j < k, s.xp.cells.get (Fin.ofNat 32 (s.orders.lastTaken.val + 1 + j)) ≠ .posted) →
        t.orders.lastTaken = i ∧ t.orders.search = none ∧ t.orders.attention = s.orders.attention ∧
          (∀ j, j ≠ i → t.xp.cells.get j = s.xp.cells.get j) ∧
          ((answered = true ∧ t.xp.cells.get i = .answered ∧ t.orders.hand = none) ∨
            (t.xp.cells.get i = .taken ∧ ∃ o, t.orders.hand = some o ∧ o.cell = i ∧ o.result = unitAnswer o))) ∧
      t.run = s.run

/-! ## Registers, NOTICE and messages (R1, R3, R4, R17) -/

/-- PCIE_LINK_RESET sets NOTICE_MASK to 0; MSI_ENABLE and MSI_DISABLE only switch MSI: no message is sent by any of the three, and the
legacy interrupt is asserted only while MSI is disabled (R4, R17). -/
def Obligations.EndpointEvents : Prop :=
  ∀ s : State,
    (exec .pcieLinkReset s = .next { s with xp := { s.xp with mask := 0#6 } } ∧
      ({ s.xp with mask := 0#6 } : ExchangePort).legacyInterrupt = false) ∧
    (exec .msiEnable s = .next { s with xp := { s.xp with msiEnabled := true } } ∧
      ({ s.xp with msiEnabled := true } : ExchangePort).legacyInterrupt = false) ∧
    (exec .msiDisable s = .next { s with xp := { s.xp with msiEnabled := false } } ∧
      ({ s.xp with msiEnabled := false } : ExchangePort).legacyInterrupt = (s.xp.notice &&& s.xp.mask != 0#6))

/-- NOTICE_WRITE clears exactly the reasons whose bit is 1, but BACKLOG not while the backlog condition holds, and changes nothing else.
NOTICE_MASK_WRITE takes the low six bits, and sends one message where MSI is enabled and the masked notice goes from zero to non-zero.
Bits 6 to 31 of a value do not matter (R3, R4). -/
def Obligations.NoticeWrites : Prop :=
  (∀ (v : Word32) (s : State), ∃ x : BitVec 6,
    exec (.noticeWrite v) s = .next { s with xp := { s.xp with notice := x } } ∧
      ∀ r : Reason, x &&& r.bit ≠ 0#6 ↔
        s.xp.notice &&& r.bit ≠ 0#6 ∧ (v &&& r.bit.zeroExtend 32 = 0#32 ∨ (r = .backlog ∧ s.backlogged = true))) ∧
  ∀ (v : Word32) (s : State),
    exec (.noticeMaskWrite v) s = .next { s with xp := { s.xp with
      mask := v.truncate 6
      msiSent :=
        if s.xp.msiEnabled = true ∧ s.xp.notice &&& s.xp.mask = 0#6 ∧ s.xp.notice &&& v.truncate 6 ≠ 0#6 then s.xp.msiSent + 1
        else s.xp.msiSent } }

/-- Register writes that do nothing: any write of fewer than four bytes, and a word written to IDENT; NOTICE keeps its flags, REFUSED
among them. A read of at most four bytes of a register returns the addressed bytes of it (R1); that byte k of a register holds its bits
8 × k on is the model's choice (log 36). -/
def Obligations.IgnoredRegisterWrites : Prop :=
  ∀ s : State,
    (∀ (reg : Register) (bytes : List Byte), exec (.registerWriteIgnored reg (.short bytes)) s = .next s) ∧
    (∀ v : Word32, exec (.registerWriteIgnored .ident (.word v)) s = .next s) ∧
    (s.readRegister .ident = if s.ready then 0x50470401#32 else 0#32) ∧
    ∀ (reg : Register) (first length : Nat), first + length ≤ 4 →
      s.readRegisterBytes reg first length =
        (List.range length).map (fun k => (s.readRegister reg).extractLsb' (8 * (first + k)) 8)

/-- The whole part keeps the rule of the message: at any command but POWER_ON and RESTART, one message is sent exactly where MSI is
enabled and the masked notice goes from zero to non-zero, however many reasons the command sets; a restart, which clears NOTICE first,
sends one where the masked notice is non-zero at its end (R4, R16). -/
def Obligations.OneMessagePerRise : Prop :=
  ∀ (c : Instr) (s t : State), c ≠ .powerOn → exec c s = .next t →
    t.xp.msiSent = s.xp.msiSent +
      if s.xp.msiEnabled = true ∧ t.xp.notice &&& t.xp.mask ≠ 0#6 ∧
          (s.xp.notice &&& s.xp.mask = 0#6 ∨ (s.ready = true ∧ (c = .restart ∨ c = .registerWriteIgnored .restart (.word 0x3C#32))))
        then 1 else 0

/-! ## Host writes to the exchange window (R5 to R9) -/

/-- Which host writes are accepted: the write classes of R6 to R9, region by region. -/
def Obligations.WriteClasses : Prop :=
  ∀ (x : ExchangePort) (offset : Nat) (bytes : List Byte), bytes ≠ [] →
    (offset < 0x1000 → x.acceptsAll offset bytes = false) ∧
    (0x2000 ≤ offset → offset + bytes.length ≤ 0x14000 → x.acceptsAll offset bytes = true) ∧
    (∀ (i : Fin 32) (k : Nat), 4 ≤ k → k + bytes.length ≤ 128 → offset = cellBase i.val + k →
      (x.acceptsAll offset bytes = true ↔ x.cells.get i = .free)) ∧
    (∀ i : Fin 32, bytes.length = 4 → offset = cellBase i.val →
      (x.acceptsAll offset bytes = true ↔
        (x.cells.get i = .free ∧ leNat bytes = 1) ∨ (x.cells.get i = .answered ∧ leNat bytes = 0))) ∧
    (∀ i : Fin 32, ¬ (offset = cellBase i.val ∧ bytes.length = 4) → offset < cellBase i.val + 4 →
      cellBase i.val < offset + bytes.length → x.acceptsAll offset bytes = false) ∧
    (∀ p : Fin 54, bytes.length = 4 → offset = pageBase p.val →
      (x.acceptsAll offset bytes = true ↔ x.pages.get p = .closed ∧ leNat bytes = 0)) ∧
    (0x14000 < offset + bytes.length → offset + bytes.length ≤ 0x80000 →
      ¬ (bytes.length = 4 ∧ ∃ p : Fin 54, offset = pageBase p.val) → x.acceptsAll offset bytes = false)

/-- An accepted write is stored in full and every other byte beyond the status block reads as before; it updates the port's copy of the
state word it covers, and POSTED sets the attention flag (R5, R7, R8, R9, R10). -/
def Obligations.AcceptedWriteIsStored : Prop :=
  ∀ (offset : Nat) (bytes : List Byte) (s : State),
    s.ready = true → offset + bytes.length ≤ Config.windowBytes → s.xp.acceptsAll offset bytes = true →
    ∃ u t : State, exec (.exchangeWrite offset bytes) s = .next t ∧ Settles u t ∧
      t.xp.mem.rdBytes offset bytes.length = bytes ∧
      (∀ a, 192 ≤ a → a < offset ∨ offset + bytes.length ≤ a → t.xp.mem.rd a = s.xp.mem.rd a) ∧
      (∀ i : Fin 32, u.xp.cells.get i =
        if offset = cellBase i.val ∧ bytes.length = 4 then (s.xp.cells.get i).written else s.xp.cells.get i) ∧
      (∀ p : Fin 54, u.xp.pages.get p = if offset = pageBase p.val ∧ bytes.length = 4 then .free else s.xp.pages.get p) ∧
      (u.orders.attention = true ↔ s.orders.attention = true ∨
        ∃ i : Fin 32, offset = cellBase i.val ∧ bytes.length = 4 ∧ s.xp.cells.get i = .free) ∧
      u = { s with
        xp := { s.xp with mem := u.xp.mem, cells := u.xp.cells, pages := u.xp.pages }
        orders := { s.orders with attention := u.orders.attention } }

/-- A refused write stores nothing: REFUSED is set and the status block shows the offset of its first byte, in its bytes too; no cell,
page or byte beyond the status block changes (R5, R14, 12.1). -/
def Obligations.RefusedWriteStoresNothing : Prop :=
  ∀ (offset : Nat) (bytes : List Byte) (s : State),
    s.ready = true → offset + bytes.length ≤ Config.windowBytes → s.xp.acceptsAll offset bytes = false →
    ∃ t : State, exec (.exchangeWrite offset bytes) s = .next t ∧
      t.noticed .refused = true ∧ t.report.shown = { s.shownNow with lastRefused := BitVec.ofNat 32 offset } ∧
      SameBeyondStatus s.xp.mem t.xp.mem ∧ (StatusAgrees s → t.xp.mem.rd32 24 = offset) ∧
      t = { s with
        xp := { s.xp with notice := t.xp.notice, msiSent := t.xp.msiSent, mem := t.xp.mem }
        report := { s.report with
          backlog := s.backlogged, updateSeq := t.report.updateSeq, updateTime := t.report.updateTime,
          shown := t.report.shown } }

/-- While IDENT reads 0 every host write to the exchange window is dropped: nothing changes (R5). -/
def Obligations.WritesDroppedWhileNotReady : Prop :=
  ∀ s : State, s.readRegister .ident = 0#32 →
    (∀ (offset : Nat) (bytes : List Byte), offset + bytes.length ≤ Config.windowBytes →
      exec (.exchangeWrite offset bytes) s = .next s) ∧
    (∀ i, exec (.cellPost i) s = .next s) ∧ (∀ i, exec (.cellFree i) s = .next s) ∧ ∀ p, exec (.pageReturn p) s = .next s

/-- CELL_POST, CELL_FREE and PAGE_RETURN are writes of POSTED, FREE and FREE to a state word: a FREE cell becomes POSTED with an
attention event, an ANSWERED cell FREE without one, a CLOSED page FREE (R8, R9, R10, R181). -/
def Obligations.StateWordWrites : Prop :=
  ∀ s : State,
    (∀ i : Fin 32, exec (.cellPost i) s = exec (.exchangeWrite (cellBase i.val) [1#8, 0#8, 0#8, 0#8]) s ∧
      exec (.cellFree i) s = exec (.exchangeWrite (cellBase i.val) [0#8, 0#8, 0#8, 0#8]) s) ∧
    (∀ p : Fin 54, exec (.pageReturn p) s = exec (.exchangeWrite (pageBase p.val) [0#8, 0#8, 0#8, 0#8]) s) ∧
    (s.ready = true →
      (∀ i : Fin 32, s.xp.cells.get i = .free → Completes (.cellPost i) s
        { s with
          xp := { s.xp with
            mem := s.xp.mem.write (cellBase i.val) [1#8, 0#8, 0#8, 0#8], cells := s.xp.cells.set i .posted }
          orders := { s.orders with attention := true } }) ∧
      (∀ i : Fin 32, s.xp.cells.get i = .answered → Completes (.cellFree i) s
        { s with xp := { s.xp with
            mem := s.xp.mem.write (cellBase i.val) [0#8, 0#8, 0#8, 0#8], cells := s.xp.cells.set i .free } }) ∧
      (∀ p : Fin 54, s.xp.pages.get p = .closed → Completes (.pageReturn p) s
        { s with xp := { s.xp with
            mem := s.xp.mem.write (pageBase p.val) [0#8, 0#8, 0#8, 0#8], pages := s.xp.pages.set p .free } }))

/-! ## The order unit (R10 to R13) -/

/-- ORDER_SEARCH goes on with the search under way or, with none, starts one: after an answer, which leaves the attention flag, or from
the flag, which it clears. It looks at the cells in the order last-taken + 1 on, wrapping once, and takes the first POSTED one, which ends
the search; the flag as it then stands is left, so a cell posted during the search is taken with the flag set. An order that fails the
unit's own checks is answered at once, or its result waits for the answer (the operand; log 31). A search that has passed all 32 cells ends with the unit IDLE. An EXECUTING unit does not search
(one whose result is known answers, AnswerWritesCell), nor does an IDLE one with nothing to search for, nor one of a part that is not ready (R10, R11, R12). How many cells it
looks at before the next command is the operand (the model's choice, log 8). -/
def Obligations.SearchTakesPostedCell : Prop :=
  (∀ (s : State) (cells k0 k : Nat) (i : Fin 32) (answered : Bool),
    s.ready = true → s.orders.hand = none →
    s.orders.search = some k0 ∨ s.orders.search = none ∧ k0 = 0 ∧ (s.orders.searchDue = true ∨ s.orders.attention = true) →
    k0 ≤ k → k < k0 + cells → k < 32 → i = Fin.ofNat 32 (s.orders.lastTaken.val + 1 + k) → s.xp.cells.get i = .posted →
    (∀ j, k0 ≤ j → j < k → s.xp.cells.get (Fin.ofNat 32 (s.orders.lastTaken.val + 1 + j)) ≠ .posted) →
    ∃ (o : Order) (u : State), o.kind = s.xp.mem.rd32 (cellBase i.val + 4) ∧ o.tag.toNat = s.xp.mem.rd32 (cellBase i.val + 8) ∧
      o.op1 = s.xp.mem.rd32 (cellBase i.val + 12) ∧ o.op2 = s.xp.mem.rd32 (cellBase i.val + 16) ∧
      o.op3 = s.xp.mem.rd32 (cellBase i.val + 20) ∧ o.op4 = s.xp.mem.rd32 (cellBase i.val + 24) ∧ o.cell = i ∧
      o.waiting = false ∧ o.result = none ∧
      u = { s with
        orders := {
          attention := (s.orders.search.isSome || s.orders.searchDue) && s.orders.attention,
          searchDue := s.orders.search.isSome && s.orders.searchDue, search := none, lastTaken := i, hand := some o }
        xp := { s.xp with
          mem := s.xp.mem.write (cellBase i.val) [2#8, 0#8, 0#8, 0#8], cells := s.xp.cells.set i .taken } } ∧
      Completes (.orderSearch cells answered) s ((unitAnswer o).elim u (fun a =>
        if answered then u.answer o a
        else { u with orders := { u.orders with hand := some { o with result := some a } } }))) ∧
  (∀ (s : State) (cells k0 : Nat) (answered : Bool),
    s.ready = true → s.orders.hand = none →
    s.orders.search = some k0 ∨ s.orders.search = none ∧ k0 = 0 ∧ (s.orders.searchDue = true ∨ s.orders.attention = true) →
    (∀ j, k0 ≤ j → j < k0 + cells → j < 32 → s.xp.cells.get (Fin.ofNat 32 (s.orders.lastTaken.val + 1 + j)) ≠ .posted) →
    Completes (.orderSearch cells answered) s { s with orders := { s.orders with
      attention := (s.orders.search.isSome || s.orders.searchDue) && s.orders.attention
      searchDue := s.orders.search.isSome && s.orders.searchDue
      search := if k0 + cells < 32 then some (k0 + cells) else none } }) ∧
  ∀ (s : State) (cells : Nat) (answered : Bool),
    s.ready = false ∨ (∃ o, s.orders.hand = some o ∧ o.result = none) ∨
      (s.orders.hand = none ∧ s.orders.search = none ∧ s.orders.searchDue = false ∧ s.orders.attention = false) →
    Completes (.orderSearch cells answered) s s

/-- The order unit's own checks: BAD_ORDER for a kind outside 1 to 9; BAD_OPERAND with the number of the first operand out of its range
(R12). -/
def Obligations.OrderUnitChecks : Prop :=
  ∀ o : Order,
    (o.kind = 0 ∨ 9 < o.kind → unitAnswer o = some ⟨1, 0⟩) ∧
    (o.kind = 1 ∨ o.kind = 5 ∨ o.kind = 6 → unitAnswer o = none) ∧
    (o.kind = 2 ∨ o.kind = 4 → unitAnswer o = if o.op1 ≤ 7 then none else some ⟨2, 1⟩) ∧
    (o.kind = 3 → unitAnswer o =
      if 7 < o.op1 then some ⟨2, 1⟩ else if 1 ≤ o.op2 ∧ o.op2 ≤ 15 then none else some ⟨2, 2⟩) ∧
    (o.kind = 7 → unitAnswer o =
      if o.op1 < 1 ∨ 4 < o.op1 then some ⟨2, 1⟩
      else if 4000000000 < o.op2 then some ⟨2, 2⟩
      else if o.op3 < 1 ∨ 4000000000 - o.op2 < o.op3 then some ⟨2, 3⟩
      else if 65535 < o.op4 then some ⟨2, 4⟩ else none) ∧
    (o.kind = 8 → unitAnswer o = if 1 ≤ o.op1 ∧ o.op1 ≤ 15 then none else some ⟨2, 1⟩) ∧
    (o.kind = 9 → unitAnswer o =
      if o.op1 < 1 ∨ 4 < o.op1 then some ⟨2, 1⟩ else if 1 ≤ o.op2 ∧ o.op2 ≤ 3 then none else some ⟨2, 2⟩)

/-- What an answer writes: result, detail, answer tag and answer time in the cell taken, then ANSWERED in its state word; ANSWER is
set, the order in hand is discarded and a search is due; every other byte reads as before (R13, 12.1). Every order's command has one
effect, taken with its checks as one event (R12), and answers in that event or leaves the result in hand; the effect touches no cell and
sets no ANSWER. A result in hand is taken to no effect again: it is answered by ORDER_SEARCH, or ABORTED by a part restart (R13, R16). What
an ADOPT_RECIPE that a restart cuts off before its answer made of the entry stands (R31). That the answer in a later event is
ORDER_SEARCH's is the model's choice (log 31). -/
def Obligations.AnswerWritesCell : Prop :=
  let commands : List (Nat × (Bool → Instr)) := [
    (1, fun b => .setStation b), (2, fun b => .adoptRecipe b), (3, fun b => .armRun b), (4, fun b => .amendRun b), (5, fun b => .endRun b),
    (6, fun b => .abandonRun b), (7, fun b => .addZone b), (8, fun b => .softCut b), (9, fun b => .forceMarker b)]
  (∀ (s : State) (o : Order), ∀ c ∈ commands, s.holds o c.1 → (c.1 = 3 ∨ c.1 = 6 → s.run.slot = none) →
    ∃ (u : State) (a : Answer), u.orders = s.orders ∧ u.xp.cells = s.xp.cells ∧
      (∀ i : Fin 32, ∀ j < 128, u.xp.mem.rd (cellBase i.val + j) = s.xp.mem.rd (cellBase i.val + j)) ∧
      u.noticed .answer = s.noticed .answer ∧
      Completes (c.2 true) s (u.answer o a) ∧
      Completes (c.2 false) s { u with orders := { u.orders with hand := some { o with waiting := false, result := some a } } }) ∧
  (∀ (s : State) (o : Order) (a : Answer), s.orders.hand = some o → o.result = some a →
    (∀ c ∈ commands, ∀ answered, Completes (c.2 answered) s s) ∧
    (s.ready = true → (∀ cells answered, Completes (.orderSearch cells answered) s (s.answer o a)) ∧
      ∃ t : State, exec .restart s = .next t ∧ t.xp.cells.get o.cell = .answered ∧
        t.xp.mem.rd32 (cellBase o.cell.val + 64) = 13 ∧ t.run.station = s.run.station ∧ t.run.store = s.run.store)) ∧
  (∀ (s : State) (o : Order), s.holds o 2 → s.ready = true →
    let k := entryOf o.op1
    ∃ v t : State, exec (.adoptRecipe false) s = .next v ∧ exec .restart v = .next t ∧
      t.run.store = (if s.pinned k then s.run.store else s.run.store.set k
        (if firstFailing (recipeChecks s.xp.mem (slotBase k.val)) = none then some (readRecipe s.xp.mem (slotBase k.val)) else none)) ∧
      t.xp.cells.get o.cell = .answered ∧ t.xp.mem.rd32 (cellBase o.cell.val + 64) = 13) ∧
  ∀ (s : State) (o : Order) (a : Answer), a.result < 4294967296 → a.detail < 4294967296 →
    (s.answer o a).xp.mem.rd32 (cellBase o.cell.val + 64) = a.result ∧
    (s.answer o a).xp.mem.rd32 (cellBase o.cell.val + 68) = a.detail ∧
    (s.answer o a).xp.mem.rd32 (cellBase o.cell.val + 72) = o.tag.toNat ∧
    (s.answer o a).xp.mem.rd32 (cellBase o.cell.val + 76) = s.clock % 4294967296 ∧
    (s.answer o a).xp.mem.rd32 (cellBase o.cell.val) = 3 ∧
    (∀ i, (s.answer o a).xp.cells.get i = if i = o.cell then .answered else s.xp.cells.get i) ∧
    (∀ b, ¬ (cellBase o.cell.val ≤ b ∧ b < cellBase o.cell.val + 4) →
      ¬ (cellBase o.cell.val + 64 ≤ b ∧ b < cellBase o.cell.val + 80) → (s.answer o a).xp.mem.rd b = s.xp.mem.rd b) ∧
    (s.answer o a).noticed .answer = true ∧
    s.answer o a = { s with
      xp := { s.xp with
        notice := s.xp.notice ||| Reason.bit .answer, msiSent := (s.answer o a).xp.msiSent,
        mem := (s.answer o a).xp.mem, cells := (s.answer o a).xp.cells }
      orders := { s.orders with hand := none, searchDue := true } }

/-! ## Station and recipes (chapter 2) -/

/-- SET_STATION: refused RUN_OPEN outside IDLE; BAD_STATION with the first failing field of the page; otherwise the page becomes the
adopted geometry. The failing field is the first in ascending number whose range or condition fails, absent strands passed over. An
adoption ends a dwell that is over by the new stop dwell, and leaves a strand without a marker with an empty queue, no force and an
inactive output; it ends or closes by a running linger timer as R22 says (R18 to R23). The adoption of a SET_STATION that a part restart
cuts off before its answer stands, and the order is answered ABORTED (R24). That it discards mark requests on their way is
the model's choice (log 11). -/
def Obligations.SetStationAdopts : Prop :=
  ∀ (s : State) (o : Order), s.holds o 1 →
    (s.run.state ≠ .idle → Completes .setStation s (s.answer o ⟨4, 0⟩)) ∧
    (∀ f, s.run.state = .idle → firstFailing (stationChecks s.xp.mem) = some f →
      Completes .setStation s (s.answer o ⟨7, f⟩)) ∧
    (s.run.state = .idle → firstFailing (stationChecks s.xp.mem) = none →
      ∃ u : State, Completes .setStation s (u.answer o ⟨0, 0⟩) ∧
        u.run = { s.run with station := some (readStation s.xp.mem) } ∧
        (∀ n,
          let st := s.strand n
          let st1 := if st.chan.dwellOver u.env n then
              { st with
                chan := { st.chan with motion := .halted, startCount := 0, dwell := none }
                stopMail := if st.track = .waiting ∨ st.track = .tracking then st.stopMail ++ st.chan.stopCapture.toList
                            else st.stopMail }
            else st
          u.strand n = if (u.env.marker n).isNone then { st1 with marker := {}, foreMail := [], mapMail := [] } else st1) ∧
        (s.report.fill = none → u.report = s.report ∧ u.xp = s.xp) ∧
        (∀ f, s.report.fill = some f → (readStation s.xp.mem).linger = 0 →
          u.report = { s.report with fill := some { f with linger := none } } ∧ u.xp = s.xp) ∧
        (∀ f, s.report.fill = some f → 0 < (readStation s.xp.mem).linger →
          if ∃ t, f.linger = some t ∧ t + (readStation s.xp.mem).linger ≤ s.clock then
            u.report = { s.report with fill := none } ∧ u.xp.pages.get f.page = .closed ∧ u.noticed .page = true
          else u.report = s.report ∧ u.xp = s.xp) ∧
        u = { s with xp := u.xp, run := u.run, strands := u.strands, report := u.report }) ∧
    (s.ready = true → ∃ v t : State, exec (.setStation false) s = .next v ∧ exec .restart v = .next t ∧
      t.run.station = (if s.run.state = .idle ∧ firstFailing (stationChecks s.xp.mem) = none then some (readStation s.xp.mem)
                       else s.run.station) ∧
      t.xp.cells.get o.cell = .answered ∧ t.xp.mem.rd32 (cellBase o.cell.val + 64) = 13) ∧
    ∀ m : Memory, (firstFailing (stationChecks m) = none ↔ ∀ f, StationFieldOk m f) ∧
      ∀ f, firstFailing (stationChecks m) = some f ↔ ¬ StationFieldOk m f ∧ ∀ g < f, StationFieldOk m g

/-- ADOPT_RECIPE: IN_USE for a pinned entry, whose content stays; BAD_RECIPE with the first failing field empties the entry; otherwise
the entry becomes VALID with the slot's copy; no other entry changes. The failing field is the first in ascending number whose range
fails, the name always passing (R26, R27, R28). -/
def Obligations.AdoptRecipeFillsEntry : Prop :=
  ∀ (s : State) (o : Order), s.holds o 2 →
    let k := entryOf o.op1
    (s.pinned k = true → Completes .adoptRecipe s (s.answer o ⟨9, 0⟩)) ∧
    (∀ f, s.pinned k = false → firstFailing (recipeChecks s.xp.mem (slotBase k.val)) = some f →
      Completes .adoptRecipe s
        (State.answer { s with run := { s.run with store := s.run.store.set k none } } o ⟨8, f⟩)) ∧
    (s.pinned k = false → firstFailing (recipeChecks s.xp.mem (slotBase k.val)) = none →
      Completes .adoptRecipe s
        (State.answer { s with run := { s.run with store := s.run.store.set k (some (readRecipe s.xp.mem (slotBase k.val))) } }
          o ⟨0, 0⟩)) ∧
    ∀ (m : Memory) (b : Nat), (firstFailing (recipeChecks m b) = none ↔ ∀ f, RecipeFieldOk m b f) ∧
      ∀ f, firstFailing (recipeChecks m b) = some f ↔ ¬ RecipeFieldOk m b f ∧ ∀ g < f, RecipeFieldOk m b g

/-- A pinned entry is never replaced or emptied: no command but POWER_ON changes the content of an entry that the run recipe, a strand
recipe, the staged amendment, a pending switch or a waiting switch-over names (R28, R32). -/
def Obligations.PinnedEntryKept : Prop :=
  ∀ (c : Instr) (s t : State) (k : Fin 8), c ≠ .powerOn → s.pinned k = true → exec c s = .next t →
    t.run.store.get k = s.run.store.get k

/-! ## Runs (chapter 3) -/

/-- ARM_RUN that passes its checks opens the run: the run controller's fields, what each strand in the mask is reset to, what a strand
outside it keeps, the RUN record OPENED, and the mark on the entry in service of a strand in the mask, by which its taking discards it
(R34, R36, R48, R64, R85, R88, R125, R146, R164, R172). That requests on their way are discarded is the model's choice (log 11). -/
def Obligations.ArmRunOpensRun : Prop :=
  ∀ (s : State) (o : Order) (r : Recipe), s.holds o 3 → s.run.slot = none → s.run.station.isSome = true → s.run.state = .idle →
    let k := entryOf o.op1
    let mask := maskOf o.op2
    s.run.store.get k = some r →
    (∀ n, mask.get n = true → (s.env.strand n).isSome = true ∧ n.num ≤ r.holes.length) →
    ∃ u : State, Completes .armRun s (u.answer o ⟨0, 0⟩) ∧
      u.run = { s.run with
        state := if [Strand.s1, .s2, .s3, .s4].any (fun n => mask.get n && (s.strand n).chan.motion == .moving) then .active else .armed
        runId := BitVec.ofNat 32 o.op3
        recipe := some k
        mask := mask
        billets := 0
        staged := none
        slot := some {
          event := .opened, index := k, recipeId := r.id, edition := r.edition, mask := mask, runId := BitVec.ofNat 32 o.op3,
          billets := 0, time := s.time, strands := Four.build (fun _ => { nose := none, frontier := 0, pieces := 0 }) } } ∧
      (∀ n, mask.get n = true → u.strand n = { s.strand n with
        track := .waiting
        recipe := some k
        switch := none
        tailCount := 0
        lastMaterial := 0
        chan := { (s.strand n).chan with
          acc := 0, hw := 0, reverse := false, capReached := false, dwell := none, stopCapture := none }
        port := { (s.strand n).port with fifo := [], fault := false, stale := .notArmed }
        eval := {}
        fore := {}
        map := {}
        cuts := {}
        marker := { (s.strand n).marker with queue := [], active := (s.strand n).marker.force == .on }
        stopMail := []
        foreMail := []
        mapMail := [] }) ∧
      (∀ n, mask.get n = false → u.strand n = { s.strand n with track := .off, switch := none }) ∧
      (s.service = none → u.service = none) ∧
      (∀ v, s.service = some v → u.service = some { v with armed := v.armed || mask.get v.port }) ∧
      u.noticed .run = true ∧ u.xp.mem = s.xp.mem ∧ u.xp.cells = s.xp.cells ∧ u.report = s.report ∧
      u.inputs = s.inputs ∧ u.seamMail = [] ∧ u.grantMail = [] ∧ u.sawMail = []

/-- The checks of ARM_RUN in their order; the first that fails gives the answer and nothing else changes. While the run record slot is
full, ARM_RUN and ABANDON_RUN wait: neither checked nor answered, their order stays in hand (R33, R35, R49). That they wait in every run
state, an ABANDON_RUN in IDLE too, is the model's choice (log 40). -/
def Obligations.ArmRunRefusedOrWaits : Prop :=
  (∀ (s : State) (o : Order), s.holds o 3 → s.run.slot = none →
    let k := entryOf o.op1
    (s.run.station = none → Completes .armRun s (s.answer o ⟨3, 0⟩)) ∧
    (s.run.station.isSome = true → s.run.state ≠ .idle → Completes .armRun s (s.answer o ⟨4, 0⟩)) ∧
    (s.run.station.isSome = true → s.run.state = .idle → s.run.store.get k = none →
      Completes .armRun s (s.answer o ⟨2, 1⟩)) ∧
    (∀ r, s.run.station.isSome = true → s.run.state = .idle → s.run.store.get k = some r →
      (∃ n, (maskOf o.op2).get n = true ∧ (s.env.strand n = none ∨ r.holes.length < n.num)) →
      Completes .armRun s (s.answer o ⟨2, 2⟩))) ∧
  ∀ (s : State) (o : Order) (answered : Bool), s.run.slot.isSome = true →
    (s.holds o 3 → Completes (.armRun answered) s { s with orders := { s.orders with hand := some { o with waiting := true } } }) ∧
    (s.holds o 6 → Completes (.abandonRun answered) s { s with orders := { s.orders with hand := some { o with waiting := true } } })

/-- Run orders in a state that does not take them are answered and change nothing else: NO_RUN in IDLE, BUSY in FINISHING
(R33, R117, R149). -/
def Obligations.RunOrdersByState : Prop :=
  ∀ (s : State) (o : Order),
    (s.run.state = .idle →
      (s.holds o 4 → Completes .amendRun s (s.answer o ⟨5, 0⟩)) ∧ (s.holds o 5 → Completes .endRun s (s.answer o ⟨5, 0⟩)) ∧
      (s.holds o 6 → s.run.slot = none → Completes .abandonRun s (s.answer o ⟨5, 0⟩)) ∧
      (s.holds o 7 → Completes .addZone s (s.answer o ⟨5, 0⟩)) ∧ (s.holds o 8 → Completes .softCut s (s.answer o ⟨5, 0⟩))) ∧
    (s.run.state = .finishing →
      (s.holds o 4 → Completes .amendRun s (s.answer o ⟨6, 0⟩)) ∧ (s.holds o 5 → Completes .endRun s (s.answer o ⟨6, 0⟩)) ∧
      (s.holds o 7 → Completes .addZone s (s.answer o ⟨6, 0⟩)) ∧ (s.holds o 8 → Completes .softCut s (s.answer o ⟨6, 0⟩)))

/-- AMEND_RUN in ARMED or ACTIVE: an EMPTY entry, an incompatible one, or the staging, with REPLACED where one was staged. The staged
entry is pinned; any other entry is then pinned exactly where something else than a staged amendment names it (R41). -/
def Obligations.AmendRunStages : Prop :=
  ∀ (s : State) (o : Order) (j : Fin 8) (old : Recipe), s.holds o 4 → s.run.state = .armed ∨ s.run.state = .active →
    s.run.recipe = some j → s.run.store.get j = some old →
    let k := entryOf o.op1
    let staged : State := { s with run := { s.run with staged := some k } }
    match s.run.store.get k with
    | none => Completes .amendRun s (s.answer o ⟨2, 1⟩)
    | some r =>
      if r.features.length = old.features.length ∧ r.holes.length = old.holes.length then
        Completes .amendRun s (staged.answer o ⟨0, if s.run.staged.isSome then 1 else 0⟩) ∧ staged.pinned k = true ∧
          ∀ m, m ≠ k → staged.pinned m = State.pinned { s with run := { s.run with staged := none } } m
      else Completes .amendRun s (s.answer o ⟨10, 0⟩)

/-- END_RUN in ARMED or ACTIVE: the run enters FINISHING; each run strand is OFF with no open segment, no switch and no forecast. On a
TRACKING strand the side accumulator is folded into the open segment, which closes at the frontier, and the candidate becomes none. The
final cut of a strand with a nose lies at the frontier where the newest cut does not reach it, and is FINAL; a strand outside the mask,
the mark queues and the run recipe are as they were (R45, R70, R103, R139, R143, R146, R161). Which piece takes a segment of no length
that closes behind another is the model's choice (log 35). -/
def Obligations.EndRunCloses : Prop :=
  ∀ (s : State) (o : Order), s.holds o 5 → s.run.state = .armed ∨ s.run.state = .active →
    ∃ u : State, Completes .endRun s (u.answer o ⟨0, 0⟩) ∧
      u.run = { s.run with state := .finishing, staged := none } ∧ u.noticed .run = true ∧
      (∀ n, s.inMask n = false → u.strand n = s.strand n) ∧
      (∀ n, s.inMask n = true →
        let st := s.strand n
        let t := u.strand n
        t.track = .off ∧ t.switch = none ∧ t.fore = {} ∧ t.recipe = st.recipe ∧ t.map.nose = st.map.nose ∧
        t.map.frontier = st.map.frontier ∧ t.cuts.lastCut = st.cuts.lastCut ∧ t.cuts.pieces = st.cuts.pieces ∧
        t.marker = st.marker ∧ t.chan = st.chan ∧ t.port.stale = .notArmed ∧ (st.OpenAgrees → t.map.cur = none) ∧
        (st.track = .tracking → st.map.cur.isSome = true → t.eval = { st.eval with candidate := none }) ∧
        (st.track = .waiting → t.map = st.map ∧ t.cuts = st.cuts ∧ t.eval = st.eval) ∧
        (∀ closed : StrandState,
          (st.track = .tailed ∧ closed = st) ∨
            (st.track = .tracking ∧ ∃ b, st.map.cur = some b ∧ closed = { st with
              track := .off
              eval := { st.eval with candidate := none }
              map := { st.map with
                closed := st.map.closed ++ [{
                  body := { b with stats := st.eval.candidate.elim b.stats (fun c => b.stats.add c.side) }
                  stop := st.map.frontier }]
                cur := none
                mapMark := none }
              mapMail := st.mapMail ++ st.map.mapMark.toList.map (fun _ =>
                .off (min (st.map.frontier + (s.env.marker n).getD 0) 4000000000))
              cuts := if (∃ p, st.cuts.pending.getLast? = some p ∧ st.map.frontier ≤ p.coord) ∧
                    heldSegs st.cuts.pending = st.map.closed.length then
                  { st.cuts with pending := growNewest st.cuts.pending }
                else st.cuts }) →
          if ∃ w, st.cuts.newest = some w ∧ st.map.frontier ≤ w then
            t = { closed with
              track := .off, switch := none, fore := {}, port := { st.port with stale := .notArmed }
              cuts := { closed.cuts with pending := markFinal closed.cuts.pending } }
          else
            (∃ p, t.cuts.pending.getLast? = some p ∧ p.coord = st.map.frontier ∧ p.isFinal = true) ∧
              ((∀ g ∈ closed.map.closed, g.stop ≤ st.map.frontier) → closed.map.cur = none → st.cuts.pending.length < 4 →
                ∃ p, t = { closed with
                  track := .off, switch := none, fore := {}, port := { st.port with stale := .notArmed }
                  cuts := { closed.cuts with pending := closed.cuts.pending ++ [p] } } ∧ p.joined = false))) ∧
      u.inputs = { s.inputs with
        seam := if s.inputs.seam.state = .quiet ∨ s.inputs.seam.state = .held then s.inputs.seam
                else { active := s.inputs.seam.active, state := .held }
        saw := if s.inputs.saw.state = .quiet ∨ s.inputs.saw.state = .held then s.inputs.saw
               else { active := s.inputs.saw.active, state := .held } } ∧
      u.xp.mem = s.xp.mem ∧ u.xp.cells = s.xp.cells ∧ u.report = s.report

/-- ABANDON_RUN with an empty slot: the run is IDLE, what each run strand is left with, the qualifiers set aside, and the RUN record
ABANDONED formed first (R47, R48, R70, R80, R103, R143, R146, R162). The mark queues keep being served. -/
def Obligations.AbandonRunDrops : Prop :=
  ∀ (s : State) (o : Order), s.holds o 6 → s.run.slot = none → s.run.state ≠ .idle →
    ∃ u : State, Completes .abandonRun s (u.answer o ⟨0, 0⟩) ∧
      (∃ rec : RunRecord, u.run = { s.run with
          state := .idle, recipe := none, staged := none, waitingSwitch := none, slot := some rec } ∧
        rec.event = .abandoned ∧ rec.mask = s.run.mask ∧ rec.runId = s.run.runId ∧ rec.billets = s.run.billets ∧
        rec.time = s.time ∧
        (∀ k r, s.run.recipe = some k → s.run.store.get k = some r →
          rec.index = k ∧ rec.recipeId = r.id ∧ rec.edition = r.edition) ∧
        ∀ n, rec.strands.get n =
          if s.inMask n then
            { nose := (s.strand n).map.nose, frontier := (s.strand n).map.frontier, pieces := (s.strand n).cuts.pieces }
          else { nose := none, frontier := 0, pieces := 0 }) ∧
      u.noticed .run = true ∧
      (∀ n, s.inMask n = false → u.strand n = s.strand n) ∧
      (∀ n, s.inMask n = true →
        let st := s.strand n
        u.strand n = { st with
          track := .off
          recipe := none
          switch := none
          eval := { st.eval with candidate := none }
          fore := {}
          map := { st.map with closed := [], cur := none, mapMark := none }
          mapMail := st.mapMail ++ st.map.mapMark.toList.map (fun _ =>
            .off (min (st.map.frontier + (s.env.marker n).getD 0) 4000000000))
          cuts := { st.cuts with pending := [] }
          port := { st.port with stale := .notArmed } }) ∧
      u.inputs = { s.inputs with
        seam := if s.inputs.seam.state = .quiet ∨ s.inputs.seam.state = .held then s.inputs.seam
                else { active := s.inputs.seam.active, state := .held }
        saw := if s.inputs.saw.state = .quiet ∨ s.inputs.saw.state = .held then s.inputs.saw
               else { active := s.inputs.saw.active, state := .held } } ∧
      u.xp.mem = s.xp.mem ∧ u.xp.cells = s.xp.cells ∧ u.report = s.report

/-- SWITCH_OVER makes a waiting switch-over once the slot is empty: the entry becomes the run recipe, and a RUN record AMENDED is
formed (R44, R48); in the model's runs the event that empties the slot has made it already (log 24, RunRecordEnters). RUN_CLOSED forms
the RUN record CLOSED when the conditions of R46 hold, and changes nothing else. -/
def Obligations.SlotRecordsFormed : Prop :=
  ∀ s : State, s.run.slot = none →
    (∀ k r, s.run.waitingSwitch = some k → s.run.store.get k = some r →
      ∃ rec : RunRecord, Completes .switchOver s { s with run := { s.run with recipe := some k, waitingSwitch := none, slot := some rec } } ∧
        rec.event = .amended ∧ rec.index = k ∧ rec.recipeId = r.id ∧ rec.edition = r.edition ∧ rec.billets = s.run.billets ∧
        rec.runId = s.run.runId ∧ rec.mask = s.run.mask ∧ rec.time = s.time) ∧
    (s.run.state = .finishing → s.run.waitingSwitch = none → (∀ n, s.inMask n = true → (s.strand n).cuts.pending = []) →
      ∃ rec : RunRecord, exec .runClosed s = .next { s with run := { s.run with slot := some rec } } ∧
        rec.event = .closed ∧ rec.billets = s.run.billets ∧ rec.runId = s.run.runId ∧ rec.mask = s.run.mask ∧
        rec.time = s.time ∧
        (∀ k r, s.run.recipe = some k → s.run.store.get k = some r →
          rec.index = k ∧ rec.recipeId = r.id ∧ rec.edition = r.edition) ∧
        ∀ n, rec.strands.get n =
          if s.inMask n then
            { nose := (s.strand n).map.nose, frontier := (s.strand n).map.frontier, pieces := (s.strand n).cuts.pieces }
          else { nose := none, frontier := 0, pieces := 0 })

/-- RUN_RECORD_ENTRY with room in the queue: the record enters at the tail and the slot empties; a record CLOSED returns the run to
IDLE, with the run recipe and every strand recipe none. With no room nothing happens. As the slot empties, a waiting ABANDON_RUN is
taken at once and drops a waiting switch-over; a waiting ARM_RUN is taken at once, its checks made then, after a record CLOSED on the
run returned to IDLE; with no order waiting, a waiting switch-over is made (R33, R35, R44, R46, R49, R175). Whether the order that has
waited is answered in the same event is the command's operand (the model's choice, log 31). -/
def Obligations.RunRecordEnters : Prop :=
  (∀ (s : State) (r : RunRecord) (answered : Bool), s.run.slot = some r → s.run.waitingSwitch = none →
    (∀ o, s.orders.hand = some o → o.waiting = false) →
    if s.report.queue.length < 8 then
      ∃ u : State, Completes (.runRecordEntry answered) s u ∧
        u.report = { s.report with queue := s.report.queue ++ [.run r] } ∧
        (r.event ≠ .closed → u = { s with run := { s.run with slot := none }, report := u.report }) ∧
        (r.event = .closed →
          u.run = { s.run with state := .idle, slot := none, recipe := none } ∧
          (∀ n, u.strand n = { s.strand n with recipe := none }) ∧ (s.run.state ≠ .idle → u.noticed .run = true) ∧
          u.xp.mem = s.xp.mem ∧ u.orders = s.orders)
    else Completes (.runRecordEntry answered) s s) ∧
  (∀ (s : State) (r : RunRecord) (answered : Bool), s.run.slot = some r → r.event ≠ .closed → s.report.queue.length < 8 →
    (∀ o, s.holds o 6 → o.waiting = true → s.run.state ≠ .idle →
      ∃ t : State, exec (.runRecordEntry answered) s = .next t ∧ t.report.queue = s.report.queue ++ [.run r] ∧ t.run.state = .idle ∧
        t.run.waitingSwitch = none ∧
        (if answered then t.orders.hand = none ∧ t.xp.cells.get o.cell = .answered
         else t.orders.hand = some { o with waiting := false, result := some ⟨0, 0⟩ } ∧ t.xp.cells = s.xp.cells) ∧
        ∃ rec : RunRecord, t.run.slot = some rec ∧ rec.event = .abandoned) ∧
    (∀ k q, (∀ o, s.orders.hand = some o → o.waiting = false) → s.run.waitingSwitch = some k → s.run.store.get k = some q →
      ∃ (u : State) (rec : RunRecord), Completes (.runRecordEntry answered) s u ∧
        u = { s with
          run := { s.run with recipe := some k, waitingSwitch := none, slot := some rec }
          report := { s.report with queue := s.report.queue ++ [.run r] } } ∧
        rec.event = .amended ∧ rec.index = k ∧ rec.recipeId = q.id ∧ rec.edition = q.edition)) ∧
  ∀ (s : State) (r : RunRecord) (o : Order) (answered : Bool), s.run.slot = some r → s.report.queue.length < 8 →
    s.run.waitingSwitch = none → s.holds o 3 → o.waiting = true →
    ∃ v t : State, exec (.runRecordEntry answered) s = .next t ∧ exec (.armRun answered) v = .next t ∧
      (if answered then t.orders.hand = none ∧ t.xp.cells.get o.cell = .answered
       else (∃ a, t.orders.hand = some { o with waiting := false, result := some a }) ∧ t.xp.cells = s.xp.cells) ∧ v.run.slot = none ∧ v.orders.hand = some o ∧
      (r.event ≠ .closed → v = { s with
        run := { s.run with slot := none }, report := { s.report with queue := s.report.queue ++ [.run r] } }) ∧
      (r.event = .closed → v = { s with
        xp := { s.xp with notice := v.xp.notice, msiSent := v.xp.msiSent }
        run := { s.run with state := .idle, slot := none, recipe := none }
        strands := Four.build (fun n => { s.strand n with recipe := none })
        report := { s.report with queue := s.report.queue ++ [.run r] } } ∧ (s.run.state ≠ .idle → v.noticed .run = true))

/-! ## Orders of the forecast unit, the piece builder and the marker unit -/

/-- ADD_ZONE in ARMED or ACTIVE: its four refusals in their order, and the entry of a MANUAL zone with its marker interval, CLAMPED
where its start lay below the frontier (R117, R118). -/
def Obligations.AddZoneEnters : Prop :=
  ∀ (s : State) (o : Order) (n : Strand), s.holds o 7 → s.run.state = .armed ∨ s.run.state = .active → o.op1 = n.num →
    let st := s.strand n
    let z : Zone := { start := max o.op2 st.map.frontier, stop := o.op2 + o.op3, cls := .manual, origin := .order, note := o.op4,
                      phase := .ahead }
    if s.inMask n = false then Completes .addZone s (s.answer o ⟨2, 1⟩)
    else if o.op2 + o.op3 ≤ st.map.frontier then Completes .addZone s (s.answer o ⟨11, 0⟩)
    else if 8 ≤ st.fore.zones.length then Completes .addZone s (s.answer o ⟨12, 0⟩)
    else ∃ u : State, Completes .addZone s (u.answer o ⟨0, if o.op2 < st.map.frontier then 2 else 0⟩) ∧
      u = { s with strands := u.strands } ∧ (∀ m, m ≠ n → u.strand m = s.strand m) ∧
      u.strand n = { st with
        fore := { st.fore with zones := insertZone st.fore.zones z }
        foreMail := st.foreMail ++
          match s.env.marker n with
          | none => []
          | some m =>
            if (s.env.recipe st).markMask.testBit 3 = true ∧ z.start + m < 4000000000 then
              [{ requester := .forecast, on := z.start + m, off := some (min (z.stop + m) 4000000000), source := z.start }]
            else [] }

/-- SOFT_CUT in ARMED or ACTIVE: refused where its mask names a strand outside the run; otherwise each strand of the mask, and no other,
is judged for a cut at its high-water coordinate less S. QUALIFIED_SAW in ARMED or ACTIVE: each strand with a capture, and no other, is
judged for a cut at its capture less S; in any other run state it forms no cut. Where the cuts pass the last pending switch of the run
the switch-over is made, or waits for the run record slot (R44, R148, R149). That it is made in the same event is log 24. -/
def Obligations.SawAndSoftCuts : Prop :=
  let runAfter := fun (s u : State) =>
    ((∀ n, (u.strand n).switch = (s.strand n).switch) ∨ (∃ n, (u.strand n).switch.isSome = true) → u.run = s.run) ∧
    ∀ k : Fin 8, (∃ n, (s.strand n).switch.isSome = true) → (∀ n w, (s.strand n).switch = some w → w.entry = k) →
      (∀ n, (u.strand n).switch = none) →
      ∃ v : Strand → StrandState, (∀ n, v n = s.strand n ∨ v n = u.strand n) ∧ SwitchesOver s u k v
  (∀ (s : State) (o : Order), s.holds o 8 → s.run.state = .armed ∨ s.run.state = .active →
    ((∃ n, (maskOf o.op1).get n = true ∧ s.inMask n = false) → Completes .softCut s (s.answer o ⟨2, 1⟩)) ∧
    ((∀ n, (maskOf o.op1).get n = true → s.inMask n = true) →
      ∃ u : State, Completes .softCut s (u.answer o ⟨0, 0⟩) ∧
        (∀ n, u.strand n = if (maskOf o.op1).get n then
          (s.strand n).cutBehind s.env n .soft (s.strand n).chan.hw else s.strand n) ∧
        u = { s with strands := u.strands, run := u.run } ∧ runAfter s u)) ∧
  ∀ (s : State) (c : Captures) (rest : List Captures), s.sawMail = c :: rest →
    (s.run.state = .armed ∨ s.run.state = .active →
      ∃ u : State, Completes .qualifiedSaw s u ∧
        (∀ n, u.strand n = match c.get n with
          | none => s.strand n
          | some x => (s.strand n).cutBehind s.env n .saw x) ∧
        u = { s with sawMail := rest, strands := u.strands, run := u.run } ∧ runAfter s u) ∧
    (s.run.state = .idle ∨ s.run.state = .finishing → Completes .qualifiedSaw s { s with sawMail := rest })

/-- FORCE_MARKER: refused on a strand without a marker; otherwise the force is set and the output follows it, or on RELEASE the queue
as it stands; the queue is as it was (R171). -/
def Obligations.ForceMarkerSets : Prop :=
  ∀ (s : State) (o : Order) (n : Strand), s.holds o 9 → o.op1 = n.num → 1 ≤ o.op2 → o.op2 ≤ 3 →
    let m := (s.strand n).marker
    if s.env.marker n = none then Completes .forceMarker s (s.answer o ⟨2, 1⟩)
    else Completes .forceMarker s
      (State.answer { s with strands := s.strands.set n { s.strand n with marker := { m with
        force := if o.op2 = 1 then .on else if o.op2 = 2 then .off else .none
        active := if o.op2 = 1 then true else if o.op2 = 2 then false
          else m.queue.head?.elim false (fun i => i.on ≤ (s.strand n).chan.hw) } } } o ⟨0, 0⟩)

/-! ## Length channels (chapter 4) -/

/-- Which changes of A and B are counted edges, and their directions. ENCODER_EDGE: levels are sampled while the part is ready; a counted edge moves the accumulator by the wheel step, held at the upper
bound; position, high-water coordinate, reverse episode, incidents and the marker's service follow. Below the signed 64-bit range the
accumulator is free (log 13); the rest holds for any value of it (R52 to R58, R170). -/
def Obligations.EncoderEdgeCounts : Prop :=
  (∀ a0 b0 a b : Bool, edgeDirection .quadrature a0 b0 a b =
    if a ≠ a0 ∧ b = b0 then some (a != b) else if a = a0 ∧ b ≠ b0 then some (a == b) else none) ∧
  (∀ a0 b0 a b : Bool, edgeDirection .single a0 b0 a b = if a0 = false ∧ a = true then some true else none) ∧
  ∀ (n : Strand) (a b : Bool) (s : State),
    let st := s.strand n
    let sampled : Channel := { st.chan with pinA := a, pinB := b, lastA := a, lastB := b }
    (s.ready = false →
      Completes (.encoderEdge n a b) s
        { s with strands := s.strands.set n { st with chan := { st.chan with pinA := a, pinB := b } } }) ∧
    (s.ready = true → s.env.strand n = none →
      Completes (.encoderEdge n a b) s { s with strands := s.strands.set n { st with chan := sampled } }) ∧
    (∀ t, s.ready = true → s.env.strand n = some t → edgeDirection t.mode st.chan.lastA st.chan.lastB a b = none →
      Completes (.encoderEdge n a b) s { s with strands := s.strands.set n { st with chan := sampled } }) ∧
    (∀ t forward, s.ready = true → s.env.strand n = some t →
      edgeDirection t.mode st.chan.lastA st.chan.lastB a b = some forward →
      ∃ acc : Int,
        (forward = true → acc = min (st.chan.acc + t.wheelStep) 400000000000000) ∧
        (forward = false → -9223372036854775808 ≤ st.chan.acc - t.wheelStep → acc = st.chan.acc - t.wheelStep) ∧
        let pos := if acc < 0 then 0 else (acc / 100000).toNat
        Completes (.encoderEdge n a b) s { s with strands := s.strands.set n { st with
          chan := { sampled with
            acc := acc
            windowSum := if forward then st.chan.windowSum + t.wheelStep else st.chan.windowSum - t.wheelStep
            hw := max st.chan.hw pos
            reverse := if st.chan.hw < pos then false else if pos < st.chan.hw then true else st.chan.reverse
            capReached := st.chan.capReached || (forward && acc == 400000000000000) }
          raised := st.raised ++
            ((if forward = true ∧ acc = 400000000000000 ∧ st.chan.capReached = false ∧ st.track ≠ .off then
                [{ kind := .coordLimit, strand := some n, code := 0, coordinate := 4000000000, detail := 0, time := s.time }]
              else []) ++
             (if pos < st.chan.hw ∧ st.chan.reverse = false ∧ st.track ≠ .off then
                [{ kind := .reverse, strand := some n, code := 0, coordinate := st.chan.hw, detail := pos, time := s.time }]
              else []))
          marker := if st.chan.hw < pos then st.marker.serve pos else st.marker } })

/-- SPEED_WINDOW_END, once the window's 10 ms are over: the speed, the motion state by R61 and R62, the run's first motion, a LAPSED stale
timer that becomes STALE as a TRACKING strand enters MOVING, and one rewrite of the status block, in its bytes too, with the channel's
speed and high-water coordinate. The thresholds of a channel without an adopted strand are free (log 15); that the next window starts
where this one's 10 ms end, and that the rewrite raises the update sequence by 2, is the model's choice (logs 3, 7) (R14, R34, R60 to
R62, R82, 12.1). -/
def Obligations.SpeedWindowJudged : Prop :=
  ∀ (n : Strand) (s : State),
    let c := (s.strand n).chan
    let speed : Int := if (s.env.strand n).isSome then c.windowSum.tdiv 10000 else 0
    let c1 : Channel := { c with speed := speed, windowSum := 0, windowStart := c.windowStart + 10 }
    let c2 : Channel :=
      if c.motion = .moving then
        if speed < (s.env.stopSpeed n : Int) then
          if c.dwell = none then { c1 with dwell := some (c.windowStart + 10), stopCapture := some c.hw } else c1
        else if c.dwell = none then c1 else { c1 with dwell := none, stopCapture := none }
      else if (s.env.startSpeed n : Int) ≤ speed then
        if c.startCount = 0 then { c1 with startCount := 1 } else { c1 with motion := .moving, startCount := 0 }
      else { c1 with startCount := 0 }
    (s.ready = true → c.windowStart + 10 ≤ s.clock →
      ∃ t : State, exec (.speedWindowEnd n) s = .next t ∧
        (t.strand n = if c.motion ≠ .moving ∧ c2.motion = .moving ∧ (s.strand n).track = .tracking ∧
              (s.strand n).port.stale = .lapsed then
            { s.strand n with
              chan := c2
              port := { (s.strand n).port with
                stale := .stale
                fifo := if (s.strand n).port.fifo.contains .notice then (s.strand n).port.fifo
                        else (s.strand n).port.fifo ++ [.notice] }
              raised := (s.strand n).raised ++ [{ kind := .stale, strand := some n, code := 0, coordinate := c.hw,
                                                  detail := s.env.staleTime n, time := s.time }] }
          else { s.strand n with chan := c2 }) ∧
        (∀ m, m ≠ n → t.strand m = s.strand m) ∧
        t.run = { s.run with
          state := if s.run.state = .armed ∧ s.inMask n = true ∧ c.motion ≠ .moving ∧ c2.motion = .moving then .active
                   else s.run.state } ∧
        t.report.updateSeq = s.report.updateSeq + 2#32 ∧
        (t.report.shown.strands.get n).speed = speed ∧ (t.report.shown.strands.get n).hw = c.hw ∧
        (∀ m, m ≠ n → (t.report.shown.strands.get m).speed = (s.report.shown.strands.get m).speed) ∧
        t.xp.mem.rd32 4 = (s.report.updateSeq + 2#32).toNat ∧ t.xp.mem.rd32 8 = s.clock % 4294967296 ∧
        t.xp.mem.rd32 (strandEntry n + 4) = c.hw % 4294967296 ∧
        t.xp.mem.rd32 (strandEntry n + 12) = (BitVec.ofInt 32 speed).toNat ∧
        t.xp.cells = s.xp.cells ∧ t.xp.pages = s.xp.pages ∧ SameBeyondStatus s.xp.mem t.xp.mem) ∧
    (¬ (s.ready = true ∧ c.windowStart + 10 ≤ s.clock) → exec (.speedWindowEnd n) s = .next s)

/-- STOP_DWELL_EXPIRY, once the time since the dwell's start has reached the stop dwell: the strand is HALTED, and the stop capture of a
WAITING or TRACKING strand goes to the forecast unit (R63). -/
def Obligations.StopDwellExpires : Prop :=
  ∀ (n : Strand) (s : State),
    let st := s.strand n
    (∀ start, st.chan.dwell = some start → start + s.env.stopDwell n ≤ s.clock →
      Completes (.stopDwellExpiry n) s { s with strands := s.strands.set n { st with
        chan := { st.chan with motion := .halted, startCount := 0, dwell := none }
        stopMail := if st.track = .waiting ∨ st.track = .tracking then st.stopMail ++ st.chan.stopCapture.toList
                    else st.stopMail } }) ∧
    ((∀ start, st.chan.dwell = some start → s.clock < start + s.env.stopDwell n) → exec (.stopDwellExpiry n) s = .next s)

/-! ## SEAM and SAW (4.6) -/

/-- LEADING_EDGE, QUALIFICATION_EXPIRY and INPUT_INACTIVE of an input, in each state of its qualifier (R66 to R70). -/
def Obligations.QualifierEvents : Prop :=
  ∀ (i : LineInput) (s : State),
    let q := s.inputs.get i
    let empty : Captures := ⟨none, none, none, none⟩
    (s.ready = true → q.state = .quiet → s.run.state = .armed ∨ s.run.state = .active →
      exec (.leadingEdge i) s = .next (s.onInput i (fun _ => {
        active := true, state := .timing (s.clock + s.qualification i),
        latches := Four.build (fun n => if s.inMask n then some (s.strand n).chan.hw else none) }))) ∧
    (s.ready = true → q.state = .quiet → s.run.state = .idle ∨ s.run.state = .finishing →
      exec (.leadingEdge i) s = .next (s.onInput i (fun _ => { q with active := true, state := .held }))) ∧
    (s.ready = false ∨ q.state ≠ .quiet →
      exec (.leadingEdge i) s = .next (s.onInput i (fun _ => { q with active := true }))) ∧
    (∀ due, q.state = .timing due → due ≤ s.clock →
      exec (.qualificationExpiry i) s = .next { s.onInput i (fun _ => { q with state := .held, latches := empty }) with
        seamMail := if i = .seam then s.seamMail ++ [q.latches] else s.seamMail
        sawMail := if i = .saw then s.sawMail ++ [q.latches] else s.sawMail }) ∧
    ((∀ due, q.state = .timing due → s.clock < due) → exec (.qualificationExpiry i) s = .next s) ∧
    (s.ready = true → q.state = .held →
      exec (.inputInactive i) s = .next (s.onInput i (fun _ => { q with active := false, state := .quiet }))) ∧
    (∀ due, s.ready = true → q.state = .timing due →
      exec (.inputInactive i) s = .next { s with inputs := {
        (s.onInput i (fun _ => { active := false, state := .quiet, latches := empty })).inputs with
        raised := s.inputs.raised ++ [{ kind := .shortPulse, strand := none, code := 0, coordinate := 0,
                                        detail := if i = .seam then 1 else 2, time := s.time }] } }) ∧
    (s.ready = false ∨ q.state = .quiet →
      exec (.inputInactive i) s = .next (s.onInput i (fun _ => { q with active := false })))

/-- QUALIFIED_SEAM in ARMED or ACTIVE: the billet count, the staged amendment turned into pending switches where none remains, the
switch-over where every run strand is TAILED, which waits while the run record slot is full, and the seam handed to the forecast unit
with each run strand's capture and entry (R42, R43, R44, R69). In IDLE or FINISHING the seam is taken and does nothing (the model's
reading, log 21). -/
def Obligations.QualifiedSeamCounts : Prop :=
  (∀ (s : State) (c : Captures) (rest : List Captures), s.seamMail = c :: rest →
    s.run.state = .idle ∨ s.run.state = .finishing → Completes .qualifiedSeam s { s with seamMail := rest }) ∧
  ∀ (s : State) (c : Captures) (rest : List Captures), s.seamMail = c :: rest → s.run.state = .armed ∨ s.run.state = .active →
    ∃ u : State, Completes .qualifiedSeam s u ∧ u.seamMail = rest ∧ u.run.billets = min (s.run.billets + 1) 65535 ∧
      ((s.run.staged = none ∨ ∃ n, ((s.strand n).switch).isSome = true) →
        u.run = { s.run with billets := u.run.billets } ∧ u.strands = s.strands ∧
        u.grantMail = s.grantMail ++ [Four.build (fun n => if s.inMask n then
          (c.get n).map (fun x => { capture := x, entry := (s.strand n).recipe.getD 0 }) else none)]) ∧
      (∀ k, s.run.staged = some k → (∀ n, (s.strand n).switch = none) →
        u.run.staged = none ∧
        (∀ n, s.inMask n = false → u.strand n = s.strand n) ∧
        (∀ n, s.inMask n = true → u.strand n =
          match (s.strand n).track, c.get n with
          | .waiting, some x => { s.strand n with switch := some { entry := k, coord := x } }
          | .tracking, some x => { s.strand n with switch := some { entry := k, coord := x } }
          | .tailed, _ => { s.strand n with recipe := some k }
          | _, _ => s.strand n) ∧
        u.grantMail = s.grantMail ++ [Four.build (fun n => if s.inMask n then
          (c.get n).map (fun x => { capture := x, entry := k }) else none)] ∧
        ((∀ n, (u.strand n).switch = none) →
          SwitchesOver { s with run := { s.run with billets := u.run.billets, staged := none } } u k u.strand) ∧
        ((∃ n, ((u.strand n).switch).isSome = true) → u.run = { s.run with billets := u.run.billets, staged := none })) ∧
      u.xp = s.xp ∧ u.report = s.report ∧ u.orders = s.orders

/-- An automatic zone [start, stop) at a strand: nothing where it lies beyond the cap or behind the frontier; otherwise its start is
raised to the frontier and its end held at the cap, and it enters the list after every zone that starts at or below it. Into a full list
it is merged with the neighbour across the smaller gap, the predecessor on equal gaps: the merged zone's extent, class, origin, note and
phase, the class boundary where it raises a zone that is OVER, and FORECAST_MERGED. Either way the mark interval follows where the mask
of the governing recipe holds the class (R111, R114, R115, R116, R118). -/
def Obligations.AutomaticZone : Prop :=
  ∀ (st : StrandState) (e : Env) (n : Strand) (governing : Recipe) (cls : ZoneClass) (origin : Origin) (start stop : Nat),
    let stop' := min stop 4000000000
    let z : Zone := { start := max start st.map.frontier, stop := stop', cls := cls, origin := origin, note := 0, phase := .ahead }
    let st' := st.autoZone e n governing cls origin start stop
    let mark := fun (cls : ZoneClass) (a b : Nat) =>
      match e.marker n with
      | none => []
      | some m =>
        if governing.markMask.testBit cls.severity = true ∧ a + m < 4000000000 then
          [({ requester := .forecast, on := a + m, off := some (min (b + m) 4000000000), source := a } : MarkRequest)]
        else []
    let enters := fun (zs : List Zone) (z : Zone) (zs' : List Zone) =>
      ∃ pre post, zs = pre ++ post ∧ zs' = pre ++ z :: post ∧ (∀ y ∈ pre, y.start ≤ z.start) ∧
        ∀ y, post.head? = some y → z.start < y.start
    (4000000000 ≤ start ∨ stop' ≤ st.map.frontier → st' = st) ∧
    (start < 4000000000 → st.map.frontier < stop' → st.fore.zones.length < 8 →
      enters st.fore.zones z st'.fore.zones ∧
      st' = { st with
        fore := { st.fore with zones := st'.fore.zones }, foreMail := st.foreMail ++ mark cls z.start z.stop }) ∧
    (start < 4000000000 → st.map.frontier < stop' → st.fore.zones.length = 8 →
      ∀ pre post : List Zone, st.fore.zones = pre ++ post → (∀ y ∈ pre, y.start ≤ z.start) →
        (∀ y, post.head? = some y → z.start < y.start) →
        ∃ (near : Zone) (rest : List Zone) (merged : Zone),
          ((pre.getLast? = some near ∧ rest = pre.dropLast ++ post ∧
              ∀ y, post.head? = some y → z.start - near.stop ≤ y.start - z.stop) ∨
            (post.head? = some near ∧ rest = pre ++ post.tail ∧
              ∀ y, pre.getLast? = some y → near.start - z.stop < z.start - y.stop)) ∧
          merged = {
            start := min near.start z.start
            stop := max near.stop z.stop
            cls := if near.cls.severity < cls.severity then cls else near.cls
            origin := if near.cls.severity < cls.severity then origin else near.origin
            note := if near.cls.severity < cls.severity then 0 else near.note
            phase := near.phase } ∧
          enters rest merged st'.fore.zones ∧
          st' = { st with
            fore := {
              zones := st'.fore.zones
              classBoundary := if near.phase = .over ∧ near.cls.severity < cls.severity ∧ st.track = .tracking then
                some st.map.frontier else st.fore.classBoundary }
            foreMail := st.foreMail ++ mark merged.cls (max merged.start st.map.frontier) merged.stop
            raised := st.raised ++ [{
              kind := .forecastMerged, strand := some n, code := merged.cls.severity, coordinate := z.start,
              detail := merged.origin.code * 65536 + merged.note, time := e.time }] })

/-- SEAM_FORECAST and STOP_FORECAST: the automatic zones of a seam, per strand from the hole's weld lead and length, and of a stop
capture, from the stop band half-length; strands neither WAITING nor TRACKING are skipped (R112, R113). That the entry handed with a
seam is read as the store holds it at this event, and gives no zone where it is EMPTY or has no such hole, is the model's choice
(log 39). -/
def Obligations.LineForecasts : Prop :=
  ∀ s : State,
    (∀ g rest, s.grantMail = g :: rest →
      ∃ u : State, Completes .seamForecast s u ∧ u = { s with grantMail := rest, strands := u.strands } ∧
        ∀ n, u.strand n =
          match g.get n with
          | none => s.strand n
          | some x =>
            match (s.env.entry x.entry).holes[n.num - 1]? with
            | none => s.strand n
            | some h =>
              if (s.strand n).track = .waiting ∨ (s.strand n).track = .tracking then
                (s.strand n).autoZone s.env n (s.env.entry x.entry) .weld .seam (x.capture + s.env.gauge n + h.lead)
                  (x.capture + s.env.gauge n + h.lead + h.length)
              else s.strand n) ∧
    (∀ n c rest, (s.strand n).stopMail = c :: rest →
      let st : StrandState := { s.strand n with stopMail := rest }
      let half := (s.env.recipe st).halfLength
      let st' :=
        if (st.track = .waiting ∨ st.track = .tracking) ∧ half ≠ 0 then
          st.autoZone s.env n (s.env.recipe st) .stopMark .stop (c + s.env.gauge n - half) (c + s.env.gauge n + half)
        else st
      Completes (.stopForecast n) s { s with strands := s.strands.set n st' })

/-- A cut of a saw or SOFT CUT behind a capture or high-water coordinate: none below S, before the nose or at it; SAW_ORDER at or below the
newest cut; CUT_EMPTY where a tail clamps it there; otherwise the map is divided at it and it is pending with its verdict copy and its
place, or it joins the newest of four, whose own place is withdrawn first, with JOINED. A withdrawn place that was USED joins the two
segments that meet there. Beyond the frontier of a TRACKING strand the map is extended over a gap without scans; inside a segment it is
split, and the parts' statistics add back to the whole (R134, R135, R138 to R140, R148 to R153). Which segments belong to a pending cut
is the model's own field (log 26). That a withdrawn cut's last segment joins the one right after it (log 33), and that the gap of an
extension and a switch passed at the frontier make one boundary (log 34), is the model's reading. Nothing is said here of the gap's
boundary on a MERGED segment that starts at the frontier, which is the model's choice (log 41, TrackerConfirms). -/
def Obligations.CutJudged : Prop :=
  (∀ (st : StrandState) (e : Env) (n : Strand) (source : CutSource) (x c : Nat), source = .saw ∨ source = .soft →
    let st' := st.cutBehind e n source x
    (x < e.saw n → st' = st) ∧
    (e.saw n + c = x → st.map.nose = none → st' = st) ∧
    (∀ nose, e.saw n + c = x → st.map.nose = some nose →
      (c ≤ nose → st' = st) ∧
      (∀ w, nose < c → st.cuts.newest = some w → c ≤ w →
        st' = { st with raised := st.raised ++ [{ kind := .sawOrder, strand := some n, code := source.code, coordinate := c,
                                                  detail := w, time := e.time }] }) ∧
      (∀ w t, nose < c → st.cuts.newest = some w → w < c → st.track = .tailed → st.map.tail = some t → t < c → t ≤ w →
        st' = { st with raised := st.raised ++ [{ kind := .cutEmpty, strand := some n, code := source.code, coordinate := t,
                                                  detail := c, time := e.time }] }) ∧
      (∀ w d, nose < c → st.cuts.newest = some w → w < c → w < d →
        (d = c ∧ ¬ (st.track = .tailed ∧ ∃ t, st.map.tail = some t ∧ t < c)) ∨
          (st.track = .tailed ∧ st.map.tail = some d ∧ d < c) →
        ∃ p : PendingCut, p.coord = d ∧ p.copy = verdictCopy e st ∧
          (st.cuts.pending.length < 4 →
            p.place = st.cutPlace d ∧ p.isFinal = false ∧ p.joined = false ∧
            st' = { st.divideMap e n d with cuts := { st.cuts with pending := st.cuts.pending ++ [p] } }) ∧
          (∀ q, st.cuts.pending.length = 4 → st.cuts.pending.getLast? = some q →
            let st1 := st.withdrawNewest e n q
            p.place = st1.cutPlace d ∧ p.isFinal = q.isFinal ∧ p.joined = true ∧
            st' = { st1.divideMap e n d with
              cuts := { st.cuts with pending := st.cuts.pending.dropLast ++ [p] }
              raised := (st1.divideMap e n d).raised ++ [{
                kind := .joined, strand := some n, code := source.code, coordinate := d, detail := q.coord,
                time := e.time }] })))) ∧
  (∀ (st : StrandState) (c : Nat),
    let inside := (∃ g ∈ st.map.closed, g.body.start < c ∧ c < g.stop) ∨
      ∃ b, st.map.cur = some b ∧ b.start < c ∧ c ≤ st.map.frontier
    (st.track = .tracking → st.map.frontier < c → st.cutPlace c = .used) ∧
    (st.track = .tailed → st.map.tail = some c → st.cutPlace c = .held) ∧
    (¬ (st.track = .tracking ∧ st.map.frontier < c) → ¬ (st.track = .tailed ∧ st.map.tail = some c) →
      (inside → st.cutPlace c = .used) ∧ (¬ inside → st.cutPlace c = .none))) ∧
  (∀ (st : StrandState) (e : Env) (n : Strand) (q : PendingCut),
    let t := st.withdrawNewest e n q
    t.cuts = { st.cuts with pending := st.cuts.pending.dropLast } ∧ t.raised = st.raised ∧
    (q.place ≠ .used → t.map = st.map ∧ t.mapMail = st.mapMail) ∧
    (q.place = .used → ∀ (pre : List Segment) (a : Segment), heldSegs st.cuts.pending = pre.length + 1 →
      let joined := fun (b : SegBody) => ({ a.body with
        dim := if a.body.dim.severity < b.dim.severity then b.dim else a.body.dim
        overlay := higherOverlay a.body.overlay b.overlay
        flags := {
          merged := a.body.flags.merged || b.flags.merged || a.body.dim != b.dim || a.body.overlay != b.overlay
          split := a.body.flags.split || b.flags.split
          markLate := a.body.flags.markLate || b.flags.markLate
          markMissed := a.body.flags.markMissed || b.flags.markMissed
          rescan := a.body.flags.rescan || b.flags.rescan
          tail := a.body.flags.tail || b.flags.tail }
        stats := a.body.stats.add b.stats } : SegBody)
      (∀ b post, st.map.closed = pre ++ a :: b :: post →
        t.map = { st.map with closed := pre ++ { body := joined b.body, stop := b.stop } :: post } ∧ t.mapMail = st.mapMail) ∧
      (∀ b, st.map.closed = pre ++ [a] → st.map.cur = some b →
        t.map = { st.map with closed := pre, cur := some (joined b), mapMark := t.map.mapMark } ∧
        ∃ y, MarkJudged st t e n (joined b) q.coord y))) ∧
  (∀ (st : StrandState) (e : Env) (n : Strand) (c : Nat), ¬ (st.track = .tracking ∧ st.map.frontier < c) →
    (∀ (pre post : List Segment) (g : Segment), st.map.closed = pre ++ g :: post → (∀ y ∈ pre, y.stop ≤ c) →
      g.body.start < c → c < g.stop →
      st.divideMap e n c = { st with map := { st.map with
        closed := pre ++
          { body := { g.body with
              flags := { g.body.flags with split := true, tail := false }
              stats := g.body.stats.first (c - g.body.start) (g.stop - g.body.start) }
            stop := c } ::
          { body := { g.body with
              start := c
              flags := { g.body.flags with split := true }
              stats := g.body.stats.second (c - g.body.start) (g.stop - g.body.start) }
            stop := g.stop } :: post } }) ∧
    (∀ b, (∀ g ∈ st.map.closed, g.stop ≤ c) → st.map.cur = some b → b.start < c → c ≤ st.map.frontier →
      st.divideMap e n c = { st with
        map := { st.map with
          closed := st.map.closed ++ [{
            body := { b with
              flags := { b.flags with split := true, tail := false }
              stats := b.stats.first (c - b.start) (st.map.frontier - b.start) }
            stop := c }]
          cur := some { b with
            start := c
            flags := { b.flags with split := true }
            stats := b.stats.second (c - b.start) (st.map.frontier - b.start) } }
        eval := { st.eval with candidate := st.eval.candidate.map (fun k => { k with start := max k.start c }) } }) ∧
    ((∀ g ∈ st.map.closed, c ≤ g.body.start ∨ g.stop ≤ c) →
      (∀ b, st.map.cur = some b → c ≤ b.start ∨ st.map.frontier < c) → st.divideMap e n c = st)) ∧
  (∀ (st : StrandState) (e : Env) (n : Strand) (c : Nat) (b : SegBody), st.track = .tracking → st.map.frontier < c →
    st.map.cur = some b → b.start ≤ st.map.frontier →
    let t := st.divideMap e n c
    t.map.frontier = c ∧ t.map.nose = st.map.nose ∧ t.map.tail = st.map.tail ∧ t.track = st.track ∧ t.cuts = st.cuts ∧
    t.eval = { st.eval with candidate := st.eval.candidate.map (fun k => { k with start := max k.start c }) } ∧
    t.recipe = (match st.switch with
      | some w => if w.coord ≤ c then some w.entry else st.recipe
      | none => st.recipe) ∧
    t.switch = st.switch.filter (fun w => c < w.coord) ∧
    t.fore = {
      zones := st.fore.zones.filterMap (fun z =>
        if z.stop ≤ c then none else some (if z.phase = .ahead ∧ z.start ≤ c then { z with phase := .over } else z))
      classBoundary := st.fore.classBoundary.filter (fun a => c < a) } ∧
    t.map.cur = some {
      start := c, dim := st.eval.confirmed, overlay := t.fore.overlay, index := t.recipe.getD 0,
      edition := (e.entry (t.recipe.getD 0)).edition } ∧
    (b.start < st.map.frontier → st.map.count + st.fore.offers.length + 1 < 60 →
      ∃ gap : List Segment, t.map.closed = st.map.closed ++ { body := b, stop := st.map.frontier } :: gap ∧
        Chained st.map.frontier gap c ∧ (∀ g ∈ gap, g.body.dim = .unmeasured ∧ g.body.stats = {} ∧ g.body.flags = {}) ∧
        (∀ a, st.map.frontier < a → a < c →
          (a ∈ (st.fore.act st.map.frontier).offers ∨ ∃ w, st.switch = some w ∧ w.coord = a) → ∃ g ∈ gap, g.body.start = a) ∧
        t.raised = st.raised) ∧
    (b.start = st.map.frontier → b.flags.merged = false → st.map.count + st.fore.offers.length < 60 →
      ∃ gap : List Segment, t.map.closed = st.map.closed ++ gap ∧ Chained st.map.frontier gap c ∧
        (∀ g ∈ gap, g.body.dim = .unmeasured) ∧ t.raised = st.raised)) ∧
  ∀ (s : Stats) (num den : Nat), num ≤ den → 0 < den →
    (s.first num den).scans = s.scans * num / den ∧ (s.first num den).scans + (s.second num den).scans = s.scans ∧
    (s.scans ≠ 0 → (s.first num den).tempSum = s.tempSum * (s.first num den).scans / s.scans) ∧
    (s.scans = 0 → (s.first num den).tempSum = 0) ∧
    (s.first num den).tempSum + (s.second num den).tempSum = s.tempSum ∧
    (s.first num den).thermal = s.thermal ∧ (s.second num den).thermal = s.thermal ∧
    ∀ (i : Nat) (f : FeatStat), s.feats[i]? = some f →
      ∃ f1 f2 : FeatStat, (s.first num den).feats[i]? = some f1 ∧ (s.second num den).feats[i]? = some f2 ∧
        f1.valid = f.valid * num / den ∧ f1.valid + f2.valid = f.valid ∧
        f1.outCount = f.outCount * num / den ∧ f1.outCount + f2.outCount = f.outCount ∧
        f1.guardCount = f.guardCount * num / den ∧ f1.guardCount + f2.guardCount = f.guardCount ∧
        f1.sum = (if f.valid = 0 then 0 else (f.sum * f1.valid).tdiv f.valid) ∧ f1.sum + f2.sum = f.sum ∧
        f1.least = (if f1.valid = 0 then none else f.least) ∧ f2.least = (if f2.valid = 0 then none else f.least) ∧
        f1.greatest = (if f1.valid = 0 then none else f.greatest) ∧ f2.greatest = (if f2.valid = 0 then none else f.greatest)

/-! ## Gauge link (chapter 5) -/

/-- FRAME_ARRIVAL and START_DELIMITER: the checks in their order and LINK_CHECK, raised only where the strand is not OFF; a frame for an
OFF strand only moves the last sequence number; an accepted one is stamped, enters the FIFO or overruns it, and starts or disarms the
stale timer. The scan holds what the frame carries: sequence number, MATERIAL, LASER_FAULT, the temperature, and for each index 1 to 24
the first entry that carries it, with confidence 0 in a SATURATED frame, or nothing (R72 to R80). -/
def Obligations.FramesArrive : Prop :=
  ∀ (s : State) (n : Strand) (content : List Byte),
    let st := s.strand n
    let failing : Option Nat :=
      if frameCheckOk content = false then some 1
      else if frameStructureOk content = false then some 3
      else if frameByte content 0 ≠ n.num then some 2 else none
    let linkCheck := fun (d : Nat) => if st.track = .off then st.raised else st.raised ++
      [{ kind := .linkCheck, strand := some n, code := 0, coordinate := st.chan.hw, detail := d, time := s.time : Incident }]
    (s.ready = false ∨ st.port.assembling = false →
      Completes (.frameArrival n content .endDelimiter) s s ∧ Completes (.frameArrival n content .startDelimiter) s s) ∧
    (s.ready = true → st.port.assembling = true →
      (∀ d, failing = some d → Completes (.frameArrival n content .endDelimiter) s
        { s with strands := s.strands.set n { st with
          port := { st.port with assembling := false }, raised := linkCheck d } }) ∧
      Completes (.frameArrival n content .startDelimiter) s
        { s with strands := s.strands.set n { st with raised := linkCheck 1 } } ∧
      Completes (.startDelimiter n) s { s with strands := s.strands.set n { st with raised := linkCheck 1 } } ∧
      (failing = none → st.track = .off → Completes (.frameArrival n content .endDelimiter) s
        { s with strands := s.strands.set n { st with
          port := { st.port with assembling := false, lastSeq := some (frameSeq content) } } }) ∧
      (failing = none → st.track ≠ .off →
        let sc := frameScan st.chan content
        let index := fun (j : Nat) => frameByte content (6 + 4 * j)
        let word := fun (j : Nat) => frameByte content (7 + 4 * j) + 256 * frameByte content (8 + 4 * j) +
          65536 * frameByte content (9 + 4 * j)
        sc.stamp = st.chan.position ∧ sc.hw = st.chan.hw ∧ sc.seq = frameSeq content ∧
        sc.material = (frameByte content 2).testBit 0 ∧ sc.laserFault = (frameByte content 2).testBit 1 ∧
        sc.temp = (frameByte content 4 + 256 * frameByte content 5) % 1024 ∧ sc.feats.length = 24 ∧
        (∀ j, j < frameByte content 3 → 1 ≤ index j → index j ≤ 24 → (∀ i < j, index i ≠ index j) →
          sc.feats[index j - 1]? = some (some {
            value := word j % 1048576
            confidence := if (frameByte content 2).testBit 2 then 0 else word j / 1048576 })) ∧
        (∀ f, 1 ≤ f → f ≤ 24 → (∀ j, j < frameByte content 3 → index j ≠ f) → sc.feats[f - 1]? = some none) ∧
        ∃ gap fault overrun : List Incident,
          (gap = if st.port.lastSeq.elim true (fun l => frameSeq content == l + 1#8) then [] else
            [{ kind := .seqGap, strand := some n, code := 0, coordinate := st.chan.position,
               detail := missingCount (st.port.lastSeq.getD 0#8) (frameSeq content), time := s.time }]) ∧
          (fault = if sc.laserFault = true ∧ st.port.fault = false then
            [{ kind := .headFault, strand := some n, code := 0, coordinate := sc.stamp, detail := (frameSeq content).toNat,
               time := s.time }] else []) ∧
          (overrun = if st.port.scans < 16 then [] else
            [{ kind := .fifoOverrun, strand := some n, code := 0, coordinate := sc.stamp, detail := (frameSeq content).toNat,
               time := s.time }]) ∧
          Completes (.frameArrival n content .endDelimiter) s { s with strands := s.strands.set n { st with
            port := {
              assembling := false
              fifo := if st.port.scans < 16 then st.port.fifo ++ [.scan sc] else st.port.fifo
              lastSeq := some (frameSeq content)
              fault := sc.laserFault
              stale := if st.track = .tailed then .notArmed else .running (s.clock + s.env.staleTime n) }
            raised := st.raised ++ (gap ++ (fault ++ overrun)) } })) ∧
    (s.ready = true → st.port.assembling = false → Completes (.startDelimiter n) s
      { s with strands := s.strands.set n { st with port := { st.port with assembling := true } } }) ∧
    (s.ready = false → Completes (.startDelimiter n) s s)

/-- STALE_TIMER_EXPIRY and STALE_NOTICE_TAKING: the timer of a TRACKING strand that is MOVING becomes STALE, with a notice and STALE;
otherwise LAPSED. A notice makes a TRACKING strand's confirmed state UNMEASURED and drops its candidate; it does nothing on any other
strand, and nothing on one an ARM RUN has named since (R81, R88, R102). -/
def Obligations.StaleEvents : Prop :=
  ∀ (s : State) (n : Strand),
    let st := s.strand n
    (∀ due, st.port.stale = .running due → due ≤ s.clock →
      (st.track = .tracking → st.chan.motion = .moving → Completes (.staleTimerExpiry n) s
        { s with strands := s.strands.set n { st with
          port := { st.port with
            stale := .stale, fifo := if st.port.fifo.contains .notice then st.port.fifo else st.port.fifo ++ [.notice] }
          raised := st.raised ++ [{ kind := .stale, strand := some n, code := 0, coordinate := st.chan.hw,
                                    detail := s.env.staleTime n, time := s.time }] } }) ∧
      (¬ (st.track = .tracking ∧ st.chan.motion = .moving) → Completes (.staleTimerExpiry n) s
        { s with strands := s.strands.set n { st with port := { st.port with stale := .lapsed } } })) ∧
    ((∀ due, st.port.stale = .running due → s.clock < due) → exec (.staleTimerExpiry n) s = .next s) ∧
    (∀ armed, s.service = some { port := n, entry := .notice, armed := armed } → armed = true ∨ st.track ≠ .tracking →
      Completes .staleNoticeTaking s { s with service := none }) ∧
    (s.service = some { port := n, entry := .notice, armed := false } → st.track = .tracking →
      ∃ u : State, Completes .staleNoticeTaking s u ∧ u = { s with service := none, strands := u.strands } ∧
        (∀ m, m ≠ n → u.strand m = s.strand m) ∧
        (u.strand n).eval = { st.eval with confirmed := .unmeasured, candidate := none } ∧
        (u.strand n).track = .tracking ∧ (u.strand n).map.frontier = st.map.frontier ∧
        (u.strand n).map.nose = st.map.nose ∧ (u.strand n).cuts = st.cuts ∧ (u.strand n).chan = st.chan ∧
        (u.strand n).recipe = st.recipe ∧ (u.strand n).switch = st.switch ∧
        (∀ b, st.map.cur = some b →
          let folded := st.eval.candidate.elim b.stats (fun c => b.stats.add c.side)
          (st.eval.confirmed = .unmeasured →
            (u.strand n).map = { st.map with cur := some { b with stats := folded } }) ∧
          (st.eval.confirmed ≠ .unmeasured → b.start < st.map.frontier → st.map.count < 60 →
            (u.strand n).map.closed = st.map.closed ++ [{ body := { b with stats := folded }, stop := st.map.frontier }] ∧
            ∃ b', (u.strand n).map.cur = some b' ∧ b'.start = st.map.frontier ∧ b'.dim = .unmeasured ∧ b'.stats = {})))

/-- ARBITER_LOOK with no entry in service: the oldest entry of the first port with one, in the order last served + 1 on, goes into
service. With an entry in service, or none waiting, nothing happens (R83). -/
def Obligations.ArbiterServes : Prop :=
  ∀ s : State,
    (s.service.isSome = true → exec .arbiterLook s = .next s) ∧
    (s.service = none → (∀ n, (s.strand n).port.fifo = []) → exec .arbiterLook s = .next s) ∧
    (∀ (n : Strand) (pre post : List Strand) (x : FifoEntry) (rest : List FifoEntry),
      s.service = none → turnAfter s.lastServed = pre ++ n :: post → (∀ m ∈ pre, (s.strand m).port.fifo = []) →
      (s.strand n).port.fifo = x :: rest →
      exec .arbiterLook s = .next { s with
        strands := s.strands.set n { s.strand n with port := { (s.strand n).port with fifo := rest } }
        lastServed := n
        service := some { port := n, entry := x } }) ∧
    turnAfter .s1 = [.s2, .s3, .s4, .s1] ∧ turnAfter .s2 = [.s3, .s4, .s1, .s2] ∧ turnAfter .s3 = [.s4, .s1, .s2, .s3] ∧
    turnAfter .s4 = [.s1, .s2, .s3, .s4]

/-! ## Scan evaluation (chapters 3 and 6) -/

/-- SCAN_TAKING of a scan that is discarded: on an OFF strand, on one an ARM RUN has named since, a rescan or late scan, a scan without
MATERIAL on a TAILED strand. On a TRACKING strand a rescan sets the open segment's RESCAN flag. Nothing else changes
(R39, R87, R88, R89). -/
def Obligations.ScanDiscarded : Prop :=
  ∀ (s : State) (n : Strand) (sc : Scan) (armed : Bool), s.service = some { port := n, entry := .scan sc, armed := armed } →
    let st := s.strand n
    (armed = true ∨ st.track = .off → Completes .scanTaking s { s with service := none }) ∧
    (armed = false → sc.stamp < sc.hw ∨ sc.stamp < st.map.frontier →
      (st.track = .waiting ∨ st.track = .tailed → Completes .scanTaking s { s with service := none }) ∧
      (∀ b, st.track = .tracking → st.map.cur = some b → Completes .scanTaking s
        { s with
          service := none
          strands := s.strands.set n { st with map := { st.map with
            cur := some { b with flags := { b.flags with rescan := true } } } } })) ∧
    (armed = false → st.track = .tailed → sc.material = false → Completes .scanTaking s { s with service := none })

/-- SCAN_TAKING on a WAITING strand that passes the rescan check. The frontier moves, a zone whose start it has reached is OVER and one
whose end it has reached leaves. With MATERIAL and a valid feature by the recipe in force at its coordinate the scan makes the nose: the
map opens there with the overlay of those zones, the last cut is the nose, the strand is TRACKING. Otherwise the strand changes in
nothing else. A switch it reaches is passed, and where it is the last of the run the switch-over is made, or waits for the run record
slot (R37, R43, R44, R89, R121); that it is made in the same event is log 24. -/
def Obligations.NoseJudged : Prop :=
  ∀ (s : State) (n : Strand) (sc : Scan), s.service = some { port := n, entry := .scan sc, armed := false } →
    let st := s.strand n
    let x := sc.stamp
    let k := match st.switch with
      | some w => if w.coord ≤ x then w.entry else st.recipe.getD 0
      | none => st.recipe.getD 0
    let zones := st.fore.zones.filterMap (fun z =>
      if z.stop ≤ x then none else some (if z.phase = .ahead ∧ z.start ≤ x then { z with phase := .over } else z))
    st.track = .waiting → sc.hw ≤ x → st.map.frontier ≤ x →
    ∃ t : State, exec .scanTaking s = .next t ∧ t.service = none ∧ (∀ m, m ≠ n → t.strand m = s.strand m) ∧
      (t.strand n).map.frontier = x ∧ (t.strand n).chan = st.chan ∧ (t.strand n).fore.zones = zones ∧
      (st.fore.classBoundary = none → (t.strand n).fore.classBoundary = none) ∧
      (sc.material = true → (validValues sc (s.env.entry k)).any Option.isSome = true → st.map.closed = [] →
        (t.strand n).track = .tracking ∧ (t.strand n).map.nose = some x ∧ (t.strand n).map.closed = [] ∧
        (∃ b, (t.strand n).map.cur = some b ∧ b.start = x ∧ b.index = k ∧ b.edition = (s.env.entry k).edition ∧
          b.overlay = (t.strand n).fore.overlay ∧ b.dim = (t.strand n).eval.confirmed ∧ b.flags = {}) ∧
        (t.strand n).cuts = { st.cuts with lastCut := some x } ∧ (t.strand n).tailCount = 0 ∧ (t.strand n).lastMaterial = x ∧
        (t.strand n).port.stale = .running (s.clock + s.env.staleTime n)) ∧
      (sc.material = false ∨ (validValues sc (s.env.entry k)).any Option.isSome = false →
        t.strand n = { st with
          map := { st.map with frontier := x }
          fore := { st.fore with zones := zones }
          switch := (t.strand n).switch
          recipe := (t.strand n).recipe }) ∧
      (t.strand n).switch = st.switch.filter (fun w => x < w.coord) ∧
      (t.strand n).recipe = st.switch.elim st.recipe (fun w => if w.coord ≤ x then some w.entry else st.recipe) ∧
      (∀ w, st.switch = some w → w.coord ≤ x → (∀ m, m ≠ n → (s.strand m).switch = none) →
        SwitchesOver s t w.entry t.strand) ∧
      ((∀ w, st.switch = some w → x < w.coord) ∨ (∃ m, m ≠ n ∧ (s.strand m).switch.isSome = true) → t.run = s.run)

/-- SCAN_TAKING of a scan that passes the rescan check, on a TRACKING strand and on a TAILED one with MATERIAL. With MATERIAL on a
TRACKING strand: the frontier moves, a switch is passed, the zones are reached, the temperature is resolved, with THERMAL_DEFAULT where
it opens an episode, every boundary offered is made, and the scan goes to the tracker. Without MATERIAL: the tail count, the scan at the
tracker as a blind one, or the confirmed tail. On a TAILED strand: the resumption at the tail. Where the scan passes the last pending
switch of the run the switch-over is made, or waits for the run record slot; otherwise the run controller is unchanged (R38, R40, R43,
R44, R90 to R94, R98, R103, R104, R119, R128, R130, R132, R133). That it is made in the same event is log 24; that the sources at one
coordinate make one boundary is log 34. -/
def Obligations.TailAndResumption : Prop :=
  ∀ (s : State) (n : Strand) (sc : Scan) (p : StrandStation), s.service = some { port := n, entry := .scan sc, armed := false } →
    let st := s.strand n
    let x := sc.stamp
    s.env.strand n = some p → sc.hw ≤ x → st.map.frontier ≤ x → st.track = .tracking ∨ st.track = .tailed →
    ∃ t : State, exec .scanTaking s = .next t ∧ t.service = none ∧ (∀ m, m ≠ n → t.strand m = s.strand m) ∧
      (t.strand n).map.nose = st.map.nose ∧ (t.strand n).chan = st.chan ∧
      (∀ w, st.switch = some w → (t.strand n).switch = none → (∀ m, m ≠ n → (s.strand m).switch = none) →
        SwitchesOver s t w.entry t.strand) ∧
      (st.switch = none ∨ (t.strand n).switch.isSome = true ∨ (∃ m, m ≠ n ∧ (s.strand m).switch.isSome = true) →
        t.run = s.run) ∧
      (∀ b, st.track = .tracking → sc.material = true → st.map.cur = some b →
        let k := match st.switch with
          | some w => if w.coord ≤ x then w.entry else st.recipe.getD 0
          | none => st.recipe.getD 0
        let r := s.env.entry k
        let res := st.eval.resolve (some p) r.defaultTemp sc.temp
        let feats := gradeScan sc r res.temp
        let d := scanState feats
        let y : Contribution := { temp := res.temp, thermal := res.assumed, feats := feats }
        let thermalDefault : List Incident :=
          if res.assumed = true ∧ st.eval.episode = false then
            [{ kind := .thermalDefault, strand := some n, code := 0, coordinate := x, detail := sc.temp, time := s.time }]
          else []
        (t.strand n).track = .tracking ∧ (t.strand n).tailCount = 0 ∧ (t.strand n).lastMaterial = x ∧
        (t.strand n).map.frontier = x ∧ (t.strand n).map.tail = st.map.tail ∧ (t.strand n).cuts = st.cuts ∧
        (t.strand n).port = st.port ∧
        (t.strand n).switch = st.switch.filter (fun w => x < w.coord) ∧
        (t.strand n).recipe = st.switch.elim st.recipe (fun w => if w.coord ≤ x then some w.entry else st.recipe) ∧
        (b.start ≤ st.map.frontier → (∀ c, st.eval.candidate = some c → c.start ≤ st.map.frontier) → (t.strand n).fore = {
          zones := st.fore.zones.filterMap (fun z =>
            if z.stop ≤ x then none else some (if z.phase = .ahead ∧ z.start ≤ x then { z with phase := .over } else z))
          classBoundary := st.fore.classBoundary.filter (fun a => x < a) }) ∧
        ((t.strand n).eval.lastValid = res.eval.lastValid ∧ (t.strand n).eval.hold = res.eval.hold ∧
          (t.strand n).eval.episode = res.eval.episode ∧ (t.strand n).eval.resolved = res.eval.resolved) ∧
        (∃ before after : List Incident, (t.strand n).raised = st.raised ++ (before ++ (thermalDefault ++ after)) ∧
          ∀ i ∈ before ++ after, i.kind = .mapMerged) ∧
        ((∀ a, ¬ st.Offered x a) →
          t.strand n = StrandState.track9 { st with
              tailCount := 0
              lastMaterial := x
              map := { st.map with frontier := x }
              eval := res.eval
              raised := st.raised ++ thermalDefault }
            s.env n x d y) ∧
        (∀ a, (∀ a', st.Offered x a' ↔ a' = a) → b.start < a → st.map.count < 60 → d = st.eval.confirmed →
          (t.strand n).map.closed = st.map.closed ++ [{ body := b, stop := a }] ∧
          (t.strand n).eval.candidate = none ∧ (t.strand n).eval.confirmed = d ∧
          (t.strand n).map.cur = some {
            start := a, dim := d, overlay := (st.fore.act a).overlay, index := k, edition := r.edition,
            stats := (st.eval.candidate.elim {} (fun c => Stats.add {} c.side)).fold y }) ∧
        (st.map.count + st.fore.offers.length + 1 < 60 →
          ∃ rest : List Segment, (t.strand n).map.closed = st.map.closed ++ rest ∧
            ∀ a, st.Offered x a → b.start < a →
              (∃ g ∈ rest, g.body.start = a) ∨ ∃ c, (t.strand n).map.cur = some c ∧ c.start = a)) ∧
      (st.track = .tracking → sc.material = false → st.tailCount + 1 < p.tailConfirm →
        (t.strand n).track = .tracking ∧ (t.strand n).tailCount = st.tailCount + 1 ∧ (t.strand n).map.frontier = x ∧
        (t.strand n).lastMaterial = st.lastMaterial ∧
        ((∀ a, ¬ st.Offered x a) →
          t.strand n = StrandState.track9
            { st with tailCount := st.tailCount + 1, map := { st.map with frontier := x } } s.env n x .unmeasured
            { temp := st.eval.resolved, thermal := false, feats := List.replicate 24 none })) ∧
      (st.track = .tracking → sc.material = false → p.tailConfirm ≤ st.tailCount + 1 → st.map.cur.isSome = true →
        (t.strand n).track = .tailed ∧ (t.strand n).map.cur = none ∧
        (∃ g, (t.strand n).map.closed.getLast? = some g ∧ g.body.flags.tail = true ∧
          g.stop = max st.lastMaterial g.body.start ∧ (t.strand n).map.tail = some g.stop ∧
          (t.strand n).map.frontier = g.stop) ∧
        (t.strand n).eval.confirmed = st.eval.confirmed ∧ (t.strand n).eval.candidate = none ∧
        (t.strand n).switch = none ∧ (t.strand n).recipe = st.switch.elim st.recipe (fun w => some w.entry) ∧
        (t.strand n).port.stale = .notArmed ∧ (t.strand n).cuts = st.cuts) ∧
      (∀ y, st.track = .tailed → sc.material = true → st.map.tail = some y → y ≤ x →
        (t.strand n).track = .tracking ∧ (t.strand n).tailCount = 0 ∧ (t.strand n).lastMaterial = x ∧
        (t.strand n).map.frontier = x ∧ (t.strand n).map.tail = some y ∧ (t.strand n).map.cur.isSome = true ∧
        (t.strand n).port.stale = .running (s.clock + s.env.staleTime n) ∧
        (∃ i : Incident, (t.strand n).raised.getLast? = some i ∧ i.kind = .materialResumed ∧ i.strand = some n ∧
          i.coordinate = y ∧ i.detail = x) ∧
        (st.map.count < 60 →
          ∃ rest : List Segment, (t.strand n).map.closed = st.map.closed ++ rest ∧
            (rest.head?.map (·.body.start) <|> (t.strand n).map.cur.map (·.start)) = some y ∧
            (y < x → st.map.count + st.fore.offers.length + 2 < 60 →
              (rest.head?.map (·.body.dim) <|> (t.strand n).map.cur.map (·.dim)) = some .unmeasured)))

/-- The dimensional tracker at a scan: a scan of the confirmed state drops the candidate and is folded, one of another state than the
candidate's begins a new one, and a candidate is confirmed at the scan that brings its count to the threshold, and at no scan before:
after m consecutive scans of a state that is not the confirmed one, the candidate holds their count, the first one's coordinate and all
their contributions (R99, R100). An ordinary boundary, of a confirmation or any other source: the zones act there; at or below the open
segment's start that is recoloured; above it a segment opens while the map holds fewer than 60, and otherwise the boundary is merged into
the open segment with MAP_MERGED; then the open segment is judged for a map mark (R101, R119, R128, R129, R135, R136, R142, R143). Which of
several sources MAP_MERGED shows, and where a mark ends that a refused boundary ends, is free (logs 16 and 17); that a MERGED segment
takes the higher class at the gap boundary of an extension too is the model's choice (log 41). -/
def Obligations.TrackerConfirms : Prop :=
  (∀ (st : StrandState) (e : Env) (n : Strand) (d : DimClass) (first : Nat × Contribution) (more : List (Nat × Contribution)),
    d ≠ st.eval.confirmed → st.eval.candidate = none →
    let run := (first :: more).foldl (fun (st : StrandState) y => st.track9 e n y.1 d y.2) st
    (more.length + 1 < (e.recipe st).threshold d →
      run = { st with eval := { st.eval with candidate := some {
        state := d, count := more.length + 1, start := first.1,
        side := (first :: more).foldl (fun (a : Stats) y => a.fold y.2) {} } } }) ∧
    (more.length + 1 = (e.recipe st).threshold d →
      run.eval = { st.eval with confirmed := d, candidate := none } ∧
      (∀ b, st.map.cur = some b → first.1 ≤ b.start → run.map.closed = st.map.closed ∧ ∃ b', run.map.cur = some b' ∧ b'.start = b.start) ∧
      (∀ b, st.map.cur = some b → b.start < first.1 → st.map.count < 60 →
        run.map.closed = st.map.closed ++ [{ body := b, stop := first.1 }] ∧
        ∃ b', run.map.cur = some b' ∧ b'.start = first.1 ∧ b'.dim = d ∧
          b'.stats = (first :: more).foldl (fun (a : Stats) y => a.fold y.2) {}))) ∧
  (∀ (st : StrandState) (e : Env) (n : Strand) (x : Nat) (d : DimClass) (y : Contribution),
    let t := st.track9 e n x d y
    let dropped : StrandState := { st with
      eval := { st.eval with candidate := none }
      map := { st.map with cur := st.map.cur.map (fun b =>
        { b with stats := st.eval.candidate.elim b.stats (fun k => b.stats.add k.side) }) } }
    (d = st.eval.confirmed → t = { dropped with map := { dropped.map with
      cur := dropped.map.cur.map (fun b => { b with stats := b.stats.fold y }) } }) ∧
    (∀ k, d ≠ st.eval.confirmed → st.eval.candidate = some k → d ≠ k.state → t = dropped.track9 e n x d y) ∧
    (∀ k, d ≠ st.eval.confirmed → st.eval.candidate = some k → d = k.state →
      (k.count + 1 < (e.recipe st).threshold d →
        t = { st with eval := { st.eval with candidate := some { k with count := k.count + 1, side := k.side.fold y } } }) ∧
      (∀ b, st.map.cur = some b → (e.recipe st).threshold d ≤ k.count + 1 →
        t = StrandState.boundary { st with eval := { st.eval with confirmed := d, candidate := none } } e n
          (max k.start b.start) d (k.side.fold y) [.confirmation]))) ∧
  (∀ (f : Forecast) (b : Nat),
    (f.act b).zones = f.zones.filterMap (fun z =>
      if z.stop = b then none else some (if z.phase = .ahead ∧ z.start = b then { z with phase := .over } else z)) ∧
    (f.act b).classBoundary = f.classBoundary.filter (fun a => a ≠ b) ∧
    (∀ z ∈ f.zones, z.phase = .over → ∃ c, f.overlay = some c ∧ z.cls.severity ≤ c.severity) ∧
    ∀ c, f.overlay = some c → ∃ z ∈ f.zones, z.phase = .over ∧ z.cls = c) ∧
  ∀ (st : StrandState) (e : Env) (n : Strand) (b : Nat) (dim : DimClass) (stats : Stats) (others : List BoundarySource) (cur : SegBody),
    st.map.cur = some cur →
    let fore := st.fore.act b
    let t := st.boundary e n b dim stats others
    t = { st with
      fore := fore
      map := { st.map with closed := t.map.closed, cur := t.map.cur, mapMark := t.map.mapMark }
      eval := t.eval
      mapMail := t.mapMail
      raised := t.raised } ∧
    (b ≤ cur.start →
      let cur' : SegBody := { cur with
        dim := if cur.flags.merged = true ∧ dim.severity ≤ cur.dim.severity then cur.dim else dim
        overlay := if cur.flags.merged then higherOverlay cur.overlay fore.overlay else fore.overlay
        index := st.index
        edition := (e.recipe st).edition
        stats := cur.stats.add stats }
      t.map.closed = st.map.closed ∧ t.map.cur = some cur' ∧ t.eval = st.eval ∧ t.raised = st.raised ∧
        MarkJudged st t e n cur' cur.start cur.start) ∧
    (cur.start < b → st.map.count < 60 →
      let cur' : SegBody := {
        start := b, dim := dim, overlay := fore.overlay, index := st.index, edition := (e.recipe st).edition, stats := stats }
      t.map.closed = st.map.closed ++ [{ body := cur, stop := b }] ∧ t.map.cur = some cur' ∧ t.raised = st.raised ∧
        t.eval = { st.eval with candidate := st.eval.candidate.map (fun k => { k with start := max k.start b }) } ∧
        MarkJudged st t e n cur' b b) ∧
    (cur.start < b → 60 ≤ st.map.count →
      let cur' : SegBody := { cur with
        dim := if cur.dim.severity < dim.severity then dim else cur.dim
        overlay := higherOverlay cur.overlay fore.overlay
        flags := { cur.flags with merged := true }
        stats := cur.stats.add stats }
      t.map.closed = st.map.closed ∧ t.map.cur = some cur' ∧ t.eval = st.eval ∧
        (∃ y, MarkJudged st t e n cur' b y) ∧
        ∃ source : BoundarySource,
          t.raised = st.raised ++ [{ kind := .mapMerged, strand := some n, code := cur'.cls.severity, coordinate := b,
                                     detail := source.code, time := e.time }] ∧
          (others ≠ [] ∨ b ∈ st.fore.offers → source ∈ others ∨ (source = .zone ∧ b ∈ st.fore.offers)))

/-- Resolving a scan's temperature from the reading, the band, the thermal hold and the default, with the default episode (R92, R93).
Which features are valid; grading a valid one: the cold value rounded half up, the saturated deviation, the excursion rounded half up
and held at 9,999, and the band; the dimensional state of the scan; and what the scan adds where it is folded: scan count, temperature
sum, THERMAL_ASSUMED, and for a valid feature count, sum, minimum, maximum and band counts, each held at its limit, where a valid count
at its limit takes the minimum and maximum alone (R91, R94 to R98, R104, R106). -/
def Obligations.FeatureGraded : Prop :=
  (∀ hot alpha temp : Nat,
    let div := 100000000 + alpha * (if temp < 20 then 0 else temp - 20)
    2 * (div * coldValue hot alpha temp) ≤ 2 * (hot * 100000000) + div ∧
      2 * (hot * 100000000) < 2 * (div * coldValue hot alpha temp) + div) ∧
  (∀ cold nominal : Nat,
    deviation cold nominal =
      if (99999 : Int) < (cold : Int) - nominal then 99999
      else if (cold : Int) - nominal < -99999 then -99999 else (cold : Int) - nominal) ∧
  (∀ (d : Int) (f : Feature), 0 < f.lower → 0 < f.upper →
    let tol := if 0 ≤ d then f.upper else f.lower
    (∃ q : Nat, 2 * (tol * q) ≤ 2 * (d.natAbs * 1000) + tol ∧ 2 * (d.natAbs * 1000) < 2 * (tol * q) + tol ∧
      excursion d f.lower f.upper = min q 9999) ∧
    (bandOf d f = .outside ↔ (f.upper : Int) < d ∨ d < -(f.lower : Int)) ∧
    (bandOf d f = .guarded ↔ d ≤ (f.upper : Int) ∧ -(f.lower : Int) ≤ d ∧
      f.guardPercent * 10 < excursion d f.lower f.upper)) ∧
  (∀ (v : Evaluator) (p : StrandStation) (default reading : Nat),
    let inBand := reading ≠ 1023 ∧ p.bandLow ≤ reading ∧ reading ≤ p.bandHigh
    let r := v.resolve (some p) default reading
    (inBand → r = { temp := reading, assumed := false, eval := { v with
      lastValid := some reading, hold := 0, episode := false, resolved := reading } }) ∧
    (∀ last, ¬ inBand → v.lastValid = some last → v.hold < p.thermalHold →
      r = { temp := last, assumed := false, eval := { v with hold := v.hold + 1, resolved := last } }) ∧
    (¬ inBand → v.lastValid = none ∨ p.thermalHold ≤ v.hold →
      r = { temp := default, assumed := true, eval := { v with episode := true, resolved := default } })) ∧
  (∀ (sc : Scan) (r : Recipe) (temp i : Nat), r.features.length ≤ 24 → sc.feats.length = 24 →
    (gradeScan sc r temp).length = 24 ∧
    (∀ f rd, r.features[i]? = some f → sc.feats[i]? = some (some rd) → rd.value ≤ 999999 → f.minConfidence ≤ rd.confidence →
      sc.laserFault = false →
      let d := deviation (coldValue rd.value r.alpha temp) f.nominal
      (gradeScan sc r temp)[i]? = some (some (d, bandOf d f))) ∧
    (i < 24 → (∀ f rd, ¬ (r.features[i]? = some f ∧ sc.feats[i]? = some (some rd) ∧ rd.value ≤ 999999 ∧
        f.minConfidence ≤ rd.confidence ∧ sc.laserFault = false)) →
      (gradeScan sc r temp)[i]? = some none)) ∧
  (∀ feats : List (Option (Int × Band)),
    ((∀ g ∈ feats, g = none) → scanState feats = .unmeasured) ∧
    ((∃ d, some (d, .outside) ∈ feats) → scanState feats = .offGauge) ∧
    ((∃ g, some g ∈ feats) → (∀ d, some (d, .outside) ∉ feats) → scanState feats = .sound)) ∧
  ∀ (s : Stats) (y : Contribution),
    let t := s.fold y
    t.scans = min (s.scans + 1) 4294967295 ∧ t.tempSum = min (s.tempSum + y.temp) 281474976710655 ∧
    (t.thermal = true ↔ s.thermal = true ∨ y.thermal = true) ∧ t.feats.length = min s.feats.length y.feats.length ∧
    ∀ (i : Nat) (f : FeatStat), s.feats[i]? = some f →
      (y.feats[i]? = some none → t.feats[i]? = some f) ∧
      ∀ (d : Int) (band : Band), y.feats[i]? = some (some (d, band)) →
        let least := f.least.elim d (fun a => min a d)
        let greatest := f.greatest.elim d (fun a => max a d)
        (f.valid < 4294967295 → t.feats[i]? = some {
          valid := f.valid + 1
          least := some least
          greatest := some greatest
          sum := max (-140737488355327) (min (f.sum + d) 140737488355327)
          outCount := min (f.outCount + if band = .outside then 1 else 0) 4294967295
          guardCount := min (f.guardCount + if band = .guarded then 1 else 0) 4294967295 }) ∧
        (4294967295 ≤ f.valid → t.feats[i]? = some { f with least := some least, greatest := some greatest })

/-! ## Pieces, marks, reports (chapters 9 to 11) -/

/-- PIECE_BUILD with room in the queue builds the oldest pending cut of the first strand in the piece builder's order: the PIECE record
enters the queue, its segments leave the map, the last cut and the piece counter follow. The record carries the flags, the feature
summary of the joined statistics, a short entry for each segment with its worst feature, the keep list of the clean spans, and the
verdict of the scrap and the keep list. The clean spans are the maximal stretches without scrap, and the keep list holds the four best
usable ones, the earlier of two as long. With no room or no pending cut nothing happens (R105, R107, R154 to R160). -/
def Obligations.PieceBuilt : Prop :=
  let scrapOf := fun (tolerate : Bool) (g : Segment) => g.body.start < g.stop ∧
    (g.body.cls = .stopMark ∨ g.body.cls = .manual ∨ g.body.cls = .offGauge ∨ g.body.cls = .weld ∨
      (g.body.cls = .unmeasured ∧ tolerate = false))
  (∀ s : State, 8 ≤ s.report.queue.length ∨ (∀ n, (s.strand n).cuts.pending = []) → Completes .pieceBuild s s) ∧
  (∀ (s : State) (n : Strand) (pre post : List Strand) (p : PendingCut) (rest : List PendingCut),
    s.report.queue.length < 8 → turnAfter s.pieceServed = pre ++ n :: post → (∀ m ∈ pre, (s.strand m).cuts.pending = []) →
    (s.strand n).cuts.pending = p :: rest →
    let st := s.strand n
    let gs := st.map.closed.take p.segs
    let scrap := scrapOf p.copy.tolerate
    let total := gs.foldl (fun (a : Stats) g => a.add g.body.stats) {}
    ∃ rec : PieceRecord,
      Completes .pieceBuild s { s with
        report := { s.report with queue := s.report.queue ++ [.piece rec] }
        pieceServed := n
        strands := s.strands.set n { st with
          map := { st.map with closed := st.map.closed.drop p.segs }
          cuts := { lastCut := some p.coord, pending := rest, pieces := rec.number } } } ∧
      (st.cuts.pieces < 4294967295 → rec.number = st.cuts.pieces + 1) ∧
      rec.strand = n ∧ rec.runId = s.run.runId ∧ rec.time = s.time ∧ rec.start = st.cuts.lastCut.getD 0 ∧ rec.stop = p.coord ∧
      rec.recipeId = p.copy.recipeId ∧ rec.index = p.copy.index ∧ rec.edition = p.copy.edition ∧
      rec.isFinal = p.isFinal ∧ rec.joined = p.joined ∧
      (rec.hasMerged = true ↔ ∃ g ∈ gs, g.body.flags.merged = true) ∧
      (rec.hasSplit = true ↔ ∃ g ∈ gs, g.body.flags.split = true) ∧
      (rec.tolerated = true ↔ p.copy.tolerate = true ∧ ∃ g ∈ gs, g.body.start < g.stop ∧ g.body.cls = .unmeasured) ∧
      rec.keeps = keepList p.copy.minUsable (cleanSpans p.copy.tolerate none gs) ∧
      ((∃ g ∈ gs, scrap g) → rec.verdict = if rec.keeps = [] then .reject else .trim) ∧
      ((∀ g ∈ gs, ¬ scrap g) → rec.verdict = if rec.keeps = [] then .short else .accept) ∧
      rec.features.length = min p.copy.tolerances.length total.feats.length ∧
      (∀ (i : Nat) (tol : Tolerance) (f : FeatStat), p.copy.tolerances[i]? = some tol → total.feats[i]? = some f →
        rec.features[i]? = some {
          least := f.least, greatest := f.greatest
          mean := if f.valid = 0 then none else some (roundHalfAway f.sum f.valid)
          outCount := f.outCount, guardCount := f.guardCount }) ∧
      rec.segments.length = gs.length ∧
      ∀ (i : Nat) (g : Segment), gs[i]? = some g →
        let stats := g.body.stats
        let exc := fun (f : FeatStat) (t : Tolerance) =>
          max (f.least.elim 0 (fun d => excursion d t.lower t.upper)) (f.greatest.elim 0 (fun d => excursion d t.lower t.upper))
        let judged := fun (j : Nat) (f : FeatStat) (t : Tolerance) =>
          stats.feats[j]? = some f ∧ p.copy.tolerances[j]? = some t ∧ 0 < f.valid
        ∃ entry : SegEntry, rec.segments[i]? = some entry ∧
          entry = {
            start := g.body.start, stop := g.stop, dim := g.body.dim, overlay := g.body.overlay, cls := g.body.cls,
            flags := g.body.flags, thermal := stats.thermal, scans := stats.scans, index := g.body.index,
            edition := g.body.edition
            tempMean := if stats.scans = 0 then none else some (roundHalfUp stats.tempSum stats.scans)
            worst := entry.worst, worstLeast := entry.worstLeast, worstGreatest := entry.worstGreatest
            worstExcursion := entry.worstExcursion } ∧
          ((∀ j f t, ¬ judged j f t) →
            entry.worst = 0 ∧ entry.worstLeast = none ∧ entry.worstGreatest = none ∧ entry.worstExcursion = 0) ∧
          ∀ j f t, judged j f t → (∀ j' f' t', judged j' f' t' →
              exc f' t' ≤ exc f t ∧ (exc f' t' = exc f t → j ≤ j')) →
            entry.worst = j + 1 ∧ entry.worstLeast = f.least ∧ entry.worstGreatest = f.greatest ∧
              entry.worstExcursion = exc f t) ∧
  (∀ f g : FeatStat, f.add g = {
    valid := min (f.valid + g.valid) 4294967295
    least := (match f.least, g.least with
      | some a, some b => some (min a b)
      | some a, none => some a
      | none, b => b)
    greatest := (match f.greatest, g.greatest with
      | some a, some b => some (max a b)
      | some a, none => some a
      | none, b => b)
    sum := max (-140737488355327) (min (f.sum + g.sum) 140737488355327)
    outCount := min (f.outCount + g.outCount) 4294967295
    guardCount := min (f.guardCount + g.guardCount) 4294967295 }) ∧
  (∀ (tolerate : Bool) (gs : List Segment) (a b : Nat), Chained a gs b →
    let spans := cleanSpans tolerate none gs
    spans.Pairwise (fun p q => p.2 < q.1) ∧ (∀ p ∈ spans, p.1 < p.2) ∧
    ∀ x, (∃ p ∈ spans, p.1 ≤ x ∧ x < p.2) ↔ ∃ g ∈ gs, g.body.start ≤ x ∧ x < g.stop ∧ ¬ scrapOf tolerate g) ∧
  (∀ (m : Nat) (spans : List (Nat × Nat)), spans.Pairwise (fun p q => p.1 < q.1) →
    (keepList m spans).Sublist spans ∧ (∀ p ∈ keepList m spans, m ≤ p.2 - p.1) ∧
    (keepList m spans).length = min 4 (spans.countP (fun p => m ≤ p.2 - p.1)) ∧
    ∀ p ∈ keepList m spans, ∀ q ∈ spans, m ≤ q.2 - q.1 → q ∉ keepList m spans →
      q.2 - q.1 ≤ p.2 - p.1 ∧ (q.2 - q.1 = p.2 - p.1 → p.1 < q.1))

/-- MARK_REQUEST: missed, late or in time, judged at the high-water coordinate, and the segment that a missed or late one flags. A placed
request becomes one interval with all it overlaps or comes close to, in the place of the first of them; otherwise it enters at the place
its ON gives it, or, with 16 in the queue, the nearer neighbour is extended to cover it. It covers its stretch and gives up none that was
covered, and the queue keeps its order and at most 16 intervals. MARK_OFF closes the open interval at the greater of the OFF sent and its
floor, and it leaves the queue where that is passed or covers nothing (R144, R166 to R170). That it leaves the queue also where the OFF lies
below its ON, and that an OFF with no interval open does nothing but serve, is the model's choice (log 30). -/
def Obligations.MarksTaken : Prop :=
  (∀ (s : State) (n : Strand) (q : Requester) (r : MarkRequest) (fm : List MarkRequest) (mm : List MapMessage),
    let st := s.strand n
    ((q = .forecast ∧ st.foreMail = r :: fm ∧ mm = st.mapMail) ∨ (q = .map ∧ st.mapMail = .request r :: mm ∧ fm = st.foreMail)) →
    let hw := st.chan.hw
    let placed := Marker.serve { st.marker with
      queue := placeInterval s.env.minimumGap st.marker.queue { on := r.on, off := r.off, floor := 0 } } hw
    ∃ u : State, Completes (.markRequest n q) s u ∧ u = { s with strands := u.strands } ∧
      (∀ m, m ≠ n → u.strand m = s.strand m) ∧
      u.strand n = { st with
        foreMail := fm, mapMail := mm, marker := (u.strand n).marker, raised := (u.strand n).raised, map := (u.strand n).map } ∧
      (∀ o, r.off = some o → o ≤ hw →
        (u.strand n).marker = st.marker ∧
        (u.strand n).map = st.map.flagMark (st.track == .tailed) r.source true ∧
        (u.strand n).raised = st.raised ++ [{
          kind := .markMissed, strand := some n, code := requesterCode r.requester, coordinate := r.on, detail := o,
          time := s.time }]) ∧
      ((∀ o, r.off = some o → hw < o) → r.on ≤ hw →
        (u.strand n).marker = placed ∧
        (u.strand n).map = st.map.flagMark (st.track == .tailed) r.source false ∧
        (u.strand n).raised = st.raised ++ [{
          kind := .markLate, strand := some n, code := requesterCode r.requester, coordinate := r.on, detail := hw,
          time := s.time }]) ∧
      ((∀ o, r.off = some o → hw < o) → hw < r.on →
        (u.strand n).marker = placed ∧ (u.strand n).map = st.map ∧ (u.strand n).raised = st.raised)) ∧
  (∀ (s : State) (n : Strand) (y : Nat) (rest : List MapMessage), (s.strand n).mapMail = .off y :: rest →
    let st := s.strand n
    let closed := st.marker.queue.filterMap (fun i =>
      match i.off with
      | some _ => some i
      | none =>
        if max y i.floor ≤ st.chan.hw ∨ max y i.floor ≤ i.on then none else some { on := i.on, off := some (max y i.floor), floor := 0 })
    Completes (.markOff n) s { s with strands := s.strands.set n { st with
      mapMail := rest, marker := Marker.serve { st.marker with queue := closed } st.chan.hw } }) ∧
  (∀ (gap : Nat) (q : List Interval) (r : Interval),
    (∀ i ∈ r :: q, ∀ o, i.off = some o → i.on < o) → q.length ≤ 16 →
    (placeInterval gap q r).length ≤ 16 ∧
    ∀ x, (∃ i ∈ r :: q, i.on ≤ x ∧ ∀ o, i.off = some o → x < o) →
      ∃ i ∈ placeInterval gap q r, i.on ≤ x ∧ ∀ o, i.off = some o → x < o) ∧
  (∀ (gap : Nat) (q : List Interval) (r : Interval),
    (∀ i ∈ r :: q, ∀ o, i.off = some o → i.on < o) →
    let near : Interval → Bool := fun i =>
      (i.off.all (fun o => r.on < o) && r.off.all (fun o => i.on < o)) ||
        i.off.any (fun o => o ≤ r.on && r.on ≤ o + gap) || r.off.any (fun o => o ≤ i.on && i.on ≤ o + gap)
    let reach : Interval → Nat := fun i => i.off.getD i.floor
    let parts := r :: q.filter near
    (∀ (pre post : List Interval) (f : Interval), q = pre ++ f :: post → (∀ i ∈ pre, near i = false) → near f = true →
      ∃ j : Interval, placeInterval gap q r = pre ++ j :: post.filter (fun i => !near i) ∧
        (∀ i ∈ parts, j.on ≤ i.on) ∧ (∃ i ∈ parts, j.on = i.on) ∧
        ((∃ i ∈ parts, i.off = none) → j.off = none ∧ (∀ i ∈ parts, reach i ≤ j.floor) ∧ ∃ i ∈ parts, j.floor = reach i) ∧
        ((∀ i ∈ parts, i.off.isSome = true) →
          j.floor = 0 ∧ (∃ i ∈ parts, j.off = i.off) ∧ ∀ o, j.off = some o → ∀ i ∈ parts, reach i ≤ o)) ∧
    (∀ pre post : List Interval, q = pre ++ post → (∀ i ∈ q, near i = false) → (∀ i ∈ pre, i.on ≤ r.on) →
      (∀ i, post.head? = some i → r.on < i.on) →
      (q.length < 16 → placeInterval gap q r = pre ++ r :: post) ∧
      (16 ≤ q.length →
        (∀ p o, pre.getLast? = some p → p.off = some o → (∀ i, post.head? = some i → r.on - o ≤ i.on - reach r) →
          placeInterval gap q r = pre.dropLast ++
            { on := p.on, off := r.off, floor := if r.off = none then o else 0 } :: post) ∧
        (∀ i rest o, post = i :: rest → r.off = some o →
          (∀ p po, pre.getLast? = some p → p.off = some po → i.on - o < r.on - po) →
          placeInterval gap q r = pre ++
            { on := r.on, off := i.off, floor := if i.off = none then max i.floor o else 0 } :: rest))) ∧
    (q.Pairwise (fun i j => ∃ o, i.off = some o ∧ o < j.on) →
      (placeInterval gap q r).Pairwise (fun i j => ∃ o, i.off = some o ∧ o < j.on))) ∧
  ∀ (m : StrandMap) (tailed : Bool) (x : Nat) (missed : Bool),
    let flag := fun (b : SegBody) =>
      ({ b with flags := if missed then { b.flags with markMissed := true } else { b.flags with markLate := true } } : SegBody)
    (∀ b, m.cur = some b → b.start ≤ x → m.flagMark tailed x missed = { m with cur := some (flag b) }) ∧
    (∀ y pre g, m.cur = none → tailed = true → m.tail = some y → y ≤ x → m.closed = pre ++ [g] →
      m.flagMark tailed x missed = { m with closed := pre ++ [{ g with body := flag g.body }] }) ∧
    ((∀ b, m.cur = some b → x < b.start) → (m.cur = none → tailed = true → ∀ y, m.tail = some y → x < y) →
      (∀ pre g post, m.closed = pre ++ g :: post → (∀ y ∈ pre, ¬ (y.body.start ≤ x ∧ x < y.stop)) →
        g.body.start ≤ x → x < g.stop →
        m.flagMark tailed x missed = { m with closed := pre ++ { g with body := flag g.body } :: post }) ∧
      ((∀ g ∈ m.closed, ¬ (g.body.start ≤ x ∧ x < g.stop)) → m.flagMark tailed x missed = m))

/-- INCIDENT_ARRIVAL: the oldest incident a block has raised for a strand, or the line event inputs without one, is a repeat of a record
in the queue, a new record, or dropped and counted (R176). That the oldest of a block and strand arrives first is the model's choice
(log 12). -/
def Obligations.IncidentArrives : Prop :=
  ∀ (s : State) (source : Option Strand) (b : Raiser) (i : Incident) (pre post : List Incident),
    (match source with
      | some n => (s.strand n).raised
      | none => s.inputs.raised) = pre ++ i :: post →
    i.kind.raiser = b → (∀ j ∈ pre, j.kind.raiser ≠ b) →
    let taken : State :=
      match source with
      | some n => { s with strands := s.strands.set n { s.strand n with raised := pre ++ post } }
      | none => { s with inputs := { s.inputs with raised := pre ++ post } }
    let same := fun (r : Record) => ∃ j : Incident, r = .incident j ∧ j.kind = i.kind ∧ j.strand = i.strand
    (∀ (before after : List Record) (j : Incident), s.report.queue = before ++ .incident j :: after →
      j.kind = i.kind → j.strand = i.strand → (∀ r ∈ before, ¬ same r) →
      Completes (.incidentArrival source b) s { taken with
        report := { s.report with
          queue := before ++ .incident { j with repeats := min (j.repeats + 1) 65535 } :: after } }) ∧
    ((∀ r ∈ s.report.queue, ¬ same r) → s.report.queue.length < 8 →
      Completes (.incidentArrival source b) s
        (State.setReason { taken with
          report := { s.report with
            queue := s.report.queue ++ [.incident { i with repeats := 0, lost := s.report.lost }], lost := 0 } } .incident)) ∧
    ((∀ r ∈ s.report.queue, ¬ same r) → 8 ≤ s.report.queue.length →
      Completes (.incidentArrival source b) s { taken with
        report := { s.report with lost := min (s.report.lost + 1) 65535 } })

/-- PAGE_OPEN: the first FREE page in the order cursor + 1 on is opened with the next serial and an empty record area, and the head
record is written into it; no other page changes. With no record, a FILLING page or no FREE page nothing happens (R177, R178, R180). -/
def Obligations.PageOpens : Prop :=
  ∀ s : State,
    (s.report.queue = [] ∨ s.report.fill.isSome = true ∨ (∀ p, s.xp.pages.get p ≠ .free) → Completes .pageOpen s s) ∧
    (∀ (r : Record) (rest : List Record) (k : Nat) (p : Fin 54), s.report.queue = r :: rest → s.report.fill = none →
      k < 54 → p = Fin.ofNat 54 (s.report.cursor.val + 1 + k) → s.xp.pages.get p = .free →
      (∀ j < k, s.xp.pages.get (Fin.ofNat 54 (s.report.cursor.val + 1 + j)) ≠ .free) →
      s.report.serial ≠ BitVec.allOnes 64 → r.length ≤ 8128 →
      let base := pageBase p.val
      let state : PageState := if r.closesPage then .closed else .filling
      ∃ u t : State, exec .pageOpen s = .next t ∧ Settles u t ∧
        u.xp.pages = s.xp.pages.set p state ∧ t.xp.mem.rd32 base = state.code ∧ t.xp.mem.rd32 (base + 4) = 0 ∧
        t.xp.mem.rdNat (base + 8) 8 = (s.report.serial + 1#64).toNat ∧ t.xp.mem.rd32 (base + 16) = 1 ∧
        t.xp.mem.rd32 (base + 20) = r.length ∧ t.xp.mem.rd32 (base + 24) = s.clock % 4294967296 ∧
        t.xp.mem.rd32 (base + 28) = s.clock % 4294967296 ∧
        t.xp.mem.rdBytes (base + 64) r.length = r.bytes ∧
        (∀ a, base + 64 + r.length ≤ a → a < base + 8192 → t.xp.mem.rd a = 0#8) ∧
        (∀ a, 192 ≤ a → a < base ∨ base + 8192 ≤ a → t.xp.mem.rd a = s.xp.mem.rd a) ∧
        u.report = { s.report with
          queue := rest
          serial := s.report.serial + 1#64
          cursor := p
          fill := if r.closesPage then none else some {
            page := p, serial := s.report.serial + 1#64, count := 1, used := r.length, first := s.time, last := s.time,
            linger := s.lingerStart } } ∧
        u = { s with
          xp := { s.xp with notice := u.xp.notice, msiSent := u.xp.msiSent, mem := u.xp.mem, pages := u.xp.pages }
          report := u.report })

/-- RECORD_WRITE and LINGER_EXPIRY: a head record that fits is written at bytes used, the header follows and the record leaves the
queue; one that does not fit closes the page and stays; a RUN record CLOSED or ABANDONED closes its page; so does the linger timer.
A closing writes CLOSED and sets PAGE (R178, R179, R180). -/
def Obligations.PageFills : Prop :=
  ∀ (s : State) (f : Filling), s.report.fill = some f →
    let base := pageBase f.page.val
    let closedPage := fun (u t : State) =>
      u.report = { s.report with fill := none } ∧ u.xp.pages = s.xp.pages.set f.page .closed ∧ u.noticed .page = true ∧
      t.xp.mem.rd32 base = 2 ∧
      (∀ a, 192 ≤ a → a < base ∨ base + 32 ≤ a → t.xp.mem.rd a = s.xp.mem.rd a) ∧
      u = { s with
        xp := { s.xp with notice := u.xp.notice, msiSent := u.xp.msiSent, mem := u.xp.mem, pages := u.xp.pages }
        report := u.report }
    (s.report.queue = [] → Completes .recordWrite s s) ∧
    (∀ r rest, s.report.queue = r :: rest → 8128 < f.used + r.length →
      ∃ u t : State, exec .recordWrite s = .next t ∧ Settles u t ∧ closedPage u t) ∧
    (∀ r rest, s.report.queue = r :: rest → f.used + r.length ≤ 8128 →
      ∃ u t : State, exec .recordWrite s = .next t ∧ Settles u t ∧
        t.xp.mem.rdBytes (base + 64 + f.used) r.length = r.bytes ∧
        (f.count < 4294967295 → t.xp.mem.rd32 (base + 16) = f.count + 1) ∧ t.xp.mem.rd32 (base + 20) = f.used + r.length ∧
        t.xp.mem.rd32 (base + 28) = s.clock % 4294967296 ∧
        (∀ a, 192 ≤ a → a < base ∨ base + 32 ≤ a → a < base + 64 + f.used ∨ base + 64 + f.used + r.length ≤ a →
          t.xp.mem.rd a = s.xp.mem.rd a) ∧
        u.report = { s.report with
          queue := rest
          fill := if r.closesPage then none else some { f with
            count := f.count + 1, used := f.used + r.length, first := if f.count = 0 then s.time else f.first, last := s.time } } ∧
        u.xp.pages = (if r.closesPage then s.xp.pages.set f.page .closed else s.xp.pages) ∧
        (r.closesPage = true → u.noticed .page = true ∧ t.xp.mem.rd32 base = 2)) ∧
    (∀ start g, f.linger = some start → s.run.station = some g → start + g.linger ≤ s.clock →
      ∃ u t : State, exec .lingerExpiry s = .next t ∧ Settles u t ∧ closedPage u t) ∧
    ((∀ start g, f.linger = some start → s.run.station = some g → s.clock < start + g.linger) → Completes .lingerExpiry s s)

/-! ## What every step keeps -/

/-- The exchange port, the report unit and the order unit: the memory is in canonical form, the stored state words and the port's copies
agree, the status block's bytes are those of what it shows, the one FILLING page is the one the report unit fills, the one TAKEN
cell is that of the order in hand, and a search is under way only while the part is ready and no order is in hand (R7, R11, R13, R14,
R16, R177). That a part restart gives up a search under way is the model's choice (log 8). -/
def Obligations.PortInvariantKept : Prop :=
  ∀ s t : State,
    s.xp.mem.wf ∧ CopiesAgree s ∧ StatusAgrees s ∧ FillingAgrees s ∧ OneTaken s → step s = .next t →
    t.xp.mem.wf ∧ CopiesAgree t ∧ StatusAgrees t ∧ FillingAgrees t ∧ OneTaken t

/-- The run and its strands: which strands are OFF, the limits of every strand's state, the open segment of a TRACKING strand, and
the map of each run strand, which covers it from its last cut to its frontier without gap or overlap and is divided at its pending cuts
(3.1, 3.3, R55, R57, R78, R111, R127, R135, R139, R153, R165). -/
def Obligations.StrandInvariantKept : Prop :=
  ∀ s t : State,
    TracksAgree s ∧ CountsInLimits s ∧ (∀ n, (s.strand n).InLimits ∧ (s.strand n).OpenAgrees) ∧
      (s.run.state ≠ .idle → ∀ n, s.inMask n = true → (s.strand n).MapOk) →
    step s = .next t →
    TracksAgree t ∧ CountsInLimits t ∧ (∀ n, (t.strand n).InLimits ∧ (t.strand n).OpenAgrees) ∧
      (t.run.state ≠ .idle → ∀ n, t.inMask n = true → (t.strand n).MapOk)

/-- A marker output is active exactly when it is forced ON, or when it is not forced and the high-water coordinate lies at or beyond the
head interval's ON and before its OFF; no head that has been passed stays in the queue (R170, R171). -/
def Obligations.MarkerOutputKept : Prop :=
  ∀ s t : State,
    (∀ n, (s.strand n).MarkerAgrees) → step s = .next t → ∀ n, (t.strand n).MarkerAgrees

/-- Right after power-on all of it holds. -/
def Obligations.ResetMeetsInvariants : Prop :=
  (State.reset.xp.mem.wf ∧ CopiesAgree State.reset ∧ StatusAgrees State.reset ∧ FillingAgrees State.reset ∧ OneTaken State.reset) ∧
    TracksAgree State.reset ∧ CountsInLimits State.reset ∧
    (∀ n, (State.reset.strand n).InLimits ∧ (State.reset.strand n).OpenAgrees) ∧
    (State.reset.run.state ≠ .idle → ∀ n, State.reset.inMask n = true → (State.reset.strand n).MapOk) ∧
    ∀ n, (State.reset.strand n).MarkerAgrees
end

