-- ==== Sys2Proof/Laws/Chain.lean ====
section
/-! SUPPORT. Lists of segments that begin each where the one before it ends, and their division at the pending cuts. -/

namespace Sys2Proof.Machine

/-! ## Chains -/

theorem Chained.le {a b : Nat} {gs : List Segment} (h : Chained a gs b) : a ≤ b := by
  induction gs generalizing a with
  | nil => exact Nat.le_of_eq h
  | cons g gs ih => exact Nat.le_trans h.2.1 (ih h.2.2)

theorem Chained.append {a b c : Nat} {gs hs : List Segment} (h : Chained a gs b) (k : Chained b hs c) :
    Chained a (gs ++ hs) c := by
  induction gs generalizing a with
  | nil => cases h; exact k
  | cons g gs ih => exact ⟨h.1, h.2.1, ih h.2.2⟩

theorem Chained.snoc {a b c : Nat} {gs : List Segment} {g : Segment} (h : Chained a gs b) (hs : g.body.start = b)
    (hc : g.stop = c) (hb : b ≤ c) : Chained a (gs ++ [g]) c :=
  h.append ⟨hs, by omega, hc⟩

/-- A chain falls apart at any place. -/
theorem Chained.split {a c : Nat} {gs hs : List Segment} (h : Chained a (gs ++ hs) c) :
    ∃ b, Chained a gs b ∧ Chained b hs c := by
  induction gs generalizing a with
  | nil => exact ⟨a, rfl, h⟩
  | cons g gs ih =>
    obtain ⟨b, h1, h2⟩ := ih h.2.2
    exact ⟨b, ⟨h.1, h.2.1, h1⟩, h2⟩

theorem Chained.end_unique {a b c : Nat} {gs : List Segment} (h : Chained a gs b) (k : Chained a gs c) : b = c := by
  induction gs generalizing a with
  | nil => exact h.symm.trans k
  | cons g gs ih => exact ih h.2.2 k.2.2

/-- The rest of a chain after a part whose end is known. -/
theorem Chained.drop {a b c : Nat} {gs : List Segment} (k : Nat) (h : Chained a gs c) (ht : Chained a (gs.take k) b) :
    Chained b (gs.drop k) c := by
  have h' : Chained a (gs.take k ++ gs.drop k) c := by rw [List.take_append_drop]; exact h
  obtain ⟨d, h1, h2⟩ := h'.split
  cases h1.end_unique ht
  exact h2

/-- Every segment of a chain lies in it. -/
theorem Chained.bounds {a b : Nat} {gs : List Segment} (h : Chained a gs b) :
    ∀ g ∈ gs, a ≤ g.body.start ∧ g.body.start ≤ g.stop ∧ g.stop ≤ b := by
  induction gs generalizing a with
  | nil => simp
  | cons g gs ih =>
    intro x hx
    rcases List.mem_cons.mp hx with rfl | hx
    · exact ⟨by rw [h.1], by rw [h.1]; exact h.2.1, h.2.2.le⟩
    · have := ih h.2.2 x hx
      have := h.2.1
      omega

theorem Chained.ne_nil {a b : Nat} {gs : List Segment} (h : Chained a gs b) (hl : a < b) : gs ≠ [] := by
  rintro rfl
  cases h
  omega

/-- The segments that end at or below a coordinate at which the chain is divided are the first ones, up to it. -/
theorem Chained.prefix_at {a b c : Nat} {gs : List Segment} (h : Chained a gs b) (hc : a ≤ c) (hb : c ≤ b)
    (hi : ∀ g ∈ gs, g.inside c = false) : Chained a (gs.take (gs.countP (fun g => g.stop ≤ c))) c := by
  induction gs generalizing a with
  | nil => have h' : a = b := h; exact (by omega : a = c)
  | cons g gs ih =>
    rcases Nat.lt_or_ge c g.stop with hg | hg
    · have h0 : (g :: gs).countP (fun g => g.stop ≤ c) = 0 := by
        rw [List.countP_eq_zero]
        intro x hx
        rcases List.mem_cons.mp hx with rfl | hx
        · simpa using hg
        · have := h.2.2.bounds x hx
          simp
          omega
      have hin := hi g (by simp)
      simp only [Segment.inside, Bool.and_eq_false_iff, decide_eq_false_iff_not] at hin
      have := h.1
      rw [h0]
      exact (by omega : a = c)
    · have hcount : (g :: gs).countP (fun g => g.stop ≤ c) = gs.countP (fun g => g.stop ≤ c) + 1 := by
        simp [hg]
      rw [hcount, List.take_succ_cons]
      exact ⟨h.1, h.2.1, ih h.2.2 hg (fun x hx => hi x (by simp [hx]))⟩

/-! ## Pending cuts -/

theorem heldSegs_cons (p : PendingCut) (ps : List PendingCut) : heldSegs (p :: ps) = p.segs + heldSegs ps := by
  simp [heldSegs]

theorem heldSegs_append (ps qs : List PendingCut) : heldSegs (ps ++ qs) = heldSegs ps + heldSegs qs := by
  simp [heldSegs]

@[simp] theorem heldSegs_nil : heldSegs [] = 0 := rfl

theorem CutsDivide.held_le {a : Nat} {gs : List Segment} {ps : List PendingCut} (h : CutsDivide a gs ps) :
    heldSegs ps ≤ gs.length := by
  induction ps generalizing a gs with
  | nil => simp
  | cons p ps ih =>
    have := ih h.2.2.2
    rw [heldSegs_cons]
    have := h.2.1
    simp only [List.length_drop] at *
    omega

/-- More segments behind the cuts change nothing. -/
theorem CutsDivide.congr_take {a : Nat} {gs hs : List Segment} {ps : List PendingCut} (h : CutsDivide a gs ps)
    (ht : gs.take (heldSegs ps) = hs.take (heldSegs ps)) (hl : heldSegs ps ≤ hs.length) : CutsDivide a hs ps := by
  induction ps generalizing a gs hs with
  | nil => trivial
  | cons p ps ih =>
    obtain ⟨h1, h2, h3, h4⟩ := h
    have h5 := h4.held_le
    rw [heldSegs_cons] at ht hl
    have hp : gs.take p.segs = hs.take p.segs := by
      have := congrArg (List.take p.segs) ht
      simpa [List.take_take] using this
    refine ⟨h1, by omega, hp ▸ h3, ih h4 ?_ (by simp only [List.length_drop]; omega)⟩
    have := congrArg (List.drop p.segs) ht
    simpa [List.drop_take] using this

theorem CutsDivide.append_right {a : Nat} {gs hs : List Segment} {ps : List PendingCut} (h : CutsDivide a gs ps) :
    CutsDivide a (gs ++ hs) ps :=
  h.congr_take (by rw [List.take_append_of_le_length h.held_le]) (by have := h.held_le; simp; omega)

/-- The coordinate the cuts reach: that of the newest, or the last cut. -/
def reached (a : Nat) (ps : List PendingCut) : Nat := (ps.getLast?.map (·.coord)).getD a

theorem reached_cons (a : Nat) (p : PendingCut) (ps : List PendingCut) : reached a (p :: ps) = reached p.coord ps := by
  cases ps with
  | nil => rfl
  | cons q qs =>
    unfold reached
    rw [List.getLast?_cons_cons]
    cases h : (q :: qs).getLast? with
    | none => simp at h
    | some r => rfl

/-- The held segments chain from the last cut to the newest. -/
theorem CutsDivide.chain {a : Nat} {gs : List Segment} {ps : List PendingCut} (h : CutsDivide a gs ps) :
    Chained a (gs.take (heldSegs ps)) (reached a ps) ∧ a ≤ reached a ps := by
  induction ps generalizing a gs with
  | nil => exact ⟨rfl, Nat.le_refl _⟩
  | cons p ps ih =>
    obtain ⟨h1, h2, h3, h4⟩ := h
    obtain ⟨h5, h6⟩ := ih h4
    rw [heldSegs_cons, reached_cons]
    have ht : gs.take (p.segs + heldSegs ps) = gs.take p.segs ++ (gs.drop p.segs).take (heldSegs ps) := by
      rw [List.take_add]
    rw [ht]
    exact ⟨h3.append h5, by omega⟩

/-- A further cut beyond the newest. -/
theorem CutsDivide.snoc {a : Nat} {gs : List Segment} {ps : List PendingCut} {p : PendingCut} (h : CutsDivide a gs ps)
    (hc : reached a ps < p.coord) (hl : heldSegs ps + p.segs ≤ gs.length)
    (hp : Chained (reached a ps) ((gs.drop (heldSegs ps)).take p.segs) p.coord) : CutsDivide a gs (ps ++ [p]) := by
  induction ps generalizing a gs with
  | nil =>
    refine ⟨hc, by simpa using hl, ?_, trivial⟩
    simpa [reached] using hp
  | cons q qs ih =>
    obtain ⟨h1, h2, h3, h4⟩ := h
    rw [heldSegs_cons] at hl hp
    rw [reached_cons] at hc hp
    refine ⟨h1, h2, h3, ih h4 hc (by simp only [List.length_drop]; omega) ?_⟩
    simpa [List.drop_drop, Nat.add_comm] using hp

/-- Without the newest cut. -/
theorem CutsDivide.dropLast {a : Nat} {gs : List Segment} {ps : List PendingCut} (h : CutsDivide a gs ps) :
    CutsDivide a gs ps.dropLast := by
  induction ps generalizing a gs with
  | nil => trivial
  | cons p ps ih =>
    obtain ⟨h1, h2, h3, h4⟩ := h
    cases ps with
    | nil => trivial
    | cons q qs => exact ⟨h1, h2, h3, ih h4⟩

/-- Every cut's segments are at least one. -/
theorem CutsDivide.segs_pos {a : Nat} {gs : List Segment} {ps : List PendingCut} (h : CutsDivide a gs ps) :
    ∀ p ∈ ps, 0 < p.segs := by
  induction ps generalizing a gs with
  | nil => simp
  | cons p ps ih =>
    obtain ⟨h1, h2, h3, h4⟩ := h
    intro q hq
    rcases List.mem_cons.mp hq with rfl | hq
    · rcases Nat.eq_zero_or_pos q.segs with h0 | h0
      · rw [h0] at h3
        cases h3
        omega
      · exact h0
    · exact ih h4 q hq

/-- Cuts with other places divide the segments alike. -/
theorem CutsDivide.map_place {a : Nat} {gs : List Segment} {ps : List PendingCut} (f : PendingCut → PendingCut)
    (hf : ∀ p, (f p).coord = p.coord ∧ (f p).segs = p.segs) (h : CutsDivide a gs ps) : CutsDivide a gs (ps.map f) := by
  induction ps generalizing a gs with
  | nil => trivial
  | cons p ps ih =>
    obtain ⟨h1, h2, h3, h4⟩ := h
    obtain ⟨e1, e2⟩ := hf p
    refine ⟨by rw [e1]; exact h1, by rw [e2]; exact h2, by rw [e1, e2]; exact h3, ?_⟩
    rw [e1, e2]
    exact ih h4

/-- A segment of no length right behind the newest cut may be counted with the cut's segments. -/
theorem CutsDivide.growNewest {a : Nat} {gs : List Segment} {ps : List PendingCut} {g : Segment} (h : CutsDivide a gs ps)
    (hn : ps ≠ []) (hl : heldSegs ps = gs.length) (h1 : g.body.start = reached a ps) (h2 : g.stop = reached a ps) :
    CutsDivide a (gs ++ [g]) (Sys2Proof.Machine.growNewest ps) := by
  induction ps generalizing a gs with
  | nil => exact absurd rfl hn
  | cons p ps ih =>
    obtain ⟨k1, k2, k3, k4⟩ := h
    rw [heldSegs_cons] at hl
    rw [reached_cons] at h1 h2
    cases ps with
    | nil =>
      have hs : p.segs = gs.length := by simpa using hl
      have hp : g.body.start = p.coord ∧ g.stop = p.coord := ⟨h1, h2⟩
      rw [hs, List.take_length] at k3
      refine ⟨k1, by simp [hs], ?_, trivial⟩
      show Chained a ((gs ++ [g]).take (p.segs + 1)) p.coord
      rw [hs, List.take_of_length_le (by simp)]
      exact k3.snoc hp.1 hp.2 (Nat.le_refl _)
    | cons q qs =>
      have := ih k4 (by simp) (by rw [List.length_drop]; omega) h1 h2
      refine ⟨k1, by simp; omega, ?_, ?_⟩
      · rw [List.take_append_of_le_length k2]
        exact k3
      · rw [List.drop_append_of_le_length k2]
        exact this

/-- Counting one more segment changes no place. -/
theorem used_growNewest (ps : List PendingCut) :
    (growNewest ps).countP (fun p => p.place == .used) = ps.countP (fun p => p.place == .used) := by
  induction ps with
  | nil => rfl
  | cons p ps ih =>
    cases ps with
    | nil => rfl
    | cons q qs =>
      show (p :: growNewest (q :: qs)).countP _ = _
      rw [List.countP_cons, List.countP_cons, ih]

theorem Cutter.newest_eq (c : Cutter) (a : Nat) (h : c.lastCut = some a) : c.newest = some (reached a c.pending) := by
  unfold Cutter.newest reached
  split
  · rename_i p hp
    simp [hp]
  · rename_i hp
    simp [hp, h]

end Sys2Proof.Machine
end

