-- ==== Sys2Proof/Laws/Map.lean ====
section
/-! SUPPORT. The map's shared operations keep it whole: what each does to the coverage of a strand (R127, R135, R139). -/

namespace Sys2Proof.Machine

/-! ## Coverage with slack -/

/-- What `MapOk` says of a strand with a nose, with room for `k` segments more than the places give: the state between the making of a
cut's boundary and the entry of the cut into the list. -/
structure Fit (k : Nat) (st : StrandState) (last : Nat) : Prop where
  nose : st.map.nose.isSome = true
  lastCut : st.cuts.lastCut = some last
  begun : st.track ≠ .waiting
  opens : st.OpenAgrees
  tailed : st.track = .tailed → st.map.tail = some st.map.frontier
  chain : Chained last st.map.closed st.map.closedEnd
  frontier : st.map.closedEnd ≤ st.map.frontier
  cuts : CutsDivide last st.map.closed st.cuts.pending
  places : st.map.count ≤ Config.ordinarySegments + st.cuts.used + k
  follows : (st.track = .tracking ∨ st.track = .tailed) → ∀ p, st.cuts.pending.getLast? = some p → p.place ≠ .held →
    heldSegs st.cuts.pending < st.map.closed.length ∨ st.map.cur.isSome = true
  held : (st.track = .tracking ∨ st.track = .tailed) → ∀ p ∈ st.cuts.pending, p.place = .held →
    st.track = .tailed ∧ p.coord = st.map.frontier
  candidate : ∀ c, st.eval.candidate = some c → c.start ≤ st.map.frontier

theorem StrandState.MapOk.fit {st : StrandState} (h : st.MapOk) (ho : st.OpenAgrees) (hn : st.map.nose.isSome = true) :
    ∃ last, Fit 0 st last := by
  obtain ⟨last, hl, hc⟩ := h.covers hn
  refine ⟨last, hn, hl, ?_, ho, h.tailed, hc.chain, hc.frontier, hc.cuts, hc.places, hc.follows, hc.held, h.candidate⟩
  intro hw
  rw [h.waiting hw] at hn
  cases hn

theorem Fit.mapOk {st : StrandState} {last : Nat} (h : Fit 0 st last) : st.MapOk where
  tracked := fun _ => h.nose
  tailed := h.tailed
  waiting := fun hw => absurd hw h.begun
  noNose := fun hn => by have := h.nose; rw [hn] at this; cases this
  covers := fun _ => ⟨last, h.lastCut, h.chain, h.frontier, h.cuts, h.places, h.follows, h.held⟩
  candidate := h.candidate

/-! ## The same shape -/

/-- Start and end of each segment. -/
def shapeOf (gs : List Segment) : List (Nat × Nat) := gs.map (fun g => (g.body.start, g.stop))

theorem shapeOf_length {gs hs : List Segment} (h : shapeOf gs = shapeOf hs) : gs.length = hs.length := by
  simpa [shapeOf] using congrArg List.length h

theorem Chained.of_shape {a b : Nat} {gs hs : List Segment} (e : shapeOf gs = shapeOf hs) (h : Chained a gs b) :
    Chained a hs b := by
  induction gs generalizing a hs with
  | nil =>
    cases hs with
    | nil => exact h
    | cons x xs => simp [shapeOf] at e
  | cons g gs ih =>
    cases hs with
    | nil => simp [shapeOf] at e
    | cons x xs =>
      simp only [shapeOf, List.map_cons, List.cons.injEq, Prod.mk.injEq] at e
      obtain ⟨⟨e1, e2⟩, e3⟩ := e
      exact ⟨e1 ▸ h.1, e2 ▸ h.2.1, ih e3 (e2 ▸ h.2.2)⟩

theorem shapeOf_take {gs hs : List Segment} (e : shapeOf gs = shapeOf hs) (k : Nat) :
    shapeOf (gs.take k) = shapeOf (hs.take k) := by
  have := congrArg (List.take k) e
  simpa [shapeOf, List.map_take] using this

theorem shapeOf_drop {gs hs : List Segment} (e : shapeOf gs = shapeOf hs) (k : Nat) :
    shapeOf (gs.drop k) = shapeOf (hs.drop k) := by
  have := congrArg (List.drop k) e
  simpa [shapeOf, List.map_drop] using this

theorem CutsDivide.of_shape {a : Nat} {gs hs : List Segment} {ps : List PendingCut} (e : shapeOf gs = shapeOf hs)
    (h : CutsDivide a gs ps) : CutsDivide a hs ps := by
  induction ps generalizing a gs hs with
  | nil => trivial
  | cons p ps ih =>
    obtain ⟨h1, h2, h3, h4⟩ := h
    exact ⟨h1, by rw [← shapeOf_length e]; exact h2, h3.of_shape (shapeOf_take e _), ih (shapeOf_drop e _) h4⟩

/-- What matters for the coverage is the same in two states of a strand; a candidate may have gone. -/
structure SameShape (st st' : StrandState) : Prop where
  track : st'.track = st.track
  closed : shapeOf st'.map.closed = shapeOf st.map.closed
  cur : st'.map.cur.map (·.start) = st.map.cur.map (·.start)
  frontier : st'.map.frontier = st.map.frontier
  nose : st'.map.nose = st.map.nose
  tail : st'.map.tail = st.map.tail
  cuts : st'.cuts = st.cuts
  candidate : ∀ c', st'.eval.candidate = some c' → ∃ c, st.eval.candidate = some c ∧ c'.start = c.start

theorem SameShape.refl (st : StrandState) : SameShape st st :=
  ⟨rfl, rfl, rfl, rfl, rfl, rfl, rfl, fun c h => ⟨c, h, rfl⟩⟩

theorem SameShape.trans {a b c : StrandState} (h : SameShape a b) (k : SameShape b c) : SameShape a c where
  track := k.track.trans h.track
  closed := k.closed.trans h.closed
  cur := k.cur.trans h.cur
  frontier := k.frontier.trans h.frontier
  nose := k.nose.trans h.nose
  tail := k.tail.trans h.tail
  cuts := k.cuts.trans h.cuts
  candidate := fun c' hc => by
    obtain ⟨c1, h1, e1⟩ := k.candidate c' hc
    obtain ⟨c2, h2, e2⟩ := h.candidate c1 h1
    exact ⟨c2, h2, e1.trans e2⟩

theorem SameShape.isSome {st st' : StrandState} (h : SameShape st st') : st'.map.cur.isSome = st.map.cur.isSome := by
  have := congrArg Option.isSome h.cur
  simpa using this

theorem StrandMap.closedEnd_eq (m : StrandMap) : m.closedEnd = (m.cur.map (·.start)).getD m.frontier := by
  unfold StrandMap.closedEnd
  cases m.cur <;> rfl

theorem SameShape.closedEnd {st st' : StrandState} (h : SameShape st st') : st'.map.closedEnd = st.map.closedEnd := by
  rw [StrandMap.closedEnd_eq, StrandMap.closedEnd_eq, h.cur, h.frontier]

theorem SameShape.count {st st' : StrandState} (h : SameShape st st') : st'.map.count = st.map.count := by
  unfold StrandMap.count
  rw [h.isSome, shapeOf_length h.closed]

theorem SameShape.opens {st st' : StrandState} (h : SameShape st st') (ho : st.OpenAgrees) : st'.OpenAgrees := by
  unfold StrandState.OpenAgrees at *
  rw [h.isSome, h.track]
  exact ho

theorem Fit.of_same {k : Nat} {st st' : StrandState} {last : Nat} (h : Fit k st last) (s : SameShape st st') :
    Fit k st' last where
  nose := by rw [s.nose]; exact h.nose
  lastCut := by rw [s.cuts]; exact h.lastCut
  begun := by rw [s.track]; exact h.begun
  opens := s.opens h.opens
  tailed := by rw [s.track, s.tail, s.frontier]; exact h.tailed
  chain := by rw [s.closedEnd]; exact h.chain.of_shape s.closed.symm
  frontier := by rw [s.closedEnd, s.frontier]; exact h.frontier
  cuts := by rw [s.cuts]; exact h.cuts.of_shape s.closed.symm
  places := by rw [s.count, s.cuts]; exact h.places
  follows := by rw [s.cuts, s.track, s.isSome, shapeOf_length s.closed]; exact h.follows
  held := by rw [s.cuts, s.track, s.frontier]; exact h.held
  candidate := fun c' hc => by
    obtain ⟨c, h1, e⟩ := s.candidate c' hc
    rw [e, s.frontier]
    exact h.candidate c h1

theorem StrandState.MapOk.of_same {st st' : StrandState} (h : st.MapOk) (s : SameShape st st') : st'.MapOk where
  tracked := by rw [s.track, s.nose]; exact h.tracked
  tailed := by rw [s.track, s.tail, s.frontier]; exact h.tailed
  waiting := by rw [s.track, s.nose]; exact h.waiting
  noNose := by
    rw [s.nose, s.cuts]
    intro hn
    obtain ⟨h1, h2, h3, h4⟩ := h.noNose hn
    have hl := shapeOf_length s.closed
    have hi := s.isSome
    rw [h1] at hl
    rw [h2] at hi
    exact ⟨List.length_eq_zero_iff.mp hl, by simpa using hi, h3, h4⟩
  covers := by
    rw [s.nose, s.cuts]
    intro hn
    obtain ⟨last, hl, hc⟩ := h.covers hn
    refine ⟨last, hl, ?_, ?_, ?_, ?_, ?_, ?_⟩
    · rw [s.closedEnd]; exact hc.chain.of_shape s.closed.symm
    · rw [s.closedEnd, s.frontier]; exact hc.frontier
    · rw [s.cuts]; exact hc.cuts.of_shape s.closed.symm
    · rw [s.count, s.cuts]; exact hc.places
    · rw [s.cuts, s.track, s.isSome, shapeOf_length s.closed]; exact hc.follows
    · rw [s.cuts, s.track, s.frontier]; exact hc.held
  candidate := fun c' hc => by
    obtain ⟨c, h1, e⟩ := s.candidate c' hc
    rw [e, s.frontier]
    exact h.candidate c h1

/-! ## Operations that keep the shape -/

theorem sameShape_raise (st : StrandState) (e : Env) (n : Strand) (kind : IncidentKind) (code x d : Nat) :
    SameShape st (st.raise e n kind code x d) := ⟨rfl, rfl, rfl, rfl, rfl, rfl, rfl, fun c h => ⟨c, h, rfl⟩⟩

theorem sameShape_startMark (st : StrandState) (e : Env) (n : Strand) (x : Nat) : SameShape st (st.startMark e n x) := by
  unfold StrandState.startMark
  split
  · exact .refl st
  · split
    · exact ⟨rfl, rfl, rfl, rfl, rfl, rfl, rfl, fun c h => ⟨c, h, rfl⟩⟩
    · exact .refl st

theorem sameShape_endMark (st : StrandState) (e : Env) (n : Strand) (y : Nat) : SameShape st (st.endMark e n y) := by
  unfold StrandState.endMark
  split
  · exact .refl st
  · exact ⟨rfl, rfl, rfl, rfl, rfl, rfl, rfl, fun c h => ⟨c, h, rfl⟩⟩

theorem sameShape_judgeMark (st : StrandState) (e : Env) (n : Strand) (x y : Nat) : SameShape st (st.judgeMark e n x y) := by
  unfold StrandState.judgeMark
  split
  · split
    · exact .refl st
    · exact sameShape_startMark st e n x
  · exact sameShape_endMark st e n y

theorem SameShape.thenJudge {a b : StrandState} (h : SameShape a b) (e : Env) (n : Strand) (x y : Nat) :
    SameShape a (b.judgeMark e n x y) := h.trans (sameShape_judgeMark b e n x y)

theorem SameShape.thenRaise {a b : StrandState} (h : SameShape a b) (e : Env) (n : Strand) (kind : IncidentKind) (code x d : Nat) :
    SameShape a (b.raise e n kind code x d) := h.trans (sameShape_raise b e n kind code x d)

theorem sameShape_recolour (st : StrandState) (e : Env) (n : Strand) (cur : SegBody) (dim : DimClass) (stats : Stats)
    (hc : st.map.cur = some cur) : SameShape st (st.recolour e n cur dim stats) := by
  unfold StrandState.recolour
  refine SameShape.thenJudge ?_ e n _ _
  refine ⟨rfl, rfl, ?_, rfl, rfl, rfl, rfl, fun c h => ⟨c, h, rfl⟩⟩
  rw [hc]
  rfl

theorem sameShape_refuse (st : StrandState) (e : Env) (n : Strand) (cur : SegBody) (b : Nat) (dim : DimClass) (stats : Stats)
    (source : BoundarySource) (hc : st.map.cur = some cur) : SameShape st (st.refuse e n cur b dim stats source) := by
  unfold StrandState.refuse
  refine SameShape.thenJudge (SameShape.thenRaise ?_ e n _ _ _ _) e n _ _
  refine ⟨rfl, rfl, ?_, rfl, rfl, rfl, rfl, fun c h => ⟨c, h, rfl⟩⟩
  rw [hc]
  rfl

theorem sameShape_passSwitch (st : StrandState) (x : Nat) : SameShape st (st.passSwitch x) := by
  unfold StrandState.passSwitch
  split
  · exact .refl st
  · split
    · exact ⟨rfl, rfl, rfl, rfl, rfl, rfl, rfl, fun c h => ⟨c, h, rfl⟩⟩
    · exact .refl st

theorem sameShape_onOpen (st : StrandState) (f : SegBody → SegBody) (hf : ∀ b, (f b).start = b.start) :
    SameShape st (st.onOpen f) := by
  refine ⟨rfl, rfl, ?_, rfl, rfl, rfl, rfl, fun c h => ⟨c, h, rfl⟩⟩
  unfold StrandState.onOpen
  cases st.map.cur <;> simp [hf]

theorem sameShape_foldOpen (st : StrandState) (c : Contribution) : SameShape st (st.foldOpen c) :=
  sameShape_onOpen st _ (fun _ => rfl)

theorem sameShape_flagRescan (st : StrandState) : SameShape st st.flagRescan := sameShape_onOpen st _ (fun _ => rfl)

theorem sameShape_dropCandidate (st : StrandState) : SameShape st st.dropCandidate := by
  unfold StrandState.dropCandidate
  split
  · exact .refl st
  · refine SameShape.trans (b := { st with eval := { st.eval with candidate := none } })
      ⟨rfl, rfl, rfl, rfl, rfl, rfl, rfl, ?_⟩ (sameShape_onOpen _ _ ?_)
    · intro c h
      cases h
    · intro b
      rfl

theorem shapeOf_flagClosed (x : Nat) (missed : Bool) (gs : List Segment) : shapeOf (flagClosed x missed gs) = shapeOf gs := by
  induction gs with
  | nil => rfl
  | cons g gs ih =>
    unfold flagClosed
    split
    · simp [shapeOf, SegBody.flagMark]
    · simpa [shapeOf] using ih

theorem shapeOf_flagLast (missed : Bool) (gs : List Segment) : shapeOf (flagLast missed gs) = shapeOf gs := by
  induction gs with
  | nil => rfl
  | cons g gs ih =>
    cases gs with
    | nil => simp [shapeOf, flagLast, SegBody.flagMark]
    | cons x xs => simpa [shapeOf, flagLast] using ih

theorem sameShape_flagMark (st : StrandState) (t : Bool) (x : Nat) (missed : Bool) :
    SameShape st { st with map := st.map.flagMark t x missed } := by
  have hshape : shapeOf (st.map.flagMark t x missed).closed = shapeOf st.map.closed := by
    unfold StrandMap.flagMark
    split
    · split
      · rfl
      · exact shapeOf_flagClosed x missed _
    · split
      · exact shapeOf_flagLast missed _
      · exact shapeOf_flagClosed x missed _
  have hcur : (st.map.flagMark t x missed).cur.map (·.start) = st.map.cur.map (·.start) := by
    unfold StrandMap.flagMark
    split
    · rename_i b hb
      split
      · rw [hb]; rfl
      · rfl
    · split <;> rfl
  have hrest : (st.map.flagMark t x missed).frontier = st.map.frontier ∧ (st.map.flagMark t x missed).nose = st.map.nose ∧
      (st.map.flagMark t x missed).tail = st.map.tail := by
    unfold StrandMap.flagMark
    split <;> split <;> exact ⟨rfl, rfl, rfl⟩
  exact ⟨rfl, hshape, hcur, hrest.1, hrest.2.1, hrest.2.2, rfl, fun c h => ⟨c, h, rfl⟩⟩

/-! ## Boundaries -/

/-- A part of a strand's state that boundaries leave. -/
structure SameFrame (st st' : StrandState) : Prop where
  track : st'.track = st.track
  frontier : st'.map.frontier = st.map.frontier
  cuts : st'.cuts = st.cuts

theorem SameShape.frame {st st' : StrandState} (h : SameShape st st') : SameFrame st st' := ⟨h.track, h.frontier, h.cuts⟩

theorem SameFrame.refl (st : StrandState) : SameFrame st st := ⟨rfl, rfl, rfl⟩

theorem SameFrame.trans {a b c : StrandState} (h : SameFrame a b) (k : SameFrame b c) : SameFrame a c :=
  ⟨k.track.trans h.track, k.frontier.trans h.frontier, k.cuts.trans h.cuts⟩

theorem Fit.breakAt {k : Nat} {st : StrandState} {last : Nat} (h : Fit k st last) (e : Env) (n : Strand) {cur : SegBody} (b : Nat)
    (dim : DimClass) (stats : Stats) (hc : st.map.cur = some cur) (h1 : cur.start ≤ b) (h2 : b ≤ st.map.frontier) :
    Fit (k + 1) (st.breakAt e n cur b dim stats) last ∧ SameFrame st (st.breakAt e n cur b dim stats) ∧
      (st.map.count < Config.ordinarySegments → Fit k (st.breakAt e n cur b dim stats) last) := by
  have hend : st.map.closedEnd = cur.start := by rw [StrandMap.closedEnd, hc]; rfl
  have hchain := h.chain
  rw [hend] at hchain
  have hcand : ∀ c, (st.eval.raiseSide b).candidate = some c → c.start ≤ st.map.frontier := by
    intro c hcc
    unfold Evaluator.raiseSide at hcc
    simp only [Option.map_eq_some_iff] at hcc
    obtain ⟨d, hd, rfl⟩ := hcc
    have := h.candidate d hd
    simp only
    omega
  have hcnt : st.map.count = st.map.closed.length + 1 := by simp [StrandMap.count, hc]
  have key : ∀ j, st.map.count + 1 ≤ Config.ordinarySegments + st.cuts.used + j →
      Fit j { st with
        map := { st.map with
          closed := st.map.closed ++ [{ body := cur, stop := b }]
          cur := some (st.newSegment e b dim stats) }
        eval := st.eval.raiseSide b } last := by
    intro j hj
    refine ⟨h.nose, h.lastCut, h.begun, ?_, h.tailed, ?_, h2, h.cuts.append_right, ?_, ?_, h.held, hcand⟩
    · have := h.opens
      unfold StrandState.OpenAgrees at *
      rw [hc] at this
      simpa using this
    · exact hchain.snoc rfl rfl h1
    · simp only [StrandMap.count, List.length_append, List.length_singleton, Option.isSome_some, if_true]
      rw [hcnt] at hj
      exact hj
    · intro _ p _ _
      exact Or.inr rfl
  unfold StrandState.breakAt
  refine ⟨(key (k + 1) (by have := h.places; omega)).of_same (sameShape_judgeMark _ e n b b),
    ?_, fun hlt => ?_⟩
  · have := (sameShape_judgeMark { st with
      map := { st.map with
        closed := st.map.closed ++ [{ body := cur, stop := b }]
        cur := some (st.newSegment e b dim stats) }
      eval := st.eval.raiseSide b } e n b b).frame
    exact ⟨this.track, this.frontier, this.cuts⟩
  exact (key k (by omega)).of_same (sameShape_judgeMark _ e n b b)

theorem Fit.act {k : Nat} {st : StrandState} {last : Nat} (h : Fit k st last) (f : Forecast) : Fit k { st with fore := f } last :=
  h.of_same ⟨rfl, rfl, rfl, rfl, rfl, rfl, rfl, fun c h => ⟨c, h, rfl⟩⟩

theorem Fit.boundary {k : Nat} {st : StrandState} {last : Nat} (h : Fit k st last) (e : Env) (n : Strand) (b : Nat) (dim : DimClass)
    (stats : Stats) (others : List BoundarySource) (hb : b ≤ st.map.frontier) :
    Fit k (st.boundary e n b dim stats others) last ∧ SameFrame st (st.boundary e n b dim stats others) := by
  have h0 := h.act (st.fore.act b)
  have f0 : SameFrame st { st with fore := st.fore.act b } := ⟨rfl, rfl, rfl⟩
  unfold StrandState.boundary
  dsimp only
  split
  · exact ⟨h0, f0⟩
  · rename_i cur hc
    split
    · have := sameShape_recolour { st with fore := st.fore.act b } e n cur dim stats hc
      exact ⟨h0.of_same this, f0.trans this.frame⟩
    · split
      · rename_i hlt hcount
        have := h0.breakAt e n b dim stats hc (by omega) hb
        exact ⟨this.2.2 hcount, f0.trans this.2.1⟩
      · have := sameShape_refuse { st with fore := st.fore.act b } e n cur b dim stats (BoundarySource.shown b (st.sourcesAt b others)) hc
        exact ⟨h0.of_same this, f0.trans this.frame⟩

theorem Fit.makeOffers {k : Nat} {last : Nat} (e : Env) (n : Strand) (sw : Option Nat) (g : Bool) (joint : Confirming) (bs : List Nat) :
    ∀ {st : StrandState}, Fit k st last → (∀ b ∈ bs, b ≤ st.map.frontier) →
      Fit k (st.makeOffers e n sw g joint bs) last ∧ SameFrame st (st.makeOffers e n sw g joint bs) := by
  induction bs with
  | nil => exact fun h _ => ⟨h, .refl _⟩
  | cons b bs ih =>
    intro st h hb
    have h1 := h.boundary e n b (st.offeredClass g joint b) {} (offerSources sw joint b) (hb b (by simp))
    have h2 := ih h1.1 (fun x hx => by rw [h1.2.frontier]; exact hb x (by simp [hx]))
    exact ⟨h2.1, h1.2.trans h2.2⟩

theorem mem_insertCoord (x y : Nat) (l : List Nat) : y ∈ insertCoord x l ↔ y = x ∨ y ∈ l := by
  induction l with
  | nil => simp [insertCoord]
  | cons z zs ih =>
    unfold insertCoord
    split
    · simp
    · split
      · subst_vars; simp
      · simp only [List.mem_cons, ih]; tauto

theorem mem_ascending (y : Nat) (l : List Nat) : y ∈ ascending l ↔ y ∈ l := by
  induction l with
  | nil => simp [ascending]
  | cons x xs ih =>
    show y ∈ insertCoord x (ascending xs) ↔ _
    rw [mem_insertCoord, ih]
    simp

/-- The frontier moves on. -/
theorem Fit.setFrontier {k : Nat} {st : StrandState} {last : Nat} (h : Fit k st last) (ht : st.track = .tracking) (x : Nat)
    (hx : st.map.frontier ≤ x) : Fit k { st with map := { st.map with frontier := x } } last := by
  obtain ⟨cur, hc⟩ := Option.isSome_iff_exists.mp (h.opens.mpr ht)
  have hend : st.map.closedEnd = cur.start := by rw [StrandMap.closedEnd, hc]; rfl
  have hend' : StrandMap.closedEnd { st.map with frontier := x } = cur.start := by
    unfold StrandMap.closedEnd
    simp only [hc]
    rfl
  refine ⟨h.nose, h.lastCut, h.begun, h.opens, fun htl => ?_, ?_, ?_, h.cuts, h.places, h.follows, ?_, fun c hcc => ?_⟩
  · rw [show st.track = .tailed from htl] at ht
    cases ht
  · show Chained last st.map.closed _
    rw [hend', ← hend]
    exact h.chain
  · show StrandMap.closedEnd _ ≤ x
    have := h.frontier
    rw [hend', ← hend]
    omega
  · intro htr p hp hph
    have := (h.held htr p hp hph).1
    rw [ht] at this
    cases this
  · have := h.candidate c hcc
    show c.start ≤ x
    omega

theorem StrandState.switchBoundary_le {st : StrandState} {x b : Nat} (hx : st.map.frontier ≤ x) (h : st.switchBoundary x = some b) :
    b ≤ x ∧ st.map.frontier ≤ b := by
  unfold StrandState.switchBoundary at h
  cases hs : st.switch with
  | none => simp [hs] at h
  | some w =>
    simp only [hs, Option.bind_some] at h
    split at h
    · cases h
      omega
    · cases h

/-- The frontier moves on and passes a switch. -/
theorem Fit.moveFrontier {k : Nat} {st : StrandState} {last : Nat} (h : Fit k st last) (ht : st.track = .tracking) (x : Nat)
    (hx : st.map.frontier ≤ x) :
    Fit k (st.moveFrontier x) last ∧ (st.moveFrontier x).track = .tracking ∧ (st.moveFrontier x).map.frontier = x ∧
      (st.moveFrontier x).cuts = st.cuts := by
  have s1 := sameShape_passSwitch { st with map := { st.map with frontier := x } } x
  exact ⟨(h.setFrontier ht x hx).of_same s1, s1.track.trans ht, s1.frontier, s1.cuts⟩

theorem StrandState.offeredUpTo_le {st : StrandState} {sw : Option Nat} {x : Nat} (hs : ∀ b, sw = some b → b ≤ x) :
    ∀ b ∈ st.offeredUpTo sw x, b ≤ x := by
  intro b hb
  rw [StrandState.offeredUpTo, mem_ascending, List.mem_append, List.mem_filter] at hb
  rcases hb with hb | hb
  · simpa using hb.2
  · exact hs b (by simpa using hb)

theorem Fit.advanceMap {k : Nat} {st : StrandState} {last : Nat} (h : Fit k st last) (ht : st.track = .tracking) (e : Env) (n : Strand)
    (x : Nat) (conf : Confirming) (hx : st.map.frontier ≤ x) :
    Fit k (st.advanceMap e n x conf) last ∧ (st.advanceMap e n x conf).track = .tracking ∧
      (st.advanceMap e n x conf).map.frontier = x ∧ (st.advanceMap e n x conf).cuts = st.cuts := by
  obtain ⟨h1, h2, h3, h4⟩ := h.moveFrontier ht x hx
  have h5 := fun joint => Fit.makeOffers e n (st.switchBoundary x) false joint ((st.moveFrontier x).offeredUpTo (st.switchBoundary x) x) h1
    (by rw [h3]; exact StrandState.offeredUpTo_le (fun b hb => (StrandState.switchBoundary_le hx hb).1))
  exact ⟨(h5 _).1, (h5 _).2.track.trans h2, (h5 _).2.frontier.trans h3, (h5 _).2.cuts.trans h4⟩

end Sys2Proof.Machine
end

