-- ==== Sys2Proof/Laws/Cuts.lean ====
section
/-! SUPPORT. Cuts keep the map whole: extension, division, joins, and the entry of a cut into the list (R134, R138, R139, R151, R153). -/

namespace Sys2Proof.Machine

/-! ## Splitting a closed segment -/

theorem splitClosed_append (c : Nat) (xs ys : List Segment) (h : ∀ g ∈ xs, g.inside c = false) :
    splitClosed c (xs ++ ys) = xs ++ splitClosed c ys := by
  induction xs with
  | nil => rfl
  | cons x xs ih =>
    have hx := h x (by simp)
    simp only [List.cons_append, splitClosed, hx]
    rw [ih (fun g hg => h g (by simp [hg]))]
    simp

theorem Chained.splitClosed {a b : Nat} {gs : List Segment} (c : Nat) (h : Chained a gs b) : Chained a (splitClosed c gs) b := by
  induction gs generalizing a with
  | nil => exact h
  | cons g gs ih =>
    unfold Sys2Proof.Machine.splitClosed
    split
    · rename_i hi
      simp only [Segment.inside, Bool.and_eq_true, decide_eq_true_eq] at hi
      have := h.1
      exact ⟨h.1, by show a ≤ c; omega, rfl, by show c ≤ g.stop; omega, h.2.2⟩
    · exact ⟨h.1, h.2.1, ih h.2.2⟩

theorem splitClosed_length (c : Nat) (gs : List Segment) (h : gs.any (fun g => g.inside c) = true) :
    (splitClosed c gs).length = gs.length + 1 := by
  induction gs with
  | nil => simp at h
  | cons g gs ih =>
    unfold splitClosed
    split
    · rfl
    · rename_i hg
      simp only [List.any_cons, Bool.or_eq_true] at h
      simp [ih (h.resolve_left hg)]

theorem Chained.splitClosed_clear {a b : Nat} {gs : List Segment} (c : Nat) (h : Chained a gs b) :
    ∀ g ∈ Sys2Proof.Machine.splitClosed c gs, g.inside c = false := by
  induction gs generalizing a with
  | nil => simp [Sys2Proof.Machine.splitClosed]
  | cons g gs ih =>
    unfold Sys2Proof.Machine.splitClosed
    split
    · rename_i hi
      simp only [Segment.inside, Bool.and_eq_true, decide_eq_true_eq] at hi
      intro x hx
      simp only [List.mem_cons] at hx
      rcases hx with rfl | rfl | hx
      · simp [Segment.inside]
      · simp [Segment.inside, SegBody.secondPart]
      · have := h.2.2.bounds x hx
        simp only [Segment.inside, Bool.and_eq_false_iff, decide_eq_false_iff_not]
        omega
    · rename_i hi
      intro x hx
      rcases List.mem_cons.mp hx with rfl | hx
      · simpa using hi
      · exact ih h.2.2 x hx

/-! ## Extension (R134) -/

theorem Fit.closedEnd_open {k : Nat} {st : StrandState} {last : Nat} (h : Fit k st last) (ht : st.track = .tracking) :
    ∃ cur, st.map.cur = some cur ∧ st.map.closedEnd = cur.start := by
  obtain ⟨cur, hc⟩ := Option.isSome_iff_exists.mp (h.opens.mpr ht)
  exact ⟨cur, hc, by rw [StrandMap.closedEnd, hc]; rfl⟩

theorem closedEnd_breakAt (st : StrandState) (e : Env) (n : Strand) (cur : SegBody) (b : Nat) (dim : DimClass) (stats : Stats) :
    (st.breakAt e n cur b dim stats).map.closedEnd = b :=
  (SameShape.closedEnd (sameShape_judgeMark { st with
      map := { st.map with
        closed := st.map.closed ++ [{ body := cur, stop := b }]
        cur := some (st.newSegment e b dim stats) }
      eval := st.eval.raiseSide b } e n b b)).trans rfl

theorem Fit.gapAtFrontier {k : Nat} {st : StrandState} {last : Nat} (h : Fit k st last) (e : Env) (n : Strand) :
    Fit k (st.gapAtFrontier e n) last ∧ SameFrame st (st.gapAtFrontier e n) := by
  have s := sameShape_passSwitch st st.map.frontier
  have h1 := (h.of_same s).boundary e n st.map.frontier .unmeasured {}
    (.gap :: (st.switchBoundary st.map.frontier).toList.map (fun _ => .switch)) (Nat.le_of_eq s.frontier.symm)
  exact ⟨h1.1, s.frame.trans h1.2⟩

theorem Fit.extend {k : Nat} {st : StrandState} {last : Nat} (h : Fit k st last) (ht : st.track = .tracking) (e : Env) (n : Strand)
    (c : Nat) (hc : st.map.frontier < c) :
    Fit (k + 1) (st.extend e n c) last ∧ (st.extend e n c).track = .tracking ∧ (st.extend e n c).map.frontier = c ∧
      (st.extend e n c).cuts = st.cuts ∧ (st.extend e n c).map.closedEnd = c := by
  unfold StrandState.extend
  dsimp only
  have h1 := h.gapAtFrontier e n
  generalize st.gapAtFrontier e n = st1 at h1 ⊢
  have hf1 : st1.map.frontier = st.map.frontier := h1.2.frontier
  have ht1 : st1.track = .tracking := h1.2.track.trans ht
  obtain ⟨h2, ht2, hf2, hc2⟩ := h1.1.moveFrontier ht1 c (by omega)
  generalize st1.moveFrontier c = st2 at h2 ht2 hf2 hc2 ⊢
  have h3 := Fit.makeOffers e n (st1.switchBoundary c) true none
    (ascending (st2.fore.offers.filter (· < c) ++ (st1.switchBoundary c).toList.filter (· < c))) h2 (fun b hb => by
      rw [hf2]
      rw [mem_ascending, List.mem_append, List.mem_filter, List.mem_filter] at hb
      rcases hb with hb | hb
      · have := hb.2; simp at this; omega
      · have := hb.2; simp at this; omega)
  generalize st2.makeOffers e n (st1.switchBoundary c) true none
    (ascending (st2.fore.offers.filter (· < c) ++ (st1.switchBoundary c).toList.filter (· < c))) = st3 at h3 ⊢
  have hf3 : st3.map.frontier = c := h3.2.frontier.trans hf2
  have ht3 : st3.track = .tracking := h3.2.track.trans ht2
  have hcuts : st3.cuts = st.cuts := h3.2.cuts.trans (hc2.trans h1.2.cuts)
  have h4 := h3.1.act (st3.fore.act c)
  obtain ⟨cur, hcur, hend⟩ := h3.1.closedEnd_open ht3
  have hle : cur.start ≤ c := by
    have := h3.1.frontier
    rw [hend, hf3] at this
    exact this
  unfold StrandState.cutBoundary
  dsimp only
  rw [hcur]
  have h5 := h4.breakAt e n c st3.eval.confirmed {} hcur hle (by show c ≤ st3.map.frontier; omega)
  exact ⟨h5.1, h5.2.1.track.trans ht3, h5.2.1.frontier.trans hf3, h5.2.1.cuts.trans hcuts,
    closedEnd_breakAt { st3 with fore := st3.fore.act c } e n cur c st3.eval.confirmed {}⟩

/-! ## Division (R139) -/

/-- What the division of a map at a cut leaves. -/
structure Divided (k : Nat) (st st1 : StrandState) (last c : Nat) (place : CutPlace) : Prop where
  fit : Fit (k + if place = .used then 1 else 0) st1 last
  track : st1.track = st.track
  cuts : st1.cuts = st.cuts
  clear : ∀ g ∈ st1.map.closed, g.inside c = false
  reach : c ≤ st1.map.closedEnd
  frontier : c ≤ st1.map.frontier
  /-- beyond the cut something stands, but for a cut at the end of a map with no open segment -/
  beyond : st1.map.cur.isSome = true ∨ c < st1.map.closedEnd ∨ (place ≠ .used ∧ c = st1.map.frontier)
  heldAtTail : place = .held → st1.track = .tailed ∧ c = st1.map.frontier
  tailHeld : st1.track = .tailed → c = st1.map.frontier → place = .held

theorem Fit.closed_noInside {k : Nat} {st : StrandState} {last : Nat} (h : Fit k st last) {c : Nat} (hc : reached last st.cuts.pending < c) :
    ∀ g ∈ st.map.closed.take (heldSegs st.cuts.pending), g.inside c = false := by
  intro g hg
  have := (h.cuts.chain.1.bounds g hg).2.2
  simp only [Segment.inside, Bool.and_eq_false_iff, decide_eq_false_iff_not]
  omega

theorem Fit.splitOpen {k : Nat} {st : StrandState} {last : Nat} (h : Fit k st last) (cur : SegBody) (hcur : st.map.cur = some cur) (c : Nat)
    (h1 : cur.start < c) (h2 : c ≤ st.map.frontier) : Fit (k + 1) (st.splitOpen cur c) last := by
  have hend : st.map.closedEnd = cur.start := by rw [StrandMap.closedEnd, hcur]; rfl
  have hchain := h.chain
  rw [hend] at hchain
  refine ⟨h.nose, h.lastCut, h.begun, ?_, h.tailed, ?_, h2, h.cuts.append_right, ?_, ?_, h.held, ?_⟩
  · exact ⟨fun _ => h.opens.mp (by rw [hcur]; rfl), fun _ => rfl⟩
  · exact hchain.snoc rfl rfl (Nat.le_of_lt h1)
  · have := h.places
    simp only [StrandMap.count, hcur, StrandState.splitOpen, List.length_append, List.length_singleton, Option.isSome_some,
      if_true] at *
    omega
  · intro _ p _ _
    exact Or.inr rfl
  · intro d hd
    simp only [StrandState.splitOpen, Evaluator.raiseSide, Option.map_eq_some_iff] at hd
    obtain ⟨f, hf, rfl⟩ := hd
    have := h.candidate f hf
    show max f.start c ≤ st.map.frontier
    omega

theorem Fit.splitClosed {k : Nat} {st : StrandState} {last : Nat} (h : Fit k st last) (c : Nat) (hc : reached last st.cuts.pending < c)
    (hany : st.map.closed.any (fun g => g.inside c) = true) :
    Fit (k + 1) { st with map := { st.map with closed := Sys2Proof.Machine.splitClosed c st.map.closed } } last := by
  have hl := splitClosed_length c st.map.closed hany
  have hhl := h.cuts.held_le
  refine ⟨h.nose, h.lastCut, h.begun, h.opens, h.tailed, h.chain.splitClosed c, h.frontier, ?_, ?_, ?_, h.held, h.candidate⟩
  · refine h.cuts.congr_take ?_ (by show _ ≤ (Sys2Proof.Machine.splitClosed c st.map.closed).length; omega)
    have : st.map.closed = st.map.closed.take (heldSegs st.cuts.pending) ++ st.map.closed.drop (heldSegs st.cuts.pending) := by
      rw [List.take_append_drop]
    show _ = (Sys2Proof.Machine.splitClosed c st.map.closed).take _
    conv_rhs => rw [this, splitClosed_append c _ _ (h.closed_noInside hc)]
    rw [List.take_append_of_le_length (by rw [List.length_take]; omega), List.take_take, Nat.min_self]
  · have := h.places
    simp only [StrandMap.count] at *
    omega
  · intro htr p hp hpl
    have := h.follows htr p hp hpl
    simp only at *
    rcases this with h' | h'
    · exact Or.inl (by omega)
    · exact Or.inr h'

theorem Fit.divideMap {k : Nat} {st : StrandState} {last : Nat} (h : Fit k st last) (e : Env) (n : Strand) (c : Nat)
    (hc : reached last st.cuts.pending < c) (hf : st.track = .tracking ∨ c ≤ st.map.frontier) :
    Divided k st (st.divideMap e n c) last c (st.cutPlace c) := by
  unfold StrandState.divideMap StrandState.cutPlace
  by_cases hext : st.track = .tracking ∧ st.map.frontier < c
  · rw [if_pos hext, if_pos hext]
    obtain ⟨h1, h2, h3, h4, h5⟩ := h.extend hext.1 e n c hext.2
    refine ⟨h1, h2.trans hext.1.symm, h4, ?_, by omega, by omega, Or.inl (h1.opens.mpr h2), nofun, ?_⟩
    · intro g hg
      have := (h1.chain.bounds g hg).2.2
      simp only [Segment.inside, Bool.and_eq_false_iff, decide_eq_false_iff_not]
      omega
    · intro ht
      rw [h2] at ht
      cases ht
  · rw [if_neg hext, if_neg hext]
    have hcf : c ≤ st.map.frontier := by
      rcases hf with hf | hf
      · have : ¬ st.map.frontier < c := fun hlt => hext ⟨hf, hlt⟩
        omega
      · exact hf
    by_cases htail : st.track = .tailed ∧ st.map.tail = some c
    · rw [if_pos htail]
      have hceq : st.map.frontier = c := by
        have := h.tailed htail.1
        rw [htail.2] at this
        exact (Option.some.inj this).symm
      have hnone : st.map.cur = none := by
        cases hcur : st.map.cur with
        | none => rfl
        | some b =>
          have := h.opens.mp (by rw [hcur]; rfl)
          rw [htail.1] at this
          cases this
      have hend : st.map.closedEnd = c := by rw [StrandMap.closedEnd, hnone]; exact hceq
      have hclear : ∀ g ∈ st.map.closed, g.inside c = false := by
        intro g hg
        have := (h.chain.bounds g hg).2.2
        simp only [Segment.inside, Bool.and_eq_false_iff, decide_eq_false_iff_not]
        omega
      have hany : ¬ st.map.closed.any (fun g => g.inside c) = true := by
        rw [Bool.not_eq_true, List.any_eq_false]
        intro g hg
        rw [hclear g hg]
        exact Bool.false_ne_true
      rw [if_neg hany, hnone]
      exact ⟨h, rfl, rfl, hclear, Nat.le_of_eq hend.symm, by show c ≤ st.map.frontier; omega, Or.inr (Or.inr ⟨nofun, hceq.symm⟩), fun _ => ⟨htail.1, hceq.symm⟩,
        fun _ _ => rfl⟩
    · rw [if_neg htail]
      have hnotTail : st.track = .tailed → c ≠ st.map.frontier := by
        intro ht he
        exact htail ⟨ht, by rw [h.tailed ht, he]⟩
      by_cases hany : st.map.closed.any (fun g => g.inside c) = true
      · rw [if_pos hany, if_pos (by rw [hany]; rfl)]
        obtain ⟨g, hg, hgi⟩ := List.any_eq_true.mp hany
        simp only [Segment.inside, Bool.and_eq_true, decide_eq_true_eq] at hgi
        have hb := (h.chain.bounds g hg).2.2
        refine ⟨h.splitClosed c hc hany, rfl, rfl, h.chain.splitClosed_clear c, ?_, hcf, ?_, nofun, fun ht he => absurd he (hnotTail ht)⟩
        · show c ≤ st.map.closedEnd
          omega
        · exact Or.inr (Or.inl (by show c < st.map.closedEnd; omega))
      · rw [if_neg hany]
        have hclear : ∀ g ∈ st.map.closed, g.inside c = false := by
          intro g hg
          rw [Bool.not_eq_true, List.any_eq_false] at hany
          exact Bool.eq_false_iff.mpr (hany g hg)
        have hany' : st.map.closed.any (fun g => g.inside c) = false := by simpa using hany
        rw [hany']
        cases hcur : st.map.cur with
        | none =>
          have hio : st.map.insideOpen c = false := by simp [StrandMap.insideOpen, hcur]
          rw [hio]
          have hend : st.map.closedEnd = st.map.frontier := by rw [StrandMap.closedEnd, hcur]; rfl
          refine ⟨h, rfl, rfl, hclear, by show c ≤ st.map.closedEnd; omega, hcf, ?_, nofun,
            fun ht he => absurd he (hnotTail ht)⟩
          rcases Nat.lt_or_ge c st.map.frontier with hlt | hge
          · exact Or.inr (Or.inl (by show c < st.map.closedEnd; omega))
          · exact Or.inr (Or.inr ⟨nofun, by show c = st.map.frontier; omega⟩)
        | some cur =>
          have hend : st.map.closedEnd = cur.start := by rw [StrandMap.closedEnd, hcur]; rfl
          by_cases hio : st.map.insideOpen c = true
          · have hio' := hio
            simp only [StrandMap.insideOpen, hcur, Option.elim_some, Bool.and_eq_true, decide_eq_true_eq] at hio'
            simp only [hio, if_true, Bool.or_true]
            refine ⟨h.splitOpen cur hcur c hio'.1 hio'.2, rfl, rfl, ?_, Nat.le_refl c, hcf, Or.inl rfl, nofun,
              fun ht he => absurd he (hnotTail ht)⟩
            intro g hg
            simp only [StrandState.splitOpen, List.mem_append, List.mem_singleton] at hg
            rcases hg with hg | rfl
            · exact hclear g hg
            · simp [Segment.inside]
          · have hio' : st.map.insideOpen c = false := by simpa using hio
            have hle : c ≤ cur.start := by
              simp only [StrandMap.insideOpen, hcur, Option.elim_some, Bool.and_eq_false_iff, decide_eq_false_iff_not] at hio'
              omega
            simp only [hio', Bool.or_false, if_false, Bool.false_eq_true]
            exact ⟨h, rfl, rfl, hclear, by show c ≤ st.map.closedEnd; omega, hcf, Or.inl (by rw [hcur]; rfl), nofun, fun ht he => absurd he (hnotTail ht)⟩

/-! ## A cut enters the list (R151) -/

theorem Cutter.used_snoc (ps : List PendingCut) (p : PendingCut) :
    (ps ++ [p]).countP (fun p => p.place == .used) = ps.countP (fun p => p.place == .used) + if p.place = .used then 1 else 0 := by
  rw [List.countP_append]
  congr 1
  by_cases h : p.place = .used <;> simp [h]

theorem Fit.appendCut {st : StrandState} {last : Nat} (h : Fit 0 st last) (e : Env) (n : Strand) (c : Nat) (isFinal joined : Bool)
    (copy : VerdictCopy) (hc : reached last st.cuts.pending < c) (hf : st.track = .tracking ∨ c ≤ st.map.frontier) :
    Fit 0 (st.appendCut e n c isFinal joined copy) last := by
  have d := h.divideMap e n c hc hf
  unfold StrandState.appendCut
  dsimp only
  generalize st.divideMap e n c = st1 at d ⊢
  generalize st.cutPlace c = place at d ⊢
  have hF := d.fit
  rw [← d.cuts] at hc
  have hh := hF.cuts.chain
  have hhl := hF.cuts.held_le
  have hrest := hF.chain.drop _ hh.1
  have hheld : (st1.map.closed.take (heldSegs st1.cuts.pending)).countP (fun g => g.stop ≤ c) = heldSegs st1.cuts.pending := by
    rw [List.countP_eq_length.mpr]
    · rw [List.length_take]; omega
    · intro g hg
      have := (hh.1.bounds g hg).2.2
      simp
      omega
  have hsplit : st1.map.closed.countP (fun g => g.stop ≤ c) =
      heldSegs st1.cuts.pending + (st1.map.closed.drop (heldSegs st1.cuts.pending)).countP (fun g => g.stop ≤ c) := by
    conv_lhs => rw [← List.take_append_drop (heldSegs st1.cuts.pending) st1.map.closed]
    rw [List.countP_append, hheld]
  have hsegs : st1.map.closed.countP (fun g => g.stop ≤ c) - heldSegs st1.cuts.pending =
      (st1.map.closed.drop (heldSegs st1.cuts.pending)).countP (fun g => g.stop ≤ c) := by omega
  have hchain := hrest.prefix_at (c := c) (by omega) d.reach (fun g hg => d.clear g (List.mem_of_mem_drop hg))
  have hcount : (st1.map.closed.drop (heldSegs st1.cuts.pending)).countP (fun g => g.stop ≤ c) ≤
      st1.map.closed.length - heldSegs st1.cuts.pending := by
    have := List.countP_le_length (p := fun g : Segment => decide (g.stop ≤ c))
      (l := st1.map.closed.drop (heldSegs st1.cuts.pending))
    simpa using this
  refine ⟨hF.nose, hF.lastCut, hF.begun, hF.opens, hF.tailed, hF.chain, hF.frontier, ?_, ?_, ?_, ?_, hF.candidate⟩
  · refine hF.cuts.snoc hc ?_ ?_
    · show heldSegs st1.cuts.pending + (st1.map.closed.countP (fun g => g.stop ≤ c) - heldSegs st1.cuts.pending) ≤ _
      omega
    · show Chained _ ((st1.map.closed.drop _).take (st1.map.closed.countP (fun g => g.stop ≤ c) - heldSegs st1.cuts.pending)) c
      rw [hsegs]
      exact hchain
  · show st1.map.count ≤ Config.ordinarySegments + (st1.cuts.pending ++ [_]).countP _ + 0
    rw [Cutter.used_snoc]
    have := hF.places
    unfold Cutter.used at this
    dsimp only
    omega
  · intro htr p hp hpl
    simp only [List.getLast?_append, List.getLast?_singleton, Option.some_or, Option.some.injEq] at hp
    subst hp
    simp only at hpl
    simp only [heldSegs_append, heldSegs_cons, heldSegs_nil]
    rcases d.beyond with hb | hb | hb
    · exact Or.inr hb
    · left
      have hrest2 := hrest.drop _ hchain
      have hne := hrest2.ne_nil hb
      have hlen := List.length_pos_iff.mpr hne
      simp only [List.length_drop] at hlen
      omega
    · rcases htr with ht | ht
      · exact Or.inr (hF.opens.mpr ht)
      · exact absurd (d.tailHeld ht hb.2) hpl
  · intro htr p hp hpl
    rcases List.mem_append.mp hp with hp | hp
    · exact hF.held htr p hp hpl
    · rw [List.mem_singleton] at hp
      subst hp
      exact d.heldAtTail hpl

/-! ## A cut is withdrawn (R138, R153) -/

theorem reached_snoc (a : Nat) (ps : List PendingCut) (p : PendingCut) : reached a (ps ++ [p]) = p.coord := by
  simp [reached]

theorem CutsDivide.reached_dropLast {a : Nat} {gs : List Segment} {ps : List PendingCut} (p : PendingCut)
    (h : CutsDivide a gs (ps ++ [p])) : reached a ps < p.coord := by
  induction ps generalizing a gs with
  | nil => exact h.1
  | cons q qs ih =>
    rw [reached_cons]
    exact ih h.2.2.2

theorem Fit.removeNewest {st : StrandState} {last : Nat} {ps : List PendingCut} {p : PendingCut} (h : Fit 0 st last)
    (hp : st.cuts.pending = ps ++ [p]) (hu : p.place ≠ .used) :
    Fit 0 { st with cuts := { st.cuts with pending := ps } } last := by
  have hc := h.cuts
  rw [hp] at hc
  have hpos := hc.segs_pos p (by simp)
  have hle := hc.held_le
  rw [heldSegs_append, heldSegs_cons, heldSegs_nil] at hle
  refine ⟨h.nose, h.lastCut, h.begun, h.opens, h.tailed, h.chain, h.frontier, ?_, ?_, ?_, ?_, h.candidate⟩
  · have := hc.dropLast
    rwa [List.dropLast_concat] at this
  · have := h.places
    unfold Cutter.used at this ⊢
    rw [hp, Cutter.used_snoc, if_neg hu] at this
    exact this
  · intro _ q _ _
    left
    show heldSegs ps < st.map.closed.length
    omega
  · intro htr q hq hpl
    exact h.held htr q (by rw [hp]; simp [show q ∈ ps from hq]) hpl

/-- Something stands beyond the newest cut where a later cut can be made. -/
theorem Fit.beyondNewest {st : StrandState} {last : Nat} (h : Fit 0 st last) {c : Nat} (hc : reached last st.cuts.pending < c)
    (hf : st.track = .tracking ∨ c ≤ st.map.frontier) :
    heldSegs st.cuts.pending < st.map.closed.length ∨ st.map.cur.isSome = true := by
  cases hcur : st.map.cur with
  | some b => exact Or.inr rfl
  | none =>
    left
    have hcf : c ≤ st.map.frontier := hf.resolve_left (fun ht => by have := h.opens.mpr ht; rw [hcur] at this; cases this)
    have hend : st.map.closedEnd = st.map.frontier := by rw [StrandMap.closedEnd, hcur]; rfl
    have hne := (h.chain.drop _ h.cuts.chain.1).ne_nil (by omega)
    have := List.length_pos_iff.mpr hne
    rw [List.length_drop] at this
    omega

theorem Fit.joinAt {st : StrandState} {last : Nat} {ps : List PendingCut} {p : PendingCut} (h : Fit 0 st last) (e : Env) (n : Strand)
    (hp : st.cuts.pending = ps ++ [p]) (hu : p.place = .used)
    (hfollow : heldSegs st.cuts.pending < st.map.closed.length ∨ st.map.cur.isSome = true) :
    Fit 0 { st.joinAt e n (heldSegs st.cuts.pending) p.coord with cuts := { st.cuts with pending := ps } } last ∧
      SameFrame st (st.joinAt e n (heldSegs st.cuts.pending) p.coord) := by
  have hc := h.cuts
  have hchain := hc.chain.1
  rw [hp, reached_snoc, ← hp] at hchain
  have hcp := hc
  rw [hp] at hcp
  have hpos := hcp.segs_pos p (by simp)
  have hle := hc.held_le
  have hk : heldSegs st.cuts.pending = heldSegs ps + p.segs := by
    rw [hp, heldSegs_append, heldSegs_cons, heldSegs_nil, Nat.add_zero]
  generalize heldSegs st.cuts.pending = k at hfollow hchain hle hk ⊢
  have hlen : (st.map.closed.take k).length = k := by rw [List.length_take]; omega
  have hne : st.map.closed.take k ≠ [] := List.ne_nil_of_length_pos (by omega)
  obtain ⟨init, a, hia⟩ : ∃ init a, st.map.closed.take k = init ++ [a] :=
    ⟨_, _, (List.dropLast_concat_getLast hne).symm⟩
  have hinit : init.length + 1 = k := by rw [← hlen, hia]; simp
  have hwhole : st.map.closed = init ++ [a] ++ st.map.closed.drop k := by rw [← hia, List.take_append_drop]
  rw [hia] at hchain
  obtain ⟨m, hm1, hm2⟩ := hchain.split
  obtain ⟨ha1, ha2, ha3⟩ := hm2
  have ha3 : a.stop = p.coord := ha3
  have hrest : Chained p.coord (st.map.closed.drop k) st.map.closedEnd :=
    h.chain.drop k (by rw [hia]; exact hchain)
  have hps : CutsDivide last st.map.closed ps := by
    have := hcp.dropLast
    rwa [List.dropLast_concat] at this
  have hused : st.cuts.used = ps.countP (fun p => p.place == .used) + 1 := by
    unfold Cutter.used
    rw [hp, Cutter.used_snoc, if_pos hu]
  have hplaces := h.places
  have htake : ∀ tl : List Segment, (init ++ tl).take (heldSegs ps) = st.map.closed.take (heldSegs ps) := by
    intro tl
    conv_rhs => rw [hwhole, List.append_assoc]
    rw [List.take_append_of_le_length (by omega), List.take_append_of_le_length (by omega)]
  have hheld : ∀ (f : Nat) (t : TrackState), t = st.track → f = st.map.frontier → (t = .tracking ∨ t = .tailed) → ∀ q ∈ ps,
      q.place = .held → t = .tailed ∧ q.coord = f := by
    rintro f t rfl rfl htr q hq hpl
    exact h.held htr q (by rw [hp]; simp [hq]) hpl
  unfold StrandState.joinAt
  rw [hia, List.getLast?_concat]
  cases hd : st.map.closed.drop k with
  | cons b rest =>
    rw [hd] at hrest
    obtain ⟨hb1, hb2, hb3⟩ := hrest
    have hl2 : st.map.closed.length = init.length + 1 + (rest.length + 1) := by
      rw [hwhole, hd]
      simp
      omega
    refine ⟨⟨h.nose, h.lastCut, h.begun, h.opens, h.tailed, ?_, h.frontier, ?_, ?_, ?_, hheld _ _ rfl rfl, h.candidate⟩,
      ⟨rfl, rfl, rfl⟩⟩
    · show Chained last ((init ++ [a]).dropLast ++ { body := a.body.join b.body, stop := b.stop } :: rest) st.map.closedEnd
      rw [List.dropLast_concat]
      exact hm1.append ⟨ha1, by show m ≤ b.stop; omega, hb3⟩
    · show CutsDivide last ((init ++ [a]).dropLast ++ _ :: rest) ps
      rw [List.dropLast_concat]
      exact hps.congr_take (htake _).symm (by simp; omega)
    · show StrandMap.count _ ≤ Config.ordinarySegments + ps.countP (fun p => p.place == .used) + 0
      simp only [StrandMap.count, List.dropLast_concat, List.length_append, List.length_cons] at *
      omega
    · intro _ q _ _
      left
      show heldSegs ps < ((init ++ [a]).dropLast ++ _ :: rest).length
      rw [List.dropLast_concat]
      simp
      omega
  | nil =>
    have hl2 : st.map.closed.length = init.length + 1 := by
      rw [hwhole, hd]; simp
    cases hcur : st.map.cur with
    | none =>
      rw [hcur] at hfollow
      rcases hfollow with hf | hf
      · omega
      · cases hf
    | some b =>
      have hend : st.map.closedEnd = b.start := by rw [StrandMap.closedEnd, hcur]; rfl
      have hfr := h.frontier
      rw [hd] at hrest
      have hrest' : p.coord = st.map.closedEnd := hrest
      have s1 := sameShape_judgeMark
        { st with map := { st.map with closed := (init ++ [a]).dropLast, cur := some (a.body.join b) } }
        e n p.coord (Config.markEndAtMerge a.body.start p.coord)
      refine ⟨?_, ⟨s1.track, s1.frontier, s1.cuts⟩⟩
      have base : Fit 0 { st with
          map := { st.map with closed := (init ++ [a]).dropLast, cur := some (a.body.join b) }
          cuts := { st.cuts with pending := ps } } last := by
        rw [List.dropLast_concat]
        refine ⟨h.nose, h.lastCut, h.begun, ?_, h.tailed, ?_, ?_, ?_, ?_, fun _ q _ _ => Or.inr rfl, hheld _ _ rfl rfl, h.candidate⟩
        · exact ⟨fun _ => h.opens.mp (by rw [hcur]; rfl), fun _ => rfl⟩
        · show Chained last init a.body.start
          rw [ha1]
          exact hm1
        · show a.body.start ≤ st.map.frontier
          omega
        · have := htake []
          rw [List.append_nil] at this
          exact hps.congr_take this.symm (by show heldSegs ps ≤ init.length; omega)
        · show StrandMap.count _ ≤ Config.ordinarySegments + ps.countP (fun p => p.place == .used) + 0
          simp only [StrandMap.count, hcur, Option.isSome_some, if_true] at *
          omega
      exact base.of_same ⟨s1.track, s1.closed, s1.cur, s1.frontier, s1.nose, s1.tail, rfl, s1.candidate⟩

theorem Fit.withdrawNewest {st : StrandState} {last : Nat} {p : PendingCut} (h : Fit 0 st last) (e : Env) (n : Strand)
    (hp : st.cuts.pending.getLast? = some p)
    (hfollow : heldSegs st.cuts.pending < st.map.closed.length ∨ st.map.cur.isSome = true) :
    Fit 0 (st.withdrawNewest e n p) last ∧ (st.withdrawNewest e n p).track = st.track ∧
      (st.withdrawNewest e n p).map.frontier = st.map.frontier ∧
      (st.withdrawNewest e n p).cuts.pending = st.cuts.pending.dropLast ∧
      reached last (st.withdrawNewest e n p).cuts.pending ≤ reached last st.cuts.pending := by
  obtain ⟨ps, hps⟩ : ∃ ps, st.cuts.pending = ps ++ [p] := by
    have hne : st.cuts.pending ≠ [] := by
      intro h0
      rw [h0] at hp
      cases hp
    refine ⟨st.cuts.pending.dropLast, ?_⟩
    have := List.dropLast_concat_getLast hne
    rw [List.getLast?_eq_some_getLast hne] at hp
    rw [Option.some.inj hp] at this
    exact this.symm
  have hdrop : st.cuts.pending.dropLast = ps := by rw [hps, List.dropLast_concat]
  have hreach : reached last ps ≤ reached last st.cuts.pending := by
    have hc := h.cuts
    rw [hps] at hc
    have := hc.reached_dropLast p
    rw [hps, reached_snoc]
    omega
  unfold StrandState.withdrawNewest
  dsimp only
  by_cases hu : p.place = .used
  · rw [if_pos hu]
    have hj := h.joinAt e n hps hu hfollow
    have he : (st.joinAt e n (heldSegs st.cuts.pending) p.coord).cuts = st.cuts := hj.2.cuts
    rw [he, hdrop]
    exact ⟨hj.1, hj.2.track, hj.2.frontier, rfl, hreach⟩
  · rw [if_neg hu, hdrop]
    exact ⟨h.removeNewest hps hu, rfl, rfl, rfl, hreach⟩

/-! ## Judging and accepting (R150, R151, R161) -/

theorem Fit.acceptCut {st : StrandState} {last : Nat} (h : Fit 0 st last) (e : Env) (n : Strand) (source : CutSource) (c : Nat)
    (hc : reached last st.cuts.pending < c) (hf : st.track = .tracking ∨ c ≤ st.map.frontier) :
    Fit 0 (st.acceptCut e n source c) last := by
  unfold StrandState.acceptCut
  dsimp only
  split
  · exact h.appendCut e n c _ _ _ hc hf
  · split
    · exact h
    · rename_i p hp
      obtain ⟨h1, h2, h3, h4, h5⟩ := h.withdrawNewest e n hp (h.beyondNewest hc hf)
      have h6 := h1.appendCut e n c (p.isFinal || source == .final) true (verdictCopy e st) (by omega)
        (by rw [h2, h3]; exact hf)
      exact h6.of_same (sameShape_raise _ e n _ _ _ _)

theorem Fit.notBelow {st : StrandState} {last : Nat} (h : Fit 0 st last) {c : Nat} (hc : ¬ st.cuts.atOrBelowNewest c = true) :
    reached last st.cuts.pending < c := by
  unfold Cutter.atOrBelowNewest at hc
  rw [Cutter.newest_eq _ last h.lastCut] at hc
  simpa using hc

theorem Fit.judgeCut {st : StrandState} {last : Nat} (h : Fit 0 st last) (e : Env) (n : Strand) (source : CutSource) (c : Nat)
    (ht : st.track = .tracking ∨ st.track = .tailed) : Fit 0 (st.judgeCut e n source c) last := by
  unfold StrandState.judgeCut
  split
  · exact h
  · split
    · exact h
    · split
      · exact h.of_same (sameShape_raise _ e n _ _ _ _)
      · rename_i hnb
        split
        · rename_i t htt htail
          have hft : st.map.frontier = t := by
            have := h.tailed htt
            rw [htail] at this
            exact (Option.some.inj this).symm
          split
          · split
            · exact h.of_same (sameShape_raise _ e n _ _ _ _)
            · rename_i hnb2
              exact h.acceptCut e n source t (h.notBelow hnb2) (Or.inr (by omega))
          · exact h.acceptCut e n source c (h.notBelow hnb) (Or.inr (by omega))
        · rename_i hno
          refine h.acceptCut e n source c (h.notBelow hnb) ?_
          rcases ht with ht | ht
          · exact Or.inl ht
          · exact absurd (h.tailed ht) (hno _ ht)

theorem markFinal_coords (ps : List PendingCut) :
    (markFinal ps).map (fun p => (p.coord, p.segs, p.place)) = ps.map (fun p => (p.coord, p.segs, p.place)) := by
  induction ps with
  | nil => rfl
  | cons p ps ih =>
    cases ps with
    | nil => rfl
    | cons q qs => simpa [markFinal] using ih

theorem CutsDivide.of_coords {a : Nat} {gs : List Segment} {ps qs : List PendingCut}
    (e : qs.map (fun p => (p.coord, p.segs, p.place)) = ps.map (fun p => (p.coord, p.segs, p.place))) (h : CutsDivide a gs ps) :
    CutsDivide a gs qs := by
  induction ps generalizing a gs qs with
  | nil =>
    cases qs with
    | nil => trivial
    | cons q qs => simp at e
  | cons p ps ih =>
    cases qs with
    | nil => simp at e
    | cons q qs =>
      simp only [List.map_cons, List.cons.injEq, Prod.mk.injEq] at e
      obtain ⟨⟨e1, e2, e3⟩, e4⟩ := e
      obtain ⟨h1, h2, h3, h4⟩ := h
      refine ⟨by rw [e1]; exact h1, by rw [e2]; exact h2, by rw [e1, e2]; exact h3, ?_⟩
      rw [e1, e2]
      exact ih e4 h4

/-- Other flags on the pending cuts change nothing. -/
theorem Fit.of_coords {st : StrandState} {last : Nat} (h : Fit 0 st last) (qs : List PendingCut)
    (e : qs.map (fun p => (p.coord, p.segs, p.place)) = st.cuts.pending.map (fun p => (p.coord, p.segs, p.place))) :
    Fit 0 { st with cuts := { st.cuts with pending := qs } } last := by
  have hsegs : heldSegs qs = heldSegs st.cuts.pending := by
    unfold heldSegs
    have := congrArg (List.map (fun t : Nat × Nat × CutPlace => t.2.1)) e
    simp only [List.map_map] at this
    exact congrArg List.sum this
  have hlast : qs.getLast?.map (fun p => (p.coord, p.segs, p.place)) =
      st.cuts.pending.getLast?.map (fun p => (p.coord, p.segs, p.place)) := by
    rw [← List.getLast?_map, ← List.getLast?_map, e]
  refine ⟨h.nose, h.lastCut, h.begun, h.opens, h.tailed, h.chain, h.frontier, h.cuts.of_coords e, ?_, ?_, ?_, h.candidate⟩
  · have := h.places
    have hu : qs.countP (fun p => p.place == .used) = st.cuts.used := by
      unfold Cutter.used
      have h1 : ∀ l : List PendingCut, l.countP (fun p => p.place == .used) =
          (l.map (fun p => (p.coord, p.segs, p.place))).countP (fun t => t.2.2 == .used) := by
        intro l
        rw [List.countP_map]
        rfl
      rw [h1, h1, e]
    show st.map.count ≤ Config.ordinarySegments + qs.countP (fun p => p.place == .used) + 0
    omega
  · intro htr p hp hpl
    rw [show (StrandState.cuts _).pending.getLast? = qs.getLast? from rfl] at hp
    rw [hp] at hlast
    cases hq : st.cuts.pending.getLast? with
    | none => rw [hq] at hlast; cases hlast
    | some q =>
      rw [hq] at hlast
      simp only [Option.map_some, Option.some.injEq, Prod.mk.injEq] at hlast
      have := h.follows htr q hq (by rw [← hlast.2.2]; exact hpl)
      show heldSegs qs < _ ∨ _
      rw [hsegs]
      exact this
  · intro htr p hp hpl
    have hm : (p.coord, p.segs, p.place) ∈ qs.map (fun p => (p.coord, p.segs, p.place)) := List.mem_map.mpr ⟨p, hp, rfl⟩
    rw [e] at hm
    obtain ⟨q, hq, hqe⟩ := List.mem_map.mp hm
    simp only [Prod.mk.injEq] at hqe
    have := h.held htr q hq (by rw [hqe.2.2]; exact hpl)
    rw [hqe.1] at this
    exact this

theorem Fit.finalCut {st : StrandState} {last : Nat} (h : Fit 0 st last) (e : Env) (n : Strand) : Fit 0 (st.finalCut e n) last := by
  unfold StrandState.finalCut
  split
  · exact h.of_coords _ (markFinal_coords _)
  · rename_i hnb
    exact h.acceptCut e n .final st.map.frontier (h.notBelow hnb) (Or.inr (Nat.le_refl _))

end Sys2Proof.Machine
end

