-- ==== Sys2Proof/Laws/Memory.lean ====
section
/-! SUPPORT. The laws of the exchange memory: what a byte reads after a store, and that every operation keeps the canonical form. -/

namespace Sys2Proof.Machine

/-! ## Lists of cells -/

/-- Reading after cells whose addresses all differ from the address read. -/
theorem Memory.rd_append_of_ne (l m : Memory) (x : Nat) (h : ∀ c ∈ l, c.1 ≠ x) : Memory.rd (l ++ m) x = m.rd x := by
  induction l with
  | nil => rfl
  | cons c l ih =>
    obtain ⟨y, b⟩ := c
    have hy : y ≠ x := h (y, b) (by simp)
    simp only [List.cons_append, Memory.rd, hy, if_false]
    exact ih (fun c hc => h c (by simp [hc]))

/-- Reading before cells whose addresses all differ from the address read. -/
theorem Memory.rd_append_left (l m : Memory) (x : Nat) (h : ∀ c ∈ m, c.1 ≠ x) : Memory.rd (l ++ m) x = Memory.rd l x := by
  induction l with
  | nil =>
    have := Memory.rd_append_of_ne m [] x h
    simpa [Memory.rd] using this
  | cons c l ih =>
    obtain ⟨y, b⟩ := c
    simp only [List.cons_append, Memory.rd, ih]

/-- Reading a memory from which other addresses have been dropped. -/
theorem Memory.rd_filter (m : Memory) (p : Nat → Bool) (x : Nat) (h : p x = true) :
    Memory.rd (m.filter (fun c => p c.1)) x = m.rd x := by
  induction m with
  | nil => rfl
  | cons c m ih =>
    obtain ⟨y, b⟩ := c
    rcases Decidable.em (y = x) with rfl | hy
    · simp [Memory.rd, h]
    · cases hp : p y <;> simp [Memory.rd, hp, hy, ih]

/-- The addresses of a block's entries lie in the block. -/
theorem cellsOf_addr (a : Nat) (bs : List Byte) : ∀ c ∈ cellsOf a bs, a ≤ c.1 ∧ c.1 < a + bs.length := by
  induction bs generalizing a with
  | nil => simp [cellsOf]
  | cons b bs ih =>
    intro c hc
    simp only [cellsOf] at hc
    have key : c ∈ cellsOf (a + 1) bs → a ≤ c.1 ∧ c.1 < a + (b :: bs).length := by
      intro h
      have := ih (a + 1) c h
      simp only [List.length_cons]
      omega
    split at hc
    · exact key hc
    · rcases List.mem_cons.mp hc with rfl | h
      · simp
      · exact key h

/-- No entry of a block holds zero. -/
theorem cellsOf_ne_zero (a : Nat) (bs : List Byte) : ∀ c ∈ cellsOf a bs, c.2 ≠ 0#8 := by
  induction bs generalizing a with
  | nil => simp [cellsOf]
  | cons b bs ih =>
    intro c hc
    simp only [cellsOf] at hc
    split at hc
    · exact ih _ c hc
    · rename_i hb
      rcases List.mem_cons.mp hc with rfl | h
      · exact hb
      · exact ih _ c h

/-- A block's entries stand in rising order. -/
theorem cellsOf_sorted (a : Nat) (bs : List Byte) : (cellsOf a bs).Pairwise (fun c d => c.1 < d.1) := by
  induction bs generalizing a with
  | nil => simp [cellsOf]
  | cons b bs ih =>
    simp only [cellsOf]
    split
    · exact ih _
    · refine List.Pairwise.cons (fun d hd => ?_) (ih _)
      have := cellsOf_addr (a + 1) bs d hd
      simp only
      omega

/-- Reading a block's entries. -/
theorem rd_cellsOf (a : Nat) (bs : List Byte) (k : Nat) (h : k < bs.length) :
    Memory.rd (cellsOf a bs) (a + k) = bs[k] := by
  induction bs generalizing a k with
  | nil => simp at h
  | cons b bs ih =>
    cases k with
    | zero =>
      simp only [cellsOf]
      split
      · rename_i hb
        have := Memory.rd_append_of_ne (cellsOf (a + 1) bs) [] (a + 0)
          (fun c hc => by have := cellsOf_addr (a + 1) bs c hc; omega)
        simp only [List.append_nil, Memory.rd, Nat.add_zero] at this
        simpa [hb] using this
      · simp [Memory.rd]
    | succ k =>
      have hk : k < bs.length := by simpa using h
      have := ih (a + 1) k hk
      have he : a + 1 + k = a + (k + 1) := by omega
      rw [he] at this
      simp only [cellsOf]
      split
      · simpa using this
      · have hn : a ≠ a + (k + 1) := by omega
        simp only [Memory.rd, hn, if_false]
        simpa using this

/-! ## Stores -/

/-- A byte outside a stored block reads as before. -/
theorem Memory.rd_write_outside (m : Memory) (a : Nat) (bs : List Byte) (x : Nat) (h : x < a ∨ a + bs.length ≤ x) :
    (m.write a bs).rd x = m.rd x := by
  have hc : ∀ c ∈ cellsOf a bs, c.1 ≠ x := fun c hc => by have := cellsOf_addr a bs c hc; omega
  unfold Memory.write
  rcases h with h | h
  · have h2 : ∀ c ∈ cellsOf a bs ++ m.filter (fun c => a + bs.length ≤ c.1), c.1 ≠ x := by
      intro c hc'
      rcases List.mem_append.mp hc' with h1 | h1
      · exact hc c h1
      · have := (List.mem_filter.mp h1).2
        simp only [decide_eq_true_eq] at this
        omega
    rw [Memory.rd_append_left _ _ _ h2]
    exact Memory.rd_filter m (fun y => y < a) x (by simpa using h)
  · have h2 : ∀ c ∈ m.filter (fun c => c.1 < a), c.1 ≠ x := by
      intro c h1
      have := (List.mem_filter.mp h1).2
      simp only [decide_eq_true_eq] at this
      omega
    rw [Memory.rd_append_of_ne _ _ _ h2, Memory.rd_append_of_ne _ _ _ hc]
    exact Memory.rd_filter m (fun y => a + bs.length ≤ y) x (by simpa using h)

/-- A byte inside a stored block reads as stored. -/
theorem Memory.rd_write_inside (m : Memory) (a : Nat) (bs : List Byte) (k : Nat) (h : k < bs.length) :
    (m.write a bs).rd (a + k) = bs[k] := by
  unfold Memory.write
  have h1 : ∀ c ∈ m.filter (fun c => c.1 < a), c.1 ≠ a + k := by
    intro c hc
    have := (List.mem_filter.mp hc).2
    simp only [decide_eq_true_eq] at this
    omega
  have h2 : ∀ c ∈ m.filter (fun c => a + bs.length ≤ c.1), c.1 ≠ a + k := by
    intro c hc
    have := (List.mem_filter.mp hc).2
    simp only [decide_eq_true_eq] at this
    omega
  rw [Memory.rd_append_of_ne _ _ _ h1, Memory.rd_append_left _ _ _ h2, rd_cellsOf _ _ _ h]

/-- A cleared byte reads zero; the others read as before. -/
theorem Memory.rd_clear (m : Memory) (a n x : Nat) :
    (m.clear a n).rd x = if a ≤ x ∧ x < a + n then 0#8 else m.rd x := by
  unfold Memory.clear
  split
  · rename_i h
    have h1 : ∀ c ∈ m.filter (fun c => c.1 < a || a + n ≤ c.1), c.1 ≠ x := by
      intro c hc
      have := (List.mem_filter.mp hc).2
      simp only [Bool.or_eq_true, decide_eq_true_eq] at this
      omega
    have := Memory.rd_append_of_ne _ [] x h1
    simpa [Memory.rd] using this
  · rename_i h
    exact Memory.rd_filter m (fun y => y < a || a + n ≤ y) x (by simp only [Bool.or_eq_true, decide_eq_true_eq]; omega)

/-- A store keeps the canonical form. -/
theorem Memory.wf_write (m : Memory) (a : Nat) (bs : List Byte) (h : m.wf) : (m.write a bs).wf := by
  obtain ⟨hs, hz⟩ := h
  unfold Memory.write
  constructor
  · refine List.pairwise_append.mpr ⟨hs.filter _, List.pairwise_append.mpr ⟨cellsOf_sorted a bs, hs.filter _, ?_⟩, ?_⟩
    · intro c hc d hd
      have h1 := cellsOf_addr a bs c hc
      have h2 := (List.mem_filter.mp hd).2
      simp only [decide_eq_true_eq] at h2
      omega
    · intro c hc d hd
      have h1 := (List.mem_filter.mp hc).2
      simp only [decide_eq_true_eq] at h1
      rcases List.mem_append.mp hd with hd | hd
      · have h2 := cellsOf_addr a bs d hd
        omega
      · have h2 := (List.mem_filter.mp hd).2
        simp only [decide_eq_true_eq] at h2
        omega
  · intro c hc
    rcases List.mem_append.mp hc with hc | hc
    · exact hz c (List.mem_filter.mp hc).1
    · rcases List.mem_append.mp hc with hc | hc
      · exact cellsOf_ne_zero a bs c hc
      · exact hz c (List.mem_filter.mp hc).1

/-- Clearing keeps the canonical form. -/
theorem Memory.wf_clear (m : Memory) (a n : Nat) (h : m.wf) : (m.clear a n).wf :=
  ⟨h.1.filter _, fun c hc => h.2 c (List.mem_filter.mp hc).1⟩

/-- Equal reads of a range give equal bytes. -/
theorem Memory.rdBytes_congr (m m' : Memory) (a k : Nat) (h : ∀ x, a ≤ x → x < a + k → m.rd x = m'.rd x) :
    m.rdBytes a k = m'.rdBytes a k := by
  induction k generalizing a with
  | zero => rfl
  | succ k ih =>
    simp only [Memory.rdBytes]
    rw [h a (by omega) (by omega), ih (a + 1) (fun x h1 h2 => h x (by omega) (by omega))]

/-- A field outside a stored block reads as before. -/
theorem Memory.rdNat_write_outside (m : Memory) (a : Nat) (bs : List Byte) (x k : Nat)
    (h : x + k ≤ a ∨ a + bs.length ≤ x) : (m.write a bs).rdNat x k = m.rdNat x k := by
  unfold Memory.rdNat
  rw [Memory.rdBytes_congr _ m x k (fun y h1 h2 => Memory.rd_write_outside m a bs y (by omega))]

/-- The bytes of a range of a stored block. -/
theorem Memory.rdBytes_write_inside (m : Memory) (a : Nat) (bs : List Byte) (j k : Nat) (h : j + k ≤ bs.length) :
    (m.write a bs).rdBytes (a + j) k = (bs.drop j).take k := by
  induction k generalizing j with
  | zero => simp [Memory.rdBytes]
  | succ k ih =>
    simp only [Memory.rdBytes]
    rw [Memory.rd_write_inside m a bs j (by omega), Nat.add_assoc, ih (j + 1) (by omega)]
    exact (by rw [List.drop_eq_getElem_cons (show j < bs.length by omega), List.take_succ_cons])

/-! ## Fields -/

/-- The number of bytes of a field. -/
@[simp] theorem leBytes_length (k n : Nat) : (leBytes k n).length = k := by
  induction k generalizing n with
  | zero => rfl
  | succ k ih => simp [leBytes, ih]

/-- The number of bytes of a signed field. -/
@[simp] theorem leInt_length (z : Int) : (leInt z).length = 4 := by simp [leInt]

/-- A field reads back as the value it was made from. -/
theorem leNat_leBytes (k n : Nat) (h : n < 256 ^ k) : leNat (leBytes k n) = n := by
  induction k generalizing n with
  | zero => simp [leNat, leBytes] at *; omega
  | succ k ih =>
    have h1 : n / 256 < 256 ^ k := by
      rw [Nat.div_lt_iff_lt_mul (by decide)]
      simpa [pow_succ] using h
    simp only [leBytes, leNat, ih _ h1, BitVec.toNat_ofNat]
    omega

/-- A whole stored field reads back. -/
theorem Memory.rdNat_write_self (m : Memory) (a : Nat) (bs : List Byte) : (m.write a bs).rdNat a bs.length = leNat bs := by
  have := Memory.rdBytes_write_inside m a bs 0 bs.length (by omega)
  simp only [Nat.add_zero, List.drop_zero, List.take_length] at this
  simp [Memory.rdNat, this]

/-- A stored 32-bit field reads back. -/
theorem Memory.rd32_write_leBytes (m : Memory) (a n : Nat) (h : n < 4294967296) : (m.write a (leBytes 4 n)).rd32 a = n := by
  have := Memory.rdNat_write_self m a (leBytes 4 n)
  rw [leBytes_length] at this
  rw [Memory.rd32, this, leNat_leBytes 4 n (by simpa using h)]

end Sys2Proof.Machine
end

