-- ==== Sys2Proof/Laws/State.lean ====
section
/-! SUPPORT. What each update of the state leaves of each field: one lemma for each field and update. -/

namespace Sys2Proof.Machine

/-! ## Four like things -/

@[simp] theorem Four.get_build {α : Type} (g : Strand → α) (n : Strand) : (Four.build g).get n = g n := by cases n <;> rfl

@[simp] theorem Four.get_set_self {α : Type} (f : Four α) (n : Strand) (x : α) : (f.set n x).get n = x := by cases n <;> rfl

theorem Four.get_set_ne {α : Type} (f : Four α) {n k : Strand} (x : α) (h : k ≠ n) : (f.set n x).get k = f.get k := by
  cases n <;> cases k <;> first | rfl | exact absurd rfl h

theorem Four.get_set {α : Type} (f : Four α) (n k : Strand) (x : α) :
    (f.set n x).get k = if k = n then x else f.get k := by
  split
  · subst_vars; simp
  · exact Four.get_set_ne f x ‹_›

theorem Four.ext_get {α : Type} {f g : Four α} (h : ∀ n, f.get n = g.get n) : f = g := by
  cases f; cases g
  exact (Four.mk.injEq ..).mpr ⟨h .s1, h .s2, h .s3, h .s4⟩

@[simp] theorem State.onStrand_strand (s : State) (n : Strand) (f : StrandState → StrandState) :
    (s.onStrand n f).strand n = f (s.strand n) := by simp [State.strand, State.onStrand]

theorem State.onStrand_strand_ne (s : State) {n k : Strand} (f : StrandState → StrandState) (h : k ≠ n) :
    (s.onStrand n f).strand k = s.strand k := Four.get_set_ne _ _ h

theorem State.onStrand_strand_eq (s : State) (n k : Strand) (f : StrandState → StrandState) :
    (s.onStrand n f).strand k = if k = n then f (s.strand k) else s.strand k := by
  split
  · subst_vars; simp
  · exact State.onStrand_strand_ne s f ‹_›

@[simp] theorem State.onAll_strand (s : State) (n : Strand) (f : Strand → StrandState → StrandState) :
    (s.onAll f).strand n = f n (s.strand n) := by simp [State.strand, State.onAll]

@[simp] theorem State.onRun_strand (s : State) (n : Strand) (f : Strand → StrandState → StrandState) :
    (s.onRun f).strand n = if s.inMask n then f n (s.strand n) else s.strand n := by simp [State.onRun]


/-! ## setReason -/

@[simp] theorem State.setReason_pending (s : State) (r : Reason) : (s.setReason r).pending = s.pending := rfl
@[simp] theorem State.setReason_clock (s : State) (r : Reason) : (s.setReason r).clock = s.clock := rfl
@[simp] theorem State.setReason_orders (s : State) (r : Reason) : (s.setReason r).orders = s.orders := rfl
@[simp] theorem State.setReason_run (s : State) (r : Reason) : (s.setReason r).run = s.run := rfl
@[simp] theorem State.setReason_strands (s : State) (r : Reason) : (s.setReason r).strands = s.strands := rfl
@[simp] theorem State.setReason_inputs (s : State) (r : Reason) : (s.setReason r).inputs = s.inputs := rfl
@[simp] theorem State.setReason_lastServed (s : State) (r : Reason) : (s.setReason r).lastServed = s.lastServed := rfl
@[simp] theorem State.setReason_service (s : State) (r : Reason) : (s.setReason r).service = s.service := rfl
@[simp] theorem State.setReason_pieceServed (s : State) (r : Reason) : (s.setReason r).pieceServed = s.pieceServed := rfl
@[simp] theorem State.setReason_seamMail (s : State) (r : Reason) : (s.setReason r).seamMail = s.seamMail := rfl
@[simp] theorem State.setReason_grantMail (s : State) (r : Reason) : (s.setReason r).grantMail = s.grantMail := rfl
@[simp] theorem State.setReason_sawMail (s : State) (r : Reason) : (s.setReason r).sawMail = s.sawMail := rfl
@[simp] theorem State.setReason_report (s : State) (r : Reason) : (s.setReason r).report = s.report := rfl

/-! ## writeMask -/

@[simp] theorem State.writeMask_pending (s : State) (v : Word32) : (s.writeMask v).pending = s.pending := rfl
@[simp] theorem State.writeMask_clock (s : State) (v : Word32) : (s.writeMask v).clock = s.clock := rfl
@[simp] theorem State.writeMask_orders (s : State) (v : Word32) : (s.writeMask v).orders = s.orders := rfl
@[simp] theorem State.writeMask_run (s : State) (v : Word32) : (s.writeMask v).run = s.run := rfl
@[simp] theorem State.writeMask_strands (s : State) (v : Word32) : (s.writeMask v).strands = s.strands := rfl
@[simp] theorem State.writeMask_inputs (s : State) (v : Word32) : (s.writeMask v).inputs = s.inputs := rfl
@[simp] theorem State.writeMask_lastServed (s : State) (v : Word32) : (s.writeMask v).lastServed = s.lastServed := rfl
@[simp] theorem State.writeMask_service (s : State) (v : Word32) : (s.writeMask v).service = s.service := rfl
@[simp] theorem State.writeMask_pieceServed (s : State) (v : Word32) : (s.writeMask v).pieceServed = s.pieceServed := rfl
@[simp] theorem State.writeMask_seamMail (s : State) (v : Word32) : (s.writeMask v).seamMail = s.seamMail := rfl
@[simp] theorem State.writeMask_grantMail (s : State) (v : Word32) : (s.writeMask v).grantMail = s.grantMail := rfl
@[simp] theorem State.writeMask_sawMail (s : State) (v : Word32) : (s.writeMask v).sawMail = s.sawMail := rfl
@[simp] theorem State.writeMask_report (s : State) (v : Word32) : (s.writeMask v).report = s.report := rfl

/-! ## clearNotice -/

@[simp] theorem State.clearNotice_pending (s : State) (v : Word32) : (s.clearNotice v).pending = s.pending := rfl
@[simp] theorem State.clearNotice_clock (s : State) (v : Word32) : (s.clearNotice v).clock = s.clock := rfl
@[simp] theorem State.clearNotice_orders (s : State) (v : Word32) : (s.clearNotice v).orders = s.orders := rfl
@[simp] theorem State.clearNotice_run (s : State) (v : Word32) : (s.clearNotice v).run = s.run := rfl
@[simp] theorem State.clearNotice_strands (s : State) (v : Word32) : (s.clearNotice v).strands = s.strands := rfl
@[simp] theorem State.clearNotice_inputs (s : State) (v : Word32) : (s.clearNotice v).inputs = s.inputs := rfl
@[simp] theorem State.clearNotice_lastServed (s : State) (v : Word32) : (s.clearNotice v).lastServed = s.lastServed := rfl
@[simp] theorem State.clearNotice_service (s : State) (v : Word32) : (s.clearNotice v).service = s.service := rfl
@[simp] theorem State.clearNotice_pieceServed (s : State) (v : Word32) : (s.clearNotice v).pieceServed = s.pieceServed := rfl
@[simp] theorem State.clearNotice_seamMail (s : State) (v : Word32) : (s.clearNotice v).seamMail = s.seamMail := rfl
@[simp] theorem State.clearNotice_grantMail (s : State) (v : Word32) : (s.clearNotice v).grantMail = s.grantMail := rfl
@[simp] theorem State.clearNotice_sawMail (s : State) (v : Word32) : (s.clearNotice v).sawMail = s.sawMail := rfl
@[simp] theorem State.clearNotice_report (s : State) (v : Word32) : (s.clearNotice v).report = s.report := rfl

/-! ## onStrand -/

@[simp] theorem State.onStrand_pending (s : State) (n : Strand) (f : StrandState → StrandState) :
    (s.onStrand n f).pending = s.pending := rfl
@[simp] theorem State.onStrand_clock (s : State) (n : Strand) (f : StrandState → StrandState) :
    (s.onStrand n f).clock = s.clock := rfl
@[simp] theorem State.onStrand_xp (s : State) (n : Strand) (f : StrandState → StrandState) : (s.onStrand n f).xp = s.xp := rfl
@[simp] theorem State.onStrand_orders (s : State) (n : Strand) (f : StrandState → StrandState) :
    (s.onStrand n f).orders = s.orders := rfl
@[simp] theorem State.onStrand_run (s : State) (n : Strand) (f : StrandState → StrandState) : (s.onStrand n f).run = s.run := rfl
@[simp] theorem State.onStrand_inputs (s : State) (n : Strand) (f : StrandState → StrandState) :
    (s.onStrand n f).inputs = s.inputs := rfl
@[simp] theorem State.onStrand_lastServed (s : State) (n : Strand) (f : StrandState → StrandState) :
    (s.onStrand n f).lastServed = s.lastServed := rfl
@[simp] theorem State.onStrand_service (s : State) (n : Strand) (f : StrandState → StrandState) :
    (s.onStrand n f).service = s.service := rfl
@[simp] theorem State.onStrand_pieceServed (s : State) (n : Strand) (f : StrandState → StrandState) :
    (s.onStrand n f).pieceServed = s.pieceServed := rfl
@[simp] theorem State.onStrand_seamMail (s : State) (n : Strand) (f : StrandState → StrandState) :
    (s.onStrand n f).seamMail = s.seamMail := rfl
@[simp] theorem State.onStrand_grantMail (s : State) (n : Strand) (f : StrandState → StrandState) :
    (s.onStrand n f).grantMail = s.grantMail := rfl
@[simp] theorem State.onStrand_sawMail (s : State) (n : Strand) (f : StrandState → StrandState) :
    (s.onStrand n f).sawMail = s.sawMail := rfl
@[simp] theorem State.onStrand_report (s : State) (n : Strand) (f : StrandState → StrandState) :
    (s.onStrand n f).report = s.report := rfl

/-! ## onAll -/

@[simp] theorem State.onAll_pending (s : State) (f : Strand → StrandState → StrandState) : (s.onAll f).pending = s.pending := rfl
@[simp] theorem State.onAll_clock (s : State) (f : Strand → StrandState → StrandState) : (s.onAll f).clock = s.clock := rfl
@[simp] theorem State.onAll_xp (s : State) (f : Strand → StrandState → StrandState) : (s.onAll f).xp = s.xp := rfl
@[simp] theorem State.onAll_orders (s : State) (f : Strand → StrandState → StrandState) : (s.onAll f).orders = s.orders := rfl
@[simp] theorem State.onAll_run (s : State) (f : Strand → StrandState → StrandState) : (s.onAll f).run = s.run := rfl
@[simp] theorem State.onAll_inputs (s : State) (f : Strand → StrandState → StrandState) : (s.onAll f).inputs = s.inputs := rfl
@[simp] theorem State.onAll_lastServed (s : State) (f : Strand → StrandState → StrandState) :
    (s.onAll f).lastServed = s.lastServed := rfl
@[simp] theorem State.onAll_service (s : State) (f : Strand → StrandState → StrandState) : (s.onAll f).service = s.service := rfl
@[simp] theorem State.onAll_pieceServed (s : State) (f : Strand → StrandState → StrandState) :
    (s.onAll f).pieceServed = s.pieceServed := rfl
@[simp] theorem State.onAll_seamMail (s : State) (f : Strand → StrandState → StrandState) :
    (s.onAll f).seamMail = s.seamMail := rfl
@[simp] theorem State.onAll_grantMail (s : State) (f : Strand → StrandState → StrandState) :
    (s.onAll f).grantMail = s.grantMail := rfl
@[simp] theorem State.onAll_sawMail (s : State) (f : Strand → StrandState → StrandState) : (s.onAll f).sawMail = s.sawMail := rfl
@[simp] theorem State.onAll_report (s : State) (f : Strand → StrandState → StrandState) : (s.onAll f).report = s.report := rfl

/-! ## onRun -/

@[simp] theorem State.onRun_pending (s : State) (f : Strand → StrandState → StrandState) : (s.onRun f).pending = s.pending := rfl
@[simp] theorem State.onRun_clock (s : State) (f : Strand → StrandState → StrandState) : (s.onRun f).clock = s.clock := rfl
@[simp] theorem State.onRun_xp (s : State) (f : Strand → StrandState → StrandState) : (s.onRun f).xp = s.xp := rfl
@[simp] theorem State.onRun_orders (s : State) (f : Strand → StrandState → StrandState) : (s.onRun f).orders = s.orders := rfl
@[simp] theorem State.onRun_run (s : State) (f : Strand → StrandState → StrandState) : (s.onRun f).run = s.run := rfl
@[simp] theorem State.onRun_inputs (s : State) (f : Strand → StrandState → StrandState) : (s.onRun f).inputs = s.inputs := rfl
@[simp] theorem State.onRun_lastServed (s : State) (f : Strand → StrandState → StrandState) :
    (s.onRun f).lastServed = s.lastServed := rfl
@[simp] theorem State.onRun_service (s : State) (f : Strand → StrandState → StrandState) : (s.onRun f).service = s.service := rfl
@[simp] theorem State.onRun_pieceServed (s : State) (f : Strand → StrandState → StrandState) :
    (s.onRun f).pieceServed = s.pieceServed := rfl
@[simp] theorem State.onRun_seamMail (s : State) (f : Strand → StrandState → StrandState) :
    (s.onRun f).seamMail = s.seamMail := rfl
@[simp] theorem State.onRun_grantMail (s : State) (f : Strand → StrandState → StrandState) :
    (s.onRun f).grantMail = s.grantMail := rfl
@[simp] theorem State.onRun_sawMail (s : State) (f : Strand → StrandState → StrandState) : (s.onRun f).sawMail = s.sawMail := rfl
@[simp] theorem State.onRun_report (s : State) (f : Strand → StrandState → StrandState) : (s.onRun f).report = s.report := rfl

/-! ## storeStatus -/

@[simp] theorem State.storeStatus_pending (s : State) : (s.storeStatus).pending = s.pending := rfl
@[simp] theorem State.storeStatus_clock (s : State) : (s.storeStatus).clock = s.clock := rfl
@[simp] theorem State.storeStatus_orders (s : State) : (s.storeStatus).orders = s.orders := rfl
@[simp] theorem State.storeStatus_run (s : State) : (s.storeStatus).run = s.run := rfl
@[simp] theorem State.storeStatus_strands (s : State) : (s.storeStatus).strands = s.strands := rfl
@[simp] theorem State.storeStatus_inputs (s : State) : (s.storeStatus).inputs = s.inputs := rfl
@[simp] theorem State.storeStatus_lastServed (s : State) : (s.storeStatus).lastServed = s.lastServed := rfl
@[simp] theorem State.storeStatus_service (s : State) : (s.storeStatus).service = s.service := rfl
@[simp] theorem State.storeStatus_pieceServed (s : State) : (s.storeStatus).pieceServed = s.pieceServed := rfl
@[simp] theorem State.storeStatus_seamMail (s : State) : (s.storeStatus).seamMail = s.seamMail := rfl
@[simp] theorem State.storeStatus_grantMail (s : State) : (s.storeStatus).grantMail = s.grantMail := rfl
@[simp] theorem State.storeStatus_sawMail (s : State) : (s.storeStatus).sawMail = s.sawMail := rfl
@[simp] theorem State.storeStatus_report (s : State) : (s.storeStatus).report = s.report := rfl

/-! ## putStatus -/

@[simp] theorem State.putStatus_pending (s : State) (w : Shown) : (s.putStatus w).pending = s.pending := rfl
@[simp] theorem State.putStatus_clock (s : State) (w : Shown) : (s.putStatus w).clock = s.clock := rfl
@[simp] theorem State.putStatus_orders (s : State) (w : Shown) : (s.putStatus w).orders = s.orders := rfl
@[simp] theorem State.putStatus_run (s : State) (w : Shown) : (s.putStatus w).run = s.run := rfl
@[simp] theorem State.putStatus_strands (s : State) (w : Shown) : (s.putStatus w).strands = s.strands := rfl
@[simp] theorem State.putStatus_inputs (s : State) (w : Shown) : (s.putStatus w).inputs = s.inputs := rfl
@[simp] theorem State.putStatus_lastServed (s : State) (w : Shown) : (s.putStatus w).lastServed = s.lastServed := rfl
@[simp] theorem State.putStatus_service (s : State) (w : Shown) : (s.putStatus w).service = s.service := rfl
@[simp] theorem State.putStatus_pieceServed (s : State) (w : Shown) : (s.putStatus w).pieceServed = s.pieceServed := rfl
@[simp] theorem State.putStatus_seamMail (s : State) (w : Shown) : (s.putStatus w).seamMail = s.seamMail := rfl
@[simp] theorem State.putStatus_grantMail (s : State) (w : Shown) : (s.putStatus w).grantMail = s.grantMail := rfl
@[simp] theorem State.putStatus_sawMail (s : State) (w : Shown) : (s.putStatus w).sawMail = s.sawMail := rfl

/-! ## setPage -/

@[simp] theorem State.setPage_pending (s : State) (p : Fin 54) (t : PageState) : (s.setPage p t).pending = s.pending := rfl
@[simp] theorem State.setPage_clock (s : State) (p : Fin 54) (t : PageState) : (s.setPage p t).clock = s.clock := rfl
@[simp] theorem State.setPage_orders (s : State) (p : Fin 54) (t : PageState) : (s.setPage p t).orders = s.orders := rfl
@[simp] theorem State.setPage_run (s : State) (p : Fin 54) (t : PageState) : (s.setPage p t).run = s.run := rfl
@[simp] theorem State.setPage_strands (s : State) (p : Fin 54) (t : PageState) : (s.setPage p t).strands = s.strands := rfl
@[simp] theorem State.setPage_inputs (s : State) (p : Fin 54) (t : PageState) : (s.setPage p t).inputs = s.inputs := rfl
@[simp] theorem State.setPage_lastServed (s : State) (p : Fin 54) (t : PageState) :
    (s.setPage p t).lastServed = s.lastServed := rfl
@[simp] theorem State.setPage_service (s : State) (p : Fin 54) (t : PageState) : (s.setPage p t).service = s.service := rfl
@[simp] theorem State.setPage_pieceServed (s : State) (p : Fin 54) (t : PageState) :
    (s.setPage p t).pieceServed = s.pieceServed := rfl
@[simp] theorem State.setPage_seamMail (s : State) (p : Fin 54) (t : PageState) : (s.setPage p t).seamMail = s.seamMail := rfl
@[simp] theorem State.setPage_grantMail (s : State) (p : Fin 54) (t : PageState) : (s.setPage p t).grantMail = s.grantMail := rfl
@[simp] theorem State.setPage_sawMail (s : State) (p : Fin 54) (t : PageState) : (s.setPage p t).sawMail = s.sawMail := rfl
@[simp] theorem State.setPage_report (s : State) (p : Fin 54) (t : PageState) : (s.setPage p t).report = s.report := rfl

/-! ## storeHeader -/

@[simp] theorem State.storeHeader_pending (s : State) (t : PageState) (b : Bool) (f : Filling) :
    (s.storeHeader t b f).pending = s.pending := rfl
@[simp] theorem State.storeHeader_clock (s : State) (t : PageState) (b : Bool) (f : Filling) :
    (s.storeHeader t b f).clock = s.clock := rfl
@[simp] theorem State.storeHeader_orders (s : State) (t : PageState) (b : Bool) (f : Filling) :
    (s.storeHeader t b f).orders = s.orders := rfl
@[simp] theorem State.storeHeader_run (s : State) (t : PageState) (b : Bool) (f : Filling) :
    (s.storeHeader t b f).run = s.run := rfl
@[simp] theorem State.storeHeader_strands (s : State) (t : PageState) (b : Bool) (f : Filling) :
    (s.storeHeader t b f).strands = s.strands := rfl
@[simp] theorem State.storeHeader_inputs (s : State) (t : PageState) (b : Bool) (f : Filling) :
    (s.storeHeader t b f).inputs = s.inputs := rfl
@[simp] theorem State.storeHeader_lastServed (s : State) (t : PageState) (b : Bool) (f : Filling) :
    (s.storeHeader t b f).lastServed = s.lastServed := rfl
@[simp] theorem State.storeHeader_service (s : State) (t : PageState) (b : Bool) (f : Filling) :
    (s.storeHeader t b f).service = s.service := rfl
@[simp] theorem State.storeHeader_pieceServed (s : State) (t : PageState) (b : Bool) (f : Filling) :
    (s.storeHeader t b f).pieceServed = s.pieceServed := rfl
@[simp] theorem State.storeHeader_seamMail (s : State) (t : PageState) (b : Bool) (f : Filling) :
    (s.storeHeader t b f).seamMail = s.seamMail := rfl
@[simp] theorem State.storeHeader_grantMail (s : State) (t : PageState) (b : Bool) (f : Filling) :
    (s.storeHeader t b f).grantMail = s.grantMail := rfl
@[simp] theorem State.storeHeader_sawMail (s : State) (t : PageState) (b : Bool) (f : Filling) :
    (s.storeHeader t b f).sawMail = s.sawMail := rfl
@[simp] theorem State.storeHeader_report (s : State) (t : PageState) (b : Bool) (f : Filling) :
    (s.storeHeader t b f).report = s.report := rfl

/-! ## closePage -/

@[simp] theorem State.closePage_pending (s : State) (f : Filling) (b : Bool) : (s.closePage f b).pending = s.pending := rfl
@[simp] theorem State.closePage_clock (s : State) (f : Filling) (b : Bool) : (s.closePage f b).clock = s.clock := rfl
@[simp] theorem State.closePage_orders (s : State) (f : Filling) (b : Bool) : (s.closePage f b).orders = s.orders := rfl
@[simp] theorem State.closePage_run (s : State) (f : Filling) (b : Bool) : (s.closePage f b).run = s.run := rfl
@[simp] theorem State.closePage_strands (s : State) (f : Filling) (b : Bool) : (s.closePage f b).strands = s.strands := rfl
@[simp] theorem State.closePage_inputs (s : State) (f : Filling) (b : Bool) : (s.closePage f b).inputs = s.inputs := rfl
@[simp] theorem State.closePage_lastServed (s : State) (f : Filling) (b : Bool) :
    (s.closePage f b).lastServed = s.lastServed := rfl
@[simp] theorem State.closePage_service (s : State) (f : Filling) (b : Bool) : (s.closePage f b).service = s.service := rfl
@[simp] theorem State.closePage_pieceServed (s : State) (f : Filling) (b : Bool) :
    (s.closePage f b).pieceServed = s.pieceServed := rfl
@[simp] theorem State.closePage_seamMail (s : State) (f : Filling) (b : Bool) : (s.closePage f b).seamMail = s.seamMail := rfl
@[simp] theorem State.closePage_grantMail (s : State) (f : Filling) (b : Bool) : (s.closePage f b).grantMail = s.grantMail := rfl
@[simp] theorem State.closePage_sawMail (s : State) (f : Filling) (b : Bool) : (s.closePage f b).sawMail = s.sawMail := rfl

/-! ## enqueue -/

@[simp] theorem State.enqueue_pending (s : State) (r : Record) : (s.enqueue r).pending = s.pending := rfl
@[simp] theorem State.enqueue_clock (s : State) (r : Record) : (s.enqueue r).clock = s.clock := rfl
@[simp] theorem State.enqueue_xp (s : State) (r : Record) : (s.enqueue r).xp = s.xp := rfl
@[simp] theorem State.enqueue_orders (s : State) (r : Record) : (s.enqueue r).orders = s.orders := rfl
@[simp] theorem State.enqueue_run (s : State) (r : Record) : (s.enqueue r).run = s.run := rfl
@[simp] theorem State.enqueue_strands (s : State) (r : Record) : (s.enqueue r).strands = s.strands := rfl
@[simp] theorem State.enqueue_inputs (s : State) (r : Record) : (s.enqueue r).inputs = s.inputs := rfl
@[simp] theorem State.enqueue_lastServed (s : State) (r : Record) : (s.enqueue r).lastServed = s.lastServed := rfl
@[simp] theorem State.enqueue_service (s : State) (r : Record) : (s.enqueue r).service = s.service := rfl
@[simp] theorem State.enqueue_pieceServed (s : State) (r : Record) : (s.enqueue r).pieceServed = s.pieceServed := rfl
@[simp] theorem State.enqueue_seamMail (s : State) (r : Record) : (s.enqueue r).seamMail = s.seamMail := rfl
@[simp] theorem State.enqueue_grantMail (s : State) (r : Record) : (s.enqueue r).grantMail = s.grantMail := rfl
@[simp] theorem State.enqueue_sawMail (s : State) (r : Record) : (s.enqueue r).sawMail = s.sawMail := rfl

/-! ## setCell -/

@[simp] theorem State.setCell_pending (s : State) (i : Fin 32) (t : CellState) : (s.setCell i t).pending = s.pending := rfl
@[simp] theorem State.setCell_clock (s : State) (i : Fin 32) (t : CellState) : (s.setCell i t).clock = s.clock := rfl
@[simp] theorem State.setCell_orders (s : State) (i : Fin 32) (t : CellState) : (s.setCell i t).orders = s.orders := rfl
@[simp] theorem State.setCell_run (s : State) (i : Fin 32) (t : CellState) : (s.setCell i t).run = s.run := rfl
@[simp] theorem State.setCell_strands (s : State) (i : Fin 32) (t : CellState) : (s.setCell i t).strands = s.strands := rfl
@[simp] theorem State.setCell_inputs (s : State) (i : Fin 32) (t : CellState) : (s.setCell i t).inputs = s.inputs := rfl
@[simp] theorem State.setCell_lastServed (s : State) (i : Fin 32) (t : CellState) :
    (s.setCell i t).lastServed = s.lastServed := rfl
@[simp] theorem State.setCell_service (s : State) (i : Fin 32) (t : CellState) : (s.setCell i t).service = s.service := rfl
@[simp] theorem State.setCell_pieceServed (s : State) (i : Fin 32) (t : CellState) :
    (s.setCell i t).pieceServed = s.pieceServed := rfl
@[simp] theorem State.setCell_seamMail (s : State) (i : Fin 32) (t : CellState) : (s.setCell i t).seamMail = s.seamMail := rfl
@[simp] theorem State.setCell_grantMail (s : State) (i : Fin 32) (t : CellState) : (s.setCell i t).grantMail = s.grantMail := rfl
@[simp] theorem State.setCell_sawMail (s : State) (i : Fin 32) (t : CellState) : (s.setCell i t).sawMail = s.sawMail := rfl
@[simp] theorem State.setCell_report (s : State) (i : Fin 32) (t : CellState) : (s.setCell i t).report = s.report := rfl

/-! ## answer -/

@[simp] theorem State.answer_pending (s : State) (o : Order) (a : Answer) : (s.answer o a).pending = s.pending := rfl
@[simp] theorem State.answer_clock (s : State) (o : Order) (a : Answer) : (s.answer o a).clock = s.clock := rfl
@[simp] theorem State.answer_run (s : State) (o : Order) (a : Answer) : (s.answer o a).run = s.run := rfl
@[simp] theorem State.answer_strands (s : State) (o : Order) (a : Answer) : (s.answer o a).strands = s.strands := rfl
@[simp] theorem State.answer_inputs (s : State) (o : Order) (a : Answer) : (s.answer o a).inputs = s.inputs := rfl
@[simp] theorem State.answer_lastServed (s : State) (o : Order) (a : Answer) : (s.answer o a).lastServed = s.lastServed := rfl
@[simp] theorem State.answer_service (s : State) (o : Order) (a : Answer) : (s.answer o a).service = s.service := rfl
@[simp] theorem State.answer_pieceServed (s : State) (o : Order) (a : Answer) : (s.answer o a).pieceServed = s.pieceServed := rfl
@[simp] theorem State.answer_seamMail (s : State) (o : Order) (a : Answer) : (s.answer o a).seamMail = s.seamMail := rfl
@[simp] theorem State.answer_grantMail (s : State) (o : Order) (a : Answer) : (s.answer o a).grantMail = s.grantMail := rfl
@[simp] theorem State.answer_sawMail (s : State) (o : Order) (a : Answer) : (s.answer o a).sawMail = s.sawMail := rfl
@[simp] theorem State.answer_report (s : State) (o : Order) (a : Answer) : (s.answer o a).report = s.report := rfl

/-! ## formRecord -/

@[simp] theorem State.formRecord_pending (s : State) (e : RunEvent) : (s.formRecord e).pending = s.pending := rfl
@[simp] theorem State.formRecord_clock (s : State) (e : RunEvent) : (s.formRecord e).clock = s.clock := rfl
@[simp] theorem State.formRecord_xp (s : State) (e : RunEvent) : (s.formRecord e).xp = s.xp := rfl
@[simp] theorem State.formRecord_orders (s : State) (e : RunEvent) : (s.formRecord e).orders = s.orders := rfl
@[simp] theorem State.formRecord_strands (s : State) (e : RunEvent) : (s.formRecord e).strands = s.strands := rfl
@[simp] theorem State.formRecord_inputs (s : State) (e : RunEvent) : (s.formRecord e).inputs = s.inputs := rfl
@[simp] theorem State.formRecord_lastServed (s : State) (e : RunEvent) : (s.formRecord e).lastServed = s.lastServed := rfl
@[simp] theorem State.formRecord_service (s : State) (e : RunEvent) : (s.formRecord e).service = s.service := rfl
@[simp] theorem State.formRecord_pieceServed (s : State) (e : RunEvent) : (s.formRecord e).pieceServed = s.pieceServed := rfl
@[simp] theorem State.formRecord_seamMail (s : State) (e : RunEvent) : (s.formRecord e).seamMail = s.seamMail := rfl
@[simp] theorem State.formRecord_grantMail (s : State) (e : RunEvent) : (s.formRecord e).grantMail = s.grantMail := rfl
@[simp] theorem State.formRecord_sawMail (s : State) (e : RunEvent) : (s.formRecord e).sawMail = s.sawMail := rfl
@[simp] theorem State.formRecord_report (s : State) (e : RunEvent) : (s.formRecord e).report = s.report := rfl

/-! ## setEntry -/

@[simp] theorem State.setEntry_pending (s : State) (k : Fin 8) (r : Option Recipe) : (s.setEntry k r).pending = s.pending := rfl
@[simp] theorem State.setEntry_clock (s : State) (k : Fin 8) (r : Option Recipe) : (s.setEntry k r).clock = s.clock := rfl
@[simp] theorem State.setEntry_xp (s : State) (k : Fin 8) (r : Option Recipe) : (s.setEntry k r).xp = s.xp := rfl
@[simp] theorem State.setEntry_orders (s : State) (k : Fin 8) (r : Option Recipe) : (s.setEntry k r).orders = s.orders := rfl
@[simp] theorem State.setEntry_strands (s : State) (k : Fin 8) (r : Option Recipe) : (s.setEntry k r).strands = s.strands := rfl
@[simp] theorem State.setEntry_inputs (s : State) (k : Fin 8) (r : Option Recipe) : (s.setEntry k r).inputs = s.inputs := rfl
@[simp] theorem State.setEntry_lastServed (s : State) (k : Fin 8) (r : Option Recipe) :
    (s.setEntry k r).lastServed = s.lastServed := rfl
@[simp] theorem State.setEntry_service (s : State) (k : Fin 8) (r : Option Recipe) : (s.setEntry k r).service = s.service := rfl
@[simp] theorem State.setEntry_pieceServed (s : State) (k : Fin 8) (r : Option Recipe) :
    (s.setEntry k r).pieceServed = s.pieceServed := rfl
@[simp] theorem State.setEntry_seamMail (s : State) (k : Fin 8) (r : Option Recipe) :
    (s.setEntry k r).seamMail = s.seamMail := rfl
@[simp] theorem State.setEntry_grantMail (s : State) (k : Fin 8) (r : Option Recipe) :
    (s.setEntry k r).grantMail = s.grantMail := rfl
@[simp] theorem State.setEntry_sawMail (s : State) (k : Fin 8) (r : Option Recipe) : (s.setEntry k r).sawMail = s.sawMail := rfl
@[simp] theorem State.setEntry_report (s : State) (k : Fin 8) (r : Option Recipe) : (s.setEntry k r).report = s.report := rfl

/-! ## switchOver -/

@[simp] theorem State.switchOver_pending (s : State) (k : Fin 8) : (s.switchOver k).pending = s.pending := rfl
@[simp] theorem State.switchOver_clock (s : State) (k : Fin 8) : (s.switchOver k).clock = s.clock := rfl
@[simp] theorem State.switchOver_xp (s : State) (k : Fin 8) : (s.switchOver k).xp = s.xp := rfl
@[simp] theorem State.switchOver_orders (s : State) (k : Fin 8) : (s.switchOver k).orders = s.orders := rfl
@[simp] theorem State.switchOver_strands (s : State) (k : Fin 8) : (s.switchOver k).strands = s.strands := rfl
@[simp] theorem State.switchOver_inputs (s : State) (k : Fin 8) : (s.switchOver k).inputs = s.inputs := rfl
@[simp] theorem State.switchOver_lastServed (s : State) (k : Fin 8) : (s.switchOver k).lastServed = s.lastServed := rfl
@[simp] theorem State.switchOver_service (s : State) (k : Fin 8) : (s.switchOver k).service = s.service := rfl
@[simp] theorem State.switchOver_pieceServed (s : State) (k : Fin 8) : (s.switchOver k).pieceServed = s.pieceServed := rfl
@[simp] theorem State.switchOver_seamMail (s : State) (k : Fin 8) : (s.switchOver k).seamMail = s.seamMail := rfl
@[simp] theorem State.switchOver_grantMail (s : State) (k : Fin 8) : (s.switchOver k).grantMail = s.grantMail := rfl
@[simp] theorem State.switchOver_sawMail (s : State) (k : Fin 8) : (s.switchOver k).sawMail = s.sawMail := rfl
@[simp] theorem State.switchOver_report (s : State) (k : Fin 8) : (s.switchOver k).report = s.report := rfl

/-! ## tick -/

@[simp] theorem State.tick_pending (s : State) : (s.tick).pending = s.pending := rfl
@[simp] theorem State.tick_xp (s : State) : (s.tick).xp = s.xp := rfl
@[simp] theorem State.tick_orders (s : State) : (s.tick).orders = s.orders := rfl
@[simp] theorem State.tick_run (s : State) : (s.tick).run = s.run := rfl
@[simp] theorem State.tick_strands (s : State) : (s.tick).strands = s.strands := rfl
@[simp] theorem State.tick_inputs (s : State) : (s.tick).inputs = s.inputs := rfl
@[simp] theorem State.tick_lastServed (s : State) : (s.tick).lastServed = s.lastServed := rfl
@[simp] theorem State.tick_service (s : State) : (s.tick).service = s.service := rfl
@[simp] theorem State.tick_pieceServed (s : State) : (s.tick).pieceServed = s.pieceServed := rfl
@[simp] theorem State.tick_seamMail (s : State) : (s.tick).seamMail = s.seamMail := rfl
@[simp] theorem State.tick_grantMail (s : State) : (s.tick).grantMail = s.grantMail := rfl
@[simp] theorem State.tick_sawMail (s : State) : (s.tick).sawMail = s.sawMail := rfl
@[simp] theorem State.tick_report (s : State) : (s.tick).report = s.report := rfl

/-! ## setRun -/

@[simp] theorem State.setRun_pending (s : State) (r : RunState) : (s.setRun r).pending = s.pending := by
  unfold State.setRun; split <;> rfl
@[simp] theorem State.setRun_clock (s : State) (r : RunState) : (s.setRun r).clock = s.clock := by
  unfold State.setRun; split <;> rfl
@[simp] theorem State.setRun_orders (s : State) (r : RunState) : (s.setRun r).orders = s.orders := by
  unfold State.setRun; split <;> rfl
@[simp] theorem State.setRun_strands (s : State) (r : RunState) : (s.setRun r).strands = s.strands := by
  unfold State.setRun; split <;> rfl
@[simp] theorem State.setRun_inputs (s : State) (r : RunState) : (s.setRun r).inputs = s.inputs := by
  unfold State.setRun; split <;> rfl
@[simp] theorem State.setRun_lastServed (s : State) (r : RunState) : (s.setRun r).lastServed = s.lastServed := by
  unfold State.setRun; split <;> rfl
@[simp] theorem State.setRun_service (s : State) (r : RunState) : (s.setRun r).service = s.service := by
  unfold State.setRun; split <;> rfl
@[simp] theorem State.setRun_pieceServed (s : State) (r : RunState) : (s.setRun r).pieceServed = s.pieceServed := by
  unfold State.setRun; split <;> rfl
@[simp] theorem State.setRun_seamMail (s : State) (r : RunState) : (s.setRun r).seamMail = s.seamMail := by
  unfold State.setRun; split <;> rfl
@[simp] theorem State.setRun_grantMail (s : State) (r : RunState) : (s.setRun r).grantMail = s.grantMail := by
  unfold State.setRun; split <;> rfl
@[simp] theorem State.setRun_sawMail (s : State) (r : RunState) : (s.setRun r).sawMail = s.sawMail := by
  unfold State.setRun; split <;> rfl
@[simp] theorem State.setRun_report (s : State) (r : RunState) : (s.setRun r).report = s.report := by
  unfold State.setRun; split <;> rfl

/-! ## noteBacklog -/

@[simp] theorem State.noteBacklog_pending (s : State) : (s.noteBacklog).pending = s.pending := by
  unfold State.noteBacklog; dsimp only; split <;> rfl
@[simp] theorem State.noteBacklog_clock (s : State) : (s.noteBacklog).clock = s.clock := by
  unfold State.noteBacklog; dsimp only; split <;> rfl
@[simp] theorem State.noteBacklog_orders (s : State) : (s.noteBacklog).orders = s.orders := by
  unfold State.noteBacklog; dsimp only; split <;> rfl
@[simp] theorem State.noteBacklog_run (s : State) : (s.noteBacklog).run = s.run := by
  unfold State.noteBacklog; dsimp only; split <;> rfl
@[simp] theorem State.noteBacklog_strands (s : State) : (s.noteBacklog).strands = s.strands := by
  unfold State.noteBacklog; dsimp only; split <;> rfl
@[simp] theorem State.noteBacklog_inputs (s : State) : (s.noteBacklog).inputs = s.inputs := by
  unfold State.noteBacklog; dsimp only; split <;> rfl
@[simp] theorem State.noteBacklog_lastServed (s : State) : (s.noteBacklog).lastServed = s.lastServed := by
  unfold State.noteBacklog; dsimp only; split <;> rfl
@[simp] theorem State.noteBacklog_service (s : State) : (s.noteBacklog).service = s.service := by
  unfold State.noteBacklog; dsimp only; split <;> rfl
@[simp] theorem State.noteBacklog_pieceServed (s : State) : (s.noteBacklog).pieceServed = s.pieceServed := by
  unfold State.noteBacklog; dsimp only; split <;> rfl
@[simp] theorem State.noteBacklog_seamMail (s : State) : (s.noteBacklog).seamMail = s.seamMail := by
  unfold State.noteBacklog; dsimp only; split <;> rfl
@[simp] theorem State.noteBacklog_grantMail (s : State) : (s.noteBacklog).grantMail = s.grantMail := by
  unfold State.noteBacklog; dsimp only; split <;> rfl
@[simp] theorem State.noteBacklog_sawMail (s : State) : (s.noteBacklog).sawMail = s.sawMail := by
  unfold State.noteBacklog; dsimp only; split <;> rfl

/-! ## showIfChanged -/

@[simp] theorem State.showIfChanged_pending (s : State) (w : Shown) : (s.showIfChanged w).pending = s.pending := by
  unfold State.showIfChanged; split <;> rfl
@[simp] theorem State.showIfChanged_clock (s : State) (w : Shown) : (s.showIfChanged w).clock = s.clock := by
  unfold State.showIfChanged; split <;> rfl
@[simp] theorem State.showIfChanged_orders (s : State) (w : Shown) : (s.showIfChanged w).orders = s.orders := by
  unfold State.showIfChanged; split <;> rfl
@[simp] theorem State.showIfChanged_run (s : State) (w : Shown) : (s.showIfChanged w).run = s.run := by
  unfold State.showIfChanged; split <;> rfl
@[simp] theorem State.showIfChanged_strands (s : State) (w : Shown) : (s.showIfChanged w).strands = s.strands := by
  unfold State.showIfChanged; split <;> rfl
@[simp] theorem State.showIfChanged_inputs (s : State) (w : Shown) : (s.showIfChanged w).inputs = s.inputs := by
  unfold State.showIfChanged; split <;> rfl
@[simp] theorem State.showIfChanged_lastServed (s : State) (w : Shown) : (s.showIfChanged w).lastServed = s.lastServed := by
  unfold State.showIfChanged; split <;> rfl
@[simp] theorem State.showIfChanged_service (s : State) (w : Shown) : (s.showIfChanged w).service = s.service := by
  unfold State.showIfChanged; split <;> rfl
@[simp] theorem State.showIfChanged_pieceServed (s : State) (w : Shown) : (s.showIfChanged w).pieceServed = s.pieceServed := by
  unfold State.showIfChanged; split <;> rfl
@[simp] theorem State.showIfChanged_seamMail (s : State) (w : Shown) : (s.showIfChanged w).seamMail = s.seamMail := by
  unfold State.showIfChanged; split <;> rfl
@[simp] theorem State.showIfChanged_grantMail (s : State) (w : Shown) : (s.showIfChanged w).grantMail = s.grantMail := by
  unfold State.showIfChanged; split <;> rfl
@[simp] theorem State.showIfChanged_sawMail (s : State) (w : Shown) : (s.showIfChanged w).sawMail = s.sawMail := by
  unfold State.showIfChanged; split <;> rfl

/-! ## settle -/

@[simp] theorem State.settle_pending (s : State) : (s.settle).pending = s.pending := by simp [State.settle]
@[simp] theorem State.settle_clock (s : State) : (s.settle).clock = s.clock := by simp [State.settle]
@[simp] theorem State.settle_orders (s : State) : (s.settle).orders = s.orders := by simp [State.settle]
@[simp] theorem State.settle_run (s : State) : (s.settle).run = s.run := by simp [State.settle]
@[simp] theorem State.settle_strands (s : State) : (s.settle).strands = s.strands := by simp [State.settle]
@[simp] theorem State.settle_inputs (s : State) : (s.settle).inputs = s.inputs := by simp [State.settle]
@[simp] theorem State.settle_lastServed (s : State) : (s.settle).lastServed = s.lastServed := by simp [State.settle]
@[simp] theorem State.settle_service (s : State) : (s.settle).service = s.service := by simp [State.settle]
@[simp] theorem State.settle_pieceServed (s : State) : (s.settle).pieceServed = s.pieceServed := by simp [State.settle]
@[simp] theorem State.settle_seamMail (s : State) : (s.settle).seamMail = s.seamMail := by simp [State.settle]
@[simp] theorem State.settle_grantMail (s : State) : (s.settle).grantMail = s.grantMail := by simp [State.settle]
@[simp] theorem State.settle_sawMail (s : State) : (s.settle).sawMail = s.sawMail := by simp [State.settle]

/-! ## Parts of the exchange port, the run controller and the report unit -/

@[simp] theorem ExchangePort.putNotice_phase (x : ExchangePort) (a b : BitVec 6) : (x.putNotice a b).phase = x.phase := rfl
@[simp] theorem ExchangePort.putNotice_cells (x : ExchangePort) (a b : BitVec 6) : (x.putNotice a b).cells = x.cells := rfl
@[simp] theorem ExchangePort.putNotice_pages (x : ExchangePort) (a b : BitVec 6) : (x.putNotice a b).pages = x.pages := rfl
@[simp] theorem ExchangePort.putNotice_mem (x : ExchangePort) (a b : BitVec 6) : (x.putNotice a b).mem = x.mem := rfl
@[simp] theorem ExchangePort.putNotice_notice (x : ExchangePort) (a b : BitVec 6) : (x.putNotice a b).notice = a := rfl
@[simp] theorem ExchangePort.putNotice_mask (x : ExchangePort) (a b : BitVec 6) : (x.putNotice a b).mask = b := rfl
@[simp] theorem ExchangePort.putNotice_msiEnabled (x : ExchangePort) (a b : BitVec 6) :
    (x.putNotice a b).msiEnabled = x.msiEnabled := rfl

@[simp] theorem State.setReason_phase (s : State) (r : Reason) : (s.setReason r).xp.phase = s.xp.phase := rfl
@[simp] theorem State.setReason_cells (s : State) (r : Reason) : (s.setReason r).xp.cells = s.xp.cells := rfl
@[simp] theorem State.setReason_pages (s : State) (r : Reason) : (s.setReason r).xp.pages = s.xp.pages := rfl
@[simp] theorem State.setReason_mem (s : State) (r : Reason) : (s.setReason r).xp.mem = s.xp.mem := rfl
@[simp] theorem State.setReason_mask (s : State) (r : Reason) : (s.setReason r).xp.mask = s.xp.mask := rfl
@[simp] theorem State.setReason_msiEnabled (s : State) (r : Reason) : (s.setReason r).xp.msiEnabled = s.xp.msiEnabled := rfl
@[simp] theorem State.setReason_notice (s : State) (r : Reason) : (s.setReason r).xp.notice = s.xp.notice ||| r.bit := rfl

@[simp] theorem State.putStatus_phase (s : State) (w : Shown) : (s.putStatus w).xp.phase = s.xp.phase := rfl
@[simp] theorem State.putStatus_cells (s : State) (w : Shown) : (s.putStatus w).xp.cells = s.xp.cells := rfl
@[simp] theorem State.putStatus_pages (s : State) (w : Shown) : (s.putStatus w).xp.pages = s.xp.pages := rfl
@[simp] theorem State.putStatus_mask (s : State) (w : Shown) : (s.putStatus w).xp.mask = s.xp.mask := rfl
@[simp] theorem State.putStatus_notice (s : State) (w : Shown) : (s.putStatus w).xp.notice = s.xp.notice := rfl
@[simp] theorem State.putStatus_msiSent (s : State) (w : Shown) : (s.putStatus w).xp.msiSent = s.xp.msiSent := rfl
@[simp] theorem State.putStatus_msiEnabled (s : State) (w : Shown) : (s.putStatus w).xp.msiEnabled = s.xp.msiEnabled := rfl
@[simp] theorem State.putStatus_queue (s : State) (w : Shown) : (s.putStatus w).report.queue = s.report.queue := rfl
@[simp] theorem State.putStatus_fill (s : State) (w : Shown) : (s.putStatus w).report.fill = s.report.fill := rfl
@[simp] theorem State.putStatus_serial (s : State) (w : Shown) : (s.putStatus w).report.serial = s.report.serial := rfl
@[simp] theorem State.putStatus_cursor (s : State) (w : Shown) : (s.putStatus w).report.cursor = s.report.cursor := rfl
@[simp] theorem State.putStatus_lost (s : State) (w : Shown) : (s.putStatus w).report.lost = s.report.lost := rfl
@[simp] theorem State.putStatus_backlog (s : State) (w : Shown) : (s.putStatus w).report.backlog = s.report.backlog := rfl
@[simp] theorem State.putStatus_shown (s : State) (w : Shown) : (s.putStatus w).report.shown = w := rfl

@[simp] theorem State.answer_hand (s : State) (o : Order) (a : Answer) : (s.answer o a).orders.hand = none := rfl
@[simp] theorem State.answer_lastTaken (s : State) (o : Order) (a : Answer) :
    (s.answer o a).orders.lastTaken = s.orders.lastTaken := rfl
@[simp] theorem State.answer_pages (s : State) (o : Order) (a : Answer) : (s.answer o a).xp.pages = s.xp.pages := rfl
@[simp] theorem State.answer_phase (s : State) (o : Order) (a : Answer) : (s.answer o a).xp.phase = s.xp.phase := rfl

@[simp] theorem State.setRun_state (s : State) (r : RunState) : (s.setRun r).run.state = r := by
  unfold State.setRun; split
  · assumption
  · rfl

theorem State.setRun_run (s : State) (r : RunState) : (s.setRun r).run = { s.run with state := r } := by
  unfold State.setRun; split
  · subst_vars; rfl
  · rfl

end Sys2Proof.Machine
end

