-- ==== Sys2Proof/Laws/Events.lean ====
section
/-! SUPPORT. What the end of an event does, said once; what reaches the queue of commands. -/

namespace Sys2Proof.Machine

/-- The status block shows what it would show now exactly where nothing it shows has changed. -/
theorem State.showIfChanged_eq (s : State) (w : Shown) :
    s.showIfChanged w = if w = s.report.shown then s else s.putStatus w := rfl

/-- The parts of a state that the backlog note leaves. -/
theorem State.noteBacklog_shownNow (s : State) : s.noteBacklog.shownNow = s.shownNow := by
  unfold State.noteBacklog
  dsimp only
  split <;> rfl

/-- The end of an event, said once. -/
theorem State.settle_settles (u : State) : Settles u u.settle := by
  unfold State.settle
  dsimp only
  rw [State.noteBacklog_shownNow, State.showIfChanged_eq]
  have hb : u.noteBacklog.report = { u.report with backlog := u.backlogged } := by
    unfold State.noteBacklog; dsimp only; split <;> rfl
  have hm : u.noteBacklog.xp.mem = u.xp.mem := by
    unfold State.noteBacklog; dsimp only; split <;> rfl
  have hn : u.noteBacklog.xp.notice = if u.backlogBegins then u.xp.notice ||| Reason.bit .backlog else u.xp.notice := by
    unfold State.noteBacklog State.backlogBegins; dsimp only; split <;> rfl
  have hs : u.noteBacklog.xp.msiSent = if u.backlogSends then u.xp.msiSent + 1 else u.xp.msiSent := by
    unfold State.noteBacklog State.backlogSends State.backlogBegins
    dsimp only
    cases h : u.backlogged && !u.report.backlog
    · rfl
    · rfl
  split
  · rename_i h
    rw [hb] at h
    refine ⟨?_, hn, hs, by rw [hb], ?_, fun _ => ⟨hm, by rw [hb], by rw [hb]⟩, fun hne => absurd h hne⟩
    · unfold State.noteBacklog
      dsimp only
      split <;> rfl
    · rw [hb]
      exact h.symm
  · rename_i h
    rw [hb] at h
    refine ⟨?_, ?_, ?_, by rw [State.putStatus_backlog, hb], rfl, fun he => absurd he h, fun _ => ⟨?_, ?_, ?_⟩⟩
    · generalize u.shownNow = w
      unfold State.noteBacklog
      dsimp only
      split <;> rfl
    · exact hn
    · exact hs
    · show u.noteBacklog.report.updateSeq + 2#32 = _
      rw [hb]
    · show u.noteBacklog.time = u.time
      unfold State.time State.env Env.time
      simp
    · show u.noteBacklog.xp.mem.write 0 _ = _
      rw [hm]
      rfl

/-- Every byte beyond the first 192 reads after the end of an event as before it. -/
theorem Settles.rd {u t : State} (h : Settles u t) (a : Nat) (ha : 192 ≤ a) : t.xp.mem.rd a = u.xp.mem.rd a := by
  rcases Decidable.em (u.shownNow = u.report.shown) with he | he
  · rw [(h.kept he).1]
  · rw [(h.rewritten he).2.2]
    refine Memory.rd_write_outside _ _ _ _ (Or.inr ?_)
    simpa [statusBytes, shownStrandBytes] using ha

/-- A canonical memory stays canonical at the end of an event. -/
theorem Settles.wf {u t : State} (h : Settles u t) (hw : u.xp.mem.wf) : t.xp.mem.wf := by
  rcases Decidable.em (u.shownNow = u.report.shown) with he | he
  · rw [(h.kept he).1]; exact hw
  · rw [(h.rewritten he).2.2]; exact Memory.wf_write _ _ _ hw

end Sys2Proof.Machine
end

