-- ==== Sys2Proof/Laws/Marks.lean ====
section
/-! SUPPORT. The mark queue: what joining intervals makes of them, said once (R167). -/

namespace Sys2Proof.Machine

@[simp] theorem Interval.join_on (i j : Interval) : (i.join j).on = min i.on j.on := by
  unfold Interval.join; split <;> rfl

/-- A join is closed exactly where both are. -/
@[simp] theorem Interval.join_off_isSome (i j : Interval) : (i.join j).off.isSome = (i.off.isSome && j.off.isSome) := by
  unfold Interval.join
  cases hi : i.off <;> cases hj : j.off <;> rfl

@[simp] theorem Interval.join_reach (i j : Interval) : (i.join j).reach = max i.reach j.reach := by
  unfold Interval.join Interval.reach
  cases hi : i.off <;> cases hj : j.off <;> simp

/-- A closed join holds no floor. -/
theorem Interval.join_floor (i j : Interval) (h : (i.join j).off.isSome = true) : (i.join j).floor = 0 := by
  unfold Interval.join at *
  cases hi : i.off <;> cases hj : j.off <;> simp_all

/-- What joining a list of intervals to one makes of them: the least ON, closed exactly where all are, the greatest reach. -/
structure Joins (parts : List Interval) (j : Interval) : Prop where
  on_le : ∀ i ∈ parts, j.on ≤ i.on
  on_mem : ∃ i ∈ parts, j.on = i.on
  closed : j.off.isSome = true ↔ ∀ i ∈ parts, i.off.isSome = true
  reach_le : ∀ i ∈ parts, i.reach ≤ j.reach
  reach_mem : ∃ i ∈ parts, j.reach = i.reach

theorem Interval.foldl_join (l : List Interval) (i : Interval) : Joins (i :: l) (l.foldl Interval.join i) := by
  induction l generalizing i with
  | nil => exact ⟨by simp, by simp, by simp, by simp, by simp⟩
  | cons k l ih =>
    obtain ⟨h1, h2, h3, h4, h5⟩ := ih (i.join k)
    simp only [List.mem_cons, forall_eq_or_imp, exists_eq_or_imp, Interval.join_on, Interval.join_off_isSome, Interval.join_reach,
      Bool.and_eq_true] at h1 h2 h3 h4 h5
    constructor
    · simp only [List.mem_cons, forall_eq_or_imp, List.foldl_cons]
      exact ⟨h1.1.trans (Nat.min_le_left _ _), h1.1.trans (Nat.min_le_right _ _), h1.2⟩
    · simp only [List.mem_cons, exists_eq_or_imp, List.foldl_cons]
      rcases h2 with h2 | h2
      · rcases Nat.le_total i.on k.on with h | h
        · exact .inl (h2.trans (Nat.min_eq_left h))
        · exact .inr (.inl (h2.trans (Nat.min_eq_right h)))
      · exact .inr (.inr h2)
    · simp only [List.mem_cons, forall_eq_or_imp, List.foldl_cons, h3, and_assoc]
    · simp only [List.mem_cons, forall_eq_or_imp, List.foldl_cons]
      exact ⟨(Nat.le_max_left _ _).trans h4.1, (Nat.le_max_right _ _).trans h4.1, h4.2⟩
    · simp only [List.mem_cons, exists_eq_or_imp, List.foldl_cons]
      rcases h5 with h5 | h5
      · rcases Nat.le_total i.reach k.reach with h | h
        · exact .inr (.inl (h5.trans (Nat.max_eq_right h)))
        · exact .inl (h5.trans (Nat.max_eq_left h))
      · exact .inr (.inr h5)

end Sys2Proof.Machine
end

