-- ==== Sys2Proof/Laws/Ops.lean ====
section
/-! SUPPORT. What the shared operations of the block can do, said once: the four strands by number, the checks of fields, an order carried out, the notice register, the queue of incidents, the list of cuts, the search of the board -/

namespace Sys2Proof.Machine

/-! ## The four strands -/

/-- The later of two writes of one strand stands. -/
theorem Four.set_set {α : Type} (f : Four α) (n : Strand) (x y : α) : (f.set n x).set n y = f.set n y := by
  cases n <;> rfl

/-- Writing a strand with what it holds changes nothing. -/
theorem Four.set_get {α : Type} (f : Four α) (n : Strand) : f.set n (f.get n) = f := by cases n <;> rfl

/-- Every strand stands somewhere in the arbiter's turn. -/
theorem mem_turnAfter (a n : Strand) : n ∈ turnAfter a := by cases a <;> cases n <;> decide

/-! ## Checks in their order -/

theorem firstFailing_eq_none (l : List (Nat × Bool)) : firstFailing l = none ↔ ∀ p ∈ l, p.2 = true := by
  induction l with
  | nil => simp [firstFailing]
  | cons p l ih => obtain ⟨k, b⟩ := p; cases b <;> simp [firstFailing, ih]

/-- In a list of checks in ascending number, the one that answers is the failing one below which every check passes. -/
theorem firstFailing_eq_some {l : List (Nat × Bool)} (h : l.Pairwise (fun p q => p.1 < q.1)) (f : Nat) :
    firstFailing l = some f ↔ (f, false) ∈ l ∧ ∀ p ∈ l, p.1 < f → p.2 = true := by
  induction l with
  | nil => simp [firstFailing]
  | cons p l ih =>
    obtain ⟨k, b⟩ := p
    rw [List.pairwise_cons] at h
    cases b
    · simp only [firstFailing, Bool.false_eq_true, if_false, Option.some.injEq, List.mem_cons]
      constructor
      · rintro rfl
        refine ⟨.inl rfl, ?_⟩
        rintro p (rfl | hp) hlt
        · simp at hlt
        · have := h.1 _ hp; simp at this; omega
      · rintro ⟨hm | hm, hall⟩
        · simpa using hm.symm
        · have := hall (k, false) (.inl rfl) (h.1 _ hm)
          simp at this
    · simp only [firstFailing, if_true, ih h.2, List.mem_cons]
      constructor
      · rintro ⟨h1, h2⟩
        refine ⟨.inr h1, ?_⟩
        rintro p (rfl | hp) hlt
        · rfl
        · exact h2 p hp hlt
      · rintro ⟨h1, h2⟩
        refine ⟨?_, fun p hp => h2 p (.inr hp)⟩
        rcases h1 with h1 | h1
        · simp at h1
        · exact h1

/-! ## Orders, the run's state and the notice register -/

/-- A command whose meaning ends by settling a state completes with that state, settled. -/
theorem Completes.of {c : Instr} {s u v : State} (h : exec c s = .next v.settle) (e : v = u) : Completes c s u :=
  e ▸ ⟨_, h, State.settle_settles v⟩

/-- The order in the hand, of the kind asked for, is carried out, and its result concluded. -/
theorem State.carryOut_of_holds {s : State} {o : Order} {k : Nat} (h : s.holds o k) (f : State → Order → State × Answer)
    (answered : Bool) : s.carryOut answered k f = (f s o).1.conclude o (f s o).2 answered := by
  obtain ⟨h1, h2, h3⟩ := h
  simp [State.carryOut, h1, h2, h3]

/-- An order whose result is known is not carried out again. -/
theorem State.carryOut_of_result {s : State} {o : Order} {a : Answer} (h : s.orders.hand = some o) (ha : o.result = some a)
    (f : State → Order → State × Answer) (k : Nat) (answered : Bool) : s.carryOut answered k f = s := by
  simp [State.carryOut, h, ha]

/-- A new run state writes the state and sets its reason. -/
theorem State.setRun_ne (s : State) (r : RunState) (h : s.run.state ≠ r) :
    s.setRun r = State.setReason { s with run := { s.run with state := r } } .run := by
  simp [State.setRun, h]

/-- A reason that was set is noticed. -/
theorem State.noticed_setReason (s : State) (r : Reason) : (s.setReason r).noticed r = true := by
  simp only [State.noticed, State.setReason, ExchangePort.putNotice]
  generalize s.xp.notice = x
  revert x
  cases r <;> decide

/-! ## The queue of incidents -/

/-- The incident a raiser's arrival takes is its first, and the others keep their order. -/
theorem takeRaised_eq (b : Raiser) (i : Incident) (pre post : List Incident) (hb : i.kind.raiser = b)
    (hp : ∀ j ∈ pre, j.kind.raiser ≠ b) : takeRaised b (pre ++ i :: post) = some (i, pre ++ post) := by
  induction pre with
  | nil => simp [takeRaised, hb]
  | cons j pre ih => simp [takeRaised, hp j (by simp), ih (fun k hk => hp k (by simp [hk]))]

/-- Which records a repeated incident merges with. -/
theorem Record.sameIncident_iff (i : Incident) (r : Record) :
    r.sameIncident i = true ↔ ∃ j : Incident, r = .incident j ∧ j.kind = i.kind ∧ j.strand = i.strand := by
  cases r <;> simp [Record.sameIncident]

/-- A merge counts one more repeat of the first record of the same kind and strand, and leaves the others. -/
theorem bumpFirst_eq (i j : Incident) (before after : List Record) (h1 : j.kind = i.kind) (h2 : j.strand = i.strand)
    (hb : ∀ r ∈ before, ¬ r.sameIncident i = true) :
    bumpFirst i (before ++ .incident j :: after) =
      before ++ .incident { j with repeats := min (j.repeats + 1) 65535 } :: after := by
  induction before with
  | nil => simp [bumpFirst, Record.sameIncident, h1, h2, Record.bump]
  | cons r rs ih => simp [bumpFirst, hb r (by simp), ih (fun k hk => hb k (by simp [hk]))]

/-! ## The list of pending cuts -/

/-- Judging a Marker demand leaves the list of pending cuts and the raised incidents alone. -/
theorem StrandState.judgeMark_cuts (st : StrandState) (e : Env) (n : Strand) (x y : Nat) : (st.judgeMark e n x y).cuts = st.cuts ∧ (st.judgeMark e n x y).raised = st.raised := by
  unfold StrandState.judgeMark StrandState.startMark StrandState.endMark
  repeat' split
  all_goals exact ⟨rfl, rfl⟩

/-- A boundary, broken or refused, leaves the list of pending cuts alone. -/
theorem StrandState.boundary_cuts (st : StrandState) (e n b d s src) : (st.boundary e n b d s src).cuts = st.cuts := by
  unfold StrandState.boundary StrandState.recolour StrandState.breakAt StrandState.refuse
  dsimp only
  split
  · rfl
  · split
    · rw [(StrandState.judgeMark_cuts _ _ _ _ _).1]
    · split
      · rw [(StrandState.judgeMark_cuts _ _ _ _ _).1]
      · rw [(StrandState.judgeMark_cuts _ _ _ _ _).1]; rfl

/-- Offers of boundaries leave the list of pending cuts alone. -/
theorem StrandState.makeOffers_cuts (st : StrandState) (e n s g j cs) : (st.makeOffers e n s g j cs).cuts = st.cuts := by
  unfold StrandState.makeOffers
  induction cs generalizing st with
  | nil => rfl
  | cons c cs ih => simp only [List.foldl_cons]; rw [ih, StrandState.boundary_cuts]

/-- Passing the switch coordinate leaves the list of pending cuts alone. -/
theorem StrandState.passSwitch_cuts (st : StrandState) (x) : (st.passSwitch x).cuts = st.cuts := by
  unfold StrandState.passSwitch; repeat' split
  all_goals rfl

/-- The boundary of a cut leaves the list of pending cuts alone. -/
theorem StrandState.cutBoundary_cuts (st : StrandState) (e n c) : (st.cutBoundary e n c).cuts = st.cuts := by
  unfold StrandState.cutBoundary StrandState.breakAt; dsimp only; split
  · rfl
  · rw [(StrandState.judgeMark_cuts _ _ _ _ _).1]

/-- Dividing the map at a cut leaves the list of pending cuts alone. -/
theorem StrandState.divideMap_cuts (st : StrandState) (e n c) : (st.divideMap e n c).cuts = st.cuts := by
  unfold StrandState.divideMap
  split
  · unfold StrandState.extend; dsimp only
    unfold StrandState.moveFrontier StrandState.gapAtFrontier
    rw [StrandState.cutBoundary_cuts, StrandState.makeOffers_cuts, StrandState.passSwitch_cuts]; dsimp only
    rw [StrandState.boundary_cuts, StrandState.passSwitch_cuts]
  · split
    · rfl
    · split
      · rfl
      · split <;> rfl

/-- Joining two segments leaves the list of pending cuts alone. -/
theorem StrandState.joinAt_cuts (st : StrandState) (e n k o) : (st.joinAt e n k o).cuts = st.cuts := by
  unfold StrandState.joinAt
  split
  · rfl
  · split
    · rfl
    · rw [(StrandState.judgeMark_cuts _ _ _ _ _).1]
  · rfl

/-- Withdrawing the newest cut takes the last entry off the list, and nothing else of it. -/
theorem StrandState.withdrawNewest_cuts (st : StrandState) (e n p) : (st.withdrawNewest e n p).cuts = { st.cuts with pending := st.cuts.pending.dropLast } := by
  unfold StrandState.withdrawNewest; dsimp only; split
  · rw [StrandState.joinAt_cuts]
  · rfl

/-- A cut enters at the end of the list, with its coordinate, its flags and the copy it was given. -/
theorem StrandState.appendCut_cuts (st : StrandState) (e n c f j cp) : ∃ p : PendingCut, (st.appendCut e n c f j cp).cuts = { st.cuts with pending := st.cuts.pending ++ [p] } ∧
   p.coord = c ∧ p.isFinal = f ∧ p.joined = j ∧ p.copy = cp := by
  unfold StrandState.appendCut; dsimp only
  rw [StrandState.divideMap_cuts]
  exact ⟨_, rfl, rfl, rfl, rfl, rfl⟩

/-! ## The search of the board -/

/-- A cell a search finds is POSTED. -/
theorem State.postedCell_posted {s : State} {k cells : Nat} {i : Fin 32} (h : s.postedCell k cells = some i) :
    s.xp.cells.get i = .posted := by
  simpa using List.find?_some h

/-- Looking at cells takes the first POSTED one, or leaves all but how far the search has come. -/
theorem State.search_cases (s : State) (k cells : Nat) (answered : Bool) :
    (∃ i, s.postedCell k cells = some i ∧ s.search k cells answered = s.takeCell i answered) ∨
      (s.postedCell k cells = none ∧ s.search k cells answered =
        { s with orders := { s.orders with search := if k + cells < 32 then some (k + cells) else none } }) := by
  unfold State.search
  cases h : s.postedCell k cells with
  | none => exact .inr ⟨rfl, rfl⟩
  | some i => exact .inl ⟨i, rfl, rfl⟩

/-- What a search does: it goes on, or starts with the flag or the due search used up, or there is nothing to search for. -/
theorem State.searchBoard_cases (s : State) (cells : Nat) (answered : Bool) :
    (∃ k, s.orders.search = some k ∧ s.searchBoard cells answered = s.search k cells answered) ∨
      (s.orders.search = none ∧
        ((s.orders.searchDue = true ∧ s.searchBoard cells answered =
            State.search { s with orders := { s.orders with searchDue := false } } 0 cells answered) ∨
          (s.orders.searchDue = false ∧ s.orders.attention = true ∧ s.searchBoard cells answered =
            State.search { s with orders := { s.orders with attention := false } } 0 cells answered) ∨
          (s.orders.searchDue = false ∧ s.orders.attention = false ∧ s.searchBoard cells answered = s))) := by
  unfold State.searchBoard
  split
  next k hk => exact .inl ⟨k, hk, rfl⟩
  next hk =>
    refine .inr ⟨hk, ?_⟩
    split
    next hd => exact .inl ⟨hd, rfl⟩
    next hd =>
      rw [Bool.not_eq_true] at hd
      split
      next ha => exact .inr (.inl ⟨hd, ha, rfl⟩)
      next ha => exact .inr (.inr ⟨hd, by simpa using ha, rfl⟩)

/-- What ORDER_SEARCH does: nothing while the part is not ready or an order's result is unknown, the answer once it is known, a search with
no order in hand. -/
theorem State.orderUnit_cases (s : State) (cells : Nat) (answered : Bool) :
    (s.ready = false ∧ s.orderUnit cells answered = s) ∨
      (s.ready = true ∧
        ((s.orders.hand = none ∧ s.orderUnit cells answered = s.searchBoard cells answered) ∨
          ∃ o, s.orders.hand = some o ∧
            ((o.result = none ∧ s.orderUnit cells answered = s) ∨
              ∃ a, o.result = some a ∧ s.orderUnit cells answered = s.answer o a))) := by
  unfold State.orderUnit
  split
  next h =>
    refine .inr ⟨h, ?_⟩
    cases hh : s.orders.hand with
    | none => exact .inl ⟨rfl, rfl⟩
    | some o =>
      refine .inr ⟨o, rfl, ?_⟩
      cases hr : o.result with
      | none => exact .inl ⟨rfl, by simp [hr]⟩
      | some a => exact .inr ⟨a, rfl, by simp [hr]⟩
  next h => exact .inl ⟨by simpa using h, rfl⟩

end Sys2Proof.Machine
end

