-- ==== Sys2Proof/Laws/Scans.lean ====
section
/-! SUPPORT. What the takings of scans and stale notices, the end of a run and a piece build keep of a strand's map. -/

namespace Sys2Proof.Machine

/-! ## The tracker (R99, R100) -/

theorem Fit.confirm {k : Nat} {st : StrandState} {last : Nat} (h : Fit k st last) (e : Env) (n : Strand) (made : List Nat) (c : Candidate)
    (hc : c.start ≤ st.map.frontier) :
    Fit k (st.confirm e n made c) last ∧ SameFrame st (st.confirm e n made c) := by
  have s0 : SameShape st { st with eval := { st.eval with confirmed := c.state, candidate := none } } :=
    ⟨rfl, rfl, rfl, rfl, rfl, rfl, rfl, fun _ h => by cases h⟩
  unfold StrandState.confirm
  dsimp only
  split
  · have s1 := s0.trans (sameShape_onOpen _ (fun b => { b with stats := b.stats.add c.side }) (fun _ => rfl))
    exact ⟨h.of_same s1, s1.frame⟩
  · refine (h.of_same s0).boundary e n _ c.state c.side [.confirmation] ?_ |>.imp id (fun f => ⟨f.track, f.frontier, f.cuts⟩)
    have := h.frontier
    unfold StrandMap.closedEnd at this
    show max c.start (st.map.cur.elim 0 (·.start)) ≤ st.map.frontier
    cases hcur : st.map.cur with
    | none => simpa using hc
    | some b =>
      rw [hcur] at this
      exact Nat.max_le.mpr ⟨hc, this⟩

theorem Fit.holdCandidate {k : Nat} {st : StrandState} {last : Nat} (h : Fit k st last) (e : Env) (n : Strand) (made : List Nat)
    (c : Candidate) (hc : c.start ≤ st.map.frontier) :
    Fit k (st.holdCandidate e n made c) last ∧ SameFrame st (st.holdCandidate e n made c) := by
  unfold StrandState.holdCandidate
  split
  · exact h.confirm e n made c hc
  · exact ⟨⟨h.nose, h.lastCut, h.begun, h.opens, h.tailed, h.chain, h.frontier, h.cuts, h.places, h.follows, h.held,
      fun c' hc' => by cases hc'; exact hc⟩, ⟨rfl, rfl, rfl⟩⟩

theorem Fit.track9 {k : Nat} {st : StrandState} {last : Nat} (h : Fit k st last) (e : Env) (n : Strand) (x : Nat) (d : DimClass)
    (c : Contribution) (made : List Nat) (hx : x ≤ st.map.frontier) :
    Fit k (st.track9 e n x d c made) last ∧ SameFrame st (st.track9 e n x d c made) := by
  have s1 := sameShape_dropCandidate st
  unfold StrandState.track9
  split
  · have s2 := s1.trans (sameShape_foldOpen st.dropCandidate c)
    exact ⟨h.of_same s2, s2.frame⟩
  · split
    · rename_i q hq
      split
      · exact h.holdCandidate e n made _ (h.candidate q hq)
      · have h2 := (h.of_same s1).holdCandidate e n made { state := d, count := 1, start := x, side := Stats.fold {} c }
          (by rw [s1.frontier]; exact hx)
        exact ⟨h2.1, s1.frame.trans h2.2⟩
    · exact h.holdCandidate e n made _ hx

theorem Fit.measure {k : Nat} {st : StrandState} {last : Nat} (h : Fit k st last) (e : Env) (n : Strand) (x : Nat) (sc : Scan)
    (made : List Nat) (hx : x ≤ st.map.frontier) :
    Fit k (st.measure e n x sc made) last ∧ SameFrame st (st.measure e n x sc made) := by
  unfold StrandState.measure
  dsimp only
  generalize hr : st.eval.resolve (e.strand n) (e.recipe st).defaultTemp sc.temp = t
  have hcand : t.eval.candidate = st.eval.candidate := by
    rw [← hr]
    unfold Evaluator.resolve
    split
    · rfl
    · dsimp only
      split
      · rfl
      · split <;> rfl
  have s1 : SameShape st { st with eval := t.eval } :=
    ⟨rfl, rfl, rfl, rfl, rfl, rfl, rfl, fun c hc => ⟨c, by rw [← hcand]; exact hc, rfl⟩⟩
  have s2 : SameShape st (if t.assumed && !st.eval.episode then
      StrandState.raise { st with eval := t.eval } e n .thermalDefault 0 x sc.temp else { st with eval := t.eval }) := by
    split
    · exact s1.trans (sameShape_raise _ e n _ _ _ _)
    · exact s1
  have h3 := (h.of_same s2).track9 e n x (scanState (gradeScan sc (e.recipe st) t.temp))
    { temp := t.temp, thermal := t.assumed, feats := gradeScan sc (e.recipe st) t.temp } made (by rw [s2.frontier]; exact hx)
  exact ⟨h3.1, s2.frame.trans h3.2⟩

/-! ## The nose (R37) -/

theorem sameShape_startStale (st : StrandState) (e : Env) (n : Strand) : SameShape st (st.startStale e n) :=
  ⟨rfl, rfl, rfl, rfl, rfl, rfl, rfl, fun c hc => ⟨c, hc, rfl⟩⟩

theorem sameShape_disarmStale (st : StrandState) : SameShape st st.disarmStale :=
  ⟨rfl, rfl, rfl, rfl, rfl, rfl, rfl, fun c hc => ⟨c, hc, rfl⟩⟩

/-- The nose opens a map that is empty. -/
theorem Fit.makeNose {st : StrandState} (e : Env) (n : Strand) (x : Nat) (hc : st.map.closed = []) (hp : st.cuts.pending = [])
    (hf : st.map.frontier = x) :
    Fit 0 (st.makeNose e n x) x ∧ (st.makeNose e n x).track = .tracking ∧ (st.makeNose e n x).map.frontier = x := by
  unfold StrandState.makeNose
  dsimp only
  refine ⟨Fit.of_same (Fit.of_same ?_ (sameShape_judgeMark _ e n x x)) (sameShape_startStale _ e n), ?_, ?_⟩
  · refine ⟨rfl, rfl, (by intro h; cases h), ⟨fun _ => rfl, fun _ => rfl⟩, (by intro h; cases h), ?_, ?_, ?_, ?_, ?_, ?_, ?_⟩
    · show Chained x st.map.closed x
      rw [hc]
      rfl
    · exact Nat.le_of_eq hf.symm
    · show CutsDivide x st.map.closed st.cuts.pending
      rw [hp]
      trivial
    · show st.map.closed.length + 1 ≤ _
      rw [hc]
      simp [Config.ordinarySegments]
      omega
    · intro _ p hp'
      rw [show (StrandState.cuts _).pending = st.cuts.pending from rfl, hp] at hp'
      cases hp'
    · intro _ p hp'
      rw [show (StrandState.cuts _).pending = st.cuts.pending from rfl, hp] at hp'
      cases hp'
    · intro c hc
      cases hc
  · exact (sameShape_judgeMark _ e n x x).track
  · exact (sameShape_judgeMark _ e n x x).frontier.trans hf

/-! ## The tail (R38, R132) -/

/-- The open segment closes at a coordinate at or above its start, which becomes the frontier. -/
theorem Fit.closeOpen {st : StrandState} {last : Nat} (h : Fit 0 st last) (cur : SegBody) (hcur : st.map.cur = some cur) (y : Nat)
    (hy : cur.start ≤ y) (g : Segment) (hg1 : g.body.start = cur.start) (hg2 : g.stop = y) :
    Chained last (st.map.closed ++ [g]) y ∧ CutsDivide last (st.map.closed ++ [g]) st.cuts.pending ∧
      (st.map.closed ++ [g]).length ≤ Config.ordinarySegments + st.cuts.used ∧
      heldSegs st.cuts.pending < (st.map.closed ++ [g]).length := by
  have hend : st.map.closedEnd = cur.start := by rw [StrandMap.closedEnd, hcur]; rfl
  have hch := h.chain
  rw [hend] at hch
  refine ⟨?_, h.cuts.append_right, ?_, ?_⟩
  · exact hch.append ⟨hg1, by rw [hg2]; exact hy, hg2⟩
  · have := h.places
    simp only [StrandMap.count, hcur, Option.isSome_some, if_true] at this
    simp
    omega
  · have := h.cuts.held_le
    simp
    omega

theorem Fit.confirmTail {st : StrandState} {last : Nat} (h : Fit 0 st last) (ht : st.track = .tracking) (e : Env) (n : Strand) :
    Fit 0 (st.confirmTail e n) last := by
  have s1 : SameShape st (st.dropCandidate.foldOpen st.blindContribution) :=
    (sameShape_dropCandidate st).trans (sameShape_foldOpen _ _)
  have hcand : (st.dropCandidate.foldOpen st.blindContribution).eval.candidate = none := by
    unfold StrandState.dropCandidate
    split
    · assumption
    · rfl
  unfold StrandState.confirmTail
  dsimp only
  generalize hst1 : st.dropCandidate.foldOpen st.blindContribution = st1 at s1 hcand
  have h1 := h.of_same s1
  have ht1 : st1.track = .tracking := s1.track.trans ht
  cases hcur : st1.map.cur with
  | none => exact h1
  | some cur =>
    dsimp only
    have hy : cur.start ≤ max st.lastMaterial cur.start := Nat.le_max_right _ _
    generalize max st.lastMaterial cur.start = y at hy
    obtain ⟨c1, c2, c3, c4⟩ := h1.closeOpen cur hcur y hy
      { body := { cur with flags := { cur.flags with tail := true } }, stop := y } rfl rfl
    have sm := sameShape_endMark
      { st1 with
        map := { st1.map with
          closed := st1.map.closed ++ [{ body := { cur with flags := { cur.flags with tail := true } }, stop := y }]
          cur := none, frontier := y, tail := some y }
        fore := { st1.fore with classBoundary := none } } e n y
    generalize hm : StrandState.endMark _ e n y = st3 at sm
    refine Fit.of_same (st := { st1 with
        track := .tailed
        map := { st1.map with
          closed := st1.map.closed ++ [{ body := { cur with flags := { cur.flags with tail := true } }, stop := y }]
          cur := none, frontier := y, tail := some y }
        fore := { st1.fore with classBoundary := none } }) ?_ ⟨rfl, sm.closed, sm.cur, sm.frontier, sm.nose, sm.tail, sm.cuts, ?_⟩
    · refine ⟨h1.nose, h1.lastCut, (by intro hh; cases hh), ⟨(by intro hh; cases hh), (by intro hh; cases hh)⟩, fun _ => rfl, c1, Nat.le_refl _, c2, ?_, ?_, ?_, ?_⟩
      · show (st1.map.closed ++ [_]).length + 0 ≤ Config.ordinarySegments + st1.cuts.used + 0
        omega
      · intro _ p _ _
        exact Or.inl c4
      · intro _ p hp hpl
        have := (h1.held (Or.inl ht1) p hp hpl).1
        rw [ht1] at this
        cases this
      · intro c hc
        rw [show (StrandState.eval _).candidate = st1.eval.candidate from rfl, hcand] at hc
        cases hc
    · intro c hc
      exact sm.candidate c hc

/-! ## Resumption (R40, R133, R137) -/

theorem useHeld_props (t : Nat) (p : PendingCut) :
    (p.useHeld t).coord = p.coord ∧ (p.useHeld t).segs = p.segs ∧
      (p.useHeld t).place = if p.coord = t ∧ p.place = .held then .used else p.place := by
  unfold PendingCut.useHeld
  split <;> exact ⟨rfl, rfl, rfl⟩

theorem CutsDivide.used_useHeld (t : Nat) (ps : List PendingCut) :
    ps.countP (fun p => p.place == .used) + ps.countP (fun p => p.coord = t && p.place == .held) =
      (ps.map (PendingCut.useHeld t)).countP (fun p => p.place == .used) := by
  induction ps with
  | nil => rfl
  | cons p ps ih =>
    have hp := (useHeld_props t p).2.2
    simp only [List.map_cons, List.countP_cons, ← ih]
    rw [hp]
    by_cases h1 : p.coord = t <;> cases h2 : p.place <;> simp [h1] <;> omega

/-- A resumption's state: the map as the tail left it, the strand TRACKING, no candidate. -/
structure Resuming (st st1 : StrandState) : Prop where
  map : st1.map = st.map
  cuts : st1.cuts = st.cuts
  track : st1.track = .tracking
  candidate : st1.eval.candidate = none

theorem Fit.closed_none {st : StrandState} {last : Nat} (h : Fit 0 st last) (ht : st.track ≠ .tracking) : st.map.cur = none := by
  cases hc : st.map.cur with
  | none => rfl
  | some b => exact absurd (h.opens.mp (by rw [hc]; rfl)) ht

theorem Fit.openGap {st st1 : StrandState} {last : Nat} (h : Fit 0 st last) (ht : st.track = .tailed) (r : Resuming st st1) (e : Env)
    (n : Strand) (d : DimClass) (hroom : st.map.count < Config.ordinarySegments ∨ st.heldAt st.map.frontier = true) :
    Fit 0 (st1.openGap e n st.map.frontier d) last ∧ (st1.openGap e n st.map.frontier d).track = .tracking ∧
      (st1.openGap e n st.map.frontier d).map.frontier = st.map.frontier := by
  have hcur := h.closed_none (by rw [ht]; decide)
  have hend : st.map.closedEnd = st.map.frontier := by rw [StrandMap.closedEnd, hcur]; rfl
  obtain ⟨e1, e2, e3, e4⟩ := r
  have hused := CutsDivide.used_useHeld st.map.frontier st.cuts.pending
  have hplaces := h.places
  have sj := sameShape_judgeMark
    { st1 with
      fore := st1.fore.act st.map.frontier
      map := { st1.map with
        cur := some (StrandState.newSegment { st1 with fore := st1.fore.act st.map.frontier } e st.map.frontier d {}) }
      cuts := { st1.cuts with pending := st1.cuts.pending.map (PendingCut.useHeld st.map.frontier) } }
    e n st.map.frontier st.map.frontier
  refine ⟨Fit.of_same ?_ sj, sj.track.trans e3, sj.frontier.trans (show st1.map.frontier = _ by rw [e1])⟩
  refine ⟨?_, ?_, ?_, ⟨fun _ => e3, fun _ => rfl⟩, ?_, ?_, ?_, ?_, ?_, fun _ _ _ _ => Or.inr rfl, ?_, ?_⟩
  · show st1.map.nose.isSome = true
    rw [e1]
    exact h.nose
  · show st1.cuts.lastCut = some last
    rw [e2]
    exact h.lastCut
  · show st1.track ≠ _
    rw [e3]
    decide
  · intro hh
    rw [show st1.track = .tailed from hh] at e3
    cases e3
  · show Chained last st1.map.closed st.map.frontier
    rw [e1, ← hend]
    exact h.chain
  · show st.map.frontier ≤ st1.map.frontier
    rw [e1]
  · show CutsDivide last st1.map.closed (st1.cuts.pending.map (PendingCut.useHeld st.map.frontier))
    rw [e1, e2]
    exact h.cuts.map_place _ (fun p => ⟨(useHeld_props _ p).1, (useHeld_props _ p).2.1⟩)
  · show st1.map.closed.length + 1 ≤
      Config.ordinarySegments + (st1.cuts.pending.map (PendingCut.useHeld st.map.frontier)).countP (fun p => p.place == .used) + 0
    rw [e1, e2, ← hused]
    unfold Cutter.used at hplaces
    unfold StrandMap.count at hplaces hroom
    rw [hcur] at hplaces hroom
    simp only [Option.isSome_none, Bool.false_eq_true, if_false, Nat.add_zero] at hplaces hroom
    rcases hroom with hr | hr
    · omega
    · have : 0 < st.cuts.pending.countP (fun p => p.coord = st.map.frontier && p.place == .held) := by
        rw [List.countP_pos_iff]
        unfold StrandState.heldAt at hr
        rw [List.any_eq_true] at hr
        exact hr
      omega
  · intro _ p hp hpl
    rw [show (StrandState.cuts _).pending = st1.cuts.pending.map (PendingCut.useHeld st.map.frontier) from rfl, e2] at hp
    obtain ⟨q, hq, rfl⟩ := List.mem_map.mp hp
    rw [(useHeld_props _ q).2.2] at hpl
    split at hpl
    · cases hpl
    · rename_i hno
      exact absurd ⟨(h.held (Or.inr ht) q hq hpl).2, hpl⟩ hno
  · intro c hc
    rw [show (StrandState.eval _).candidate = st1.eval.candidate from rfl, e4] at hc
    cases hc

theorem Fit.reopen {st st1 : StrandState} {last : Nat} (h : Fit 0 st last) (ht : st.track = .tailed) (r : Resuming st st1) (e : Env)
    (n : Strand) (d : DimClass) (g : Segment) (hg : st.map.closed.getLast? = some g) (hno : st.heldAt st.map.frontier = false) :
    Fit 0 (st1.reopen e n st.map.frontier d g) last ∧ (st1.reopen e n st.map.frontier d g).track = .tracking ∧
      (st1.reopen e n st.map.frontier d g).map.frontier = st.map.frontier := by
  have hcur := h.closed_none (by rw [ht]; decide)
  have hend : st.map.closedEnd = st.map.frontier := by rw [StrandMap.closedEnd, hcur]; rfl
  have hnone : ∀ p ∈ st.cuts.pending, p.place ≠ .held := by
    intro p hp hpl
    have hco := (h.held (Or.inr ht) p hp hpl).2
    have : st.heldAt st.map.frontier = true := by
      unfold StrandState.heldAt
      rw [List.any_eq_true]
      exact ⟨p, hp, by simp [hco, hpl]⟩
    rw [hno] at this
    cases this
  have hlt : heldSegs st.cuts.pending < st.map.closed.length := by
    cases hp : st.cuts.pending.getLast? with
    | none =>
      rw [List.getLast?_eq_none_iff] at hp
      rw [hp, heldSegs_nil]
      exact List.length_pos_of_ne_nil (by intro h0; rw [h0] at hg; cases hg)
    | some p =>
      have := h.follows (Or.inr ht) p hp (hnone p (List.mem_of_getLast? hp))
      rw [hcur] at this
      simpa using this
  obtain ⟨init, hi⟩ : ∃ init, st.map.closed = init ++ [g] := by
    have hne : st.map.closed ≠ [] := by intro h0; rw [h0] at hg; cases hg
    refine ⟨st.map.closed.dropLast, ?_⟩
    have := List.dropLast_concat_getLast hne
    rw [List.getLast?_eq_some_getLast hne] at hg
    rw [Option.some.inj hg] at this
    exact this.symm
  obtain ⟨e1, e2, e3, e4⟩ := r
  have hch := h.chain
  rw [hi] at hch
  obtain ⟨m, hm1, hm2⟩ := hch.split
  obtain ⟨hg1, hg2, hg3⟩ := hm2
  have hg3 : g.stop = st.map.closedEnd := hg3
  have hdrop : st1.map.closed.dropLast = init := by rw [e1, hi, List.dropLast_concat]
  unfold StrandState.reopen
  dsimp only
  have sr : ∀ (f : Forecast) (b : SegBody) (code : Nat),
      SameShape { st1 with map := { st1.map with closed := init, cur := some b } }
      (StrandState.judgeMark
        (StrandState.raise { st1 with fore := f, map := { st1.map with closed := st1.map.closed.dropLast, cur := some b } } e n .mapMerged
          code st.map.frontier BoundarySource.resumption.code)
        e n st.map.frontier (Config.markEndAtMerge b.start st.map.frontier)) := by
    intro f b code
    rw [hdrop]
    have s0 : SameShape { st1 with map := { st1.map with closed := init, cur := some b } }
        { st1 with fore := f, map := { st1.map with closed := init, cur := some b } } :=
      ⟨rfl, rfl, rfl, rfl, rfl, rfl, rfl, fun c hc => ⟨c, hc, rfl⟩⟩
    exact s0.trans ((sameShape_raise _ e n _ _ _ _).thenJudge e n _ _)
  have s3 := sr (st1.fore.act st.map.frontier) { g.body with
    dim := (g.body.dim.higher .unmeasured).higher d
    overlay := higherOverlay g.body.overlay (st1.fore.act st.map.frontier).overlay
    flags := { g.body.flags with merged := true } } (SegBody.cls { g.body with
    dim := (g.body.dim.higher .unmeasured).higher d
    overlay := higherOverlay g.body.overlay (st1.fore.act st.map.frontier).overlay
    flags := { g.body.flags with merged := true } }).severity
  refine ⟨Fit.of_same ?_ s3, s3.track.trans e3, s3.frontier.trans (show st1.map.frontier = _ by rw [e1])⟩
  have hplaces := h.places
  unfold StrandMap.count at hplaces
  rw [hi, hcur] at hplaces
  rw [hi] at hlt
  refine ⟨?_, ?_, ?_, ⟨fun _ => e3, fun _ => rfl⟩, ?_, ?_, ?_, ?_, ?_, fun _ _ _ _ => Or.inr rfl, ?_, ?_⟩
  · show st1.map.nose.isSome = true
    rw [e1]
    exact h.nose
  · show st1.cuts.lastCut = some last
    rw [e2]
    exact h.lastCut
  · show st1.track ≠ _
    rw [e3]
    decide
  · intro hh
    rw [show st1.track = .tailed from hh] at e3
    cases e3
  · show Chained last init g.body.start
    rw [hg1]
    exact hm1
  · show g.body.start ≤ st1.map.frontier
    rw [e1, hg1, ← hend, ← hg3]
    exact hg2
  · show CutsDivide last init st1.cuts.pending
    rw [e2]
    refine h.cuts.congr_take ?_ ?_
    · rw [hi, List.take_append_of_le_length]
      simp only [List.length_append, List.length_cons, List.length_nil] at hlt
      omega
    · simp only [List.length_append, List.length_cons, List.length_nil] at hlt
      omega
  · show init.length + 1 ≤ Config.ordinarySegments + st1.cuts.used + 0
    rw [e2]
    simpa using hplaces
  · intro _ p hp hpl
    rw [show (StrandState.cuts _).pending = st1.cuts.pending from rfl, e2] at hp
    exact absurd hpl (hnone p hp)
  · intro c hc
    rw [show (StrandState.eval _).candidate = st1.eval.candidate from rfl, e4] at hc
    cases hc

theorem Fit.resumeMap {st st1 : StrandState} {last : Nat} (h : Fit 0 st last) (ht : st.track = .tailed) (r : Resuming st st1)
    (e : Env) (n : Strand) (d : DimClass) :
    Fit 0 (st1.resumeMap e n st.map.frontier d) last ∧ (st1.resumeMap e n st.map.frontier d).track = .tracking ∧
      (st1.resumeMap e n st.map.frontier d).map.frontier = st.map.frontier := by
  unfold StrandState.resumeMap
  have hh : st1.heldAt st.map.frontier = st.heldAt st.map.frontier := by unfold StrandState.heldAt; rw [r.cuts]
  rw [r.map, hh]
  split
  · rename_i hc
    exact h.openGap ht r e n d (by simpa using hc)
  · rename_i hc
    simp only [Bool.or_eq_true, decide_eq_true_eq, not_or, Bool.not_eq_true] at hc
    split
    · rename_i hnone
      rw [List.getLast?_eq_none_iff] at hnone
      have hcur := h.closed_none (by rw [ht]; decide)
      unfold StrandMap.count at hc
      rw [hnone, hcur] at hc
      exact absurd hc.1 (by decide)
    · rename_i g hg
      exact h.reopen ht r e n d g hg hc.2

/-! ## The takings -/

theorem Fit.scanBlind {st : StrandState} {last : Nat} (h : Fit 0 st last) (ht : st.track = .tracking) (e : Env) (n : Strand)
    (x : Nat) (made : List Nat) (hx : x ≤ st.map.frontier) : Fit 0 (st.scanBlind e n x made) last := by
  unfold StrandState.scanBlind
  dsimp only
  have h1 : Fit 0 { st with tailCount := st.tailCount + 1 } last :=
    h.of_same ⟨rfl, rfl, rfl, rfl, rfl, rfl, rfl, fun c hc => ⟨c, hc, rfl⟩⟩
  split
  · exact h1.confirmTail ht e n
  · exact (h1.track9 e n x .unmeasured _ made hx).1

theorem Fit.scanTracking {st : StrandState} {last : Nat} (h : Fit 0 st last) (ht : st.track = .tracking) (e : Env) (n : Strand)
    (x : Nat) (sc : Scan) (hx : st.map.frontier ≤ x) : Fit 0 (st.scanTracking e n x sc) last := by
  unfold StrandState.scanTracking
  dsimp only
  split
  · obtain ⟨h1, h2, h3, h4⟩ := h.advanceMap ht e n x
      ((st.moveFrontier x).confirming e x ((st.moveFrontier x).stateOf e n sc)) hx
    generalize st.advanceMap e n x _ = u at h1 h2 h3 h4 ⊢
    refine (Fit.measure (st := { u with tailCount := 0, lastMaterial := x }) ?_ e n x sc _ (Nat.le_of_eq h3.symm)).1
    exact h1.of_same ⟨rfl, rfl, rfl, rfl, rfl, rfl, rfl, fun c hc => ⟨c, hc, rfl⟩⟩
  · obtain ⟨h1, h2, h3, h4⟩ := h.advanceMap ht e n x
      (if st.tailReached e n then none else (st.moveFrontier x).confirming e x .unmeasured) hx
    exact h1.scanBlind h2 e n x _ (Nat.le_of_eq h3.symm)

theorem Fit.scanResuming {st : StrandState} {last : Nat} (h : Fit 0 st last) (ht : st.track = .tailed) (e : Env) (n : Strand)
    (x : Nat) (sc : Scan) (hx : st.map.frontier ≤ x) : Fit 0 (st.scanResuming e n x sc) last := by
  have htail : st.map.tail.getD st.map.frontier = st.map.frontier := by rw [h.tailed ht]; rfl
  unfold StrandState.scanResuming
  dsimp only
  rw [htail]
  generalize StrandState.confirming _ e x _ = conf
  generalize (if x = st.map.frontier then conf.elim DimClass.unmeasured (·.1) else .unmeasured) = d
  obtain ⟨h1, h2, h3⟩ := h.resumeMap ht (st1 := { st with
    track := .tracking
    tailCount := 0
    lastMaterial := x
    eval := { st.eval with confirmed := .unmeasured, candidate := none } }) ⟨rfl, rfl, rfl, rfl⟩ e n d
  obtain ⟨h4, h5, h6, h7⟩ := h1.advanceMap h2 e n x conf (by rw [h3]; exact hx)
  have h8 := fun made => (h4.of_same (sameShape_startStale _ e n)).measure e n x sc made (Nat.le_of_eq h6.symm)
  exact (h8 _).1.of_same (sameShape_raise _ e n _ _ _ _)

theorem Fit.takeNotice {st : StrandState} {last : Nat} (h : Fit 0 st last) (e : Env) (n : Strand) :
    Fit 0 (st.takeNotice e n) last := by
  unfold StrandState.takeNotice
  split
  · exact h
  · have s1 := sameShape_dropCandidate st
    dsimp only
    split
    · exact h.of_same s1
    · have s2 : SameShape st { st.dropCandidate with eval := { st.dropCandidate.eval with confirmed := .unmeasured } } :=
        ⟨s1.track, s1.closed, s1.cur, s1.frontier, s1.nose, s1.tail, s1.cuts, s1.candidate⟩
      exact ((h.of_same s2).boundary e n st.dropCandidate.map.frontier .unmeasured {} [.notice] (Nat.le_refl _)).1

/-- The taking of a scan keeps the map of a strand. -/
theorem StrandState.MapOk.takeScan {st : StrandState} (h : st.MapOk) (ho : st.OpenAgrees) (e : Env) (n : Strand) (sc : Scan) :
    (st.takeScan e n sc).MapOk ∧ (st.takeScan e n sc).OpenAgrees := by
  have done : ∀ {u : StrandState} {last : Nat}, Fit 0 u last → u.MapOk ∧ u.OpenAgrees := fun f => ⟨f.mapOk, f.opens⟩
  have fits : st.track = .tracking ∨ st.track = .tailed → ∃ last, Fit 0 st last := fun ht => h.fit ho (h.tracked ht)
  unfold StrandState.takeScan
  split
  · exact ⟨h, ho⟩
  · rename_i ht
    split
    · exact ⟨h, ho⟩
    · rename_i hr
      have hn := h.waiting ht
      obtain ⟨e1, e2, e3, e4⟩ := h.noNose hn
      unfold StrandState.scanWaiting StrandState.waitAt
      dsimp only
      have sp := sameShape_passSwitch
        { st with map := { st.map with frontier := sc.stamp }, fore := st.fore.advance sc.stamp } sc.stamp
      generalize hst : StrandState.passSwitch _ sc.stamp = st1 at sp
      have c1 : st1.map.closed = [] := by
        have := shapeOf_length sp.closed
        exact List.eq_nil_of_length_eq_zero (by rw [this]; show st.map.closed.length = 0; rw [e1]; rfl)
      have c2 : st1.cuts = st.cuts := sp.cuts
      split
      · obtain ⟨h1, h2, h3⟩ := Fit.makeNose (st := st1) e n sc.stamp c1 (by rw [c2, e4]) sp.frontier
        have h4 : Fit 0 { st1.makeNose e n sc.stamp with lastMaterial := sc.stamp } sc.stamp :=
          h1.of_same ⟨rfl, rfl, rfl, rfl, rfl, rfl, rfl, fun c hc => ⟨c, hc, rfl⟩⟩
        exact done (h4.measure e n sc.stamp sc [] (Nat.le_of_eq h3.symm)).1
      · have ht1 : st1.track = .waiting := sp.track.trans ht
        have hn1 : st1.map.nose = none := sp.nose.trans hn
        have hc1 : st1.map.cur = none := by
          have := sp.cur
          rw [show (StrandMap.cur _) = st.map.cur from rfl, e2] at this
          simpa using this
        refine ⟨⟨?_, ?_, fun _ => hn1, fun _ => ⟨c1, hc1, by rw [c2, e3], by rw [c2, e4]⟩, ?_, ?_⟩, ?_⟩
        · rw [ht1]
          rintro (hh | hh) <;> cases hh
        · rw [ht1]
          intro hh
          cases hh
        · rw [hn1]
          intro hh
          cases hh
        · intro c hc
          obtain ⟨c', h1, h2⟩ := sp.candidate c hc
          rw [h2, show st1.map.frontier = sc.stamp from sp.frontier]
          have := h.candidate c' h1
          simp [StrandState.isRescan] at hr
          omega
        · unfold StrandState.OpenAgrees
          rw [hc1, ht1]
          exact ⟨(by intro hh; cases hh), (by intro hh; cases hh)⟩
  · rename_i ht
    obtain ⟨last, hf⟩ := fits (Or.inl ht)
    split
    · exact done (hf.of_same (sameShape_flagRescan st))
    · rename_i hr
      exact done (hf.scanTracking ht e n sc.stamp sc (by simp [StrandState.isRescan] at hr; omega))
  · rename_i ht
    obtain ⟨last, hf⟩ := fits (Or.inr ht)
    split
    · exact ⟨h, ho⟩
    · rename_i hr
      exact done (hf.scanResuming ht e n sc.stamp sc (by simp [StrandState.isRescan] at hr; omega))

theorem StrandState.MapOk.takeNotice {st : StrandState} (h : st.MapOk) (ho : st.OpenAgrees) (e : Env) (n : Strand) :
    (st.takeNotice e n).MapOk ∧ (st.takeNotice e n).OpenAgrees := by
  rcases Decidable.em (st.track = .tracking) with ht | ht
  · obtain ⟨last, hf⟩ := h.fit ho (h.tracked (Or.inl ht))
    exact ⟨(hf.takeNotice e n).mapOk, (hf.takeNotice e n).opens⟩
  · unfold StrandState.takeNotice
    rw [if_pos ht]
    exact ⟨h, ho⟩

/-- A cut keeps the map of a strand that is graded or that has no nose. -/
theorem StrandState.MapOk.cutBehind {st : StrandState} (h : st.MapOk) (ho : st.OpenAgrees) (e : Env) (n : Strand) (source : CutSource)
    (x : Nat) (ht : st.track = .waiting ∨ st.track = .tracking ∨ st.track = .tailed) :
    (st.cutBehind e n source x).MapOk ∧ (st.cutBehind e n source x).OpenAgrees := by
  unfold StrandState.cutBehind
  split
  · exact ⟨h, ho⟩
  · rcases ht with ht | ht
    · have hn := h.waiting ht
      unfold StrandState.judgeCut
      rw [hn]
      exact ⟨h, ho⟩
    · obtain ⟨last, hf⟩ := h.fit ho (h.tracked ht)
      have := hf.judgeCut e n source (x - e.saw n) ht
      exact ⟨this.mapOk, this.opens⟩

/-! ## The end of a run, and piece builds -/

/-- A strand whose map is closed may be made OFF. -/
theorem Fit.makeOff {st : StrandState} {last : Nat} (h : Fit 0 st last) (hc : st.map.cur = none) :
    Fit 0 { st with track := .off } last := by
  refine ⟨h.nose, h.lastCut, (by intro hh; cases hh), ?_, (by intro hh; cases hh), h.chain, h.frontier, h.cuts, h.places, ?_, ?_,
    h.candidate⟩
  · constructor
    · intro hh
      rw [show (StrandState.map _).cur = st.map.cur from rfl, hc] at hh
      cases hh
    · intro hh
      cases hh
  · intro hh
    rcases hh with hh | hh <;> cases hh
  · intro hh
    rcases hh with hh | hh <;> cases hh

theorem Fit.closeMap {st : StrandState} {last : Nat} (h : Fit 0 st last) (ht : st.track = .tracking) (hcand : st.eval.candidate = none)
    (e : Env) (n : Strand) : Fit 0 { st.closeMap e n with track := .off } last ∧ (st.closeMap e n).map.cur = none := by
  obtain ⟨cur, hcur⟩ := Option.isSome_iff_exists.mp (h.opens.mpr ht)
  have hend : st.map.closedEnd = cur.start := by rw [StrandMap.closedEnd, hcur]; rfl
  have hle := h.frontier
  rw [hend] at hle
  obtain ⟨c1, c2, c3, c4⟩ := h.closeOpen cur hcur st.map.frontier hle { body := cur, stop := st.map.frontier } rfl rfl
  have base : ∀ ps : List PendingCut, CutsDivide last (st.map.closed ++ [{ body := cur, stop := st.map.frontier }]) ps →
      ps.countP (fun p => p.place == .used) = st.cuts.used → Fit 0 { st with
        track := .off
        map := { st.map with closed := st.map.closed ++ [{ body := cur, stop := st.map.frontier }], cur := none }
        cuts := { st.cuts with pending := ps } } last := by
    intro ps hps hu
    refine ⟨h.nose, h.lastCut, (by intro hh; cases hh), ⟨(by intro hh; cases hh), (by intro hh; cases hh)⟩,
      (by intro hh; cases hh), c1, Nat.le_refl _, hps, ?_, ?_, ?_, ?_⟩
    · show (st.map.closed ++ [_]).length + 0 ≤ Config.ordinarySegments + ps.countP (fun p => p.place == .used) + 0
      omega
    · intro hh
      rcases hh with hh | hh <;> cases hh
    · intro hh
      rcases hh with hh | hh <;> cases hh
    · intro c hc
      rw [show (StrandState.eval _).candidate = st.eval.candidate from rfl, hcand] at hc
      cases hc
  unfold StrandState.closeMap
  rw [hcur]
  dsimp only
  split
  · rename_i hg
    have hg' : st.cuts.pending.getLast?.any (fun p => st.map.frontier ≤ p.coord) = true ∧
        heldSegs st.cuts.pending = st.map.closed.length := by simpa [StrandState.closesBelowCut] using hg
    obtain ⟨hg1, hg2⟩ := hg'
    rw [Option.any_eq_true] at hg1
    obtain ⟨p, hp, hpc⟩ := hg1
    have hreach : reached last st.cuts.pending = p.coord := by simp [reached, hp]
    have hheld := h.cuts.chain.1
    rw [hg2, List.take_length] at hheld
    have huniq := hheld.end_unique h.chain
    have hpc : st.map.frontier ≤ p.coord := by simpa using hpc
    have b1 := base (growNewest st.cuts.pending) (h.cuts.growNewest (by intro h0; rw [h0] at hp; cases hp) hg2
      (by show cur.start = _; omega) (by show st.map.frontier = _; omega)) (used_growNewest _)
    have sm := sameShape_endMark
      { st with
        map := { st.map with closed := st.map.closed ++ [{ body := cur, stop := st.map.frontier }], cur := none }
        cuts := { st.cuts with pending := growNewest st.cuts.pending } } e n st.map.frontier
    exact ⟨b1.of_same ⟨rfl, sm.closed, sm.cur, sm.frontier, sm.nose, sm.tail, sm.cuts, sm.candidate⟩, by simpa using sm.cur⟩
  · have b1 := base st.cuts.pending c2 rfl
    have sm := sameShape_endMark
      { st with map := { st.map with closed := st.map.closed ++ [{ body := cur, stop := st.map.frontier }], cur := none } } e n
      st.map.frontier
    exact ⟨b1.of_same ⟨rfl, sm.closed, sm.cur, sm.frontier, sm.nose, sm.tail, sm.cuts, sm.candidate⟩, by simpa using sm.cur⟩

/-- A piece build takes the oldest cut's segments out of the map. -/
theorem Fit.afterBuild {st : StrandState} {last : Nat} {p : PendingCut} {rest : List PendingCut} (h : Fit 0 st last)
    (hp : st.cuts.pending = p :: rest) (e : Env) : Fit 0 (st.afterBuild e p) p.coord := by
  have hc := h.cuts
  rw [hp] at hc
  obtain ⟨h1, h2, h3, h4⟩ := hc
  have hh : heldSegs st.cuts.pending = p.segs + heldSegs rest := by rw [hp, heldSegs_cons]
  have hpos : 1 ≤ p.segs := h.cuts.segs_pos p (by rw [hp]; simp)
  have hused : st.cuts.used = (if p.place == .used then 1 else 0) + rest.countP (fun p => p.place == .used) := by
    unfold Cutter.used
    rw [hp, List.countP_cons]
    omega
  have hplaces := h.places
  unfold StrandState.afterBuild
  refine ⟨h.nose, rfl, h.begun, h.opens, h.tailed, ?_, h.frontier, ?_, ?_, ?_, ?_, h.candidate⟩
  · exact h.chain.drop p.segs h3
  · show CutsDivide p.coord (st.map.closed.drop p.segs) st.cuts.pending.tail
    rw [hp]
    exact h4
  · show (st.map.closed.drop p.segs).length + (if st.map.cur.isSome then 1 else 0) ≤
      Config.ordinarySegments + st.cuts.pending.tail.countP (fun p => p.place == .used) + 0
    unfold StrandMap.count at hplaces
    rw [hp, List.tail_cons, List.length_drop]
    split at hused <;> omega
  · intro htr q hq hpl
    rw [show (StrandState.cuts _).pending = st.cuts.pending.tail from rfl, hp, List.tail_cons] at hq ⊢
    have hq' : st.cuts.pending.getLast? = some q := by
      rw [hp]
      cases rest with
      | nil => cases hq
      | cons r rs => rw [List.getLast?_cons_cons]; exact hq
    rcases h.follows htr q hq' hpl with hl | hl
    · left
      show heldSegs rest < (st.map.closed.drop p.segs).length
      rw [List.length_drop]
      omega
    · exact Or.inr hl
  · intro htr q hq
    exact h.held htr q (by
      rw [show (StrandState.cuts _).pending = st.cuts.pending.tail from rfl] at hq
      exact List.mem_of_mem_tail hq)

theorem track_joinAt (st : StrandState) (e : Env) (n : Strand) (k old : Nat) : (st.joinAt e n k old).track = st.track := by
  unfold StrandState.joinAt
  split
  · rfl
  · split
    · rfl
    · exact (sameShape_judgeMark _ e n _ _).track
  · rfl

theorem track_withdrawNewest (st : StrandState) (e : Env) (n : Strand) (p : PendingCut) :
    (st.withdrawNewest e n p).track = st.track := by
  unfold StrandState.withdrawNewest
  dsimp only
  split
  · exact track_joinAt st e n _ _
  · rfl

theorem track_appendCut (st : StrandState) (e : Env) (n : Strand) (c : Nat) (f j : Bool) (copy : VerdictCopy)
    (ht : st.track ≠ .tracking) : (st.appendCut e n c f j copy).track = st.track := by
  unfold StrandState.appendCut StrandState.divideMap
  dsimp only
  rw [if_neg (fun h => ht h.1)]
  split
  · rfl
  · split
    · rfl
    · split <;> rfl

theorem track_finalCut (st : StrandState) (e : Env) (n : Strand) (ht : st.track ≠ .tracking) :
    (st.finalCut e n).track = st.track := by
  unfold StrandState.finalCut StrandState.acceptCut
  dsimp only
  split
  · rfl
  · split
    · exact track_appendCut st e n _ _ _ _ ht
    · split
      · rfl
      · rename_i p _
        show ((st.withdrawNewest e n p).appendCut e n st.map.frontier (p.isFinal || CutSource.final == CutSource.final) true
          (verdictCopy e st)).track = _
        rw [track_appendCut _ e n _ _ _ _ (by rw [track_withdrawNewest]; exact ht), track_withdrawNewest]

/-- A strand without a nose may be made OFF. -/
theorem StrandState.MapOk.makeOff {st : StrandState} (h : st.MapOk) (ho : st.OpenAgrees) (ht : st.track ≠ .tracking) :
    (StrandState.disarmStale { st with track := .off, switch := none, fore := {} }).MapOk ∧
      (StrandState.disarmStale { st with track := .off, switch := none, fore := {} }).OpenAgrees := by
  have hcur : st.map.cur = none := by
    cases hc : st.map.cur with
    | none => rfl
    | some b => exact absurd (ho.mp (by rw [hc]; rfl)) ht
  cases hn : st.map.nose with
  | none =>
    refine ⟨⟨?_, ?_, fun _ => hn, fun _ => h.noNose hn, ?_, h.candidate⟩, ?_⟩
    · rintro (hh | hh) <;> cases hh
    · intro hh
      cases hh
    · intro hh
      have hh : st.map.nose.isSome = true := hh
      rw [hn] at hh
      cases hh
    · constructor
      · intro hh
        have hh : st.map.cur.isSome = true := hh
        rw [hcur] at hh
        cases hh
      · intro hh
        cases hh
  | some x =>
    obtain ⟨last, hf⟩ := h.fit ho (by rw [hn]; rfl)
    have f1 := hf.makeOff hcur
    have f2 : Fit 0 (StrandState.disarmStale { st with track := .off, switch := none, fore := {} }) last :=
      f1.of_same ⟨rfl, rfl, rfl, rfl, rfl, rfl, rfl, fun c hc => ⟨c, hc, rfl⟩⟩
    exact ⟨f2.mapOk, f2.opens⟩

/-- END RUN keeps the map of a run strand. -/
theorem StrandState.MapOk.endRun {st : StrandState} (h : st.MapOk) (ho : st.OpenAgrees) (e : Env) (n : Strand) :
    (st.endRun e n).MapOk ∧ (st.endRun e n).OpenAgrees := by
  have wrap : ∀ {u : StrandState} {last : Nat}, Fit 0 u last → u.map.cur = none →
      (StrandState.disarmStale { u with track := .off, switch := none, fore := {} }).MapOk ∧
        (StrandState.disarmStale { u with track := .off, switch := none, fore := {} }).OpenAgrees := by
    intro u last f hc
    have f1 := f.makeOff hc
    have f2 : Fit 0 (StrandState.disarmStale { u with track := .off, switch := none, fore := {} }) last :=
      f1.of_same ⟨rfl, rfl, rfl, rfl, rfl, rfl, rfl, fun c hc => ⟨c, hc, rfl⟩⟩
    exact ⟨f2.mapOk, f2.opens⟩
  unfold StrandState.endRun
  dsimp only
  cases ht : st.track with
  | off => exact h.makeOff ho (by rw [ht]; decide)
  | waiting => exact h.makeOff ho (by rw [ht]; decide)
  | tailed =>
    dsimp only
    obtain ⟨last, hf⟩ := h.fit ho (h.tracked (Or.inr ht))
    have h1 := hf.finalCut e n
    exact wrap h1 (h1.closed_none (by rw [track_finalCut st e n (by rw [ht]; decide), ht]; decide))
  | tracking =>
    dsimp only
    obtain ⟨last, hf⟩ := h.fit ho (h.tracked (Or.inl ht))
    have s1 := sameShape_dropCandidate st
    have hcand : st.dropCandidate.eval.candidate = none := by
      unfold StrandState.dropCandidate
      split
      · assumption
      · rfl
    obtain ⟨h1, h2⟩ := (hf.of_same s1).closeMap (s1.track.trans ht) hcand e n
    have h3 := h1.finalCut e n
    exact wrap h3 (h3.closed_none (by rw [track_finalCut _ e n (by intro hh; cases hh)]; intro hh; cases hh))

end Sys2Proof.Machine
end

