-- ==== Sys2Proof/Laws/Status.lean ====
section
/-! SUPPORT. The status block in its bytes (R14, 12.1): what each field reads where the block shows what the report unit has written, and
what keeps it so. -/

namespace Sys2Proof.Machine

/-! ## The layout -/

theorem leNat_leBytes_four (n : Nat) : leNat (leBytes 4 n) = n % 4294967296 := by simp [leBytes, leNat]; omega

theorem shownStrandBytes_length (t : ShownStrand) : (shownStrandBytes t).length = 32 := by simp [shownStrandBytes]

theorem statusBytes_length (a b : Word32) (w : Shown) : (statusBytes a b w).length = 192 := by simp [statusBytes, shownStrandBytes]

theorem take_four_leBytes (n : Nat) (xs : List Byte) : (leBytes 4 n ++ xs).take 4 = leBytes 4 n := by
  rw [List.take_append_of_le_length (by simp)]; simp [List.take_of_length_le]

theorem drop_append_add {α : Type} (xs ys : List α) (n k : Nat) (h : xs.length = n) : (xs ++ ys).drop (n + k) = ys.drop k := by
  subst h; simp [List.drop_append]

/-- Four bytes of a strand's entry. -/
theorem statusBytes_entry (a b : Word32) (w : Shown) (n : Strand) (k : Nat) (hk : k + 4 ≤ 32) :
    ((statusBytes a b w).drop (strandEntry n + k)).take 4 = ((shownStrandBytes (w.strands.get n)).drop k).take 4 := by
  obtain ⟨head, hlen, e⟩ : ∃ head : List Byte, head.length = 64 ∧ statusBytes a b w = head ++
      (shownStrandBytes w.strands.one ++ shownStrandBytes w.strands.two ++ shownStrandBytes w.strands.three ++
        shownStrandBytes w.strands.four) := ⟨_, by simp, rfl⟩
  have cut : ∀ xs ys : List Byte, xs.length = 32 → ((xs ++ ys).drop k).take 4 = (xs.drop k).take 4 := fun xs ys h => by
    rw [List.drop_append_of_le_length (by omega), List.take_append_of_le_length (by simp; omega)]
  have skip : ∀ (xs ys : List Byte) (j : Nat), xs.length = 32 → (xs ++ ys).drop (32 + j) = ys.drop j :=
    fun xs ys j h => drop_append_add xs ys 32 j h
  rw [e]
  cases n
  · rw [show strandEntry .s1 + k = 64 + k from rfl, drop_append_add _ _ 64 _ hlen]
    simp only [List.append_assoc]
    exact cut _ _ (shownStrandBytes_length _)
  · rw [show strandEntry .s2 + k = 64 + (32 + k) by simp [strandEntry, Strand.num]; omega, drop_append_add _ _ 64 _ hlen]
    simp only [List.append_assoc]
    rw [skip _ _ _ (shownStrandBytes_length _)]
    exact cut _ _ (shownStrandBytes_length _)
  · rw [show strandEntry .s3 + k = 64 + (32 + (32 + k)) by simp [strandEntry, Strand.num]; omega, drop_append_add _ _ 64 _ hlen]
    simp only [List.append_assoc]
    rw [skip _ _ _ (shownStrandBytes_length _), skip _ _ _ (shownStrandBytes_length _)]
    exact cut _ _ (shownStrandBytes_length _)
  · rw [show strandEntry .s4 + k = 64 + (32 + (32 + (32 + k))) by simp [strandEntry, Strand.num]; omega,
      drop_append_add _ _ 64 _ hlen]
    simp only [List.append_assoc]
    rw [skip _ _ _ (shownStrandBytes_length _), skip _ _ _ (shownStrandBytes_length _), skip _ _ _ (shownStrandBytes_length _)]
    rfl

/-! ## Its bytes in the memory -/

/-- A stretch of bytes read within a longer one. -/
theorem Memory.rdBytes_drop_take (m : Memory) (a len j k : Nat) (h : j + k ≤ len) :
    m.rdBytes (a + j) k = ((m.rdBytes a len).drop j).take k := by
  induction len generalizing a j k with
  | zero => obtain rfl : k = 0 := by omega
            simp [Memory.rdBytes]
  | succ len ih =>
    cases j with
    | zero =>
      cases k with
      | zero => simp [Memory.rdBytes]
      | succ k =>
        have := ih (a + 1) 0 k (by omega)
        simp only [Nat.add_zero, List.drop_zero] at this
        simp [Memory.rdBytes, this]
    | succ j =>
      have := ih (a + 1) j k (by omega)
      simp only [Memory.rdBytes, List.drop_succ_cons]
      rw [← this]; congr 1; omega

theorem Memory.rdBytes_write_status (m : Memory) (a b : Word32) (w : Shown) :
    (m.write 0 (statusBytes a b w)).rdBytes 0 192 = statusBytes a b w := by
  have := Memory.rdBytes_write_inside m 0 (statusBytes a b w) 0 192 (by rw [statusBytes_length])
  simpa [List.take_of_length_le, statusBytes_length] using this

/-- What each field of a stored status block reads. -/
structure StatusFields (m : Memory) (updateSeq updateTime : Word32) (w : Shown) : Prop where
  ident : m.rd32 0 = w.ident.toNat
  seq : m.rd32 4 = updateSeq.toNat
  time : m.rd32 8 = updateTime.toNat
  cause : m.rd 12 = BitVec.ofNat 8 (causeCode w.cause)
  restarts : m.rd32 16 = w.restarts.toNat
  refused : m.rd32 24 = w.lastRefused.toNat
  hw : ∀ n, m.rd32 (strandEntry n + 4) = (w.strands.get n).hw % 4294967296
  speed : ∀ n, m.rd32 (strandEntry n + 12) = (BitVec.ofInt 32 (w.strands.get n).speed).toNat

theorem statusBytes_ident (a b : Word32) (w : Shown) : ((statusBytes a b w).drop 0).take 4 = leBytes 4 w.ident.toNat :=
  take_four_leBytes _ _

theorem statusBytes_seq (a b : Word32) (w : Shown) : ((statusBytes a b w).drop 4).take 4 = leBytes 4 a.toNat :=
  take_four_leBytes _ _

theorem statusBytes_time (a b : Word32) (w : Shown) : ((statusBytes a b w).drop 8).take 4 = leBytes 4 b.toNat :=
  take_four_leBytes _ _

theorem statusBytes_cause (a b : Word32) (w : Shown) :
    ((statusBytes a b w).drop 12).take 1 = [BitVec.ofNat 8 (causeCode w.cause)] := rfl

theorem statusBytes_restarts (a b : Word32) (w : Shown) : ((statusBytes a b w).drop 16).take 4 = leBytes 4 w.restarts.toNat :=
  take_four_leBytes _ _

theorem statusBytes_refused (a b : Word32) (w : Shown) : ((statusBytes a b w).drop 24).take 4 = leBytes 4 w.lastRefused.toNat :=
  take_four_leBytes _ _

theorem statusBytes_hw (a b : Word32) (w : Shown) (n : Strand) :
    ((statusBytes a b w).drop (strandEntry n + 4)).take 4 = leBytes 4 (w.strands.get n).hw :=
  (statusBytes_entry a b w n 4 (by omega)).trans (take_four_leBytes _ _)

theorem statusBytes_speed (a b : Word32) (w : Shown) (n : Strand) :
    ((statusBytes a b w).drop (strandEntry n + 12)).take 4 = leBytes 4 (BitVec.ofInt 32 (w.strands.get n).speed).toNat :=
  (statusBytes_entry a b w n 12 (by omega)).trans (take_four_leBytes _ _)

/-- The fields of a status block whose 192 bytes are stored. -/
theorem StatusFields.of_bytes {m : Memory} {a b : Word32} {w : Shown} (h : m.rdBytes 0 192 = statusBytes a b w) :
    StatusFields m a b w := by
  have at' : ∀ j k, j + k ≤ 192 → m.rdBytes j k = ((statusBytes a b w).drop j).take k := fun j k hjk => by
    have := Memory.rdBytes_drop_take m 0 192 j k hjk
    rwa [h, Nat.zero_add] at this
  have read : ∀ (j : Nat) (v : Nat), j + 4 ≤ 192 → ((statusBytes a b w).drop j).take 4 = leBytes 4 v →
      m.rd32 j = v % 4294967296 := fun j v hj e => by
    rw [Memory.rd32, Memory.rdNat, at' j 4 hj, e, leNat_leBytes_four]
  have word : ∀ (j : Nat) (v : Word32), j + 4 ≤ 192 → ((statusBytes a b w).drop j).take 4 = leBytes 4 v.toNat →
      m.rd32 j = v.toNat := fun j v hj e => by
    rw [read j _ hj e, Nat.mod_eq_of_lt v.isLt]
  exact {
    ident := word 0 _ (by omega) (statusBytes_ident a b w)
    seq := word 4 _ (by omega) (statusBytes_seq a b w)
    time := word 8 _ (by omega) (statusBytes_time a b w)
    cause := by simpa [Memory.rdBytes] using (at' 12 1 (by omega)).trans (statusBytes_cause a b w)
    restarts := word 16 _ (by omega) (statusBytes_restarts a b w)
    refused := word 24 _ (by omega) (statusBytes_refused a b w)
    hw := fun n => read _ _ (by cases n <;> decide) (statusBytes_hw a b w n)
    speed := fun n => word _ _ (by cases n <;> decide) (statusBytes_speed a b w n) }

theorem StatusAgrees.fields {s : State} (h : StatusAgrees s) :
    StatusFields s.xp.mem s.report.updateSeq s.report.updateTime s.report.shown := .of_bytes h

/-! ## What keeps it -/

theorem State.storeStatus_agrees (s : State) : StatusAgrees s.storeStatus := Memory.rdBytes_write_status _ _ _ _

/-- The end of an event keeps the status block's bytes with what it shows. -/
theorem StatusAgrees.settles {u t : State} (hu : StatusAgrees u) (h : Settles u t) : StatusAgrees t := by
  unfold StatusAgrees at *
  by_cases e : u.shownNow = u.report.shown
  · obtain ⟨hm, hs, ht⟩ := h.kept e
    rw [hm, hs, ht, h.shown, e]; exact hu
  · rw [(h.rewritten e).2.2, Memory.rdBytes_write_status]

/-- What leaves the first 192 bytes and what the block shows alone keeps it. -/
theorem StatusAgrees.of_same {s t : State} (h : StatusAgrees s) (hm : ∀ a, a < 192 → t.xp.mem.rd a = s.xp.mem.rd a)
    (hs : t.report.updateSeq = s.report.updateSeq) (ht : t.report.updateTime = s.report.updateTime)
    (hw : t.report.shown = s.report.shown) : StatusAgrees t := by
  unfold StatusAgrees at *
  rw [hs, ht, hw, ← h]
  exact Memory.rdBytes_congr _ _ _ _ (fun x _ hx => hm x (by omega))

end Sys2Proof.Machine
end

