-- ==== Sys2Proof/Tests/Slice0.lean ====
section
/-! SUPPORT. Tests: the commands the check of WellFormed refuses, the worked examples of the manual, and for each statement with
hypotheses a state and operands that meet them (`meets_<statement>`). -/

namespace Sys2Proof.Tests

open Sys2Proof.Machine

/-! ## Well-formed commands and decoding -/

theorem test_register_write_short_of_none_refused : Instr.wellFormed (.registerWriteIgnored .ident (.short [])) = false := by decide
theorem test_register_write_short_of_four_refused :
    Instr.wellFormed (.registerWriteIgnored .notice (.short [0#8, 0#8, 0#8, 0#8])) = false := by decide
theorem test_word_to_notice_is_not_an_ignored_write : Instr.wellFormed (.registerWriteIgnored .notice (.word 1#32)) = false := by decide
theorem test_exchange_write_of_no_byte_refused : Instr.wellFormed (.exchangeWrite 0x2000 []) = false := by decide
theorem test_exchange_write_beyond_the_window_refused : Instr.wellFormed (.exchangeWrite 0x7FFFF [0#8, 0#8]) = false := by decide
theorem test_incident_of_the_inputs_has_no_strand : Instr.wellFormed (.incidentArrival (some .s1) .inputs) = false := by decide
theorem test_incident_of_a_strand_block_has_one : Instr.wellFormed (.incidentArrival none .marker) = false := by decide
theorem test_last_byte_of_the_window_can_be_written : Instr.wellFormed (.exchangeWrite 0x7FFFF [0#8]) = true := by decide
theorem test_no_word_spells_a_command : decodeTableWord 8 0x3C = none := by decide

/-! ## Chapter 4: counting, speed, motion (examples of 4.2, 4.4, 4.5) -/

theorem test_position_rounds_down : positionOf 6172850000 = 61728 := by decide
theorem test_position_one_edge_on : positionOf 6172900000 = 61729 := by decide
theorem test_position_one_edge_back : positionOf 6172800000 = 61728 := by decide
theorem test_position_behind_zero : positionOf (-1) = 0 := by decide
/-- Forward is 00, 10, 11, 01, 00 (R53). -/
theorem test_quadrature_forward : quadrature false false true false = some true ∧ quadrature true false true true = some true := by decide
theorem test_quadrature_reverse_and_skip :
    quadrature false false false true = some false ∧ quadrature false false true true = none := by decide
theorem test_single_counts_rising_a_only :
    edgeDirection .single false true true true = some true ∧ edgeDirection .single true false false false = none := by decide
theorem test_cap_holds_a_forward_edge : stepAccumulator 399999999999990 true 1000 = 400000000000000 := by decide
theorem test_reverse_edge_subtracts_its_full_step : stepAccumulator 400000000000000 false 1000 = 399999999999000 := by decide

/-- The station of the examples: gauge, saw, marker, wheel, thresholds and temperature band as chapters 4 to 9 give them. -/
def demoStrand : StrandStation :=
  { gauge := 18500, saw := 60000, marker := some 32000, wheelStep := 50000, mode := .quadrature, startSpeed := 100, stopSpeed := 20,
    stopDwell := 40, bandLow := 420, bandHigh := 560, thermalHold := 2, staleTime := 20, tailConfirm := 2 }

/-- Strands 1 and 2 are present; strand 2 has no marker. -/
def demoStation : Station :=
  { seamQualification := 8, sawQualification := 5, linger := 400, minimumGap := 1500,
    strands := ⟨some demoStrand, some { demoStrand with marker := none }, none, none⟩ }

/-- Recipe 4411, with one feature; its mark mask holds STOP_MARK, MANUAL and WELD. -/
def demoRecipe : Recipe :=
  { id := 4411, edition := 3, name := List.replicate 32 0#8, alpha := 2350, defaultTemp := 480, outConfirm := 3, inConfirm := 2,
    blindConfirm := 2, halfLength := 500, minUsable := 60000, tolerate := false, markMask := 44,
    holes := [{ lead := 9000, length := 12000 }, { lead := 9200, length := 12000 }],
    features := [{ nominal := 50000, lower := 250, upper := 300, guardPercent := 80, minConfidence := 8 }] }

/-- Entries 0 and 1 are VALID, entry 2 holds a recipe with another hole count, the others are EMPTY. -/
def demoStore : Vector (Option Recipe) 8 :=
  #v[some demoRecipe, some { demoRecipe with edition := 4 }, some { demoRecipe with holes := [] }, none, none, none, none, none]

/-- What a strand reads in the examples. -/
def demoEnv : Env := { station := some demoStation, store := demoStore, clock := 1000 }

theorem test_speed_of_a_window : windowSpeed demoEnv .s1 10000000 = 1000 ∧ windowSpeed demoEnv .s1 150000 = 15 := by decide
theorem test_speed_rounds_toward_zero : windowSpeed demoEnv .s1 (-50000) = -5 ∧ windowSpeed demoEnv .s1 19999 = 1 := by decide
/-- The example of a stop with creep-back, its window that ends at 30 ms: 15 mm/s is below the stop speed. -/
theorem test_stop_capture_at_the_first_slow_window :
    let c := Channel.endWindow { motion := .moving, hw := 500076, windowStart := 20, windowSum := 150000 } demoEnv .s1
    c.speed = 15 ∧ c.dwell = some 30 ∧ c.stopCapture = some 500076 ∧ c.motion = .moving := by decide
theorem test_second_fast_window_starts_motion :
    (Channel.endWindow { startCount := 1, windowSum := 1000000 } demoEnv .s1).motion = .moving := by decide

/-! ## Chapter 5: frames -/

/-- The CRC-16 of "123456789" with polynomial 0x1021 and initial value 0xFFFF is 0x29B1 (the usual check value of this CRC; R189
gives the polynomial, the initial value and the bit order). -/
theorem test_crc : frameCrc [0x31#8, 0x32#8, 0x33#8, 0x34#8, 0x35#8, 0x36#8, 0x37#8, 0x38#8, 0x39#8] = 0x29B1#16 := by decide +kernel
/-- The example of a burst: 44 after 42 is one missing; modulo 256. -/
theorem test_missing_count : missingCount 42#8 44#8 = 1 ∧ missingCount 255#8 0#8 = 0 := by decide

/-- The body of a frame for port 1 (12.4): sequence 7, MATERIAL, one feature of index 1, confidence 12, value 50,642, at 510 °C. -/
def demoBody : List Byte := [1#8, 7#8, 1#8, 1#8, 0xFE#8, 0x01#8, 1#8, 0xD2#8, 0xC5#8, 0xC0#8]

/-- The frame: the body and its check value. -/
def demoFrame : List Byte := demoBody ++ leBytes 2 (frameCrc demoBody).toNat

theorem test_frame_passes_its_checks : frameCheckOk demoFrame = true ∧ frameStructureOk demoFrame = true := by decide +kernel
theorem test_frame_fields : frameTemp demoFrame = 510 ∧ (frameFeatures demoFrame).head? = some (some ⟨50642, 12⟩) := by decide
theorem test_saturated_frame_has_no_confidence :
    (frameFeatures [1#8, 7#8, 5#8, 1#8, 0#8, 0#8, 1#8, 0xD2#8, 0xC5#8, 0xC0#8]).head? = some (some ⟨50642, 0⟩) := by decide

/-! ## Chapter 6: grading (the worked cases) -/

/-- Feature 3 of the worked cases. -/
def demoFeature : Feature := { nominal := 50000, lower := 250, upper := 300, guardPercent := 80, minConfidence := 8 }

theorem test_cold_values :
    coldValue 50642 2350 510 = 50065 ∧ coldValue 50960 2350 510 = 50380 ∧ coldValue 50363 2350 510 = 49790 ∧
      coldValue 300000 2350 510 = 296585 := by decide
theorem test_deviation_saturates : deviation 296585 100000 = 99999 ∧ deviation 50065 50000 = 65 := by decide
theorem test_excursions :
    excursion 65 250 300 = 217 ∧ excursion 380 250 300 = 1267 ∧ excursion (-210) 250 300 = 840 ∧ excursion 99999 500 500 = 9999 := by
  decide
theorem test_bands :
    bandOf 65 demoFeature = .inside ∧ bandOf 380 demoFeature = .outside ∧ bandOf (-210) demoFeature = .guarded := by decide
/-- The pyrometer blinded by steam: scans 3 and 4, a reading out of the band with hold count 1, then 2. -/
theorem test_thermal_hold_then_default :
    (Evaluator.resolve { lastValid := some 510, hold := 1 } (some demoStrand) 480 600).temp = 510 ∧
      (Evaluator.resolve { lastValid := some 510, hold := 2 } (some demoStrand) 480 1023).temp = 480 := by decide

/-! ## Chapter 7: forecasts -/

/-- A WAITING strand of the examples. -/
def demoWaiting : StrandState := { track := .waiting, recipe := some 0 }

/-- A seam captured at 412,300 on strand 2 gives the weld zone [440,000, 452,000). -/
theorem test_weld_zone :
    (demoWaiting.forecastSeam demoEnv .s2 (some ⟨412300, 0⟩)).fore.zones =
      [{ start := 440000, stop := 452000, cls := .weld, origin := .seam, note := 0, phase := .ahead }] := by decide +kernel
/-- A stop capture of 412,000 gives [430,000, 431,000), and its mark (462,000, 463,000). -/
theorem test_stop_zone_and_its_mark :
    (demoWaiting.forecastStop demoEnv .s1 412000).fore.zones.map (fun z => (z.start, z.stop)) = [(430000, 431000)] ∧
      (demoWaiting.forecastStop demoEnv .s1 412000).foreMail.map (fun r => (r.on, r.off)) = [(462000, some 463000)] := by decide
/-- A zone merged with its predecessor covers both and the gap (R116). -/
theorem test_merge_covers_the_gap :
    (Zone.merge { start := 610000, stop := 611000, cls := .stopMark, origin := .stop, note := 0, phase := .ahead }
      { start := 614000, stop := 615000, cls := .weld, origin := .seam, note := 0, phase := .ahead }) =
      { start := 610000, stop := 615000, cls := .weld, origin := .seam, note := 0, phase := .ahead } := by decide

/-! ## Chapter 8: boundaries and splits -/

/-- Feature 3 of the worked split. -/
def demoStat : FeatStat := { valid := 1386, least := some (-180), greatest := some 150, sum := -17283, outCount := 3, guardCount := 25 }

theorem test_split_first_part :
    demoStat.first 8000 14000 =
      { valid := 792, least := some (-180), greatest := some 150, sum := -9876, outCount := 1, guardCount := 14 } := by decide
theorem test_split_second_part :
    demoStat.second 8000 14000 =
      { valid := 594, least := some (-180), greatest := some 150, sum := -7407, outCount := 2, guardCount := 11 } := by decide
theorem test_split_scans_and_temperature :
    let s : Stats := { scans := 1400, tempSum := 714560, feats := [] }
    ((s.first 8000 14000).scans, (s.first 8000 14000).tempSum) = (800, 408320) ∧
      ((s.second 8000 14000).scans, (s.second 8000 14000).tempSum) = (600, 306240) := by decide
theorem test_mean_rounds_half_away : demoStat.mean = some (-12) ∧ FeatStat.mean { valid := 17842, sum := -103306 } = some (-6) := by decide

/-- The open segment of the example of a zone between two scans. -/
def demoBody8 : SegBody := { start := 600000, dim := .sound, overlay := none, index := 0, edition := 3 }

/-- Strand 4 of that example (here strand 2, which the station holds): the manual zone [600,120, 600,150) lies ahead. -/
def demoZoned : StrandState :=
  { track := .tracking, recipe := some 0
    map := { cur := some demoBody8, frontier := 600100, nose := some 600000 }
    fore := { zones := [{ start := 600120, stop := 600150, cls := .manual, origin := .order, note := 0, phase := .ahead }] } }

theorem test_zone_between_two_scans :
    let m := (demoZoned.advanceMap demoEnv .s2 600180 none).map
    m.closed.map (fun g => (g.body.start, g.stop, g.body.cls)) = [(600000, 600120, .sound), (600120, 600150, .manual)] ∧
      m.cur.map (fun b => (b.start, b.cls)) = some (600150, .sound) := by decide

/-! ## Chapter 9: spans and verdicts (the worked piece) -/

/-- A segment of the worked piece, with the minimum and maximum of its feature. -/
def demoSegment (a b : Nat) (zone : Option ZoneClass) (least greatest : Int) : Segment :=
  { body := { start := a, dim := .sound, overlay := zone, index := 0, edition := 3,
              stats := { feats := [{ valid := 1, least := some least, greatest := some greatest }] } }
    stop := b }

/-- The five segments of the worked piece. -/
def demoSegments : List Segment :=
  [demoSegment 280000 430000 none (-210) 190, demoSegment 430000 431000 (some .stopMark) (-60) 10,
   demoSegment 431000 440000 none (-120) 240, demoSegment 440000 452000 (some .weld) (-40) 320,
   demoSegment 452000 460000 none (-180) 150]

theorem test_clean_spans_and_keep_list :
    cleanSpans false none demoSegments = [(280000, 430000), (431000, 440000), (452000, 460000)] ∧
      keepList 60000 (cleanSpans false none demoSegments) = [(280000, 430000)] := by decide
theorem test_worst_excursions :
    demoSegments.map (fun g => (worstFrom 1 (0, 0) [{ lower := 250, upper := 300 }] g.body.stats.feats).2) =
      [840, 240, 800, 1067, 720] := by decide
theorem test_four_longest_spans_are_kept :
    keepList 10 [(0, 30), (40, 60), (70, 90), (100, 120), (130, 170)] = [(0, 30), (40, 60), (70, 90), (130, 170)] := by decide
theorem test_verdicts :
    verdictOf false [(0, 1)] = .accept ∧ verdictOf false [] = .short ∧ verdictOf true [(0, 1)] = .trim ∧ verdictOf true [] = .reject := by
  decide

/-! ## Chapter 10: mark queues (the worked cases) -/

theorem test_close_marks_join :
    placeInterval 1500 [⟨125000, some 126000, 0⟩] ⟨127000, some 130000, 0⟩ = [⟨125000, some 130000, 0⟩] := by decide
theorem test_open_join_holds_a_floor :
    placeInterval 1500 [⟨125000, some 130000, 0⟩] ⟨131200, none, 0⟩ = [⟨125000, none, 130000⟩] := by decide
theorem test_map_off_closes_at_the_floor : closeInterval 131800 111820 ⟨125000, none, 130000⟩ = some ⟨125000, some 131800, 0⟩ := by decide
/-- The 9th and 10th of a full queue. -/
theorem test_full_queue_merges_with_the_nearer :
    mergeInterval [⟨500000, some 501000, 0⟩, ⟨530000, some 531000, 0⟩] ⟨510000, some 512000, 0⟩ =
      [⟨500000, some 512000, 0⟩, ⟨530000, some 531000, 0⟩] ∧
    mergeInterval [⟨500000, some 501000, 0⟩, ⟨530000, some 531000, 0⟩] ⟨525000, some 527000, 0⟩ =
      [⟨500000, some 501000, 0⟩, ⟨525000, some 531000, 0⟩] := by decide

/-! ## Chapters 11 and 12: lengths -/

/-- A PIECE record with 24 features, 20 segments and one keep span has 1,080 bytes (the example of a backlog). -/
theorem test_piece_length : 48 + 8 * 1 + 16 * 24 + 32 * 20 = 1080 ∧
    Record.length (.incident { kind := .stale, strand := none, code := 0, coordinate := 0, detail := 0, time := 0#32 }) = 32 := by decide

/-! ## States of the examples -/

/-- The part ready, with the station and recipes of the examples. -/
def readyPart : State := { xp := { phase := .ready }, run := { station := some demoStation, store := demoStore } }

/-- Strand 1 TRACKING at 812,000 with nose 1,240, MOVING, high-water coordinate 812,400. -/
def demoTracking : StrandState :=
  { track := .tracking, recipe := some 0, lastMaterial := 812000
    chan := { acc := 81240000000, hw := 812400, motion := .moving }
    map := { cur := some { start := 1240, dim := .sound, overlay := none, index := 0, edition := 3 }, frontier := 812000,
             nose := some 1240 }
    cuts := { lastCut := some 1240 } }

/-- A pending cut at a coordinate. -/
def demoCut (coord : Nat) : PendingCut :=
  { coord := coord, isFinal := false, joined := false, copy := verdictCopy demoEnv demoTracking, place := .none, segs := 0 }

/-- Strand 1 TAILED at 812,000. -/
def demoTailed : StrandState :=
  { demoTracking with track := .tailed, map := { demoTracking.map with cur := none, tail := some 812000 } }

/-- The run is ACTIVE on strands 1 and 2: strand 1 TRACKING, strand 2 WAITING. -/
def activePart : State :=
  { readyPart with
    clock := 1000
    run := { readyPart.run with
      state := .active, runId := 7702#32, recipe := some 0, mask := ⟨true, true, false, false⟩ }
    strands := ⟨demoTracking, demoWaiting, {}, {}⟩ }

/-- An order of a kind with its operands, from cell 30. -/
def demoOrder (kind op1 op2 op3 op4 : Nat) : Order :=
  { kind := kind, tag := 5#32, op1 := op1, op2 := op2, op3 := op3, op4 := op4, cell := 30 }

/-- A state with an order in hand. -/
def inHand (s : State) (o : Order) : State := { s with orders := { s.orders with hand := some o } }

theorem inHand_holds (s : State) (o : Order) (h : o.result = none := by rfl) : (inHand s o).holds o o.kind := ⟨rfl, rfl, h⟩

/-- The active run with the blocks of strand 1 as given. -/
def onOne (st : StrandState) : State := { activePart with strands := { activePart.strands with one := st } }

/-- The station page of the example of a station that fails: strand 2's stop speed is `stop2`; strands 3 and 4 hold leftovers. -/
def stationPage (stop2 : Nat) : Memory :=
  Memory.write [] stationBase
    (leBytes 2 8 ++ leBytes 2 5 ++ leBytes 2 400 ++ leBytes 2 2000 ++ leBytes 8 0 ++ leBytes 8 0 ++ leBytes 8 0 ++ leBytes 8 0 ++
      leBytes 8 0 ++ leBytes 8 0 ++ leBytes 8 0 ++ (block 300 40 ++ (block 250 stop2 ++ leBytes 8 0x5A00)))
where
  /-- One strand block. -/
  block (start stop : Nat) : List Byte :=
    [1#8, 1#8, 0#8, 2#8] ++ leBytes 4 18500 ++ leBytes 4 60000 ++ leBytes 4 32000 ++ leBytes 4 50000 ++ leBytes 2 start ++
      leBytes 2 stop ++ leBytes 2 40 ++ leBytes 2 420 ++ leBytes 2 560 ++ leBytes 2 20 ++ leBytes 1 2 ++ leBytes 31 0

/-- The example's station fails field 209; corrected, it passes and its absent strands are recorded absent. -/
theorem test_station_checks :
    firstFailing (stationChecks (stationPage 300)) = some 209 ∧ firstFailing (stationChecks (stationPage 40)) = none ∧
      (readStation (stationPage 40)).strands.three = none ∧
      (readStation (stationPage 40)).strands.two.map (·.stopSpeed) = some 40 := by
  decide

/-- Recipe slot 0 with one feature of an upper tolerance. -/
def recipeSlot (upper : Nat) : Memory :=
  Memory.write [] (slotBase 0)
    (leBytes 2 4411 ++ leBytes 2 3 ++ leBytes 32 0 ++ [1#8, 1#8, 3#8, 2#8, 2#8, 0#8, 44#8, 0#8] ++ leBytes 2 2350 ++ leBytes 2 480 ++
      leBytes 4 500 ++ leBytes 4 60000 ++ (leBytes 16 9000 ++ leBytes 16 12000 ++ leBytes 40 0) ++
      (leBytes 4 50000 ++ leBytes 4 250 ++ leBytes 4 upper ++ [80#8, 8#8]))

/-- The slot passes; with an upper tolerance of 0 it fails field 103; an empty page fails its first field. -/
theorem test_recipe_checks :
    firstFailing (recipeChecks (recipeSlot 300) (slotBase 0)) = none ∧
      firstFailing (recipeChecks (recipeSlot 0) (slotBase 0)) = some 103 ∧ firstFailing (stationChecks []) = some 1 := by decide

/-! ## One step each -/

/-- The board of the example of 1.5: cells 2 and 30 POSTED, last-taken 29. -/
def demoBoard : State :=
  { readyPart with
    orders := { attention := true, lastTaken := 29 }
    xp := { readyPart.xp with cells := (readyPart.xp.cells.set 2 .posted).set 30 .posted } }

/-- The search takes 30 first and, after the answer, 2. -/
theorem test_search_wraps :
    demoBoard.postedCell 0 32 = some 30 ∧
    State.postedCell { demoBoard with
      orders := { lastTaken := 30 }, xp := { demoBoard.xp with cells := demoBoard.xp.cells.set 30 .answered } } 0 32 = some 2 := by
  decide

/-- The example of 1.5 before the first search: cell 30 filled with ARM RUN of strand 1, cell 2 POSTED, last-taken 29. -/
def wrapBoard : State :=
  { readyPart with
    orders := { attention := true, lastTaken := 29 }
    xp := { readyPart.xp with
      mem := (Memory.write [] (cellBase 30 + 4) [3#8]).write (cellBase 30 + 16) [1#8]
      cells := readyPart.xp.cells.set 2 .posted } }
/-- The cells 2 and 30, the flag, the order in hand's cell and the last-taken index, as the example's table shows them. -/
def boardRow (s : State) : CellState × CellState × Bool × Option (Fin 32) × Fin 32 :=
  (s.xp.cells.get 2, s.xp.cells.get 30, s.orders.attention, s.orders.hand.map (·.cell), s.orders.lastTaken)
def startedBoard : State := wrapBoard.orderUnit 0 true
def postedBoard : State := State.hostWrite startedBoard (cellBase 30) [1#8, 0#8, 0#8, 0#8]
/-- The rows of the example of 1.5: cell 30 is posted during the search and taken by it, with the flag left set. -/
theorem test_search_takes_what_was_posted_meanwhile :
    boardRow startedBoard = (.posted, .free, false, none, 29) ∧ boardRow postedBoard = (.posted, .posted, true, none, 29) ∧
      boardRow (postedBoard.orderUnit 32 true) = (.posted, .taken, true, some 30, 30) := by decide
/-- Had the search already passed cell 30, it would have taken cell 2 (kind 0, answered BAD_ORDER), with the flag set for the next. -/
theorem test_search_has_passed_the_cell :
    boardRow ((State.hostWrite (wrapBoard.orderUnit 1 true) (cellBase 30) [1#8, 0#8, 0#8, 0#8]).orderUnit 31 true) =
      (.answered, .posted, true, none, 2) := by decide

/-- A restart is not accepted before the end of power-on initialisation (R2). -/
theorem test_restart_ignored_before_ready : exec .restart State.reset = .next State.reset := by rfl
theorem test_idle_step_passes_a_millisecond : step State.reset = .next { State.reset with clock := 1 } := by rfl
/-- Cuts on the gauge side of the nose and below the saw distance are dropped; another is pending at the capture less S. -/
theorem test_cuts_at_the_nose :
    demoTracking.cutBehind demoEnv .s1 .saw 61240 = demoTracking ∧ demoTracking.cutBehind demoEnv .s1 .saw 59999 = demoTracking ∧
      (demoTracking.cutBehind demoEnv .s1 .saw 392000).cuts.pending.map (·.coord) = [332000] := by decide

/-! ## What meets the hypotheses of the statements

One theorem for each statement that has hypotheses, a clause for each of its clauses. -/

/-- Strand and state clauses over all four strands. -/
theorem forStrands {p : Strand → Prop} (h1 : p .s1) (h2 : p .s2) (h3 : p .s3) (h4 : p .s4) (n : Strand) : p n := by
  cases n <;> assumption

theorem meets_EveryCommandCompletes :
    Instr.wellFormed (.exchangeWrite 0x7FFFE [0#8, 0#8]) = true ∧ Config.windowBytes < 0x7FFFF + [0#8, 0#8].length := by decide

theorem meets_ExecKeepsQueueAndClock :
    (∃ t, exec .powerOn State.reset = .next t) ∧ (∃ t, exec .msiEnable readyPart = .next t) ∧ State.reset.pending = [] :=
  ⟨⟨_, rfl⟩, ⟨_, rfl⟩, rfl⟩

theorem meets_PowerOnInitEndMakesReady : State.reset.xp.phase = .initialising := rfl

theorem meets_RestartRegister : readyPart.ready = true ∧ State.reset.ready = false ∧ (0x13C#32 : Word32) ≠ 0x3C#32 := by decide

/-- An order in hand, a FILLING page, an open run. -/
def busyPart : State :=
  { inHand activePart (demoOrder 5 0 0 0 0) with
    report := { fill := some { page := 3, serial := 7#64, count := 2, used := 64, first := 1#32, last := 2#32, linger := some 900 } } }

theorem meets_RestartResetsBlocks :
    busyPart.ready = true ∧ busyPart.orders.hand = some (demoOrder 5 0 0 0 0) ∧ (∃ f, busyPart.report.fill = some f ∧ f.page ≠ 4) ∧
      (29 : Fin 32) ≠ 30 := ⟨rfl, rfl, ⟨_, rfl, by decide⟩, by decide⟩

/-- A part restart with the board of the example. -/
def restartingPart : State := { demoBoard with xp := { demoBoard.xp with phase := .restarting } }

theorem meets_RestartEndMakesReady :
    restartingPart.xp.phase = .restarting ∧ restartingPart.report.shown.restarts ≠ BitVec.allOnes 32 ∧
      ((30 : Fin 32) = Fin.ofNat 32 (restartingPart.orders.lastTaken.val + 1 + 0) ∧ 0 < 1 ∧ restartingPart.xp.cells.get 30 = .posted) ∧
      (∀ j < 32, j < 32 → ({ State.reset with xp := { phase := .restarting } } : State).xp.cells.get
        (Fin.ofNat 32 (State.reset.orders.lastTaken.val + 1 + j)) ≠ .posted) ∧
      ∀ j < 32, j < 0 → restartingPart.xp.cells.get (Fin.ofNat 32 (restartingPart.orders.lastTaken.val + 1 + j)) ≠ .posted := by
  decide

theorem meets_NoticeWrites :
    ({ readyPart with xp := { readyPart.xp with notice := 0x3F#6 } } : State).xp.notice &&& Reason.bit .backlog ≠ 0#6 ∧
      (0x3F#32 : Word32) &&& (Reason.bit .run).zeroExtend 32 ≠ 0#32 := by decide

/-- A read of the middle two bytes of IDENT. -/
theorem test_register_bytes : readyPart.readRegisterBytes .ident 1 2 = [0x04#8, 0x47#8] := by decide
theorem meets_IgnoredRegisterWrites : 3 + 1 ≤ 4 ∧ 0 + 4 ≤ 4 := by decide

theorem meets_OneMessagePerRise :
    Instr.noticeMaskWrite 0x3F#32 ≠ .powerOn ∧ (∃ t, exec (.noticeMaskWrite 0x3F#32) readyPart = .next t) ∧
      (∃ t, exec .restart busyPart = .next t) := ⟨by decide, ⟨_, rfl⟩, ⟨_, rfl⟩⟩

/-- The boundary of each clause: the last byte of the status block, the first and last host-written byte, the first and the last byte of
a cell behind its state word, a state word itself, a write across one, a page's state word and the last byte of the window. -/
theorem meets_WriteClasses :
    ([1#8] : List Byte) ≠ [] ∧ 0xFFF < 0x1000 ∧ (0x2000 ≤ 0x13FFF ∧ 0x13FFF + 1 ≤ 0x14000) ∧
      (4 + 1 ≤ 128 ∧ 0x1004 = cellBase 0 + 4) ∧ (127 + 1 ≤ 128 ∧ 0x1FFF = cellBase 31 + 127) ∧
      (([0#8, 0#8, 0#8, 0#8] : List Byte).length = 4 ∧ 0x1F80 = cellBase 31) ∧
      (0x1082 < cellBase 1 + 4 ∧ cellBase 1 < 0x1082 + 4) ∧ 0x7E000 = pageBase 53 ∧ (0x14000 < 0x7FFFF + 1 ∧ 0x7FFFF + 1 ≤ 0x80000) := by
  decide

theorem meets_AcceptedWriteIsStored :
    readyPart.ready = true ∧ 0x1000 + 4 ≤ Config.windowBytes ∧ readyPart.xp.acceptsAll (cellBase 0) [1#8, 0#8, 0#8, 0#8] = true ∧
      readyPart.xp.acceptsAll 0x13FFF [7#8] = true := by decide

theorem meets_RefusedWriteStoresNothing :
    readyPart.ready = true ∧ 0x7FFFF + 1 ≤ Config.windowBytes ∧ readyPart.xp.acceptsAll 0x7FFFF [7#8] = false ∧
      readyPart.xp.acceptsAll 0 [7#8] = false := by decide
theorem meets_RefusedWriteStoresNothing_status : StatusAgrees readyPart := by unfold StatusAgrees; decide +kernel

theorem meets_WritesDroppedWhileNotReady : State.reset.readRegister .ident = 0#32 ∧ 0x2000 + 1 ≤ Config.windowBytes := by decide

theorem meets_StateWordWrites :
    readyPart.ready = true ∧ readyPart.xp.cells.get 31 = .free ∧
      ({ readyPart.xp with cells := readyPart.xp.cells.set 0 .answered } : ExchangePort).cells.get 0 = .answered ∧
      ({ readyPart.xp with pages := readyPart.xp.pages.set 53 .closed } : ExchangePort).pages.get 53 = .closed := by decide

theorem meets_SearchTakesPostedCell :
    demoBoard.ready = true ∧ demoBoard.orders.hand = none ∧ demoBoard.orders.search = none ∧ demoBoard.orders.attention = true ∧
      (30 : Fin 32) = Fin.ofNat 32 (demoBoard.orders.lastTaken.val + 1 + 0) ∧ demoBoard.xp.cells.get 30 = .posted ∧
      (State.reset.ready = false ∧ busyPart.orders.hand = some (demoOrder 5 0 0 0 0) ∧ (demoOrder 5 0 0 0 0).result = none) ∧
      (readyPart.orders.search = none ∧ readyPart.orders.searchDue = false ∧ readyPart.orders.attention = false) := by decide
/-- A search under way whose last cell, the one taken last, is POSTED, and no other before it: the last cell it looks at of 32, and the
first it does not look at of 31. -/
theorem meets_SearchTakesPostedCell_last :
    let s : State := { readyPart with
      orders := { search := some 5, lastTaken := 29 }, xp := { readyPart.xp with cells := readyPart.xp.cells.set 29 .posted } }
    s.ready = true ∧ s.orders.hand = none ∧ s.orders.search = some 5 ∧ 31 < 5 + 27 ∧
      (29 : Fin 32) = Fin.ofNat 32 (s.orders.lastTaken.val + 1 + 31) ∧ s.xp.cells.get 29 = .posted ∧
      (∀ j < 31, 5 ≤ j → s.xp.cells.get (Fin.ofNat 32 (s.orders.lastTaken.val + 1 + j)) ≠ .posted) ∧
      ∀ j < 32, 5 ≤ j → j < 5 + 26 → s.xp.cells.get (Fin.ofNat 32 (s.orders.lastTaken.val + 1 + j)) ≠ .posted := by decide
/-- A search after an answer of an empty board, over all its cells. -/
theorem meets_SearchTakesPostedCell_none :
    let s : State := { readyPart with orders := { searchDue := true, attention := true } }
    s.ready = true ∧ s.orders.hand = none ∧ s.orders.search = none ∧ s.orders.searchDue = true ∧
      ∀ j < 32, s.xp.cells.get (Fin.ofNat 32 (s.orders.lastTaken.val + 1 + j)) ≠ .posted := by decide

theorem meets_OrderUnitChecks :
    ((demoOrder 0 0 0 0 0).kind = 0 ∧ 9 < (demoOrder 10 0 0 0 0).kind) ∧ (demoOrder 6 0 0 0 0).kind = 6 ∧
      (demoOrder 4 8 0 0 0).kind = 4 ∧ (demoOrder 3 7 15 0 0).kind = 3 ∧ (demoOrder 7 4 4000000000 1 0).kind = 7 ∧
      (demoOrder 8 15 0 0 0).kind = 8 ∧ (demoOrder 9 4 3 0 0).kind = 9 := by decide

theorem meets_AnswerWritesCell : (⟨13, 0⟩ : Answer).result < 4294967296 ∧ (⟨7, 415⟩ : Answer).detail < 4294967296 := by decide
/-- An ARM RUN with the slot empty, an ADD ZONE with it full, and an order whose result is known. -/
theorem meets_AnswerWritesCell_effect :
    (inHand readyPart (demoOrder 3 0 3 7702 0)).holds (demoOrder 3 0 3 7702 0) 3 ∧ readyPart.run.slot = none ∧
      (inHand activePart (demoOrder 7 1 811000 2000 9)).holds (demoOrder 7 1 811000 2000 9) 7 ∧
      let o : Order := { demoOrder 1 0 0 0 0 with result := some ⟨0, 0⟩ }
      (inHand readyPart o).orders.hand = some o ∧ o.result = some ⟨0, 0⟩ ∧ (inHand readyPart o).ready = true ∧
        (inHand readyPart (demoOrder 2 7 0 0 0)).holds (demoOrder 2 7 0 0 0) 2 :=
  ⟨inHand_holds _ _, rfl, inHand_holds _ _, rfl, rfl, rfl, inHand_holds _ _⟩

/-- The part with a station page in its memory. -/
def stationPart (stop2 : Nat) : State := { readyPart with xp := { readyPart.xp with mem := stationPage stop2 } }

theorem meets_SetStationAdopts :
    (inHand (stationPart 40) (demoOrder 1 0 0 0 0)).holds (demoOrder 1 0 0 0 0) 1 ∧ activePart.run.state ≠ .idle ∧
      (stationPart 40).run.state = .idle ∧ firstFailing (stationChecks (stationPart 300).xp.mem) = some 209 ∧
      firstFailing (stationChecks (stationPart 40).xp.mem) = none ∧ (stationPart 40).report.fill = none ∧ (stationPart 40).ready = true ∧
      0 < (readStation (stationPage 40)).linger :=
  ⟨inHand_holds _ _, by decide, rfl, by decide, by decide, rfl, rfl, by decide⟩

/-- A SET STATION and an ADOPT RECIPE cut off by a restart after their effect (R24, R31): the adoption and the entry stand, the answer is
ABORTED. -/
theorem test_cut_off_after_its_effect :
    let s := inHand (stationPart 40) (demoOrder 1 0 0 0 0)
    let a := (s.carryOut false 1 setStation).restart
    let r := ((inHand readyPart (demoOrder 2 0 0 0 0)).carryOut false 2 adoptRecipe).restart
    (a.run.station = some (readStation (stationPage 40)) ∧ a.xp.cells.get 30 = .answered ∧ a.xp.mem.rd32 (cellBase 30 + 64) = 13) ∧
      readyPart.run.store.get 0 = some demoRecipe ∧ r.run.store.get 0 = none ∧ r.xp.mem.rd32 (cellBase 30 + 64) = 13 := by
  decide +kernel

/-- A station page with page linger 0 passes too. -/
theorem meets_SetStationAdopts_linger :
    let m := (stationPage 40).write (stationBase + 4) [0#8, 0#8]
    firstFailing (stationChecks m) = none ∧ (readStation m).linger = 0 := by decide

theorem meets_AdoptRecipeFillsEntry :
    (inHand readyPart (demoOrder 2 7 0 0 0)).holds (demoOrder 2 7 0 0 0) 2 ∧ activePart.pinned (entryOf 0) = true ∧
      readyPart.pinned (entryOf 7) = false ∧
      firstFailing (recipeChecks (recipeSlot 0) (slotBase (entryOf 0).val)) = some 103 ∧
      firstFailing (recipeChecks (recipeSlot 300) (slotBase (entryOf 0).val)) = none :=
  ⟨inHand_holds _ _, by decide, by decide, by decide, by decide⟩

theorem meets_PinnedEntryKept :
    Instr.adoptRecipe ≠ .powerOn ∧ (inHand activePart (demoOrder 2 0 0 0 0)).pinned 0 = true ∧
      ∃ t, exec .adoptRecipe (inHand activePart (demoOrder 2 0 0 0 0)) = .next t := ⟨by decide, by decide, ⟨_, rfl⟩⟩

theorem meets_ArmRunOpensRun :
    let s := inHand readyPart (demoOrder 3 0 3 7702 0)
    s.holds (demoOrder 3 0 3 7702 0) 3 ∧ s.run.slot = none ∧ s.run.station.isSome = true ∧ s.run.state = .idle ∧
      s.run.store.get (entryOf 0) = some demoRecipe ∧
      (∀ n, (maskOf 3).get n = true → (s.env.strand n).isSome = true ∧ n.num ≤ demoRecipe.holes.length) ∧
      (maskOf 3).get .s2 = true ∧ (maskOf 3).get .s3 = false :=
  ⟨inHand_holds _ _, rfl, rfl, rfl, rfl, forStrands (by decide) (by decide) (by decide) (by decide), rfl, rfl⟩
/-- An entry of strand 1, which the mask names, in service as the run opens, and one of strand 3, which it does not. -/
theorem meets_ArmRunOpensRun_service :
    let s := { inHand readyPart (demoOrder 3 0 3 7702 0) with service := some { port := .s1, entry := .notice } }
    s.holds (demoOrder 3 0 3 7702 0) 3 ∧ s.service = some { port := .s1, entry := .notice } ∧ (maskOf 3).get .s1 = true ∧
      (maskOf 3).get .s3 = false ∧ (inHand readyPart (demoOrder 3 0 3 7702 0)).service = none := ⟨⟨rfl, rfl, rfl⟩, rfl, rfl, rfl, rfl⟩

/-- A RUN record in the slot. -/
def demoRunRecord (event : RunEvent) : RunRecord :=
  { event := event, index := 0, recipeId := 4411, edition := 3, mask := ⟨true, true, false, false⟩, runId := 7702#32, billets := 1,
    time := 1#32, strands := Four.build (fun _ => { nose := none, frontier := 0, pieces := 0 }) }

/-- An open run whose slot is full. -/
def slotFull (s : State) (event : RunEvent) : State := { s with run := { s.run with slot := some (demoRunRecord event) } }

theorem meets_ArmRunRefusedOrWaits :
    (inHand State.reset (demoOrder 3 0 1 0 0)).holds (demoOrder 3 0 1 0 0) 3 ∧ State.reset.run.slot = none ∧
      State.reset.run.station = none ∧ (activePart.run.station.isSome = true ∧ activePart.run.state ≠ .idle) ∧
      (readyPart.run.state = .idle ∧ readyPart.run.store.get (entryOf 7) = none) ∧
      ((maskOf 4).get .s3 = true ∧ readyPart.env.strand .s3 = none) ∧
      ((maskOf 2).get .s2 = true ∧ readyPart.run.store.get (entryOf 2) = some { demoRecipe with holes := [] }) ∧
      (slotFull activePart .opened).run.slot.isSome = true ∧
      (inHand (slotFull activePart .opened) (demoOrder 6 0 0 0 0)).holds (demoOrder 6 0 0 0 0) 6 :=
  ⟨inHand_holds _ _, rfl, rfl, by decide, by decide, by decide, by decide, rfl, inHand_holds _ _⟩

/-- The run FINISHING, its strands OFF. -/
def finishingPart : State :=
  { activePart with
    run := { activePart.run with state := .finishing }
    strands := ⟨{ demoTracking with track := .off }, { demoWaiting with track := .off }, {}, {}⟩ }

theorem meets_RunOrdersByState :
    (readyPart.run.state = .idle ∧ readyPart.run.slot = none) ∧ finishingPart.run.state = .finishing ∧
      (inHand readyPart (demoOrder 6 0 0 0 0)).holds (demoOrder 6 0 0 0 0) 6 ∧
      (inHand finishingPart (demoOrder 8 15 0 0 0)).holds (demoOrder 8 15 0 0 0) 8 :=
  ⟨⟨rfl, rfl⟩, rfl, inHand_holds _ _, inHand_holds _ _⟩

theorem meets_AmendRunStages :
    (inHand activePart (demoOrder 4 1 0 0 0)).holds (demoOrder 4 1 0 0 0) 4 ∧ activePart.run.state = .active ∧
      activePart.run.recipe = some 0 ∧ activePart.run.store.get 0 = some demoRecipe ∧
      activePart.run.store.get (entryOf 7) = none ∧ (activePart.run.store.get (entryOf 1)).map (·.edition) = some 4 ∧
      (activePart.run.store.get (entryOf 2)).map (·.holes) = some [] :=
  ⟨inHand_holds _ _, rfl, rfl, rfl, by decide, by decide, by decide⟩

theorem meets_EndRunCloses :
    (inHand activePart (demoOrder 5 0 0 0 0)).holds (demoOrder 5 0 0 0 0) 5 ∧ activePart.run.state = .active ∧
      activePart.inMask .s3 = false ∧ activePart.inMask .s1 = true ∧ (activePart.strand .s1).track = .tracking ∧
      (∃ w, demoTracking.cuts.newest = some w ∧ w < demoTracking.map.frontier) :=
  ⟨inHand_holds _ _, rfl, rfl, rfl, rfl, 1240, by decide, by decide⟩

/-- The premises on a TRACKING strand: an open segment, its newest cut at the frontier, and the segment that closes right behind the
cut's own. -/
theorem meets_EndRunCloses_tracking :
    let st : StrandState := { demoTracking with cuts := { demoTracking.cuts with pending := [demoCut 812000] } }
    (onOne st).inMask .s1 = true ∧ st.OpenAgrees ∧ st.track = .tracking ∧ (∃ b, st.map.cur = some b) ∧
      (∃ w, st.cuts.newest = some w ∧ st.map.frontier ≤ w) ∧
      ((∃ p, st.cuts.pending.getLast? = some p ∧ st.map.frontier ≤ p.coord) ∧ heldSegs st.cuts.pending = st.map.closed.length) :=
  ⟨rfl, by simp [StrandState.OpenAgrees, demoTracking], rfl, ⟨_, rfl⟩, ⟨812000, rfl, by decide⟩, ⟨_, rfl, by decide⟩, by decide⟩

/-- A TAILED strand, whose final cut is a new one, and a WAITING one. -/
theorem meets_EndRunCloses_tailed :
    demoTailed.track = .tailed ∧ demoTailed.OpenAgrees ∧ (∀ g ∈ demoTailed.map.closed, g.stop ≤ demoTailed.map.frontier) ∧
      demoTailed.map.cur = none ∧ demoTailed.cuts.pending.length < 4 ∧
      (¬ ∃ w, demoTailed.cuts.newest = some w ∧ demoTailed.map.frontier ≤ w) ∧ demoWaiting.track = .waiting := by
  refine ⟨rfl, by simp [StrandState.OpenAgrees, demoTailed], fun g h => (by cases h), rfl, by decide, ?_, rfl⟩
  rintro ⟨w, h, hw⟩
  cases h
  revert hw
  decide

/-- A segment of no length at the newest cut closes into that cut's piece (R139). -/
theorem test_segment_of_no_length_joins_the_newest_cut :
    let st : StrandState := { demoTracking with
      map := { demoTracking.map with closed := [demoSegment 1240 812000 none 0 0], cur := some { demoBody8 with start := 812000 } }
      cuts := { demoTracking.cuts with pending := [{ demoCut 812000 with segs := 1 }] } }
    (st.endRun demoEnv .s1).cuts.pending.map (fun p => (p.segs, p.isFinal)) = [(2, true)] := by decide

theorem meets_AbandonRunDrops_record : activePart.run.recipe = some 0 ∧ activePart.run.store.get 0 = some demoRecipe := ⟨rfl, rfl⟩

theorem meets_AbandonRunDrops :
    (inHand activePart (demoOrder 6 0 0 0 0)).holds (demoOrder 6 0 0 0 0) 6 ∧ activePart.run.slot = none ∧
      activePart.run.state ≠ .idle ∧ activePart.inMask .s4 = false ∧ activePart.inMask .s2 = true :=
  ⟨inHand_holds _ _, rfl, by decide, rfl, rfl⟩

theorem meets_SlotRecordsFormed_recipe : finishingPart.run.recipe = some 0 ∧ finishingPart.run.store.get 0 = some demoRecipe :=
  ⟨rfl, rfl⟩

/-- The active run with a switch-over that waits. -/
def switchWaits : State := { activePart with run := { activePart.run with waitingSwitch := some 1 } }

theorem meets_SlotRecordsFormed :
    switchWaits.run.slot = none ∧ switchWaits.run.waitingSwitch = some 1 ∧ (switchWaits.run.store.get 1).isSome = true ∧
      finishingPart.run.slot = none ∧ finishingPart.run.state = .finishing ∧ finishingPart.run.waitingSwitch = none ∧
      (∀ n, finishingPart.inMask n = true → (finishingPart.strand n).cuts.pending = []) :=
  ⟨rfl, rfl, by decide, rfl, rfl, rfl, forStrands (fun _ => rfl) (fun _ => rfl) (fun _ => rfl) (fun _ => rfl)⟩

theorem meets_RunRecordEnters :
    let s := slotFull finishingPart .closed
    let a := slotFull activePart .opened
    (s.run.slot = some (demoRunRecord .closed) ∧ s.run.waitingSwitch = none ∧ s.orders.hand = none ∧ s.report.queue.length < 8) ∧
      ((demoRunRecord .opened).event ≠ .closed ∧ a.run.slot = some (demoRunRecord .opened)) ∧
      ((inHand a { demoOrder 6 0 0 0 0 with waiting := true }).holds { demoOrder 6 0 0 0 0 with waiting := true } 6 ∧
        a.run.state ≠ .idle) ∧
      ((slotFull switchWaits .opened).run.waitingSwitch = some 1 ∧ (slotFull switchWaits .opened).orders.hand = none) :=
  ⟨by decide, by decide, ⟨⟨rfl, rfl, rfl⟩, by decide⟩, by decide⟩
/-- A waiting ARM_RUN behind a record CLOSED, and behind another. -/
theorem meets_RunRecordEnters_arm :
    let o : Order := { demoOrder 3 0 3 7702 0 with waiting := true }
    let s := inHand (slotFull finishingPart .closed) o
    let a := inHand (slotFull activePart .opened) o
    (s.run.slot = some (demoRunRecord .closed) ∧ s.report.queue.length < 8 ∧ s.run.waitingSwitch = none ∧ s.holds o 3 ∧
      o.waiting = true ∧ s.run.state ≠ .idle) ∧
      a.run.slot = some (demoRunRecord .opened) ∧ (demoRunRecord .opened).event ≠ .closed ∧ a.holds o 3 :=
  ⟨⟨rfl, by decide, rfl, ⟨rfl, rfl, rfl⟩, rfl, by decide⟩, rfl, by decide, rfl, rfl, rfl⟩

theorem meets_AddZoneEnters :
    (inHand activePart (demoOrder 7 1 811000 2000 9)).holds (demoOrder 7 1 811000 2000 9) 7 ∧ activePart.run.state = .active ∧
      (demoOrder 7 1 811000 2000 9).op1 = Strand.s1.num ∧ activePart.inMask .s3 = false ∧
      811000 + 1000 ≤ (activePart.strand .s1).map.frontier ∧ ¬ 811000 + 1001 ≤ (activePart.strand .s1).map.frontier ∧
      (activePart.strand .s1).fore.zones.length < 8 := ⟨inHand_holds _ _, by decide⟩

/-- The active run with a qualified saw on its way: a capture of strand 1. -/
def sawComes : State := { activePart with sawMail := [⟨some 812400, none, none, none⟩] }

theorem meets_SawAndSoftCuts :
    (inHand activePart (demoOrder 8 3 0 0 0)).holds (demoOrder 8 3 0 0 0) 8 ∧ activePart.run.state = .active ∧
      ((maskOf 4).get .s3 = true ∧ activePart.inMask .s3 = false) ∧
      (∀ n, (maskOf 3).get n = true → activePart.inMask n = true) ∧
      sawComes.sawMail = [⟨some 812400, none, none, none⟩] ∧
      ({ finishingPart with sawMail := sawComes.sawMail } : State).run.state = .finishing :=
  ⟨inHand_holds _ _, rfl, by decide, forStrands (by decide) (by decide) (by decide) (by decide), rfl, rfl⟩
/-- Strand 1 with a pending switch that the cut at its high-water coordinate less S passes: 840,000 lies beyond the frontier. -/
def demoSwitching : StrandState :=
  { demoTracking with switch := some { entry := 1, coord := 840000 }, chan := { demoTracking.chan with hw := 900000 } }

theorem meets_SawAndSoftCuts_switch :
    (∃ n, ((onOne demoSwitching).strand n).switch.isSome = true) ∧
      (∀ n w, ((onOne demoSwitching).strand n).switch = some w → w.entry = 1) ∧
      (demoSwitching.cutBehind demoEnv .s1 .soft demoSwitching.chan.hw).switch = none ∧
      (demoSwitching.cutBehind demoEnv .s1 .soft 899999).switch.isSome = true ∧ (onOne demoSwitching).run.slot = none ∧
      (slotFull (onOne demoSwitching) .opened).run.slot.isSome = true :=
  ⟨⟨.s1, rfl⟩, forStrands (fun w h => by cases h; rfl) (fun w h => by cases h) (fun w h => by cases h) (fun w h => by cases h),
    by decide, by decide, rfl, rfl⟩

theorem meets_ForceMarkerSets :
    (inHand readyPart (demoOrder 9 1 3 0 0)).holds (demoOrder 9 1 3 0 0) 9 ∧ (demoOrder 9 1 3 0 0).op1 = Strand.s1.num ∧
      readyPart.env.marker .s1 = some 32000 ∧ readyPart.env.marker .s2 = none := ⟨inHand_holds _ _, by decide⟩

theorem meets_EncoderEdgeCounts :
    State.reset.ready = false ∧ (readyPart.ready = true ∧ readyPart.env.strand .s3 = none) ∧ activePart.ready = true ∧
      activePart.env.strand .s1 = some demoStrand ∧ edgeDirection demoStrand.mode false false true true = none ∧
      edgeDirection demoStrand.mode false false true false = some true ∧ edgeDirection demoStrand.mode false false false true = some false := by
  decide

theorem meets_SpeedWindowJudged :
    activePart.ready = true ∧ (activePart.strand .s1).chan.windowStart + 10 ≤ activePart.clock ∧
      ({ activePart with clock := 10 } : State).clock = (activePart.strand .s1).chan.windowStart + 10 ∧
      ¬ ((activePart.strand .s1).chan.windowStart + 10 ≤ ({ activePart with clock := 9 } : State).clock) := by decide
/-- A TRACKING strand with a LAPSED stale timer at its second fast window. -/
theorem meets_SpeedWindowJudged_lapsed :
    let c : Channel := { motion := .halted, startCount := 1, windowSum := 1000000 }
    let st : StrandState := { demoTracking with chan := c, port := { stale := .lapsed } }
    c.motion ≠ .moving ∧ (c.endWindow demoEnv .s1).motion = .moving ∧ st.track = .tracking ∧ st.port.stale = .lapsed := by decide

/-- Strand 1 of the active run with a stop dwell from 960 ms. -/
def dwellRuns (clock : Nat) : State :=
  { activePart with
    clock := clock
    strands := { activePart.strands with
      one := { demoTracking with chan := { demoTracking.chan with dwell := some 960, stopCapture := some 812300 } } } }

theorem meets_StopDwellExpires :
    (((dwellRuns 1000).strand .s1).chan.dwell = some 960 ∧ 960 + (dwellRuns 1000).env.stopDwell .s1 = (dwellRuns 1000).clock) ∧
      (dwellRuns 999).clock < 960 + (dwellRuns 999).env.stopDwell .s1 := by decide

/-- The active run with the SEAM qualifier TIMING until 1,008 ms, or HELD. -/
def seamIn (q : QualState) (clock : Nat) : State :=
  { activePart with
    clock := clock
    inputs := { seam := { active := true, state := q, latches := ⟨some 812400, some 0, none, none⟩ } } }

theorem meets_QualifierEvents :
    (activePart.ready = true ∧ (activePart.inputs.get .saw).state = .quiet ∧ activePart.run.state = .active) ∧
      finishingPart.run.state = .finishing ∧ (State.reset.ready = false ∧ ((seamIn .held 0).inputs.get .seam).state ≠ .quiet) ∧
      (((seamIn (.timing 1008) 1008).inputs.get .seam).state = .timing 1008 ∧ 1008 ≤ (seamIn (.timing 1008) 1008).clock) ∧
      (seamIn (.timing 1008) 1007).clock < 1008 ∧ ((seamIn .held 0).inputs.get .seam).state = .held := by decide

/-- The active run with a staged amendment and a qualified seam on its way. -/
def seamComes (staged : Option (Fin 8)) : State :=
  { activePart with
    run := { activePart.run with staged := staged }
    seamMail := [⟨some 812400, some 0, none, none⟩] }

theorem meets_QualifiedSeamCounts :
    (seamComes none).seamMail = [⟨some 812400, some 0, none, none⟩] ∧ (seamComes none).run.state = .active ∧
      (seamComes none).run.staged = none ∧ (seamComes (some 1)).run.staged = some 1 ∧
      (∀ n, ((seamComes (some 1)).strand n).switch = none) ∧ (seamComes (some 1)).inMask .s4 = false ∧
      (seamComes (some 1)).inMask .s1 = true ∧ (seamComes (some 1)).run.slot = none :=
  ⟨rfl, rfl, rfl, rfl, forStrands rfl rfl rfl rfl, rfl, rfl, rfl⟩
/-- Every run strand TAILED, the slot empty and full. -/
theorem meets_QualifiedSeamCounts_tailed :
    let s : State := { seamComes (some 1) with strands := ⟨demoTailed, { demoTailed with recipe := some 0 }, {}, {}⟩ }
    (∀ n, (s.strand n).switch = none) ∧ (∀ n, s.inMask n = true → (s.strand n).track = .tailed) ∧ s.run.staged = some 1 ∧
      s.run.slot = none ∧ (slotFull s .opened).run.slot.isSome = true :=
  ⟨forStrands rfl rfl rfl rfl, forStrands (fun _ => rfl) (fun _ => rfl) (fun h => by cases h) (fun h => by cases h), rfl, rfl, rfl⟩
/-- A seam that reaches the run controller after END RUN. -/
theorem meets_QualifiedSeamCounts_ended :
    let s : State := { finishingPart with seamMail := [⟨some 812400, none, none, none⟩] }
    s.seamMail = ⟨some 812400, none, none, none⟩ :: [] ∧ s.run.state = .finishing ∧ readyPart.run.state = .idle := ⟨rfl, rfl, rfl⟩

/-- A zone of the merge example and a full list. -/
def demoZone (start stop : Nat) : Zone :=
  { start := start, stop := stop, cls := .stopMark, origin := .stop, note := 0, phase := .ahead }

theorem meets_AutomaticZone :
    4000000000 ≤ 4000000000 ∧ min 812000 4000000000 ≤ demoTracking.map.frontier ∧
      (3999999999 < 4000000000 ∧ demoTracking.map.frontier < min 4000005000 4000000000 ∧ demoTracking.fore.zones.length < 8) ∧
      ({ demoTracking with fore := { zones := List.replicate 8 (demoZone 900000 901000) } } : StrandState).fore.zones.length = 8 := by
  decide
/-- A full list of eight and a zone of equal gaps in its midst: every zone of `pre` starts at or below it, the head of `post` above. -/
theorem meets_AutomaticZone_full :
    let pre := [demoZone 900000 901000, demoZone 910000 911000, demoZone 920000 921000, demoZone 930000 931000]
    let post := [demoZone 940000 941000, demoZone 950000 951000, demoZone 960000 961000, demoZone 970000 971000]
    (pre ++ post).length = 8 ∧ (∀ y ∈ pre, y.start ≤ 935000) ∧ (∀ y, post.head? = some y → 935000 < y.start) ∧
      (935000 - 931000 ≤ 940000 - 936000 ∧ ¬ 935000 - 931000 ≤ 940000 - 936001) := by decide

theorem meets_LineForecasts :
    ({ activePart with grantMail := [⟨some ⟨812400, 0⟩, none, none, none⟩] } : State).grantMail = [⟨some ⟨812400, 0⟩, none, none, none⟩] ∧
      ({ demoTracking with stopMail := [812300] } : StrandState).stopMail = [812300] := ⟨rfl, rfl⟩

theorem meets_CutJudged :
    (CutSource.saw = .saw ∨ CutSource.saw = .soft) ∧ 59999 < demoEnv.saw .s1 ∧ (demoEnv.saw .s1 + 1240 = 61240 ∧ demoTracking.map.nose = some 1240 ∧ 1240 ≤ 1240) ∧
      demoWaiting.map.nose = none ∧
      (1240 < 1241 ∧ ({ demoTracking with cuts := { demoTracking.cuts with pending := [demoCut 1241] } } : StrandState).cuts.newest = some 1241) ∧
      (demoTailed.track = .tailed ∧ demoTailed.map.tail = some 812000 ∧
        ({ demoTailed with cuts := { demoTailed.cuts with pending := [demoCut 812000] } } : StrandState).cuts.newest = some 812000) ∧
      (demoTracking.cuts.newest = some 1240 ∧ ¬ (demoTracking.track = .tailed)) ∧
      ([demoCut 2000, demoCut 3000, demoCut 4000, demoCut 5000].length = 4) := by decide
/-- The places a cut can have: USED beyond the frontier and inside a segment, HELD at the tail, NONE at a segment's start. -/
theorem meets_CutJudged_places :
    (demoTracking.track = .tracking ∧ demoTracking.map.frontier < 812001) ∧
      (demoTailed.track = .tailed ∧ demoTailed.map.tail = some 812000) ∧
      (∃ b, demoTracking.map.cur = some b ∧ b.start < 1241 ∧ 1241 ≤ demoTracking.map.frontier) ∧
      (∃ b, demoTracking.map.cur = some b ∧ ¬ b.start < 1240) ∧ (∃ g ∈ demoSegments, g.body.start < 435000 ∧ 435000 < g.stop) :=
  ⟨by decide, by decide, ⟨_, rfl, by decide⟩, ⟨_, rfl, by decide⟩, by decide⟩

/-- A cut with place USED whose two segments of five follow it, and one followed by the open segment. -/
theorem meets_CutJudged_withdrawn :
    let p : PendingCut := { demoCut 431000 with place := .used, segs := 2 }
    let st : StrandState := { demoTracking with
      map := { demoTracking.map with closed := demoSegments }, cuts := { demoTracking.cuts with pending := [p] } }
    p.place = .used ∧ heldSegs st.cuts.pending = (demoSegments.take 1).length + 1 ∧
      st.map.closed = demoSegments.take 1 ++ demoSegment 430000 431000 (some .stopMark) (-60) 10 ::
        demoSegment 431000 440000 none (-120) 240 :: demoSegments.drop 3 ∧
      demoSegments.take 2 = demoSegments.take 1 ++ [demoSegment 430000 431000 (some .stopMark) (-60) 10] ∧
      st.map.cur.isSome = true := by decide

/-- The premises of a division: inside a closed segment, at the frontier in the open one, and at a segment's start. -/
theorem meets_CutJudged_divided :
    (demoSegments = demoSegments.take 2 ++ demoSegment 431000 440000 none (-120) 240 :: demoSegments.drop 3 ∧
        (∀ y ∈ demoSegments.take 2, y.stop ≤ 435000) ∧ 431000 < 435000 ∧ 435000 < 440000) ∧
      (∀ g ∈ demoSegments, g.stop ≤ 812000) ∧ (∃ b, demoTracking.map.cur = some b ∧ b.start < 812000 ∧ 812000 ≤ demoTracking.map.frontier) ∧
      (∀ g ∈ demoSegments, 431000 ≤ g.body.start ∨ g.stop ≤ 431000) ∧
      (8000 ≤ 14000 ∧ 0 < 14000 ∧ ({ scans := 3, feats := [demoStat] } : Stats).feats[0]? = some demoStat) :=
  ⟨by decide, by decide, ⟨_, rfl, by decide⟩, by decide, by decide⟩

/-- An extension, from an open segment that starts below the frontier with a zone ahead, and from one that starts at it. -/
theorem meets_CutJudged_extended :
    (demoZoned.track = .tracking ∧ demoZoned.map.frontier < 600180 ∧ demoZoned.map.cur = some demoBody8 ∧
      demoBody8.start < demoZoned.map.frontier ∧ demoZoned.map.count + demoZoned.fore.offers.length + 1 < 60 ∧
      600120 ∈ (demoZoned.fore.act demoZoned.map.frontier).offers ∧ 600100 < 600120 ∧ 600120 < 600180) ∧
      (({ demoBody8 with start := 600100 } : SegBody).start = demoZoned.map.frontier ∧ demoBody8.flags.merged = false) := by
  decide

/-- Where a switch's boundary and the gap of an extension fall together on a full map they are refused as one (R129). -/
theorem test_gap_and_switch_are_refused_once :
    let st : StrandState := { demoTracking with
      switch := some { entry := 1, coord := 812000 }
      map := { demoTracking.map with closed := List.replicate 60 (demoSegment 0 1 none 0 0) } }
    (st.extend demoEnv .s1 812500).raised.map (·.kind) = [.mapMerged] := by decide

/-- Port 1 of the active run while a frame is assembled. -/
def assemblingPart : State :=
  { activePart with strands := { activePart.strands with one := { demoTracking with port := { assembling := true } } } }

theorem meets_FramesArrive :
    State.reset.ready = false ∧ (activePart.strand .s1).port.assembling = false ∧ assemblingPart.ready = true ∧
      (assemblingPart.strand .s1).port.assembling = true ∧ frameCheckOk [] = false ∧
      (frameCheckOk demoFrame = true ∧ frameStructureOk demoFrame = true ∧ frameByte demoFrame 0 = Strand.s1.num) ∧
      (assemblingPart.strand .s1).track ≠ .off ∧ (finishingPart.strand .s1).track = .off := by decide +kernel
/-- The one entry of the frame is the first of index 1; no entry carries index 2 or 24. -/
theorem meets_FramesArrive_scan :
    0 < frameByte demoFrame 3 ∧ frameByte demoFrame 6 = 1 ∧ (∀ j, j < frameByte demoFrame 3 → frameByte demoFrame (6 + 4 * j) ≠ 24) := by
  decide

/-- Port 1 of the active run with its stale timer due at 1,000 ms, and a notice in service. -/
def staleDue (clock : Nat) (track : TrackState) : State :=
  { activePart with
    clock := clock
    strands := { activePart.strands with one := { demoTracking with track := track, port := { stale := .running 1000 } } }
    service := some { port := .s1, entry := .notice } }

theorem meets_StaleEvents :
    (((staleDue 1000 .tracking).strand .s1).port.stale = .running 1000 ∧ 1000 ≤ (staleDue 1000 .tracking).clock ∧
      ((staleDue 1000 .tracking).strand .s1).track = .tracking ∧ ((staleDue 1000 .tracking).strand .s1).chan.motion = .moving) ∧
      ((staleDue 1000 .waiting).strand .s1).track ≠ .tracking ∧ (staleDue 999 .tracking).clock < 1000 ∧
      (staleDue 1000 .tracking).service = some { port := .s1, entry := .notice, armed := false } ∧
      ({ staleDue 1000 .tracking with service := some { port := .s1, entry := .notice, armed := true } } : State).service =
        some { port := .s1, entry := .notice, armed := true } := by decide

/-- A scan of strand 1 at a coordinate. -/
def demoScan (stamp : Nat) (material : Bool) : Scan :=
  { stamp := stamp, hw := 812400, seq := 7#8, material := material, laserFault := false, temp := 510, feats := List.replicate 24 (some ⟨50642, 12⟩) }

/-- The active run with strand 1 as given, an entry in the FIFO of its port or a scan in service. -/
def withScan (st : StrandState) (sc : Scan) : State :=
  { activePart with
    strands := { activePart.strands with one := st }
    service := some { port := .s1, entry := .scan sc } }

theorem meets_ArbiterServes :
    (withScan demoTracking (demoScan 812400 true)).service.isSome = true ∧ activePart.service = none ∧
      (∀ n, (activePart.strand n).port.fifo = []) ∧ turnAfter activePart.lastServed = [] ++ .s1 :: [.s2, .s3, .s4] ∧
      turnAfter .s1 = [.s2, .s3, .s4] ++ .s1 :: [] ∧
      ({ demoTracking with port := { fifo := [.notice] } } : StrandState).port.fifo = .notice :: [] :=
  ⟨rfl, rfl, forStrands rfl rfl rfl rfl, rfl, rfl, rfl⟩

theorem meets_ScanDiscarded :
    (withScan { demoTracking with track := .off } (demoScan 812400 true)).service =
        some { port := .s1, entry := .scan (demoScan 812400 true), armed := false } ∧
      ((demoScan 812399 true).stamp < (demoScan 812399 true).hw ∧ demoTracking.track = .tracking ∧ demoTracking.map.cur.isSome = true) ∧
      demoWaiting.track = .waiting ∧ (demoTailed.track = .tailed ∧ (demoScan 812400 false).material = false) := by decide

theorem meets_NoseJudged :
    demoWaiting.track = .waiting ∧ (demoScan 812400 true).hw ≤ 812400 ∧ demoWaiting.map.frontier ≤ 812400 ∧
      (validValues (demoScan 812400 true) (activePart.env.entry (demoWaiting.recipe.getD 0))).any Option.isSome = true ∧
      demoWaiting.map.closed = [] ∧ (demoScan 812400 false).material = false ∧
      (withScan demoWaiting (demoScan 812400 true)).service =
        some { port := .s1, entry := .scan (demoScan 812400 true), armed := false } := by decide
/-- The nose scan passes the last pending switch of the run. -/
theorem meets_NoseJudged_switch :
    let st : StrandState := { demoWaiting with switch := some { entry := 1, coord := 812400 } }
    st.switch = some { entry := 1, coord := 812400 } ∧ (∀ m, m ≠ .s1 → ((withScan st (demoScan 812400 true)).strand m).switch = none) ∧
      (onOne demoSwitching).run.slot = none :=
  ⟨rfl, forStrands (fun h => absurd rfl h) (fun _ => rfl) (fun _ => rfl) (fun _ => rfl), rfl⟩
theorem meets_NoseJudged_forecast : demoWaiting.fore.classBoundary = none := rfl
/-- The example of R121: a nose at 430,700 opens with the overlay of the stop zone [430,000, 431,000). -/
theorem test_nose_inside_a_zone :
    let st : StrandState := { demoWaiting with
      fore := { zones := [{ start := 430000, stop := 431000, cls := .stopMark, origin := .stop, note := 0, phase := .ahead }] } }
    ((st.takeScan demoEnv .s1 { demoScan 430700 true with hw := 430700 }).map.cur.map (fun b => (b.start, b.overlay))) =
        some (430700, some .stopMark) ∧
      (st.takeScan demoEnv .s1 { demoScan 431200 false with hw := 431200 }).fore.zones = [] := by decide

theorem meets_TailAndResumption :
    (withScan demoTracking (demoScan 812400 false)).service =
        some { port := .s1, entry := .scan (demoScan 812400 false), armed := false } ∧
      activePart.env.strand .s1 = some demoStrand ∧ (demoScan 812400 false).hw ≤ 812400 ∧ demoTracking.map.frontier ≤ 812400 ∧
      demoTracking.tailCount + 1 < demoStrand.tailConfirm ∧
      demoStrand.tailConfirm ≤ ({ demoTracking with tailCount := 1 } : StrandState).tailCount + 1 ∧
      demoTracking.map.cur.isSome = true ∧ demoTailed.map.tail = some 812000 ∧ demoTailed.map.count < 60 := by decide
/-- A material scan on a TRACKING strand with nothing offered. -/
theorem meets_TailAndResumption_material :
    demoTracking.track = .tracking ∧ (demoScan 812400 true).material = true ∧
      (∃ b, demoTracking.map.cur = some b ∧ b.start ≤ demoTracking.map.frontier) ∧
      (∀ c, demoTracking.eval.candidate = some c → c.start ≤ demoTracking.map.frontier) ∧
      (∀ a, ¬ demoTracking.Offered 812400 a) ∧ demoTracking.map.count + demoTracking.fore.offers.length + 1 < 60 := by
  refine ⟨rfl, rfl, ⟨_, rfl, by decide⟩, fun c h => (by cases h), ?_, by decide⟩
  rintro a (⟨h, _⟩ | ⟨w, h, _⟩) <;> cases h

/-- One boundary offered, that of a merge at 812,200, and a scan of the confirmed state. -/
theorem meets_TailAndResumption_offered :
    let st : StrandState := { demoTracking with fore := { classBoundary := some 812200 } }
    (∀ a, st.Offered 812400 a ↔ a = 812200) ∧ 1240 < 812200 ∧ st.map.count < 60 ∧
      scanState (gradeScan (demoScan 812400 true) demoRecipe
        (st.eval.resolve (some demoStrand) demoRecipe.defaultTemp 510).temp) = st.eval.confirmed := by
  refine ⟨fun a => ⟨?_, ?_⟩, by decide, by decide, by decide⟩
  · rintro (⟨h, _⟩ | ⟨w, h, _⟩)
    · simpa [Forecast.offers] using h
    · cases h
  · rintro rfl
    exact .inl ⟨by simp [Forecast.offers], by decide⟩

/-- A scan that passes the last pending switch of the run; a resumption beyond the tail. -/
theorem meets_TailAndResumption_switch :
    let s := withScan demoSwitching (demoScan 900000 true)
    demoSwitching.switch = some { entry := 1, coord := 840000 } ∧ (∀ m, m ≠ .s1 → (s.strand m).switch = none) ∧
      (demoSwitching.takeScan demoEnv .s1 (demoScan 900000 true)).switch = none ∧ demoTracking.switch = none ∧
      (demoTailed.map.tail = some 812000 ∧ 812000 < 812400 ∧ demoTailed.map.count + demoTailed.fore.offers.length + 2 < 60) :=
  ⟨rfl, forStrands (fun h => absurd rfl h) (fun _ => rfl) (fun _ => rfl) (fun _ => rfl), by decide, rfl, by decide⟩

/-- What a scan without a valid feature contributes. -/
def blind : Contribution := { temp := 510, thermal := false, feats := List.replicate 24 none }

theorem meets_TrackerConfirms :
    DimClass.unmeasured ≠ demoTracking.eval.confirmed ∧ demoTracking.eval.candidate = none ∧
      ([] : List (Nat × Contribution)).length + 1 < (demoEnv.recipe demoTracking).threshold .unmeasured ∧
      [(812100, blind)].length + 1 = (demoEnv.recipe demoTracking).threshold .unmeasured ∧
      (∃ b, demoTracking.map.cur = some b ∧ b.start < 812000) ∧ (∃ b, demoTracking.map.cur = some b ∧ 1240 ≤ b.start) ∧
      demoTracking.map.count < 60 :=
  ⟨by decide, rfl, by decide, by decide, ⟨_, rfl, by decide⟩, ⟨_, rfl, by decide⟩, by decide⟩
/-- A candidate at one scan of the threshold, for a scan of its state and of another. -/
theorem meets_TrackerConfirms_candidate :
    let k : Candidate := { state := .offGauge, count := 1, start := 811900, side := {} }
    let st : StrandState := { demoTracking with eval := { candidate := some k } }
    st.eval.candidate = some k ∧ .offGauge ≠ st.eval.confirmed ∧ DimClass.unmeasured ≠ k.state ∧
      k.count + 1 < (demoEnv.recipe st).threshold .offGauge ∧
      (demoEnv.recipe st).threshold .offGauge ≤ ({ k with count := 2 } : Candidate).count + 1 := by decide

/-- A boundary at the open segment's start, above it, and above it on a full map where a zone is offered. -/
theorem meets_TrackerConfirms_boundary :
    demoZoned.map.cur = some demoBody8 ∧ 600000 ≤ demoBody8.start ∧ (demoBody8.start < 600001 ∧ demoZoned.map.count < 60) ∧
      (60 ≤ ({ demoZoned.map with closed := List.replicate 59 (demoSegment 0 1 none 0 0) } : StrandMap).count ∧
        600120 ∈ demoZoned.fore.offers) := by decide

theorem meets_FeatureGraded : 0 < demoFeature.lower ∧ 0 < demoFeature.upper := by decide
theorem meets_FeatureGraded_resolved :
    (510 ≠ 1023 ∧ demoStrand.bandLow ≤ 510 ∧ 510 ≤ demoStrand.bandHigh) ∧ ¬ (600 ≤ demoStrand.bandHigh) ∧
      1 < demoStrand.thermalHold ∧ demoStrand.thermalHold ≤ 2 := by decide

theorem meets_FeatureGraded_scan :
    demoRecipe.features.length ≤ 24 ∧ (demoScan 812400 true).feats.length = 24 ∧ demoRecipe.features[0]? = some demoFeature ∧
      (demoScan 812400 true).feats[0]? = some (some ⟨50642, 12⟩) ∧ demoFeature.minConfidence ≤ 12 ∧
      (demoScan 812400 true).laserFault = false ∧ demoRecipe.features[1]? = none := by decide

theorem meets_FeatureGraded_state :
    (∀ g ∈ [(none : Option (Int × Band))], g = none) ∧ (∃ d, some (d, Band.outside) ∈ [some ((380 : Int), Band.outside)]) ∧
      ((∃ g, some g ∈ [some ((65 : Int), Band.inside)]) ∧ ∀ d : Int, some (d, Band.outside) ∉ [some ((65 : Int), Band.inside)]) :=
  ⟨by decide, ⟨380, by decide⟩, ⟨(65, .inside), by decide⟩, fun d h => by simp at h⟩
/-- A fold with the valid count one below its limit, and at it (R106). -/
theorem test_fold_at_the_limit :
    (FeatStat.fold { valid := 4294967294, sum := 7 } (some (-7, .outside))).valid = 4294967295 ∧
      FeatStat.fold { valid := 4294967295, sum := 7 } (some (-7, .outside)) =
        { valid := 4294967295, sum := 7, least := some (-7), greatest := some (-7) } := by decide
theorem meets_FeatureGraded_fold :
    ({ feats := [demoStat, {}] } : Stats).feats[0]? = some demoStat ∧ [none, some ((380 : Int), Band.outside)][0]? = some none ∧
      [none, some ((380 : Int), Band.outside)][1]? = some (some (380, .outside)) ∧ demoStat.valid < 4294967295 ∧
      4294967295 ≤ ({ demoStat with valid := 4294967295 } : FeatStat).valid := by decide

theorem meets_PieceBuilt :
    (8 ≤ (List.replicate 8 (Record.run (demoRunRecord .opened))).length) ∧ (∀ n, (activePart.strand n).cuts.pending = []) ∧
      activePart.report.queue.length < 8 ∧ turnAfter activePart.pieceServed = [] ++ .s1 :: [.s2, .s3, .s4] ∧
      ({ demoTracking with cuts := { demoTracking.cuts with pending := [demoCut 2000] } } : StrandState).cuts.pending = demoCut 2000 :: [] ∧
      demoTracking.cuts.pieces < 4294967295 ∧ [(0, 30), (40, 60)].Pairwise (fun p q : Nat × Nat => p.1 < q.1) :=
  ⟨by decide, forStrands rfl rfl rfl rfl, by decide, rfl, rfl, by decide, by decide⟩
/-- The worked piece: a chain of segments, with scrap and without, and the one feature that its short entries judge. -/
theorem meets_PieceBuilt_segments :
    Chained 280000 demoSegments 460000 ∧ demoSegments[1]? = some (demoSegment 430000 431000 (some .stopMark) (-60) 10) ∧
      (demoSegment 430000 431000 (some .stopMark) (-60) 10).body.cls = .stopMark ∧
      (∀ g ∈ demoSegments.take 1, g.body.cls = .sound) ∧
      (demoSegment 280000 430000 none (-210) 190).body.stats.feats[0]? = some { valid := 1, least := some (-210), greatest := some 190 } ∧
      (verdictCopy demoEnv demoTracking).tolerances[0]? = some { lower := 250, upper := 300 } := by
  refine ⟨⟨rfl, by decide, rfl, by decide, rfl, by decide, rfl, by decide, rfl, by decide, rfl⟩, ?_⟩
  decide

/-- A request of the forecast unit. -/
def demoRequest (on off : Nat) : MarkRequest := { requester := .forecast, on := on, off := some off, source := on }

/-- Missed, late and in time at the high-water coordinate 812,400, each at its boundary. -/
theorem meets_MarksTaken :
    ({ demoTracking with foreMail := [demoRequest 812000 812400] } : StrandState).foreMail = demoRequest 812000 812400 :: [] ∧
      812400 ≤ demoTracking.chan.hw ∧ (demoTracking.chan.hw < 812401 ∧ 812400 ≤ demoTracking.chan.hw) ∧
      (demoTracking.chan.hw < 812402 ∧ demoTracking.chan.hw < 812401) ∧
      ({ demoTracking with mapMail := [.off 812500] } : StrandState).mapMail = .off 812500 :: [] ∧
      (∀ i ∈ [(⟨125000, some 126000, 0⟩ : Interval)], ∀ o, i.off = some o → i.on < o) ∧ (List.replicate 16 (⟨1, some 2, 0⟩ : Interval)).length ≤ 16 := by
  decide
/-- An incoming interval close to the second of two at a gap of 1,500, and one close to none at a gap of 999. -/
theorem meets_MarksTaken_placed :
    let near := fun (gap : Nat) (r i : Interval) =>
      (i.off.all (fun o => r.on < o) && r.off.all (fun o => i.on < o)) ||
        i.off.any (fun o => o ≤ r.on && r.on ≤ o + gap) || r.off.any (fun o => o ≤ i.on && i.on ≤ o + gap)
    let a : Interval := ⟨100000, some 101000, 0⟩
    let b : Interval := ⟨125000, some 126000, 0⟩
    let r : Interval := ⟨127000, some 130000, 0⟩
    (∀ i ∈ [r, a, b], ∀ o, i.off = some o → i.on < o) ∧ near 1500 r a = false ∧ near 1000 r b = true ∧ near 999 r b = false ∧
      (∀ i ∈ [r, a, b], i.off.isSome = true) ∧ (⟨131200, none, 0⟩ : Interval).off = none ∧
      (∀ i ∈ [a, b], i.on ≤ r.on) ∧ [a, b].length < 16 ∧ [a, b].Pairwise (fun i j => ∃ o, i.off = some o ∧ o < j.on) := by
  refine ⟨by decide, by decide, by decide, by decide, by decide, rfl, by decide, by decide, ?_⟩
  simp

/-- A queue of sixteen and an incoming interval near none: as near to the one behind it as to the one ahead, and one unit nearer the
one ahead. -/
theorem meets_MarksTaken_full :
    let q : List Interval := (List.range 16).map (fun k => ⟨10000 * k, some (10000 * k + 1000), 0⟩)
    16 ≤ q.length ∧ (q.take 8).getLast? = some ⟨70000, some 71000, 0⟩ ∧ (q.drop 8).head? = some ⟨80000, some 81000, 0⟩ ∧
      (∀ i ∈ q.take 8, i.on ≤ 75000) ∧ 75000 - 71000 ≤ 80000 - 76000 ∧ 80000 - 76001 < 75000 - 71000 := by decide

/-- The segment a report flags: the open one, the last of a TAILED strand, one that holds the coordinate, and none. -/
theorem meets_MarksTaken_flagged :
    (demoTracking.map.cur.isSome = true ∧ 1240 ≤ 900000) ∧
      (demoTailed.map.cur = none ∧ demoTailed.map.tail = some 812000 ∧ demoSegments = demoSegments.dropLast ++ [demoSegment 452000 460000 none (-180) 150]) ∧
      ((∀ g ∈ demoSegments.take 2, ¬ (g.body.start ≤ 435000 ∧ 435000 < g.stop)) ∧ 431000 ≤ 435000 ∧ 435000 < 440000 ∧ 435000 < 812000) ∧
      ∀ g ∈ demoSegments, ¬ (g.body.start ≤ 460000 ∧ 460000 < g.stop) := by decide

/-- An incident of the marker unit behind one of the receiver. -/
def demoIncident (kind : IncidentKind) : Incident :=
  { kind := kind, strand := some .s1, code := 1, coordinate := 9, detail := 9, time := 1#32 }

theorem meets_IncidentArrives :
    ({ demoTracking with raised := [demoIncident .stale, demoIncident .markLate] } : StrandState).raised =
        [demoIncident .stale] ++ demoIncident .markLate :: [] ∧
      (demoIncident .markLate).kind.raiser = .marker ∧ (∀ j ∈ [demoIncident .stale], j.kind.raiser ≠ .marker) ∧
      [Record.incident (demoIncident .markLate)] = [] ++ .incident (demoIncident .markLate) :: [] ∧
      ([] : List Record).length < 8 ∧ 8 ≤ (List.replicate 8 (Record.run (demoRunRecord .opened))).length ∧
      (∀ r ∈ List.replicate 8 (Record.run (demoRunRecord .opened)), ¬ ∃ j, r = .incident j) := by
  refine ⟨rfl, rfl, by decide, rfl, by decide, by decide, ?_⟩
  rintro r hr ⟨j, rfl⟩
  simp at hr

/-- The ready part with one record in the queue. -/
def queuePart : State := { readyPart with report := { queue := [.run (demoRunRecord .closed)] } }

theorem meets_PageOpens :
    readyPart.report.queue = [] ∧ busyPart.report.fill.isSome = true ∧
      queuePart.report.queue = .run (demoRunRecord .closed) :: [] ∧ queuePart.report.fill = none ∧
      (0 : Fin 54) = Fin.ofNat 54 (queuePart.report.cursor.val + 1 + 0) ∧ queuePart.xp.pages.get 0 = .free ∧
      queuePart.report.serial ≠ BitVec.allOnes 64 ∧ (Record.run (demoRunRecord .closed)).length ≤ 8128 := by decide
/-- The last page of the order: the cursor's own, the other 53 CLOSED. -/
theorem meets_PageOpens_last :
    let s : State := { queuePart with xp := { queuePart.xp with pages := (Vector.replicate 54 .closed).set 53 .free } }
    (53 : Fin 54) = Fin.ofNat 54 (s.report.cursor.val + 1 + 53) ∧ s.xp.pages.get 53 = .free ∧
      ∀ j < 53, s.xp.pages.get (Fin.ofNat 54 (s.report.cursor.val + 1 + j)) ≠ .free := by decide

/-- A FILLING page with bytes used, whose linger timer started at 600 ms. -/
def demoFilling (used : Nat) : Filling :=
  { page := 3, serial := 7#64, count := 2, used := used, first := 1#32, last := 2#32, linger := some 600 }

/-- The active run with that page. -/
def fillingPart (used clock : Nat) (queue : List Record) : State :=
  { activePart with clock := clock, report := { queue := queue, fill := some (demoFilling used) } }

theorem meets_PageFills :
    let r := Record.run (demoRunRecord .opened)
    (fillingPart 64 1000 []).report.fill = some (demoFilling 64) ∧ (fillingPart 64 1000 [r]).report.queue = r :: [] ∧
      8128 < (demoFilling 8057).used + r.length ∧ (demoFilling 8056).used + r.length ≤ 8128 ∧ (demoFilling 64).count < 4294967295 ∧
      Record.closesPage (.run (demoRunRecord .abandoned)) = true ∧
      ((demoFilling 64).linger = some 600 ∧ (fillingPart 64 1000 []).run.station = some demoStation ∧ 600 + demoStation.linger ≤ 1000) ∧
      999 < 600 + demoStation.linger := by decide

/-- The reset state meets every invariant; its first step passes a millisecond. -/
theorem meets_PortInvariantKept : State.reset.xp.mem.wf ∧ CopiesAgree State.reset ∧ StatusAgrees State.reset ∧ FillingAgrees State.reset ∧ OneTaken State.reset ∧
    ∃ t, step State.reset = .next t := by
  refine ⟨by decide, ⟨by decide +kernel, by decide +kernel⟩, by unfold StatusAgrees; decide +kernel, ?_, ⟨?_, fun _ => rfl, fun _ h => nomatch h⟩,
    ⟨_, rfl⟩⟩
  · intro p
    constructor
    · intro h; revert h; revert p; decide
    · rintro ⟨f, h, _⟩; cases h
  · intro i
    constructor
    · intro h; revert h; revert i; decide
    · rintro ⟨o, h, _⟩; cases h

theorem demoTracking_mapOk : demoTracking.MapOk where
  tracked _ := rfl
  tailed h := by cases h
  waiting h := by cases h
  noNose h := by cases h
  covers _ := ⟨1240, rfl, {
    chain := rfl
    frontier := by decide
    cuts := trivial
    places := by decide
    follows := fun _ p h => by cases h
    held := fun _ p h => by cases h }⟩
  candidate c h := by cases h

theorem demoWaiting_mapOk : demoWaiting.MapOk where
  tracked h := by rcases h with h | h <;> cases h
  tailed h := by cases h
  waiting _ := rfl
  noNose _ := ⟨rfl, rfl, rfl, rfl⟩
  covers h := by cases h
  candidate c h := by cases h

theorem activePart_limits (n : Strand) : (activePart.strand n).InLimits := by
  cases n <;> exact ⟨by decide, by decide, by decide, by decide, by decide, by decide, by decide⟩

/-- The active run of the examples meets the invariant of the strands. -/
theorem meets_StrandInvariantKept :
    TracksAgree activePart ∧ CountsInLimits activePart ∧
      (∀ n, (activePart.strand n).InLimits ∧ (activePart.strand n).OpenAgrees) ∧
      (activePart.run.state ≠ .idle → ∀ n, activePart.inMask n = true → (activePart.strand n).MapOk) ∧
      ∃ t, step activePart = .next t := by
  refine ⟨⟨fun h => (by cases h), fun _ n h => ?_, fun n h => ?_, fun r h => (by cases h)⟩, ⟨by decide, by decide, by decide⟩,
    fun n => ⟨activePart_limits n, ?_⟩, fun _ n h => ?_, ⟨_, rfl⟩⟩
  · cases n <;> first | decide | cases h
  · cases n <;> first | rfl | cases h
  · cases n <;> simp [StrandState.OpenAgrees, activePart, State.strand, Four.get, demoTracking, demoWaiting]
  · cases n
    · exact demoTracking_mapOk
    · exact demoWaiting_mapOk
    · cases h
    · cases h

/-- A queue whose head is being served, its output active. -/
def markingPart : State :=
  { activePart with
    strands := { activePart.strands with
      one := { demoTracking with marker := { queue := [⟨812400, some 812401, 0⟩], active := true } } } }

theorem meets_MarkerOutputKept : (∀ n, (markingPart.strand n).MarkerAgrees) ∧ ∃ t, step markingPart = .next t := by
  refine ⟨fun n => ?_, ⟨_, rfl⟩⟩
  cases n
  · refine ⟨by simp [markingPart, State.strand, Four.get, demoTracking, activePart], fun i o hi ho => ?_⟩
    cases hi
    cases ho
    decide
  all_goals exact ⟨by simp [markingPart, State.strand, Four.get, activePart, demoWaiting], by
      simp [markingPart, State.strand, Four.get, activePart, demoWaiting]⟩

end Sys2Proof.Tests
end

section
namespace Sys2Proof.Machine

/-! # The exchange port through a command

## The notice and its message (R3, R4) -/

/-- From x to y reasons are only set, and one message is sent where the masked notice rises (R4). -/
structure Notifies (x y : ExchangePort) : Prop where
  mask : y.mask = x.mask
  enabled : y.msiEnabled = x.msiEnabled
  kept : y.notice = x.notice ||| y.notice
  sent : y.msiSent = x.msiSent + if x.msiEnabled = true ∧ y.masked ≠ 0#6 ∧ x.masked = 0#6 then 1 else 0

/-- A masked notice that is non-zero stays so while reasons are only set. -/
theorem Notifies.masked_ne {x y : ExchangePort} (h : Notifies x y) (hx : x.masked ≠ 0#6) : y.masked ≠ 0#6 := by
  intro hy
  apply hx
  unfold ExchangePort.masked at *
  rw [h.mask, h.kept, BitVec.and_comm, BitVec.and_or_distrib_left, BitVec.or_eq_zero_iff] at hy
  rw [BitVec.and_comm]
  exact hy.1

/-- What leaves the notice alone notifies nothing. -/
theorem Notifies.of_same {x y : ExchangePort} (hn : y.notice = x.notice) (hm : y.mask = x.mask)
    (he : y.msiEnabled = x.msiEnabled) (hs : y.msiSent = x.msiSent) : Notifies x y := by
  refine ⟨hm, he, by simp [hn], ?_⟩
  rw [hs, if_neg]
  · rfl
  · rintro ⟨-, h1, h2⟩
    exact h1 (by rw [ExchangePort.masked, hn, hm]; exact h2)

@[refl] theorem Notifies.refl (x : ExchangePort) : Notifies x x := .of_same rfl rfl rfl rfl

theorem Notifies.trans {x y z : ExchangePort} (h1 : Notifies x y) (h2 : Notifies y z) : Notifies x z := by
  refine ⟨h2.mask.trans h1.mask, h2.enabled.trans h1.enabled, ?_, ?_⟩
  · calc z.notice = y.notice ||| z.notice := h2.kept
      _ = x.notice ||| y.notice ||| z.notice := by rw [← h1.kept]
      _ = x.notice ||| z.notice := by rw [BitVec.or_assoc, ← h2.kept]
  · rw [h2.sent, h1.sent, h1.enabled]
    by_cases hx : x.masked = 0#6
    · by_cases hy : y.masked = 0#6
      · simp [hx, hy]
      · simp [hx, hy, h2.masked_ne hy]
    · simp [hx, h1.masked_ne hx]

/-- Setting a reason sends one message where the masked notice rises. -/
theorem Notifies.setReason (s : State) (r : Reason) : Notifies s.xp (s.setReason r).xp := by
  refine ⟨rfl, rfl, ?_, ?_⟩
  · rw [State.setReason_notice, ← BitVec.or_assoc, BitVec.or_self]
  · simp only [State.setReason, ExchangePort.putNotice, ExchangePort.masked]
    by_cases hx : s.xp.notice &&& s.xp.mask = 0#6 <;> by_cases he : s.xp.msiEnabled = true <;> simp [hx, he]
    split <;> rfl

/-- A reason set leaves the flags of the others. -/
theorem State.noticed_setReason_ne (s : State) {r q : Reason} (h : r ≠ q) : (s.setReason r).noticed q = s.noticed q := by
  unfold State.noticed
  rw [State.setReason_notice]
  generalize s.xp.notice = x
  have key : (x ||| r.bit) &&& q.bit = x &&& q.bit := by
    have hz : r.bit &&& q.bit = 0#6 := by revert h; cases r <;> cases q <;> decide
    rw [BitVec.and_comm, BitVec.and_or_distrib_left, BitVec.and_comm q.bit r.bit, hz, BitVec.or_zero, BitVec.and_comm]
  rw [key]

/-! ## Bytes a change leaves -/

/-- Equal bytes make an equal 32-bit field. -/
theorem Memory.rd32_congr {m m' : Memory} {a : Nat} (h : ∀ k < 4, m'.rd (a + k) = m.rd (a + k)) : m'.rd32 a = m.rd32 a := by
  unfold Memory.rd32 Memory.rdNat
  rw [Memory.rdBytes_congr m' m a 4 fun x h1 h2 => by simpa [Nat.add_sub_cancel' h1] using h (x - a) (by omega)]

theorem Memory.rd32_lt (m : Memory) (a : Nat) : m.rd32 a < 4294967296 := by
  simp only [Memory.rd32, Memory.rdNat, Memory.rdBytes, leNat]
  omega

/-- A 32-bit field inside a stored block. -/
theorem Memory.rd32_write_inside (m : Memory) (a : Nat) (bs : List Byte) (j : Nat) (h : j + 4 ≤ bs.length) :
    (m.write a bs).rd32 (a + j) = leNat ((bs.drop j).take 4) := by
  rw [Memory.rd32, Memory.rdNat, Memory.rdBytes_write_inside m a bs j 4 h]

/-- Reading behind a clearing, outside it. -/
theorem Memory.rd_clear_outside (m : Memory) (a n x : Nat) (h : x < a ∨ a + n ≤ x) : (m.clear a n).rd x = m.rd x := by
  rw [Memory.rd_clear, if_neg (by omega)]

/-! ## Codes and layouts -/

theorem PageState.code_lt (c : PageState) : c.code < 4294967296 := by cases c <;> decide

theorem headerBytes_length (t : PageState) (b : Bool) (f : Filling) : (headerBytes t b f).length = 32 := by simp [headerBytes]

theorem answerBytes_length (o : Order) (a : Answer) (w : Word32) : (answerBytes o a w).length = 16 := by simp [answerBytes]

/-- The first field of a header is the page's state code. -/
theorem headerBytes_state (t : PageState) (b : Bool) (f : Filling) : leNat ((headerBytes t b f).take 4) = t.code := by
  simp only [headerBytes, List.append_assoc]
  rw [take_four_leBytes, leNat_leBytes _ _ t.code_lt]

/-- The second field of a header is the flag TRUNCATED. -/
theorem headerBytes_truncated (t : PageState) (b : Bool) (f : Filling) :
    leNat (((headerBytes t b f).drop 4).take 4) = b.toNat := by
  simp only [headerBytes, List.append_assoc]
  rw [drop_append_add _ _ 4 0 (leBytes_length 4 _), List.drop_zero, take_four_leBytes, leNat_leBytes]
  cases b <;> decide

@[simp] theorem optInt_length (d : Option Int) : (optInt d).length = 4 := by cases d <;> simp [optInt]

@[simp] theorem keepBytes_length (p : Nat × Nat) : (keepBytes p).length = 8 := by simp [keepBytes]

@[simp] theorem summaryBytes_length (f : FeatureSummary) : (summaryBytes f).length = 16 := by simp [summaryBytes]

@[simp] theorem segEntryBytes_length (g : SegEntry) : (segEntryBytes g).length = 32 := by simp [segEntryBytes]

/-- Entries of one length make a block of their number times it. -/
theorem length_flatMap_of_length {α : Type} (l : List α) (f : α → List Byte) (k : Nat) (h : ∀ x, (f x).length = k) :
    (l.flatMap f).length = k * l.length := by
  simp [List.length_flatMap, h, Nat.mul_comm]

/-- A record's bytes are as many as its length field says (R187). -/
theorem Record.bytes_length (r : Record) : r.bytes.length = r.length := by
  cases r with
  | incident r => simp [Record.bytes, incidentBytes, recordHeader, Record.length]
  | run r => simp [Record.bytes, runBytes, runStrandBytes, recordHeader, Record.length]
  | piece p =>
    simp only [Record.bytes, pieceBytes, List.length_append, length_flatMap_of_length _ _ _ keepBytes_length,
      length_flatMap_of_length _ _ _ summaryBytes_length, length_flatMap_of_length _ _ _ segEntryBytes_length]
    simp [pieceFixedBytes, recordHeader, Record.length]
    omega

/-! ## What the memory, the port's copies and the report unit agree in -/

/-- The memory is canonical and the copies, the status block and the FILLING page agree with it (R7, R14, R177): the part of the
port's invariant that does not speak of the order unit. -/
structure PortAgrees (s : State) : Prop where
  wf : s.xp.mem.wf
  copies : CopiesAgree s
  status : StatusAgrees s
  filling : FillingAgrees s

/-- The whole invariant of port, report unit and order unit. -/
abbrev PortOk (s : State) : Prop := s.xp.mem.wf ∧ CopiesAgree s ∧ StatusAgrees s ∧ FillingAgrees s ∧ OneTaken s

theorem portOk_iff (s : State) : PortOk s ↔ PortAgrees s ∧ OneTaken s :=
  ⟨fun ⟨h1, h2, h3, h4, h5⟩ => ⟨⟨h1, h2, h3, h4⟩, h5⟩, fun ⟨⟨h1, h2, h3, h4⟩, h5⟩ => ⟨h1, h2, h3, h4, h5⟩⟩

/-- What the status block has last shown, and which page is FILLING. -/
structure SameReport (r q : ReportUnit) : Prop where
  seq : q.updateSeq = r.updateSeq := by rfl
  time : q.updateTime = r.updateTime := by rfl
  shown : q.shown = r.shown := by rfl
  fill : q.fill.map (·.page) = r.fill.map (·.page) := by rfl

/-- Which page is FILLING, by the page alone. -/
theorem fillingAgrees_iff (s : State) :
    FillingAgrees s ↔ ∀ p : Fin 54, s.xp.pages.get p = .filling ↔ s.report.fill.map (·.page) = some p := by
  simp [FillingAgrees]

theorem FillingAgrees.of_same {s t : State} (h : FillingAgrees s) (hp : t.xp.pages = s.xp.pages)
    (hf : t.report.fill.map (·.page) = s.report.fill.map (·.page)) : FillingAgrees t := by
  rw [fillingAgrees_iff] at *
  rw [hp, hf]
  exact h

/-- Only the first 192 bytes, which are the status block, differ. -/
theorem CopiesAgree.of_sameBeyondStatus {s t : State} (h : CopiesAgree s) (hm : SameBeyondStatus s.xp.mem t.xp.mem)
    (hc : t.xp.cells = s.xp.cells) (hp : t.xp.pages = s.xp.pages) : CopiesAgree t := by
  refine ⟨fun i => ?_, fun p => ?_⟩
  · rw [hc, ← h.1 i]
    exact Memory.rd32_congr fun k _ => hm _ (by unfold cellBase; omega)
  · rw [hp, ← h.2 p]
    exact Memory.rd32_congr fun k _ => hm _ (by unfold pageBase; omega)

/-- Nothing the port, the report unit's page and status block hold differs. -/
theorem PortAgrees.of_same {s t : State} (h : PortAgrees s) (hm : t.xp.mem = s.xp.mem) (hc : t.xp.cells = s.xp.cells)
    (hp : t.xp.pages = s.xp.pages) (hr : SameReport s.report t.report) : PortAgrees t where
  wf := hm ▸ h.wf
  copies := h.copies.of_sameBeyondStatus (fun _ _ => by rw [hm]) hc hp
  status := h.status.of_same (fun _ _ => by rw [hm]) hr.seq hr.time hr.shown
  filling := h.filling.of_same hp hr.fill

/-- A status block stored with what is then shown agrees. -/
theorem PortAgrees.storeStatus {s : State} (hw : s.xp.mem.wf) (hc : CopiesAgree s) (hf : FillingAgrees s) :
    PortAgrees s.storeStatus where
  wf := Memory.wf_write _ _ _ hw
  copies := hc.of_sameBeyondStatus
    (fun a ha => Memory.rd_write_outside _ _ _ _ (Or.inr (by rw [statusBytes_length]; omega))) rfl rfl
  status := State.storeStatus_agrees s
  filling := hf.of_same rfl rfl

/-- A rewrite of the status block keeps the agreement. -/
theorem PortAgrees.putStatus {s : State} (h : PortAgrees s) (w : Shown) : PortAgrees (s.putStatus w) :=
  .storeStatus h.wf h.copies h.filling

/-! ### Report pages -/

/-- Every byte outside report page p reads the same. -/
def SameOutsidePage (p : Fin 54) (m m' : Memory) : Prop :=
  ∀ a, a < pageBase p.val ∨ pageBase p.val + 8192 ≤ a → m'.rd a = m.rd a

theorem SameOutsidePage.trans {p : Fin 54} {m m' m'' : Memory} (h1 : SameOutsidePage p m m') (h2 : SameOutsidePage p m' m'') :
    SameOutsidePage p m m'' := fun a ha => (h2 a ha).trans (h1 a ha)

/-- A block stored inside a page. -/
theorem SameOutsidePage.write {p : Fin 54} (m : Memory) {a : Nat} {bs : List Byte} (h1 : pageBase p.val ≤ a)
    (h2 : a + bs.length ≤ pageBase p.val + 8192) : SameOutsidePage p m (m.write a bs) :=
  fun x hx => Memory.rd_write_outside m a bs x (by omega)

theorem SameOutsidePage.header {p : Fin 54} (m : Memory) (t : PageState) (b : Bool) (f : Filling) :
    SameOutsidePage p m (m.write (pageBase p.val) (headerBytes t b f)) :=
  .write m (Nat.le_refl _) (by rw [headerBytes_length]; omega)

/-- No order cell lies in a report page. -/
theorem SameOutsidePage.cell {p : Fin 54} {m m' : Memory} (h : SameOutsidePage p m m') (i : Fin 32) (k : Nat) (hk : k < 128) :
    m'.rd (cellBase i.val + k) = m.rd (cellBase i.val + k) :=
  h _ (Or.inl (by unfold cellBase pageBase; omega))

/-- A stored header's state word. -/
theorem rd32_header (m : Memory) (p : Fin 54) (t : PageState) (b : Bool) (f : Filling) :
    (m.write (pageBase p.val) (headerBytes t b f)).rd32 (pageBase p.val) = t.code := by
  have := Memory.rd32_write_inside m (pageBase p.val) (headerBytes t b f) 0 (by rw [headerBytes_length]; omega)
  rw [Nat.add_zero, List.drop_zero, headerBytes_state] at this
  exact this

/-- A report page takes a state, in its word and in the port's copy, and nothing outside the page differs. -/
structure PageMoves (p : Fin 54) (c : PageState) (s t : State) : Prop where
  outside : SameOutsidePage p s.xp.mem t.xp.mem
  wf : s.xp.mem.wf → t.xp.mem.wf
  word : t.xp.mem.rd32 (pageBase p.val) = c.code
  cells : t.xp.cells = s.xp.cells
  pages : ∀ q, t.xp.pages.get q = if q = p then c else s.xp.pages.get q
  seq : t.report.updateSeq = s.report.updateSeq
  time : t.report.updateTime = s.report.updateTime
  shown : t.report.shown = s.report.shown

theorem PageMoves.copies {p : Fin 54} {c : PageState} {s t : State} (h : PageMoves p c s t) (hs : CopiesAgree s) :
    CopiesAgree t := by
  refine ⟨fun i => ?_, fun q => ?_⟩
  · rw [h.cells, ← hs.1 i]
    exact Memory.rd32_congr fun k hk => h.outside.cell i k (by omega)
  · rw [h.pages q]
    split
    · subst_vars
      exact h.word
    · rename_i hq
      rw [← hs.2 q]
      have hv : q.val ≠ p.val := fun e => hq (Fin.ext e)
      exact Memory.rd32_congr fun k hk => h.outside _ (by unfold pageBase; omega)

/-- The agreement after a page's change, with the page the report unit then fills. -/
theorem PageMoves.agrees {p : Fin 54} {c : PageState} {s t : State} (h : PageMoves p c s t) (hs : PortAgrees s)
    (hf : FillingAgrees t) : PortAgrees t where
  wf := h.wf hs.wf
  copies := h.copies hs.copies
  status := hs.status.of_same (fun a ha => h.outside a (Or.inl (by unfold pageBase; omega))) h.seq h.time h.shown
  filling := hf

/-! ### Order cells -/

/-- Every byte outside cell i reads the same. -/
def SameOutsideCell (i : Fin 32) (m m' : Memory) : Prop :=
  ∀ a, a < cellBase i.val ∨ cellBase i.val + 128 ≤ a → m'.rd a = m.rd a

/-- A block stored inside a cell. -/
theorem SameOutsideCell.write {i : Fin 32} (m : Memory) {a : Nat} {bs : List Byte} (h1 : cellBase i.val ≤ a)
    (h2 : a + bs.length ≤ cellBase i.val + 128) : SameOutsideCell i m (m.write a bs) :=
  fun x hx => Memory.rd_write_outside m a bs x (by omega)

theorem SameOutsideCell.trans {i : Fin 32} {m m' m'' : Memory} (h1 : SameOutsideCell i m m') (h2 : SameOutsideCell i m' m'') :
    SameOutsideCell i m m'' := fun a ha => (h2 a ha).trans (h1 a ha)

/-- A cell takes a state, in its word and in the port's copy, and nothing outside the cell differs. -/
structure CellMoves (i : Fin 32) (c : CellState) (s t : State) : Prop where
  outside : SameOutsideCell i s.xp.mem t.xp.mem
  wf : s.xp.mem.wf → t.xp.mem.wf
  word : t.xp.mem.rd32 (cellBase i.val) = c.code
  cells : ∀ j, t.xp.cells.get j = if j = i then c else s.xp.cells.get j
  pages : t.xp.pages = s.xp.pages
  report : SameReport s.report t.report

theorem CellMoves.agrees {i : Fin 32} {c : CellState} {s t : State} (h : CellMoves i c s t) (hs : PortAgrees s) :
    PortAgrees t where
  wf := h.wf hs.wf
  copies := by
    refine ⟨fun j => ?_, fun p => ?_⟩
    · rw [h.cells j]
      split
      · subst_vars
        exact h.word
      · rename_i hj
        rw [← hs.copies.1 j]
        have hv : j.val ≠ i.val := fun e => hj (Fin.ext e)
        exact Memory.rd32_congr fun k hk => h.outside _ (by unfold cellBase; omega)
    · rw [h.pages, ← hs.copies.2 p]
      exact Memory.rd32_congr fun k hk => h.outside _ (by unfold pageBase cellBase; omega)
  status := hs.status.of_same (fun a ha => h.outside a (Or.inl (by unfold cellBase; omega))) h.report.seq h.report.time
    h.report.shown
  filling := hs.filling.of_same h.pages h.report.fill

/-- One place of a vector of copies written. -/
theorem Vector.get_set_eq_ite {α : Type} {n : Nat} (v : Vector α n) (i j : Fin n) (x : α) :
    (v.set i x).get j = if j = i then x else v.get j := by
  rw [Vector.get_eq_getElem, Vector.get_eq_getElem, Vector.getElem_set]
  by_cases h : i.val = j.val
  · rw [if_pos h, if_pos (Fin.ext h.symm)]
  · rw [if_neg h, if_neg fun e => h (by rw [e])]

/-! ## What leaves the order board and the order unit alone -/

/-- From s to t no cell, no order and no ANSWER is touched, reasons are only set, and the agreement of the port is kept: what every
event of a block other than the order unit and the port does. -/
structure LeavesBoard (s t : State) : Prop where
  notifies : Notifies s.xp t.xp
  answer : t.noticed .answer = s.noticed .answer
  orders : t.orders = s.orders
  phase : t.xp.phase = s.xp.phase
  cells : t.xp.cells = s.xp.cells
  bytes : ∀ i : Fin 32, ∀ k < 128, t.xp.mem.rd (cellBase i.val + k) = s.xp.mem.rd (cellBase i.val + k)
  agrees : PortAgrees s → PortAgrees t

/-- What leaves the port and the orders alone, and of the report unit the status block and the FILLING page. -/
theorem LeavesBoard.of_same {s t : State} (hx : t.xp = s.xp) (ho : t.orders = s.orders) (hr : SameReport s.report t.report) :
    LeavesBoard s t where
  notifies := hx ▸ .refl _
  answer := by simp only [State.noticed, hx]
  orders := ho
  phase := by rw [hx]
  cells := by rw [hx]
  bytes _ _ _ := by rw [hx]
  agrees h := h.of_same (by rw [hx]) (by rw [hx]) (by rw [hx]) hr

@[refl] theorem LeavesBoard.refl (s : State) : LeavesBoard s s := .of_same rfl rfl {}

theorem LeavesBoard.trans {s t u : State} (h1 : LeavesBoard s t) (h2 : LeavesBoard t u) : LeavesBoard s u where
  notifies := h1.notifies.trans h2.notifies
  answer := h2.answer.trans h1.answer
  orders := h2.orders.trans h1.orders
  phase := h2.phase.trans h1.phase
  cells := h2.cells.trans h1.cells
  bytes i k hk := (h2.bytes i k hk).trans (h1.bytes i k hk)
  agrees h := h2.agrees (h1.agrees h)

theorem LeavesBoard.ready {s t : State} (h : LeavesBoard s t) : t.ready = s.ready := by unfold State.ready; rw [h.phase]

/-- The one TAKEN cell stays so. -/
theorem LeavesBoard.oneTaken {s t : State} (h : LeavesBoard s t) (hs : OneTaken s) : OneTaken t := by
  unfold OneTaken
  rw [h.cells, h.orders, h.ready]
  exact hs

/-- A chain of events over the strands. -/
theorem LeavesBoard.foldl {f : State → Strand → State} (h : ∀ s n, LeavesBoard s (f s n)) (l : List Strand) (s : State) :
    LeavesBoard s (l.foldl f s) := by
  induction l generalizing s with
  | nil => exact .refl s
  | cons n l ih => exact (h s n).trans (ih _)

/-! ### Shared operations -/

theorem LeavesBoard.setReason (s : State) {r : Reason} (h : r ≠ .answer) : LeavesBoard s (s.setReason r) where
  notifies := .setReason s r
  answer := State.noticed_setReason_ne s h
  orders := rfl
  phase := rfl
  cells := rfl
  bytes _ _ _ := rfl
  agrees hs := hs.of_same rfl rfl rfl {}

theorem LeavesBoard.setRun (s : State) (r : RunState) : LeavesBoard s (s.setRun r) := by
  unfold State.setRun
  split
  · exact .refl s
  · refine LeavesBoard.trans ?_ (.setReason _ (by decide))
    exact .of_same rfl rfl {}

theorem LeavesBoard.onStrand (s : State) (n : Strand) (f : StrandState → StrandState) : LeavesBoard s (s.onStrand n f) :=
  .of_same rfl rfl {}

theorem LeavesBoard.formRecord (s : State) (e : RunEvent) : LeavesBoard s (s.formRecord e) := .of_same rfl rfl {}

theorem LeavesBoard.setAside (s : State) : LeavesBoard s s.setAside := .of_same rfl rfl {}

theorem LeavesBoard.reachSwitchOver (s : State) (k : Fin 8) : LeavesBoard s (s.reachSwitchOver k) := by
  unfold State.reachSwitchOver
  split
  · exact .of_same rfl rfl {}
  · exact .of_same rfl rfl {}

theorem LeavesBoard.waitedSwitchOver (s : State) : LeavesBoard s s.waitedSwitchOver := by
  unfold State.waitedSwitchOver
  split
  · exact .of_same rfl rfl {}
  · exact .refl s

theorem LeavesBoard.strandEvent (s : State) (n : Strand) (f : StrandState → StrandState) : LeavesBoard s (s.strandEvent n f) := by
  unfold State.strandEvent
  dsimp only
  split
  · split
    · exact (LeavesBoard.onStrand s n f).trans (.reachSwitchOver _ _)
    · exact .onStrand s n f
  · exact .onStrand s n f

/-! ### The status block and the end of an event -/

theorem SameBeyondStatus.cell {m m' : Memory} (h : SameBeyondStatus m m') (i : Fin 32) (k : Nat) :
    m'.rd (cellBase i.val + k) = m.rd (cellBase i.val + k) := h _ (by unfold cellBase; omega)

theorem State.storeStatus_beyond (s : State) : SameBeyondStatus s.xp.mem s.storeStatus.xp.mem :=
  fun a ha => Memory.rd_write_outside _ _ _ _ (Or.inr (by rw [statusBytes_length]; omega))

theorem State.putStatus_beyond (s : State) (w : Shown) : SameBeyondStatus s.xp.mem (s.putStatus w).xp.mem :=
  State.storeStatus_beyond _

theorem LeavesBoard.putStatus (s : State) (w : Shown) : LeavesBoard s (s.putStatus w) where
  notifies := .of_same rfl rfl rfl rfl
  answer := rfl
  orders := rfl
  phase := rfl
  cells := rfl
  bytes i k _ := (s.putStatus_beyond w).cell i k
  agrees h := h.putStatus w

theorem LeavesBoard.showIfChanged (s : State) (w : Shown) : LeavesBoard s (s.showIfChanged w) := by
  rw [State.showIfChanged_eq]
  split
  · exact .refl s
  · exact .putStatus s w

theorem LeavesBoard.noteBacklog (s : State) : LeavesBoard s s.noteBacklog := by
  have hr : LeavesBoard s { s with report := { s.report with backlog := s.backlogged } } := .of_same rfl rfl {}
  unfold State.noteBacklog
  dsimp only
  split
  · exact hr.trans (.setReason _ (by decide))
  · exact hr

theorem LeavesBoard.settle (s : State) : LeavesBoard s s.settle :=
  (LeavesBoard.noteBacklog s).trans (.showIfChanged _ _)

theorem LeavesBoard.settled {s u : State} (h : LeavesBoard s u) : LeavesBoard s u.settle := h.trans (.settle u)

/-! ### The report unit's pages -/

/-- The page that is FILLING, by the page the report unit fills. -/
theorem FillingAgrees.get {s : State} (h : FillingAgrees s) {f : Filling} (hf : s.report.fill = some f) (p : Fin 54) :
    s.xp.pages.get p = .filling ↔ p = f.page := by
  rw [h p, hf]
  simp [eq_comm]

/-- A page of the report unit changes, with the reasons and orders kept. -/
theorem LeavesBoard.of_page {s t : State} {p : Fin 54} (hn : Notifies s.xp t.xp) (ha : t.noticed .answer = s.noticed .answer)
    (ho : t.orders = s.orders) (hp : t.xp.phase = s.xp.phase) (hc : t.xp.cells = s.xp.cells)
    (hm : SameOutsidePage p s.xp.mem t.xp.mem) (hk : PortAgrees s → PortAgrees t) : LeavesBoard s t where
  notifies := hn
  answer := ha
  orders := ho
  phase := hp
  cells := hc
  bytes := hm.cell
  agrees := hk

theorem State.closePage_eq (s : State) (f : Filling) (b : Bool) : s.closePage f b =
    State.setReason { (s.storeHeader .closed b f).setPage f.page .closed with report := { s.report with fill := none } } .page :=
  rfl

theorem State.closePage_moves (s : State) (f : Filling) (b : Bool) : PageMoves f.page .closed s (s.closePage f b) where
  outside := .header _ _ _ _
  wf := Memory.wf_write _ _ _
  word := rd32_header _ _ _ _ _
  cells := rfl
  pages _ := Vector.get_set_eq_ite _ _ _ _
  seq := rfl
  time := rfl
  shown := rfl

/-- Closing the FILLING page. -/
theorem LeavesBoard.closePage {s : State} {f : Filling} (hf : s.report.fill.map (·.page) = some f.page) (b : Bool) :
    LeavesBoard s (s.closePage f b) := by
  have hm := s.closePage_moves f b
  refine .of_page (p := f.page) ?_ ?_ rfl rfl rfl hm.outside fun hs => hm.agrees hs ?_
  · rw [State.closePage_eq]
    refine Notifies.trans ?_ (.setReason _ _)
    exact .of_same rfl rfl rfl rfl
  · rw [State.closePage_eq]
    exact State.noticed_setReason_ne _ (by decide)
  · rw [fillingAgrees_iff]
    intro q
    have hq := (fillingAgrees_iff s).mp hs.filling q
    rw [hf] at hq
    have hn : (s.closePage f b).report.fill = none := rfl
    rw [hm.pages q, hn]
    by_cases h : q = f.page
    · simp [h]
    · simp [h, hq, Ne.symm h]

/-- The state in which a record has been written into the FILLING page and its header stored, before the page may close (R178). -/
def State.recordStored (s : State) (f : Filling) (r : Record) (rest : List Record) : State :=
  State.storeHeader { s with
    xp := { s.xp with mem := s.xp.mem.write (pageBase f.page.val + 64 + f.used) r.bytes }
    report := { s.report with queue := rest, fill := some (f.grow r.length s.time) } } .filling false (f.grow r.length s.time)

theorem State.writeRecord_eq (s : State) (f : Filling) (r : Record) (rest : List Record) : s.writeRecord f r rest =
    if r.closesPage then (s.recordStored f r rest).closePage (f.grow r.length s.time) false else s.recordStored f r rest := rfl

/-- A record that fits is stored in its page alone. -/
theorem LeavesBoard.recordStored {s : State} {f : Filling} {r : Record} (hf : s.report.fill = some f)
    (hr : f.used + r.length ≤ Config.recordArea) (rest : List Record) : LeavesBoard s (s.recordStored f r rest) := by
  have hfit : pageBase f.page.val + 64 + f.used + r.bytes.length ≤ pageBase f.page.val + 8192 := by
    rw [Record.bytes_length]
    unfold Config.recordArea at hr
    omega
  have hout : SameOutsidePage f.page s.xp.mem (s.recordStored f r rest).xp.mem :=
    SameOutsidePage.trans (.write s.xp.mem (by omega) hfit) (.header _ _ _ _)
  refine .of_page (.of_same rfl rfl rfl rfl) rfl rfl rfl rfl hout fun hs => ?_
  have hfill : ∀ p, s.xp.pages.get p = .filling ↔ p = f.page := hs.filling.get hf
  have hm : PageMoves f.page .filling s (s.recordStored f r rest) :=
    { outside := hout
      wf := fun hw => Memory.wf_write _ _ _ (Memory.wf_write _ _ _ hw)
      word := rd32_header _ _ _ _ _
      cells := rfl
      pages := fun q => by
        show s.xp.pages.get q = _
        split
        · subst_vars
          exact (hfill _).mpr rfl
        · rfl
      seq := rfl
      time := rfl
      shown := rfl }
  refine hm.agrees hs (hs.filling.of_same rfl ?_)
  rw [hf]
  rfl

theorem LeavesBoard.writeRecord {s : State} {f : Filling} {r : Record} (hf : s.report.fill = some f)
    (hr : f.used + r.length ≤ Config.recordArea) (rest : List Record) : LeavesBoard s (s.writeRecord f r rest) := by
  have h := LeavesBoard.recordStored hf hr rest
  rw [State.writeRecord_eq]
  split
  · exact h.trans (.closePage rfl false)
  · exact h

theorem LeavesBoard.writeHead (s : State) : LeavesBoard s s.writeHead := by
  unfold State.writeHead
  split
  · rename_i f r rest hf _
    split
    · rename_i hr
      exact .writeRecord hf hr rest
    · exact .closePage (by rw [hf]; rfl) false
  · exact .refl s

/-- The page an opening begins (R177, R180). -/
def State.opened (s : State) (p : Fin 54) : Filling :=
  { page := p, serial := s.nextSerial, count := 0, used := 0, first := 0#32, last := 0#32, linger := s.lingerStart }

/-- The state in which a page has been cleared and its header stored, before the head record is written (R177). -/
def State.pageBegun (s : State) (p : Fin 54) : State :=
  let f := s.opened p
  State.setPage
    (State.storeHeader { s with
      xp := { s.xp with mem := s.xp.mem.clear (pageBase p.val) 8192 }
      report := { s.report with serial := f.serial, cursor := p, fill := some f } } .filling false f) p .filling

theorem State.openPage_eq (s : State) (p : Fin 54) : s.openPage p = (s.pageBegun p).writeHead := rfl

theorem State.pageBegun_moves (s : State) (p : Fin 54) : PageMoves p .filling s (s.pageBegun p) where
  outside := SameOutsidePage.trans (fun a ha => Memory.rd_clear_outside _ _ _ a ha) (.header _ _ _ _)
  wf hw := Memory.wf_write _ _ _ (Memory.wf_clear _ _ _ hw)
  word := rd32_header _ _ _ _ _
  cells := rfl
  pages _ := Vector.get_set_eq_ite _ _ _ _
  seq := rfl
  time := rfl
  shown := rfl

/-- Opening a page while none is FILLING. -/
theorem LeavesBoard.openPage {s : State} (hf : s.report.fill = none) (p : Fin 54) : LeavesBoard s (s.openPage p) := by
  rw [State.openPage_eq]
  refine LeavesBoard.trans ?_ (.writeHead _)
  have hm := s.pageBegun_moves p
  refine .of_page (.of_same rfl rfl rfl rfl) rfl rfl rfl rfl hm.outside fun hs => hm.agrees hs fun q => ?_
  have hq : s.xp.pages.get q ≠ .filling := by
    rw [ne_eq, hs.filling q, hf]
    simp
  have hfill : (s.pageBegun p).report.fill = some (s.opened p) := rfl
  rw [hm.pages q, hfill]
  by_cases h : q = p
  · simp [h, State.opened]
  · simp [h, hq, State.opened, Ne.symm h]

theorem LeavesBoard.pageOpen (s : State) : LeavesBoard s s.pageOpen := by
  unfold State.pageOpen
  split
  · exact .refl s
  · rename_i h
    have hf : s.report.fill = none := by
      rw [Bool.or_eq_true, not_or, Option.isSome_iff_ne_none] at h
      exact not_not.mp h.2
    split
    · exact .refl s
    · exact .openPage hf _

theorem LeavesBoard.lingerExpiry (s : State) : LeavesBoard s s.lingerExpiry := by
  unfold State.lingerExpiry
  split
  · exact .refl s
  · rename_i f hf
    split
    · exact .closePage (by rw [hf]; rfl) false
    · exact .refl s

/-! ### Events of the line, the gauge link and the evaluator -/

theorem LeavesBoard.encoderEdge (s : State) (n : Strand) (a b : Bool) : LeavesBoard s (s.encoderEdge n a b) := by
  unfold State.encoderEdge
  dsimp only
  split
  · exact (LeavesBoard.onStrand s n _).trans (.onStrand _ _ _)
  · exact .onStrand s n _

theorem LeavesBoard.noteMoving (s : State) (n : Strand) (m : Motion) : LeavesBoard s (s.noteMoving n m) := by
  unfold State.noteMoving
  split
  · exact .setRun s _
  · exact .refl s

theorem LeavesBoard.endWindow (s : State) (n : Strand) : LeavesBoard s (s.endWindow n) := by
  unfold State.endWindow
  exact ((LeavesBoard.onStrand s n _).trans (.noteMoving _ _ _)).trans (.putStatus _ _)

theorem LeavesBoard.onInput (s : State) (i : LineInput) (f : Input → Input) : LeavesBoard s (s.onInput i f) := by
  cases i <;> exact .of_same rfl rfl {}

theorem LeavesBoard.handOn (s : State) (i : LineInput) (c : Captures) : LeavesBoard s (s.handOn i c) := by
  cases i <;> exact .of_same rfl rfl {}

theorem LeavesBoard.leadingEdge (s : State) (i : LineInput) : LeavesBoard s (s.leadingEdge i) := by
  unfold State.leadingEdge
  dsimp only
  split
  · split
    · exact (LeavesBoard.onInput s i _).trans (.onInput _ i _)
    · exact (LeavesBoard.onInput s i _).trans (.onInput _ i _)
  · exact .onInput s i _

theorem LeavesBoard.qualify (s : State) (i : LineInput) : LeavesBoard s (s.qualify i) := by
  unfold State.qualify
  split
  · split
    · exact (LeavesBoard.onInput s i _).trans (.handOn _ i _)
    · exact .refl s
  · exact .refl s
  · exact .refl s

theorem LeavesBoard.raiseShort (s : State) (i : LineInput) : LeavesBoard s (s.raiseShort i) := .of_same rfl rfl {}

theorem LeavesBoard.inputInactive (s : State) (i : LineInput) : LeavesBoard s (s.inputInactive i) := by
  unfold State.inputInactive
  dsimp only
  split
  · split
    · exact .onInput s i _
    · exact (LeavesBoard.onInput s i _).trans (.onInput _ i _)
    · exact ((LeavesBoard.onInput s i _).trans (.onInput _ i _)).trans (.raiseShort _ i)
  · exact .onInput s i _

theorem LeavesBoard.applyStaged (s : State) (k : Fin 8) (c : Captures) : LeavesBoard s (s.applyStaged k c) := by
  unfold State.applyStaged
  dsimp only
  split
  · refine LeavesBoard.trans ?_ (.reachSwitchOver _ _)
    exact .of_same rfl rfl {}
  · exact .of_same rfl rfl {}

theorem LeavesBoard.seamAtRun (s : State) (c : Captures) : LeavesBoard s (s.seamAtRun c) := by
  unfold State.seamAtRun
  dsimp only
  split
  · exact .of_same rfl rfl {}
  · refine LeavesBoard.trans (LeavesBoard.trans ?_ (.applyStaged _ _ c)) (.of_same rfl rfl {})
    exact .of_same rfl rfl {}

theorem LeavesBoard.qualifiedSeam (s : State) : LeavesBoard s s.qualifiedSeam := by
  unfold State.qualifiedSeam
  split
  · exact .refl s
  · dsimp only
    split
    · refine LeavesBoard.trans ?_ (.seamAtRun _ _)
      exact .of_same rfl rfl {}
    · exact .of_same rfl rfl {}

theorem LeavesBoard.seamForecast (s : State) : LeavesBoard s s.seamForecast := by
  unfold State.seamForecast
  split
  · exact .refl s
  · exact .of_same rfl rfl {}

theorem LeavesBoard.sawAt (s : State) (c : Captures) (n : Strand) : LeavesBoard s (s.sawAt c n) := by
  unfold State.sawAt
  split
  · exact .refl s
  · exact .strandEvent s n _

theorem LeavesBoard.qualifiedSaw (s : State) : LeavesBoard s s.qualifiedSaw := by
  unfold State.qualifiedSaw
  split
  · exact .refl s
  · dsimp only
    split
    · refine LeavesBoard.trans ?_ (.foldl (fun s n => .sawAt s _ n) _ _)
      exact .of_same rfl rfl {}
    · exact .of_same rfl rfl {}

theorem LeavesBoard.frameArrival (s : State) (n : Strand) (content : List Byte) (e : FrameEnd) :
    LeavesBoard s (s.frameArrival n content e) := by
  unfold State.frameArrival
  split
  · split
    · exact .onStrand s n _
    · exact .onStrand s n _
  · exact .refl s

theorem LeavesBoard.startDelimiter (s : State) (n : Strand) : LeavesBoard s (s.startDelimiter n) := by
  unfold State.startDelimiter
  split
  · split
    · exact .onStrand s n _
    · exact .onStrand s n _
  · exact .refl s

theorem LeavesBoard.arbiterLook (s : State) : LeavesBoard s s.arbiterLook := by
  unfold State.arbiterLook State.serve
  split
  · exact .refl s
  · split
    · exact .refl s
    · split
      · exact .refl s
      · exact .of_same rfl rfl {}

theorem LeavesBoard.takeScan (s : State) : LeavesBoard s s.takeScan := by
  unfold State.takeScan
  split
  · dsimp only
    split
    · exact .of_same rfl rfl {}
    · refine LeavesBoard.trans ?_ (.strandEvent _ _ _)
      exact .of_same rfl rfl {}
  · exact .refl s
  · exact .refl s

theorem LeavesBoard.takeNotice (s : State) : LeavesBoard s s.takeNotice := by
  unfold State.takeNotice
  split
  · dsimp only
    split
    · exact .of_same rfl rfl {}
    · exact .of_same rfl rfl {}
  · exact .refl s
  · exact .refl s

/-! ### Events of the run, the piece builder and the report unit -/

theorem LeavesBoard.buildPiece (s : State) (n : Strand) : LeavesBoard s (s.buildPiece n) := by
  unfold State.buildPiece
  split
  · exact .refl s
  · exact .of_same rfl rfl {}

theorem LeavesBoard.pieceBuild (s : State) : LeavesBoard s s.pieceBuild := by
  unfold State.pieceBuild
  split
  · split
    · exact .refl s
    · exact .buildPiece s _
  · exact .refl s

theorem LeavesBoard.arriveIncident (s : State) (i : Incident) : LeavesBoard s (s.arriveIncident i) := by
  unfold State.arriveIncident
  split
  · exact .of_same rfl rfl {}
  · split
    · refine LeavesBoard.trans ?_ (.setReason _ (by decide))
      exact .of_same rfl rfl {}
    · exact .of_same rfl rfl {}

theorem LeavesBoard.incidentArrival (s : State) (n : Option Strand) (b : Raiser) : LeavesBoard s (s.incidentArrival n b) := by
  unfold State.incidentArrival
  split
  · unfold State.strandIncident
    split
    · exact .refl s
    · exact (LeavesBoard.onStrand s _ _).trans (.arriveIncident _ _)
  · unfold State.inputIncident
    split
    · exact .refl s
    · refine LeavesBoard.trans ?_ (.arriveIncident _ _)
      exact .of_same rfl rfl {}

theorem LeavesBoard.closeRun (s : State) : LeavesBoard s s.closeRun := by
  unfold State.closeRun
  refine LeavesBoard.trans ?_ (.setRun _ _)
  exact .of_same rfl rfl {}

/-! ### The effects of orders (1.5) -/

theorem LeavesBoard.rejudgeLinger (s : State) : LeavesBoard s s.rejudgeLinger := by
  unfold State.rejudgeLinger
  split
  · rename_i f t hf _
    split
    · exact .of_same rfl rfl { fill := by rw [hf]; rfl }
    · split
      · exact .closePage (by rw [hf]; rfl) false
      · exact .refl s
  · exact .refl s

theorem LeavesBoard.setStation (s : State) (o : Order) : LeavesBoard s (setStation s o).1 := by
  unfold Machine.setStation
  split
  · exact .refl s
  · split
    · exact .refl s
    · unfold State.adoptStation
      refine LeavesBoard.trans ?_ (.rejudgeLinger _)
      exact .of_same rfl rfl {}

theorem LeavesBoard.adoptRecipe (s : State) (o : Order) : LeavesBoard s (adoptRecipe s o).1 := by
  unfold Machine.adoptRecipe
  dsimp only
  split
  · exact .refl s
  · split
    · exact .of_same rfl rfl {}
    · exact .of_same rfl rfl {}

theorem LeavesBoard.openRun (s : State) (k : Fin 8) (mask : Four Bool) (id : Word32) : LeavesBoard s (s.openRun k mask id) := by
  unfold State.openRun
  refine LeavesBoard.trans (LeavesBoard.trans ?_ (.setRun _ _)) (.formRecord _ _)
  exact .of_same rfl rfl {}

theorem LeavesBoard.armRun (s : State) (o : Order) : LeavesBoard s (armRun s o).1 := by
  unfold Machine.armRun
  split
  · exact .refl s
  · exact .openRun s _ _ _

theorem LeavesBoard.amendRun (s : State) (o : Order) : LeavesBoard s (amendRun s o).1 := by
  unfold Machine.amendRun
  dsimp only
  repeat' split
  all_goals exact .of_same rfl rfl {}

theorem LeavesBoard.endRun (s : State) (o : Order) : LeavesBoard s (endRun s o).1 := by
  unfold Machine.endRun
  dsimp only
  have h : LeavesBoard s (State.setRun (State.setAside
      { s.onRun (fun n st => st.endRun s.env n) with run := { s.run with staged := none } }) .finishing) := by
    refine LeavesBoard.trans (LeavesBoard.trans ?_ (.setAside _)) (.setRun _ _)
    exact .of_same rfl rfl {}
  split
  · exact .refl s
  · exact .refl s
  · exact h
  · exact h

theorem LeavesBoard.abandonRun (s : State) (o : Order) : LeavesBoard s (abandonRun s o).1 := by
  unfold Machine.abandonRun
  dsimp only
  have h : LeavesBoard s (State.setRun (State.setAside
      { (s.formRecord .abandoned).onRun (fun n st => st.abandon s.env n) with
        run := { (s.formRecord .abandoned).run with recipe := none, staged := none, waitingSwitch := none } }) .idle) := by
    refine LeavesBoard.trans (LeavesBoard.trans ?_ (.setAside _)) (.setRun _ _)
    exact .of_same rfl rfl {}
  split
  · exact .refl s
  · exact h
  · exact h
  · exact h

theorem LeavesBoard.addZoneTo (s : State) (o : Order) (n : Strand) : LeavesBoard s (s.addZoneTo o n).1 := by
  unfold State.addZoneTo
  dsimp only
  split
  · exact .refl s
  · split
    · exact .refl s
    · exact .of_same rfl rfl {}

theorem LeavesBoard.addZone (s : State) (o : Order) : LeavesBoard s (addZone s o).1 := by
  unfold Machine.addZone
  split
  · exact .refl s
  · exact .refl s
  all_goals
    split
    · exact .refl s
    · split
      · exact .addZoneTo s o _
      · exact .refl s

theorem LeavesBoard.softCut (s : State) (o : Order) : LeavesBoard s (softCut s o).1 := by
  unfold Machine.softCut
  have cuts : LeavesBoard s
      (strandsAscending.foldl (fun s n => if (maskOf o.op1).get n then s.softCutAt n else s) s) := by
    refine .foldl (fun s n => ?_) _ _
    split
    · exact .strandEvent s n _
    · exact .refl s
  split
  · exact .refl s
  · exact .refl s
  all_goals
    split
    · exact cuts
    · exact .refl s

theorem LeavesBoard.forceMarker (s : State) (o : Order) : LeavesBoard s (forceMarker s o).1 := by
  unfold Machine.forceMarker
  split
  · exact .refl s
  · split
    · exact .refl s
    · exact .of_same rfl rfl {}

/-! ## The order unit (R10 to R13) -/

/-- From s to t reasons are only set and the invariant of port, report unit and order unit is kept: what every command does but the
resets and the writes of the notice registers. -/
structure PortStep (s t : State) : Prop where
  notifies : Notifies s.xp t.xp
  ok : PortOk s → PortOk t

theorem LeavesBoard.portStep {s t : State} (h : LeavesBoard s t) : PortStep s t where
  notifies := h.notifies
  ok hs := by
    rw [portOk_iff] at *
    exact ⟨h.agrees hs.1, h.oneTaken hs.2⟩

theorem PortStep.refl (s : State) : PortStep s s := (LeavesBoard.refl s).portStep

theorem PortStep.trans {s t u : State} (h1 : PortStep s t) (h2 : PortStep t u) : PortStep s u :=
  ⟨h1.notifies.trans h2.notifies, fun h => h2.ok (h1.ok h)⟩

theorem PortStep.settled {s u : State} (h : PortStep s u) : PortStep s u.settle := h.trans (LeavesBoard.settle u).portStep

/-! ### Answers -/

/-- The state in which an answer's bytes and ANSWERED are stored, before ANSWER is set (R13). -/
def State.answerStored (s : State) (o : Order) (a : Answer) : State :=
  State.setCell { s with
    xp := { s.xp with mem := s.xp.mem.write (cellBase o.cell.val + 64) (answerBytes o a s.time) }
    orders := { s.orders with hand := none, searchDue := true } } o.cell .answered

theorem State.answer_eq (s : State) (o : Order) (a : Answer) : s.answer o a = (s.answerStored o a).setReason .answer := rfl

theorem State.answer_notifies (s : State) (o : Order) (a : Answer) : Notifies s.xp (s.answer o a).xp := by
  rw [State.answer_eq]
  refine Notifies.trans ?_ (.setReason _ _)
  exact .of_same rfl rfl rfl rfl

theorem State.answer_moves (s : State) (o : Order) (a : Answer) : CellMoves o.cell .answered s (s.answer o a) where
  outside := SameOutsideCell.trans (.write _ (by omega) (by rw [answerBytes_length]; omega)) (.write _ (Nat.le_refl _) (by simp))
  wf hw := Memory.wf_write _ _ _ (Memory.wf_write _ _ _ hw)
  word := Memory.rd32_write_leBytes _ _ _ (by decide)
  cells _ := Vector.get_set_eq_ite _ _ _ _
  pages := rfl
  report := {}

/-- With the order in hand answered no cell is TAKEN. -/
theorem OneTaken.answer {s : State} (h : OneTaken s) {o : Order} (ho : s.orders.hand = some o) (a : Answer) :
    OneTaken (s.answer o a) := by
  obtain ⟨hcells, -, hsearch⟩ := h
  refine ⟨fun i => ?_, fun _ => rfl, fun k hk => ?_⟩
  · rw [(s.answer_moves o a).cells i, State.answer_hand]
    split
    · simp
    · rename_i hi
      simp [hcells i, ho, Ne.symm hi]
  · obtain ⟨-, -, hnone⟩ := hsearch k hk
    rw [ho] at hnone
    cases hnone

theorem PortStep.answer {s : State} {o : Order} (ho : s.orders.hand = some o) (a : Answer) : PortStep s (s.answer o a) where
  notifies := s.answer_notifies o a
  ok hs := by
    rw [portOk_iff] at *
    exact ⟨(s.answer_moves o a).agrees hs.1, hs.2.answer ho a⟩

/-- The order in hand changes in its own fields only, its cell the same. -/
theorem PortStep.hand {s : State} {o o' : Order} (ho : s.orders.hand = some o) (hc : o'.cell = o.cell) :
    PortStep s { s with orders := { s.orders with hand := some o' } } where
  notifies := .refl _
  ok hs := by
    obtain ⟨hw, hcopies, hstatus, hfill, hcells, hready, hsearch⟩ := hs
    refine ⟨hw, hcopies, hstatus, hfill, fun i => ?_, fun h => ?_, fun k hk => ?_⟩
    · simpa [ho, hc] using hcells i
    · have := hready h
      rw [ho] at this
      cases this
    · obtain ⟨-, -, hnone⟩ := hsearch k hk
      rw [ho] at hnone
      cases hnone

/-- An order's result concludes it: an answer in the same event, or a result in hand. -/
theorem PortStep.conclude {s : State} {o : Order} (ho : s.orders.hand = some o) (a : Answer) (answered : Bool) :
    PortStep s (s.conclude o a answered) := by
  unfold State.conclude
  split
  · exact .answer ho a
  · exact .hand ho rfl

/-! ### Orders carried out -/

theorem PortStep.carryOut {f : State → Order → State × Answer} (hf : ∀ s o, LeavesBoard s (f s o).1) (s : State)
    (answered : Bool) (k : Nat) : PortStep s (s.carryOut answered k f) := by
  unfold State.carryOut
  split
  · exact .refl s
  · rename_i o ho
    split
    · have hs := hf s o
      exact hs.portStep.trans (.conclude (by rw [hs.orders, ho]) _ _)
    · exact .refl s

theorem PortStep.holdOrder (s : State) (k : Nat) : PortStep s (s.holdOrder k) := by
  unfold State.holdOrder
  split
  · exact .refl s
  · rename_i o ho
    split
    · exact .hand ho rfl
    · exact .refl s

theorem PortStep.carryOutRecorded {f : State → Order → State × Answer} (hf : ∀ s o, LeavesBoard s (f s o).1) (s : State)
    (answered : Bool) (k : Nat) : PortStep s (s.carryOutRecorded answered k f) := by
  unfold State.carryOutRecorded
  split
  · exact .holdOrder s k
  · exact .carryOut hf s answered k

theorem PortStep.takeWaiting (s : State) (answered : Bool) : PortStep s (s.takeWaiting answered) := by
  unfold State.takeWaiting
  split
  · exact .refl s
  · split
    · exact (PortStep.carryOut .armRun s _ _).trans (.carryOut .abandonRun _ _ _)
    · exact .refl s

theorem PortStep.runRecordEntry (s : State) (answered : Bool) : PortStep s (s.runRecordEntry answered) := by
  unfold State.runRecordEntry
  split
  · exact .refl s
  · split
    · unfold State.enterRunRecord
      dsimp only
      refine (PortStep.trans ?_ (.takeWaiting _ _)).trans (LeavesBoard.waitedSwitchOver _).portStep
      have entered : ∀ r, LeavesBoard s (State.enqueue { s with run := { s.run with slot := none } } r) :=
        fun _ => .of_same rfl rfl {}
      split
      · exact ((entered _).trans (.closeRun _)).portStep
      · exact (entered _).portStep
    · exact .refl s

/-! ### The search of the board -/

/-- The state in which a POSTED cell has been taken, before the order unit's own checks (R11). -/
def State.cellTaken (s : State) (i : Fin 32) : State :=
  State.setCell { s with orders := { s.orders with search := none, lastTaken := i, hand := some (readOrder s.xp.mem i) } } i .taken

theorem State.takeCell_eq (s : State) (i : Fin 32) (answered : Bool) : s.takeCell i answered =
    (unitAnswer (readOrder s.xp.mem i)).elim (s.cellTaken i)
      (fun a => (s.cellTaken i).conclude (readOrder s.xp.mem i) a answered) := by
  unfold State.takeCell
  cases h : unitAnswer (readOrder s.xp.mem i)
  · simp only [h]; rfl
  · simp only [h]; rfl

theorem State.cellTaken_moves (s : State) (i : Fin 32) : CellMoves i .taken s (s.cellTaken i) where
  outside := .write _ (Nat.le_refl _) (by simp)
  wf := Memory.wf_write _ _ _
  word := Memory.rd32_write_leBytes _ _ _ (by decide)
  cells _ := Vector.get_set_eq_ite _ _ _ _
  pages := rfl
  report := {}

/-- An IDLE order unit of a ready part takes a cell: that cell is then the one TAKEN cell. -/
theorem PortStep.cellTaken {s : State} (hr : s.ready = true) (hh : s.orders.hand = none) (i : Fin 32) :
    PortStep s (s.cellTaken i) where
  notifies := .of_same rfl rfl rfl rfl
  ok hs := by
    rw [portOk_iff] at *
    obtain ⟨hagrees, hcells, -, -⟩ := hs
    refine ⟨(s.cellTaken_moves i).agrees hagrees, fun j => ?_, fun h => ?_, fun k hk => ?_⟩
    · rw [(s.cellTaken_moves i).cells j]
      have hfree : s.xp.cells.get j ≠ .taken := by simp [hcells j, hh]
      by_cases hj : j = i
      · simp [hj, State.cellTaken, State.setCell, readOrder]
      · simp [hj, Ne.symm hj, hfree, State.cellTaken, State.setCell, readOrder]
    · exact absurd (hr.symm.trans h) (by decide)
    · cases hk

theorem PortStep.takeCell {s : State} (hr : s.ready = true) (hh : s.orders.hand = none) (i : Fin 32) (answered : Bool) :
    PortStep s (s.takeCell i answered) := by
  have h := PortStep.cellTaken hr hh i
  rw [State.takeCell_eq]
  cases unitAnswer (readOrder s.xp.mem i) with
  | none => exact h
  | some a => exact h.trans (.conclude rfl a answered)

/-- The order unit's search and flags change while no order is in hand; a search under way is of a ready part. -/
theorem PortStep.idle {s : State} {w : OrderUnit} (hh : s.orders.hand = none) (hw : w.hand = none)
    (hs : ∀ k, w.search = some k → k < 32 ∧ s.ready = true) : PortStep s { s with orders := w } where
  notifies := .refl _
  ok h := by
    obtain ⟨hwf, hcopies, hstatus, hfill, hcells, -, -⟩ := h
    refine ⟨hwf, hcopies, hstatus, hfill, fun i => ?_, fun _ => hw, fun k hk => ?_⟩
    · simpa [hh, hw] using hcells i
    · exact ⟨(hs k hk).1, (hs k hk).2, hw⟩

theorem PortStep.search {s : State} (hr : s.ready = true) (hh : s.orders.hand = none) (k cells : Nat) (answered : Bool) :
    PortStep s (s.search k cells answered) := by
  rcases s.search_cases k cells answered with ⟨i, -, e⟩ | ⟨-, e⟩
  · rw [e]
    exact .takeCell hr hh i answered
  · rw [e]
    refine .idle hh hh fun j hj => ⟨?_, hr⟩
    dsimp only at hj
    split at hj
    · cases hj
      assumption
    · cases hj

theorem PortStep.searchBoard {s : State} (hr : s.ready = true) (hh : s.orders.hand = none) (cells : Nat) (answered : Bool) :
    PortStep s (s.searchBoard cells answered) := by
  rcases s.searchBoard_cases cells answered with ⟨k, -, e⟩ | ⟨hk, ⟨-, e⟩ | ⟨-, -, e⟩ | ⟨-, -, e⟩⟩
  · rw [e]
    exact .search hr hh k cells answered
  · rw [e]
    refine PortStep.trans ?_ (.search (by exact hr) (by exact hh) 0 cells answered)
    exact .idle hh hh fun j hj => by rw [hk] at hj; cases hj
  · rw [e]
    refine PortStep.trans ?_ (.search (by exact hr) (by exact hh) 0 cells answered)
    exact .idle hh hh fun j hj => by rw [hk] at hj; cases hj
  · rw [e]
    exact .refl s

theorem PortStep.orderUnit (s : State) (cells : Nat) (answered : Bool) : PortStep s (s.orderUnit cells answered) := by
  rcases s.orderUnit_cases cells answered with ⟨-, e⟩ | ⟨hr, ⟨hh, e⟩ | ⟨o, ho, ⟨-, e⟩ | ⟨a, -, e⟩⟩⟩
  · rw [e]
    exact .refl s
  · rw [e]
    exact .searchBoard hr hh cells answered
  · rw [e]
    exact .refl s
  · rw [e]
    exact .answer ho a

/-! ## Host writes to the exchange window (R5 to R9) -/

theorem coversWord_iff (w offset : Nat) (bytes : List Byte) :
    coversWord w offset bytes = true ↔ offset = w ∧ bytes.length = 4 := by simp [coversWord]

/-- A write is accepted where every byte of it is (R5). -/
theorem ExchangePort.acceptsAll_iff (x : ExchangePort) (offset : Nat) (bytes : List Byte) :
    x.acceptsAll offset bytes = true ↔ ∀ k < bytes.length, x.accepts offset bytes (offset + k) = true := by
  simp [ExchangePort.acceptsAll]

/-- One byte that is not accepted refuses the whole write. -/
theorem ExchangePort.acceptsAll_eq_false {x : ExchangePort} {offset a : Nat} {bytes : List Byte} (h1 : offset ≤ a)
    (h2 : a < offset + bytes.length) (h : x.accepts offset bytes a = false) : x.acceptsAll offset bytes = false := by
  rw [Bool.eq_false_iff, ne_eq, ExchangePort.acceptsAll_iff]
  intro hall
  have := hall (a - offset) (by omega)
  rw [Nat.add_sub_cancel' h1, h] at this
  cases this

/-! ### Bytes, region by region -/

/-- The status block takes no host write (R6). -/
theorem ExchangePort.accepts_status (x : ExchangePort) (offset : Nat) (bytes : List Byte) {a : Nat} (h : a < 0x1000) :
    x.accepts offset bytes a = false := by simp [ExchangePort.accepts, h]

/-- The host-written pages take every byte (R6). -/
theorem ExchangePort.accepts_hostPages (x : ExchangePort) (offset : Nat) (bytes : List Byte) {a : Nat} (h1 : 0x2000 ≤ a)
    (h2 : a < 0x14000) : x.accepts offset bytes a = true := by
  simp [ExchangePort.accepts, show ¬ a < 0x1000 by omega, show ¬ a < 0x2000 by omega, h2]

theorem cellAt_cellBase (i : Fin 32) (k : Nat) (hk : k < 128) : cellAt (cellBase i.val + k) = i := by
  apply Fin.ext
  simp only [cellAt, cellBase, Fin.ofNat]
  omega

theorem pageAt_pageBase (p : Fin 54) (k : Nat) (hk : k < 8192) : pageAt (pageBase p.val + k) = p := by
  apply Fin.ext
  simp only [pageAt, pageBase, Fin.ofNat]
  omega

/-- A byte of a cell's state word is accepted with the whole word, any other byte of it while the cell is FREE (R7, R8). -/
theorem ExchangePort.accepts_cell (x : ExchangePort) (offset : Nat) (bytes : List Byte) (i : Fin 32) (k : Nat) (hk : k < 128) :
    x.accepts offset bytes (cellBase i.val + k) =
      if k < 4 then coversWord (cellBase i.val) offset bytes && (x.cells.get i).takes (leNat bytes)
      else x.cells.get i == .free := by
  have h1 : ¬ cellBase i.val + k < 0x1000 := by unfold cellBase; omega
  have h2 : cellBase i.val + k < 0x2000 := by unfold cellBase; omega
  have h3 : (cellBase i.val + k - 0x1000) % 128 = k := by unfold cellBase; omega
  rw [ExchangePort.accepts, if_neg h1, if_pos h2, h3, cellAt_cellBase i k hk]

/-- A byte of a report page is accepted with the page's whole state word only (R7, R9). -/
theorem ExchangePort.accepts_page (x : ExchangePort) (offset : Nat) (bytes : List Byte) (p : Fin 54) (k : Nat) (hk : k < 8192) :
    x.accepts offset bytes (pageBase p.val + k) =
      (decide (k < 4) && coversWord (pageBase p.val) offset bytes && (x.pages.get p).takes (leNat bytes)) := by
  have h1 : ¬ pageBase p.val + k < 0x1000 := by unfold pageBase; omega
  have h2 : ¬ pageBase p.val + k < 0x2000 := by unfold pageBase; omega
  have h3 : ¬ pageBase p.val + k < 0x14000 := by unfold pageBase; omega
  have h4 : (pageBase p.val + k) % 0x2000 = k := by unfold pageBase; omega
  rw [ExchangePort.accepts, if_neg h1, if_neg h2, if_neg h3, h4, pageAt_pageBase p k hk]

/-- Every byte of pages 10 to 63 lies in one of them. -/
theorem exists_pageBase {a : Nat} (h1 : 0x14000 ≤ a) (h2 : a < 0x80000) :
    ∃ (p : Fin 54) (k : Nat), k < 8192 ∧ a = pageBase p.val + k :=
  ⟨⟨a / 0x2000 - 10, by omega⟩, a % 0x2000, by omega, by simp only [pageBase]; omega⟩

theorem cellBase_injective {i j : Fin 32} (h : cellBase i.val = cellBase j.val) : i = j :=
  Fin.ext (by unfold cellBase at h; omega)

theorem pageBase_injective {p q : Fin 54} (h : pageBase p.val = pageBase q.val) : p = q :=
  Fin.ext (by unfold pageBase at h; omega)

/-! ### State words -/

/-- A write that touches a cell's state word is accepted only where it is the whole word. -/
theorem covers_of_accepts_cell {x : ExchangePort} {offset : Nat} {bytes : List Byte} (h : x.acceptsAll offset bytes = true)
    (i : Fin 32) (hb : 0 < bytes.length) (h1 : offset < cellBase i.val + 4) (h2 : cellBase i.val < offset + bytes.length) :
    (offset = cellBase i.val ∧ bytes.length = 4) ∧ (x.cells.get i).takes (leNat bytes) = true := by
  have hk : max offset (cellBase i.val) - cellBase i.val < 4 := by omega
  have := (x.acceptsAll_iff offset bytes).mp h (max offset (cellBase i.val) - offset) (by omega)
  rw [show offset + (max offset (cellBase i.val) - offset) = cellBase i.val + (max offset (cellBase i.val) - cellBase i.val) by omega,
    x.accepts_cell offset bytes i _ (by omega), if_pos hk, Bool.and_eq_true, coversWord_iff] at this
  exact this

/-- A write that touches a report page is accepted only where it is the whole state word. -/
theorem covers_of_accepts_page {x : ExchangePort} {offset : Nat} {bytes : List Byte} (h : x.acceptsAll offset bytes = true)
    (p : Fin 54) (hb : 0 < bytes.length) (h1 : offset < pageBase p.val + 8192) (h2 : pageBase p.val < offset + bytes.length) :
    (offset = pageBase p.val ∧ bytes.length = 4) ∧ (x.pages.get p).takes (leNat bytes) = true := by
  have := (x.acceptsAll_iff offset bytes).mp h (max offset (pageBase p.val) - offset) (by omega)
  rw [show offset + (max offset (pageBase p.val) - offset) = pageBase p.val + (max offset (pageBase p.val) - pageBase p.val) by omega,
    x.accepts_page offset bytes p _ (by omega), Bool.and_eq_true, Bool.and_eq_true, coversWord_iff] at this
  exact ⟨this.1.2, this.2⟩

/-- A whole cell state word is accepted where the cell's state takes the value (R8). -/
theorem ExchangePort.acceptsAll_cellWord (x : ExchangePort) (i : Fin 32) {bytes : List Byte} (hl : bytes.length = 4) :
    x.acceptsAll (cellBase i.val) bytes = (x.cells.get i).takes (leNat bytes) := by
  have hc : coversWord (cellBase i.val) (cellBase i.val) bytes = true := (coversWord_iff _ _ _).mpr ⟨rfl, hl⟩
  rw [Bool.eq_iff_iff, ExchangePort.acceptsAll_iff, hl]
  constructor
  · intro h
    have h0 := h 0 (by omega)
    rwa [x.accepts_cell _ bytes i 0 (by omega), if_pos (by omega), hc, Bool.true_and] at h0
  · intro h k hk
    rw [x.accepts_cell _ bytes i k (by omega), if_pos hk, hc, h]
    rfl

/-- A whole page state word is accepted where the page's state takes the value (R9). -/
theorem ExchangePort.acceptsAll_pageWord (x : ExchangePort) (p : Fin 54) {bytes : List Byte} (hl : bytes.length = 4) :
    x.acceptsAll (pageBase p.val) bytes = (x.pages.get p).takes (leNat bytes) := by
  have hc : coversWord (pageBase p.val) (pageBase p.val) bytes = true := (coversWord_iff _ _ _).mpr ⟨rfl, hl⟩
  rw [Bool.eq_iff_iff, ExchangePort.acceptsAll_iff, hl]
  constructor
  · intro h
    have h0 := h 0 (by omega)
    rw [x.accepts_page _ bytes p 0 (by omega), hc] at h0
    simpa using h0
  · intro h k hk
    simp [x.accepts_page _ bytes p k (by omega), hc, h, hk]

/-- The values a cell's state takes from the host, and the state they make (R8). -/
theorem CellState.takes_iff (c : CellState) (v : Nat) :
    c.takes v = true ↔ (c = .free ∧ v = 1) ∨ (c = .answered ∧ v = 0) := by
  cases c <;> simp [CellState.takes, CellState.code]

theorem CellState.written_code {c : CellState} {v : Nat} (h : c.takes v = true) : c.written.code = v := by
  rcases (c.takes_iff v).mp h with ⟨rfl, rfl⟩ | ⟨rfl, rfl⟩ <;> rfl

/-- A host write makes no cell TAKEN, and of no TAKEN cell another. -/
theorem CellState.written_taken (c : CellState) : c.written = .taken ↔ c = .taken := by cases c <;> decide

theorem PageState.takes_iff (c : PageState) (v : Nat) : c.takes v = true ↔ c = .closed ∧ v = 0 := by
  cases c <;> simp [PageState.takes, PageState.code]

theorem postedTo_eq_some (offset : Nat) (bytes : List Byte) (i : Fin 32) :
    postedTo offset bytes = some i ↔ offset = cellBase i.val ∧ bytes.length = 4 := by
  unfold postedTo
  split
  · rename_i h
    obtain ⟨h1, h2, h3, h4⟩ := h
    have hi : cellBase (cellAt offset).val = offset := by
      simp only [cellBase, cellAt, Fin.ofNat]
      omega
    simp only [Option.some.injEq, h4, and_true]
    exact ⟨fun e => by rw [← e, hi], fun e => cellBase_injective (by rw [hi, e])⟩
  · rename_i h
    simp only [reduceCtorEq, false_iff]
    rintro ⟨rfl, hl⟩
    exact h (by unfold cellBase; omega)

theorem returnedTo_eq_some {offset : Nat} {bytes : List Byte} (hw : offset + bytes.length ≤ 0x80000) (p : Fin 54) :
    returnedTo offset bytes = some p ↔ offset = pageBase p.val ∧ bytes.length = 4 := by
  unfold returnedTo
  split
  · rename_i h
    obtain ⟨h1, h2, h3⟩ := h
    have hp : pageBase (pageAt offset).val = offset := by
      simp only [pageBase, pageAt, Fin.ofNat]
      omega
    simp only [Option.some.injEq, h3, and_true]
    exact ⟨fun e => by rw [← e, hp], fun e => pageBase_injective (by rw [hp, e])⟩
  · rename_i h
    simp only [reduceCtorEq, false_iff]
    rintro ⟨rfl, hl⟩
    exact h (by unfold pageBase; omega)

/-! ### What an accepted write makes of the state -/

/-- An accepted write of a word covers a cell's state word, a page's, or none; what follows it in each case (R7 to R10). -/
theorem State.acceptWrite_cases (s : State) {offset : Nat} {bytes : List Byte} (hw : offset + bytes.length ≤ 0x80000) :
    (∃ i : Fin 32, (offset = cellBase i.val ∧ bytes.length = 4) ∧ s.acceptWrite offset bytes =
      { s with
        xp := { s.xp with mem := s.xp.mem.write offset bytes, cells := s.xp.cells.set i (s.xp.cells.get i).written }
        orders := { s.orders with attention := s.orders.attention || (s.xp.cells.get i).written == .posted } }) ∨
    (∃ p : Fin 54, (offset = pageBase p.val ∧ bytes.length = 4) ∧ s.acceptWrite offset bytes =
      { s with xp := { s.xp with mem := s.xp.mem.write offset bytes, pages := s.xp.pages.set p .free } }) ∨
    ((∀ i : Fin 32, ¬ (offset = cellBase i.val ∧ bytes.length = 4)) ∧
      (∀ p : Fin 54, ¬ (offset = pageBase p.val ∧ bytes.length = 4)) ∧
      s.acceptWrite offset bytes = { s with xp := { s.xp with mem := s.xp.mem.write offset bytes } }) := by
  unfold State.acceptWrite State.wordWritten
  cases hi : postedTo offset bytes with
  | some i => exact .inl ⟨i, (postedTo_eq_some _ _ i).mp hi, rfl⟩
  | none =>
    have hcell : ∀ i : Fin 32, ¬ (offset = cellBase i.val ∧ bytes.length = 4) := fun i h => by
      rw [(postedTo_eq_some offset bytes i).mpr h] at hi
      cases hi
    cases hp : returnedTo offset bytes with
    | some p => exact .inr (.inl ⟨p, (returnedTo_eq_some hw p).mp hp, rfl⟩)
    | none =>
      refine .inr (.inr ⟨hcell, fun p h => ?_, rfl⟩)
      rw [(returnedTo_eq_some hw p).mpr h] at hp
      cases hp

/-- No cell's state word is a page's. -/
theorem cellBase_ne_pageBase (i : Fin 32) (p : Fin 54) : cellBase i.val ≠ pageBase p.val := by
  unfold cellBase pageBase
  omega

theorem State.acceptWrite_mem (s : State) (offset : Nat) (bytes : List Byte) :
    (s.acceptWrite offset bytes).xp.mem = s.xp.mem.write offset bytes := by
  unfold State.acceptWrite State.wordWritten
  split <;> rfl

theorem State.acceptWrite_cells (s : State) (offset : Nat) (bytes : List Byte) (hw : offset + bytes.length ≤ 0x80000) (i : Fin 32) :
    (s.acceptWrite offset bytes).xp.cells.get i =
      if offset = cellBase i.val ∧ bytes.length = 4 then (s.xp.cells.get i).written else s.xp.cells.get i := by
  rcases s.acceptWrite_cases hw with ⟨j, ⟨rfl, hl⟩, e⟩ | ⟨p, ⟨rfl, -⟩, e⟩ | ⟨hc, -, e⟩
  · rw [e]
    simp only [Vector.get_set_eq_ite, hl, and_true]
    by_cases h : i = j
    · subst h
      simp
    · rw [if_neg h, if_neg fun e => h (cellBase_injective e).symm]
  · rw [e, if_neg fun h => cellBase_ne_pageBase i p h.1.symm]
  · rw [e, if_neg (hc i)]

theorem State.acceptWrite_pages (s : State) (offset : Nat) (bytes : List Byte) (hw : offset + bytes.length ≤ 0x80000) (p : Fin 54) :
    (s.acceptWrite offset bytes).xp.pages.get p =
      if offset = pageBase p.val ∧ bytes.length = 4 then .free else s.xp.pages.get p := by
  rcases s.acceptWrite_cases hw with ⟨i, ⟨rfl, -⟩, e⟩ | ⟨q, ⟨rfl, hl⟩, e⟩ | ⟨-, hp, e⟩
  · rw [e, if_neg fun h => cellBase_ne_pageBase i p h.1]
  · rw [e]
    simp only [Vector.get_set_eq_ite, hl, and_true]
    by_cases h : p = q
    · subst h
      simp
    · rw [if_neg h, if_neg fun e => h (pageBase_injective e).symm]
  · rw [e, if_neg (hp p)]

/-- Beyond memory, copies and the attention flag an accepted write changes nothing. -/
theorem State.acceptWrite_rest (s : State) (offset : Nat) (bytes : List Byte) : s.acceptWrite offset bytes =
    { s with
      xp := { s.xp with
        mem := (s.acceptWrite offset bytes).xp.mem, cells := (s.acceptWrite offset bytes).xp.cells
        pages := (s.acceptWrite offset bytes).xp.pages }
      orders := { s.orders with attention := (s.acceptWrite offset bytes).orders.attention } } := by
  unfold State.acceptWrite State.wordWritten
  split <;> rfl

/-- What an accepted write does to the words and copies keeps them in agreement (R7, R8, R9). -/
theorem CopiesAgree.acceptWrite {s : State} (h : CopiesAgree s) {offset : Nat} {bytes : List Byte}
    (hw : offset + bytes.length ≤ 0x80000) (ha : s.xp.acceptsAll offset bytes = true) :
    CopiesAgree (s.acceptWrite offset bytes) := by
  have stored : ∀ b, offset = b ∧ bytes.length = 4 → (s.xp.mem.write offset bytes).rd32 b = leNat bytes := fun b hb => by
    have := s.xp.mem.rdNat_write_self offset bytes
    rw [hb.2, hb.1] at this
    rw [hb.1]
    exact this
  refine ⟨fun i => ?_, fun p => ?_⟩
  · rw [s.acceptWrite_mem, s.acceptWrite_cells _ _ hw]
    by_cases hc : 0 < bytes.length ∧ offset < cellBase i.val + 4 ∧ cellBase i.val < offset + bytes.length
    · obtain ⟨hcov, htakes⟩ := covers_of_accepts_cell ha i hc.1 hc.2.1 hc.2.2
      rw [if_pos hcov, stored _ hcov, CellState.written_code htakes]
    · rw [if_neg (by omega), ← h.1 i]
      exact Memory.rd32_congr fun k _ => Memory.rd_write_outside _ _ _ _ (by omega)
  · rw [s.acceptWrite_mem, s.acceptWrite_pages _ _ hw]
    by_cases hc : 0 < bytes.length ∧ offset < pageBase p.val + 4 ∧ pageBase p.val < offset + bytes.length
    · obtain ⟨hcov, htakes⟩ := covers_of_accepts_page ha p hc.1 (by omega) hc.2.2
      rw [if_pos hcov, stored _ hcov, (((s.xp.pages.get p).takes_iff _).mp htakes).2]
      rfl
    · rw [if_neg (by omega), ← h.2 p]
      exact Memory.rd32_congr fun k _ => Memory.rd_write_outside _ _ _ _ (by omega)

/-- An accepted write stores nothing in the status block. -/
theorem le_offset_of_accepts {x : ExchangePort} {offset : Nat} {bytes : List Byte} (h : x.acceptsAll offset bytes = true)
    (hb : bytes ≠ []) : 0x1000 ≤ offset := by
  by_contra hlt
  have := List.length_pos_of_ne_nil hb
  rw [ExchangePort.acceptsAll_eq_false (Nat.le_refl offset) (by omega) (x.accepts_status offset bytes (by omega))] at h
  cases h

/-- An accepted write leaves the FILLING page and the TAKEN cell as they are, and the invariant with them. -/
theorem PortStep.acceptWrite {s : State} {offset : Nat} {bytes : List Byte}
    (hw : offset + bytes.length ≤ 0x80000) (ha : s.xp.acceptsAll offset bytes = true) :
    PortStep s (s.acceptWrite offset bytes) where
  notifies := by
    rw [s.acceptWrite_rest]
    exact .of_same rfl rfl rfl rfl
  ok hs := by
    obtain ⟨hwf, hcopies, hstatus, hfill, htaken⟩ := hs
    have hrest := s.acceptWrite_rest offset bytes
    refine ⟨?_, hcopies.acceptWrite hw ha, ?_, fun p => ?_, fun i => ?_, ?_⟩
    · rw [s.acceptWrite_mem]
      exact Memory.wf_write _ _ _ hwf
    · refine hstatus.of_same (fun a hlt => ?_) (by rw [hrest]) (by rw [hrest]) (by rw [hrest])
      rw [s.acceptWrite_mem]
      refine Memory.rd_write_outside _ _ _ _ ?_
      by_cases hb : bytes = []
      · subst hb
        simp only [List.length_nil]
        omega
      · have := le_offset_of_accepts ha hb
        omega
    · rw [s.acceptWrite_pages _ _ hw, show (s.acceptWrite offset bytes).report = s.report by rw [hrest], ← hfill p]
      split
      · rename_i hc
        have := covers_of_accepts_page ha p (by omega) (by omega) (by omega)
        simp [(((s.xp.pages.get p).takes_iff _).mp this.2).1]
      · rfl
    · rw [s.acceptWrite_cells _ _ hw, show (s.acceptWrite offset bytes).orders.hand = s.orders.hand by rw [hrest], ← htaken.1 i]
      split
      · exact CellState.written_taken _
      · rfl
    · rw [show (s.acceptWrite offset bytes).orders.hand = s.orders.hand by rw [hrest],
        show (s.acceptWrite offset bytes).orders.search = s.orders.search by rw [hrest],
        show (s.acceptWrite offset bytes).ready = s.ready by unfold State.ready; rw [hrest]]
      exact htaken.2

theorem LeavesBoard.refuseWrite (s : State) (offset : Nat) : LeavesBoard s (s.refuseWrite offset) :=
  (LeavesBoard.setReason s (by decide)).trans (.showIfChanged _ _)

theorem PortStep.hostWrite (s : State) {offset : Nat} {bytes : List Byte} (hw : offset + bytes.length ≤ 0x80000) :
    PortStep s (s.hostWrite offset bytes) := by
  unfold State.hostWrite
  split
  · split
    · rename_i ha
      exact (PortStep.acceptWrite hw ha).settled
    · exact (LeavesBoard.refuseWrite s offset).portStep.settled
  · exact .refl s

/-! ## Resets (R15, R16) -/

/-! ### The invariant at power-on -/

theorem State.reset_cells (i : Fin 32) : State.reset.xp.cells.get i = .free := by
  rw [Vector.get_eq_getElem]
  exact Vector.getElem_replicate _

theorem State.reset_pages (p : Fin 54) : State.reset.xp.pages.get p = .free := by
  rw [Vector.get_eq_getElem]
  exact Vector.getElem_replicate _

/-- Beyond the status block every byte is zero at power-on (log 5). -/
theorem State.reset_rd {a : Nat} (h : 32 ≤ a) : State.reset.xp.mem.rd a = 0#8 := by
  simp only [State.reset, Memory.rd]
  repeat rw [if_neg (by omega)]

theorem State.reset_rd32 {a : Nat} (h : 32 ≤ a) : State.reset.xp.mem.rd32 a = 0 := by
  simp only [Memory.rd32, Memory.rdNat, Memory.rdBytes]
  repeat rw [State.reset_rd (by omega)]
  rfl

theorem State.reset_statusAgrees : StatusAgrees State.reset := by
  unfold StatusAgrees
  decide +kernel

theorem State.reset_portOk : PortOk State.reset := by
  refine ⟨by decide, ⟨fun i => ?_, fun p => ?_⟩, State.reset_statusAgrees, fun p => ?_, fun i => ?_, fun _ => rfl,
    fun k hk => ?_⟩
  · rw [State.reset_cells, State.reset_rd32 (by unfold cellBase; omega)]
    rfl
  · rw [State.reset_pages, State.reset_rd32 (by unfold pageBase; omega)]
    rfl
  · rw [State.reset_pages]
    simp [State.reset]
  · rw [State.reset_cells]
    simp [State.reset]
  · cases hk

/-- POWER_ON leaves the invariant as it is at power-on. -/
theorem State.powerOn_portOk (s : State) : PortOk s.powerOn := State.reset_portOk

/-! ### Initialisation and the end of a restart -/

/-- A part that is not ready, and so has no order in hand and no search under way, becomes ready. -/
theorem PortStep.becomesReady {s : State} (hr : s.ready = false) : PortStep s { s with xp := { s.xp with phase := .ready } } where
  notifies := .of_same rfl rfl rfl rfl
  ok hs := by
    rw [portOk_iff] at *
    obtain ⟨hagrees, hcells, hhand, hsearch⟩ := hs
    refine ⟨hagrees.of_same rfl rfl rfl {}, hcells, fun _ => hhand hr, fun k hk => ?_⟩
    exact absurd ((hsearch k hk).2.1.symm.trans hr) (by decide)

theorem LeavesBoard.sampleLines (s : State) : LeavesBoard s s.sampleLines := .of_same rfl rfl {}

theorem PortStep.endPowerOn {s : State} (h : s.xp.phase = .initialising) : PortStep s s.endPowerOn where
  notifies := .of_same rfl rfl rfl rfl
  ok hs := by
    have hr : s.ready = false := by simp [State.ready, h]
    obtain ⟨hagrees, htaken⟩ := (portOk_iff _).mp ((PortStep.becomesReady hr).ok hs)
    exact (portOk_iff _).mpr ⟨.storeStatus hagrees.wf hagrees.copies hagrees.filling, htaken⟩

theorem Notifies.conclude (s : State) (o : Order) (a : Answer) (answered : Bool) : Notifies s.xp (s.conclude o a answered).xp := by
  unfold State.conclude
  split
  · exact s.answer_notifies o a
  · exact .refl _

theorem Notifies.search (s : State) (k cells : Nat) (answered : Bool) : Notifies s.xp (s.search k cells answered).xp := by
  rcases s.search_cases k cells answered with ⟨i, -, e⟩ | ⟨-, e⟩
  · have taken : Notifies s.xp (s.cellTaken i).xp := .of_same rfl rfl rfl rfl
    rw [e, State.takeCell_eq]
    cases unitAnswer (readOrder s.xp.mem i) with
    | none => exact taken
    | some a => exact taken.trans (.conclude _ _ a answered)
  · rw [e]

/-- The part at the end of a restart, before the order unit searches the board (R16). -/
def State.restartShowing (s : State) : State :=
  let s1 := State.sampleLines { s with xp := { s.xp with phase := .ready } }
  s1.putStatus s1.restartShown

theorem State.endRestart_eq (s : State) (cells : Nat) (answered : Bool) :
    s.endRestart cells answered = s.restartShowing.search 0 cells answered := rfl

theorem PortStep.restartShowing {s : State} (h : s.xp.phase = .restarting) : PortStep s s.restartShowing := by
  have hr : s.ready = false := by simp [State.ready, h]
  exact (PortStep.becomesReady hr).trans ((LeavesBoard.sampleLines _).trans (.putStatus _ _)).portStep

theorem PortStep.endRestart {s : State} (h : s.xp.phase = .restarting) (cells : Nat) (answered : Bool) :
    PortStep s (s.endRestart cells answered) := by
  have hshow := PortStep.restartShowing h
  rw [State.endRestart_eq]
  refine ⟨hshow.notifies.trans (.search _ _ _ _), fun hs => ?_⟩
  have hh : s.orders.hand = none := by
    obtain ⟨-, -, -, -, -, hhand, -⟩ := hs
    exact hhand (by simp [State.ready, h])
  exact (hshow.trans (.search (by rfl) (by exact hh) 0 cells answered)).ok hs

/-! ### A part restart -/

/-- The part as a restart begins: IDENT reads 0 and NOTICE is cleared (R16, log 28). -/
def State.restartBegun (s : State) : State :=
  { s with xp := ({ s.xp with phase := .restarting } : ExchangePort).putNotice 0#6 s.xp.mask }

/-- The part as its blocks have restarted, before the end of the event. -/
def State.restarted (s : State) : State := s.restartBegun.restartOrders.restartRun.restartBlocks.restartReport

theorem State.restart_of_ready {s : State} (h : s.ready = true) : s.restart = s.restarted.settle := by
  unfold State.restart
  rw [if_pos h]
  rfl

theorem State.restart_of_not_ready {s : State} (h : s.ready = false) : s.restart = s := by simp [State.restart, h]

/-- Clearing NOTICE sends no message. -/
theorem State.restartBegun_sent (s : State) : s.restartBegun.xp.msiSent = s.xp.msiSent := by
  simp [State.restartBegun, ExchangePort.putNotice]

theorem LeavesBoard.restartRun (s : State) : LeavesBoard s s.restartRun := by
  unfold State.restartRun
  refine (LeavesBoard.setRun s .idle).trans ?_
  exact .of_same rfl rfl {}

theorem LeavesBoard.restartBlocks (s : State) : LeavesBoard s s.restartBlocks := .of_same rfl rfl {}

theorem LeavesBoard.restartReport (s : State) : LeavesBoard s s.restartReport := by
  unfold State.restartReport
  split
  · exact .of_same rfl rfl {}
  · rename_i f hf
    refine LeavesBoard.trans (.closePage (f := f) (by rw [hf]; rfl) true) ?_
    exact .of_same rfl rfl {}

/-- What follows the order unit's restart leaves the board alone. -/
theorem LeavesBoard.restarted (s : State) : LeavesBoard s.restartBegun.restartOrders s.restarted :=
  ((LeavesBoard.restartRun _).trans (.restartBlocks _)).trans (.restartReport _)

theorem Notifies.restartOrders (s : State) : Notifies s.xp s.restartOrders.xp := by
  unfold State.restartOrders
  cases s.orders.hand with
  | none => exact .refl _
  | some o => exact s.answer_notifies o .aborted

theorem PortAgrees.restartOrders {s : State} (h : PortAgrees s) : PortAgrees s.restartOrders := by
  unfold State.restartOrders
  cases s.orders.hand with
  | none => exact h.of_same rfl rfl rfl {}
  | some o => exact ((s.answer_moves o .aborted).agrees h).of_same rfl rfl rfl {}

theorem State.restartOrders_orders (s : State) : s.restartOrders.orders =
    { attention := false, searchDue := false, search := none, lastTaken := s.orders.lastTaken, hand := none } := by
  unfold State.restartOrders
  cases h : s.orders.hand with
  | none => simp [h]
  | some o => simp

/-- The cell of an order in hand is answered, the others keep their state. -/
theorem State.restartOrders_cells (s : State) (i : Fin 32) : s.restartOrders.xp.cells.get i =
    if ∃ o, s.orders.hand = some o ∧ o.cell = i then .answered else s.xp.cells.get i := by
  unfold State.restartOrders
  cases h : s.orders.hand with
  | none => simp
  | some o =>
    have := (s.answer_moves o .aborted).cells i
    simp only [Option.some.injEq, exists_eq_left', eq_comm (a := o.cell)]
    exact this

theorem OneTaken.restartOrders {s : State}
    (h : ∀ i : Fin 32, s.xp.cells.get i = .taken ↔ ∃ o, s.orders.hand = some o ∧ o.cell = i) :
    OneTaken s.restartOrders := by
  have ho := s.restartOrders_orders
  refine ⟨fun i => ?_, fun _ => by rw [ho], fun k hk => ?_⟩
  · rw [s.restartOrders_cells i, ho]
    split
    · simp
    · rename_i hi
      simp [h i, hi]
  · rw [ho] at hk
    cases hk

/-- A part restart keeps the invariant. -/
theorem PortOk.restart {s : State} (h : PortOk s) : PortOk s.restart := by
  by_cases hr : s.ready = true
  · obtain ⟨hagrees, hcells, -, -⟩ := (portOk_iff _).mp h
    have hbegun : PortAgrees s.restartBegun := hagrees.of_same rfl rfl rfl {}
    have horders : PortOk s.restartBegun.restartOrders := (portOk_iff _).mpr ⟨hbegun.restartOrders, .restartOrders hcells⟩
    rw [State.restart_of_ready hr]
    exact (LeavesBoard.restarted s).settled.portStep.ok horders
  · rw [State.restart_of_not_ready (by simpa using hr)]
    exact h

/-! ## Every command -/

/-- The commands that clear NOTICE, set its mask, switch MSI or apply power; every other command is a step of the port. -/
def Instr.setsNotice : Instr → Bool
  | .powerOn | .restart | .pcieLinkReset | .msiEnable | .msiDisable => true
  | .noticeWrite _ | .noticeMaskWrite _ | .registerWriteIgnored _ _ => true
  | _ => false

theorem PortStep.next {s u t : State} (h : PortStep s u)
    (e : (Host.Outcome.next u : Host.Outcome State Fault Refusal) = .next t) : PortStep s t := by
  cases e
  exact h

/-- What every command but those of the notice does to the port, command by command. -/
theorem PortStep.of_exec {c : Instr} {s t : State} (hc : Instr.setsNotice c = false) (h : exec c s = .next t) : PortStep s t := by
  have quiet : ∀ u, LeavesBoard s u → exec c s = .next u → PortStep s t := fun u hu e => hu.portStep.next (e ▸ h)
  have settled : ∀ u, LeavesBoard s u → exec c s = .next u.settle → PortStep s t := fun u hu e => quiet _ hu.settled e
  cases c with
  | powerOn => cases hc
  | restart => cases hc
  | pcieLinkReset => cases hc
  | msiEnable => cases hc
  | msiDisable => cases hc
  | noticeWrite v => cases hc
  | noticeMaskWrite v => cases hc
  | registerWriteIgnored r d => cases hc
  | powerOnInitEnd =>
    refine PortStep.next ?_ h
    split
    · rename_i hp
      exact .endPowerOn hp
    · exact .refl s
  | restartEnd cells answered =>
    refine PortStep.next ?_ h
    split
    · rename_i hp
      exact (PortStep.endRestart hp cells answered).settled
    · exact .refl s
  | exchangeWrite offset bytes =>
    by_cases hw : offset + bytes.length ≤ Config.windowBytes
    · exact (PortStep.hostWrite s hw).next ((if_pos hw).symm.trans h)
    · exact absurd ((if_neg hw).symm.trans h) (by simp)
  | cellPost i => exact (PortStep.hostWrite s (by simp only [leBytes_length, cellBase]; omega)).next h
  | cellFree i => exact (PortStep.hostWrite s (by simp only [leBytes_length, cellBase]; omega)).next h
  | pageReturn p => exact (PortStep.hostWrite s (by simp only [leBytes_length, pageBase]; omega)).next h
  | orderSearch cells answered => exact (PortStep.orderUnit s cells answered).settled.next h
  | setStation answered => exact (PortStep.carryOut .setStation s answered 1).settled.next h
  | adoptRecipe answered => exact (PortStep.carryOut .adoptRecipe s answered 2).settled.next h
  | armRun answered => exact (PortStep.carryOutRecorded .armRun s answered 3).settled.next h
  | amendRun answered => exact (PortStep.carryOut .amendRun s answered 4).settled.next h
  | endRun answered => exact (PortStep.carryOut .endRun s answered 5).settled.next h
  | abandonRun answered => exact (PortStep.carryOutRecorded .abandonRun s answered 6).settled.next h
  | addZone answered => exact (PortStep.carryOut .addZone s answered 7).settled.next h
  | softCut answered => exact (PortStep.carryOut .softCut s answered 8).settled.next h
  | forceMarker answered => exact (PortStep.carryOut .forceMarker s answered 9).settled.next h
  | runRecordEntry answered => exact (PortStep.runRecordEntry s answered).settled.next h
  | encoderEdge n a b => exact settled _ (.encoderEdge s n a b) rfl
  | speedWindowEnd n =>
    refine quiet _ ?_ rfl
    split
    · exact (LeavesBoard.endWindow s n).settled
    · exact .refl s
  | stopDwellExpiry n =>
    refine quiet _ ?_ rfl
    split
    · exact (LeavesBoard.onStrand s n _).settled
    · exact .refl s
  | stopForecast n => exact settled _ (.onStrand s n _) rfl
  | leadingEdge i => exact quiet _ (.leadingEdge s i) rfl
  | qualificationExpiry i => exact quiet _ (.qualify s i) rfl
  | inputInactive i => exact quiet _ (.inputInactive s i) rfl
  | qualifiedSeam => exact settled _ (.qualifiedSeam s) rfl
  | seamForecast => exact settled _ (.seamForecast s) rfl
  | qualifiedSaw => exact settled _ (.qualifiedSaw s) rfl
  | frameArrival n content e => exact settled _ (.frameArrival s n content e) rfl
  | staleTimerExpiry n =>
    refine quiet _ ?_ rfl
    split
    · exact (LeavesBoard.onStrand s n _).settled
    · exact .refl s
  | arbiterLook => exact quiet _ (.arbiterLook s) rfl
  | scanTaking => exact settled _ (.takeScan s) rfl
  | staleNoticeTaking => exact settled _ (.takeNotice s) rfl
  | switchOver => exact settled _ (.waitedSwitchOver s) rfl
  | runClosed =>
    refine quiet _ ?_ rfl
    split
    · exact .formRecord s _
    · exact .refl s
  | pieceBuild => exact settled _ (.pieceBuild s) rfl
  | markRequest n r => exact settled _ (.onStrand s n _) rfl
  | markOff n => exact settled _ (.onStrand s n _) rfl
  | incidentArrival n b => exact settled _ (.incidentArrival s n b) rfl
  | pageOpen => exact settled _ (.pageOpen s) rfl
  | recordWrite => exact settled _ (.writeHead s) rfl
  | lingerExpiry => exact settled _ (.lingerExpiry s) rfl
  | startDelimiter n => exact settled _ (.startDelimiter s n) rfl

/-! ## The notice registers (R3, R4) -/

/-- What a write to NOTICE leaves of the notice (R3). -/
def State.noticeCleared (s : State) (v : Word32) : BitVec 6 :=
  s.xp.notice &&& ~~~(v.truncate 6 &&& ~~~(if s.backlogged then Reason.bit .backlog else 0#6))

/-- Clearing reasons raises no masked notice. -/
theorem State.noticeCleared_masked (s : State) (v : Word32) (h : s.xp.notice &&& s.xp.mask = 0#6) :
    s.noticeCleared v &&& s.xp.mask = 0#6 := by
  unfold State.noticeCleared
  rw [BitVec.and_assoc, BitVec.and_comm _ s.xp.mask, ← BitVec.and_assoc, h, BitVec.zero_and]

/-- Clearing reasons sends no message. -/
theorem State.clearNotice_eq (s : State) (v : Word32) :
    s.clearNotice v = { s with xp := { s.xp with notice := s.noticeCleared v } } := by
  show { s with xp := s.xp.putNotice (s.noticeCleared v) s.xp.mask } = _
  unfold ExchangePort.putNotice
  rw [if_neg]
  simp only [Bool.and_eq_true, beq_iff_eq, bne_iff_ne, not_and, not_not, ExchangePort.masked]
  exact fun h => s.noticeCleared_masked v h.2

/-- A new mask sends one message where the masked notice rises (R4). -/
theorem State.writeMask_eq (s : State) (v : Word32) : s.writeMask v = { s with xp := { s.xp with
    mask := v.truncate 6
    msiSent :=
      if s.xp.msiEnabled = true ∧ s.xp.notice &&& s.xp.mask = 0#6 ∧ s.xp.notice &&& v.truncate 6 ≠ 0#6 then s.xp.msiSent + 1
      else s.xp.msiSent } } := by
  unfold State.writeMask ExchangePort.putNotice ExchangePort.masked
  simp only [Bool.and_eq_true, beq_iff_eq, bne_iff_ne, ne_eq, and_assoc]

/-- Notice, mask, messages and the switch of MSI are no part of the invariant. -/
theorem PortOk.of_notice {s : State} (h : PortOk s) (notice mask : BitVec 6) (enabled : Bool) (sent : Nat) :
    PortOk { s with xp := { s.xp with notice := notice, mask := mask, msiEnabled := enabled, msiSent := sent } } := h

/-- What every command keeps (R7, R11, R13, R14, R16, R177). -/
theorem PortOk.exec {c : Instr} {s t : State} (hs : PortOk s) (h : exec c s = .next t) : PortOk t := by
  have next : ∀ u, PortOk u → Machine.exec c s = .next u → PortOk t := fun u hu e => by
    rw [e] at h
    cases h
    exact hu
  have word : ∀ r v, PortOk (s.writeRegister r v) := fun r v => by
    cases r with
    | ident => exact hs
    | notice =>
      show PortOk (s.clearNotice v)
      rw [s.clearNotice_eq]
      exact hs.of_notice _ _ _ _
    | noticeMask =>
      show PortOk (s.writeMask v)
      rw [s.writeMask_eq]
      exact hs.of_notice _ _ _ _
    | restart =>
      unfold State.writeRegister
      dsimp only
      split
      · exact hs.restart
      · exact hs
  by_cases hc : Instr.setsNotice c = false
  · exact (PortStep.of_exec hc h).ok hs
  · cases c with
    | powerOn => exact next _ s.powerOn_portOk rfl
    | restart => exact next _ hs.restart rfl
    | pcieLinkReset => exact next _ (word .noticeMask 0#32) rfl
    | msiEnable => exact next _ (hs.of_notice _ _ _ _) rfl
    | msiDisable => exact next _ (hs.of_notice _ _ _ _) rfl
    | noticeWrite v => exact next _ (word .notice v) rfl
    | noticeMaskWrite v => exact next _ (word .noticeMask v) rfl
    | registerWriteIgnored r d =>
      cases d with
      | word v => exact next _ (word r v) rfl
      | short bytes => exact next _ hs rfl
    | _ => exact absurd rfl hc

/-- Settles O57: port, report unit and order unit keep their invariant at every step. -/
theorem portInvariantKept : Obligations.PortInvariantKept := by
  unfold Obligations.PortInvariantKept
  intro s t hs h
  unfold step at h
  split at h
  · cases h
    exact hs
  · rename_i c rest _
    exact PortOk.exec (s := { s with pending := rest }) hs h

/-! ## One message per rise (R4, R16) -/

/-- The messages sent from s to t are those of a rise of the masked notice. -/
def SentPerRise (s t : State) : Prop :=
  t.xp.msiSent = s.xp.msiSent +
    if s.xp.msiEnabled = true ∧ t.xp.notice &&& t.xp.mask ≠ 0#6 ∧ s.xp.notice &&& s.xp.mask = 0#6 then 1 else 0

theorem Notifies.sentPerRise {s t : State} (h : Notifies s.xp t.xp) : SentPerRise s t := h.sent

theorem SentPerRise.clearNotice (s : State) (v : Word32) : SentPerRise s (s.clearNotice v) := by
  rw [s.clearNotice_eq]
  unfold SentPerRise
  rw [if_neg fun h => h.2.1 (s.noticeCleared_masked v h.2.2)]
  rfl

theorem SentPerRise.writeMask (s : State) (v : Word32) : SentPerRise s (s.writeMask v) := by
  rw [s.writeMask_eq]
  unfold SentPerRise
  dsimp only
  by_cases h : s.xp.notice &&& s.xp.mask = 0#6
  · by_cases h' : s.xp.notice &&& v.truncate 6 = 0#6
    · simp [h, h']
    · by_cases he : s.xp.msiEnabled = true <;> simp [h, h', he]
  · simp [h]

/-- Switching MSI changes no masked notice. -/
theorem SentPerRise.of_same {s t : State} (hn : t.xp.notice = s.xp.notice) (hm : t.xp.mask = s.xp.mask)
    (hs : t.xp.msiSent = s.xp.msiSent) : SentPerRise s t := by
  unfold SentPerRise
  rw [hn, hm, hs, if_neg fun h => h.2.1 h.2.2]
  rfl

/-- A restart, NOTICE cleared first, sends one message where the masked notice is non-zero at its end (R16). -/
theorem State.restart_sent {s : State} (hr : s.ready = true) : s.restart.xp.msiSent = s.xp.msiSent +
    if s.xp.msiEnabled = true ∧ s.restart.xp.notice &&& s.restart.xp.mask ≠ 0#6 then 1 else 0 := by
  have h : Notifies s.restartBegun.xp s.restart.xp := by
    rw [State.restart_of_ready hr]
    exact (Notifies.restartOrders _).trans (LeavesBoard.restarted s).settled.notifies
  have hzero : s.restartBegun.xp.masked = 0#6 := by
    simp [State.restartBegun, ExchangePort.masked]
  have := h.sent
  rw [s.restartBegun_sent] at this
  simpa [hzero, State.restartBegun, ExchangePort.masked] using this

/-- Does a command start a part restart from a state (R2)? -/
def Restarts (c : Instr) (s : State) : Prop :=
  s.ready = true ∧ (c = .restart ∨ c = .registerWriteIgnored .restart (.word 0x3C#32))

theorem Restarts.exec {c : Instr} {s : State} (h : Restarts c s) : exec c s = .next s.restart := by
  obtain ⟨-, rfl | rfl⟩ := h <;> rfl

/-- Every command but POWER_ON and a restart only sets reasons, writes a notice register or switches MSI. -/
theorem SentPerRise.of_exec {c : Instr} {s t : State} (hpow : c ≠ .powerOn) (hrest : ¬ Restarts c s) (h : exec c s = .next t) :
    SentPerRise s t := by
  have next : ∀ u, SentPerRise s u → exec c s = .next u → SentPerRise s t := fun u hu e => by
    rw [e] at h
    cases h
    exact hu
  have same : SentPerRise s s := .of_same rfl rfl rfl
  have idle : (c = .restart ∨ c = .registerWriteIgnored .restart (.word 0x3C#32)) → s.restart = s := fun hc =>
    State.restart_of_not_ready (Bool.eq_false_iff.mpr fun hr => hrest ⟨hr, hc⟩)
  by_cases hc : Instr.setsNotice c = false
  · exact (PortStep.of_exec hc h).notifies.sentPerRise
  · cases c with
    | powerOn => exact absurd rfl hpow
    | restart => exact next s.restart (by rw [idle (.inl rfl)]; exact same) rfl
    | pcieLinkReset => exact next _ (.writeMask s 0#32) rfl
    | msiEnable => exact next _ (.of_same (t := { s with xp := { s.xp with msiEnabled := true } }) rfl rfl rfl) rfl
    | msiDisable => exact next _ (.of_same (t := { s with xp := { s.xp with msiEnabled := false } }) rfl rfl rfl) rfl
    | noticeWrite v => exact next _ (.clearNotice s v) rfl
    | noticeMaskWrite v => exact next _ (.writeMask s v) rfl
    | registerWriteIgnored r d =>
      cases d with
      | short bytes => exact next s same rfl
      | word v =>
        cases r with
        | ident => exact next s same rfl
        | notice => exact next _ (.clearNotice s v) rfl
        | noticeMask => exact next _ (.writeMask s v) rfl
        | restart =>
          by_cases hv : v = Config.restartKey
          · subst hv
            exact next s.restart (by rw [idle (.inr rfl)]; exact same) rfl
          · exact next s same (congrArg Host.Outcome.next (if_neg hv))
    | _ => exact absurd rfl hc

/-- Settles O13: a restart sends what `State.restart_sent` says, every other command but POWER_ON what `SentPerRise.of_exec` does. -/
theorem oneMessagePerRise : Obligations.OneMessagePerRise := by
  unfold Obligations.OneMessagePerRise
  intro c s t hpow h
  by_cases hrest : Restarts c s
  · rw [hrest.exec] at h
    cases h
    have hc : s.ready = true ∧ (c = .restart ∨ c = .registerWriteIgnored .restart (.word 0x3C#32)) := hrest
    simp only [hc, and_self, or_true, and_true]
    exact State.restart_sent hc.1
  · have hc : ¬ (s.ready = true ∧ (c = .restart ∨ c = .registerWriteIgnored .restart (.word 0x3C#32))) := hrest
    simp only [hc, or_false]
    exact SentPerRise.of_exec hpow hrest h

/-! ## The statements about registers (R1 to R4, R17) -/

/-- A reason's flag is one bit of the notice. -/
def Reason.index : Reason → Nat
  | .answer => 0
  | .page => 1
  | .incident => 2
  | .backlog => 3
  | .refused => 4
  | .run => 5

theorem Reason.index_lt (r : Reason) : r.index < 6 := by cases r <;> decide

theorem Reason.bit_getLsbD (r : Reason) (k : Nat) : r.bit.getLsbD k = decide (k = r.index) := by
  by_cases hk : k < 6
  · revert k
    cases r <;> decide
  · have hlt := r.index_lt
    rw [BitVec.getLsbD_of_ge _ _ (by omega), decide_eq_false (by omega)]

/-- A flag is set where the notice has its bit. -/
theorem Reason.flag_iff (x : BitVec 6) (r : Reason) : x &&& r.bit ≠ 0#6 ↔ x.getLsbD r.index = true := by
  constructor
  · intro h
    by_contra hx
    apply h
    refine BitVec.eq_of_getLsbD_eq fun k _ => ?_
    rw [BitVec.getLsbD_and, r.bit_getLsbD, BitVec.getLsbD_zero]
    by_cases e : k = r.index
    · rw [e]
      simpa using hx
    · simp [e]
  · intro h hz
    have := congrArg (fun y : BitVec 6 => y.getLsbD r.index) hz
    simp [r.bit_getLsbD, h] at this

/-- Only the low six bits of a value written to a notice register count. -/
theorem Reason.flag_word_iff (v : Word32) (r : Reason) : v &&& r.bit.zeroExtend 32 = 0#32 ↔ v.getLsbD r.index = false := by
  constructor
  · intro h
    have := congrArg (fun y : Word32 => y.getLsbD r.index) h
    have hlt := r.index_lt
    simpa [r.bit_getLsbD, show r.index < 32 by omega] using this
  · intro h
    refine BitVec.eq_of_getLsbD_eq fun k hk => ?_
    have low : (r.bit.zeroExtend 32).getLsbD k = decide (k = r.index) := by
      rw [← r.bit_getLsbD]
      simp [hk]
    rw [BitVec.getLsbD_and, low, BitVec.getLsbD_zero]
    by_cases e : k = r.index
    · rw [e, h, Bool.false_and]
    · simp [e]

/-- Which reasons a write to NOTICE leaves (R3). -/
theorem State.noticeCleared_flag (s : State) (v : Word32) (r : Reason) : s.noticeCleared v &&& r.bit ≠ 0#6 ↔
    s.xp.notice &&& r.bit ≠ 0#6 ∧ (v &&& r.bit.zeroExtend 32 = 0#32 ∨ (r = .backlog ∧ s.backlogged = true)) := by
  have hlt := r.index_lt
  have hbacklog : (Reason.bit .backlog).getLsbD r.index = decide (r = .backlog) := by cases r <;> decide
  have keep : (if s.backlogged then Reason.bit .backlog else 0#6).getLsbD r.index = (decide (r = .backlog) && s.backlogged) := by
    cases s.backlogged <;> simp [hbacklog]
  have low : (v.truncate 6).getLsbD r.index = v.getLsbD r.index := by simp [hlt]
  have stays : (r = .backlog ∧ s.backlogged = true) ↔ (decide (r = .backlog) && s.backlogged) = true := by simp
  rw [Reason.flag_iff, Reason.flag_iff, Reason.flag_word_iff, stays]
  unfold State.noticeCleared
  rw [BitVec.getLsbD_and, BitVec.getLsbD_not, BitVec.getLsbD_and, BitVec.getLsbD_not, keep, low, decide_eq_true hlt]
  generalize (decide (r = .backlog) && s.backlogged) = kept
  generalize v.getLsbD r.index = written
  generalize s.xp.notice.getLsbD r.index = was
  revert kept written was
  decide

/-- Settles O11: the two writes by `State.clearNotice_eq` and `State.writeMask_eq`. -/
theorem noticeWrites : Obligations.NoticeWrites := by
  unfold Obligations.NoticeWrites
  refine ⟨fun v s => ⟨s.noticeCleared v, congrArg Host.Outcome.next (s.clearNotice_eq v), s.noticeCleared_flag v⟩,
    fun v s => ?_⟩
  exact congrArg Host.Outcome.next (s.writeMask_eq v)

/-- Settles O10: MSI and the mask change alone. -/
theorem endpointEvents : Obligations.EndpointEvents := by
  unfold Obligations.EndpointEvents
  intro s
  refine ⟨⟨?_, by simp [ExchangePort.legacyInterrupt, ExchangePort.masked]⟩, ⟨rfl, rfl⟩, ⟨rfl, ?_⟩⟩
  · show Host.Outcome.next (s.writeMask 0#32) = _
    rw [s.writeMask_eq, if_neg]
    · rfl
    · rintro ⟨-, -, h⟩
      exact h (BitVec.and_zero)
  · simp [ExchangePort.legacyInterrupt, ExchangePort.masked]

/-- A byte of a little-endian field. -/
theorem getElem?_leBytes (k n j : Nat) : (leBytes k n)[j]? = if j < k then some (BitVec.ofNat 8 (n / 256 ^ j)) else none := by
  induction k generalizing n j with
  | zero => simp [leBytes]
  | succ k ih =>
    cases j with
    | zero => simp [leBytes]
    | succ j => simp [leBytes, ih, Nat.div_div_eq_div_mul, pow_succ, Nat.mul_comm]

/-- Byte k of a register, by its bits. -/
theorem ofNat_div_pow (v : Word32) (k : Nat) : BitVec.ofNat 8 (v.toNat / 256 ^ k) = v.extractLsb' (8 * k) 8 := by
  apply BitVec.eq_of_toNat_eq
  rw [BitVec.extractLsb'_toNat, BitVec.toNat_ofNat, Nat.shiftRight_eq_div_pow, pow_mul]
  rfl

/-- The addressed bytes of a register (R1, log 36). -/
theorem State.readRegisterBytes_eq (s : State) (reg : Register) {first length : Nat} (h : first + length ≤ 4) :
    s.readRegisterBytes reg first length =
      (List.range length).map (fun k => (s.readRegister reg).extractLsb' (8 * (first + k)) 8) := by
  apply List.ext_getElem?
  intro k
  unfold State.readRegisterBytes
  by_cases hk : k < length
  · rw [List.getElem?_take_of_lt hk, List.getElem?_drop, getElem?_leBytes, if_pos (by omega), ofNat_div_pow]
    simp [hk]
  · rw [List.getElem?_eq_none (by simp; omega), List.getElem?_eq_none (by simpa using hk)]

/-- Settles O12: what ignored writes leave, and reads byte by byte. -/
theorem ignoredRegisterWrites : Obligations.IgnoredRegisterWrites := by
  unfold Obligations.IgnoredRegisterWrites
  intro s
  exact ⟨fun reg bytes => rfl, fun v => rfl, rfl, fun reg first length h => s.readRegisterBytes_eq reg h⟩

/-! ## The statements about host writes (R5 to R9) -/

/-- Settles O14: region by region, by the byte of the write that lies in it. -/
theorem writeClasses : Obligations.WriteClasses := by
  unfold Obligations.WriteClasses
  intro x offset bytes hb
  have hpos := List.length_pos_of_ne_nil hb
  refine ⟨fun h => ?_, fun h1 h2 => ?_, fun i k h1 h2 he => ?_, fun i hl he => ?_, fun i hn h1 h2 => ?_, fun p hl he => ?_,
    fun h1 h2 hn => ?_⟩
  · exact ExchangePort.acceptsAll_eq_false (Nat.le_refl _) (by omega) (x.accepts_status offset bytes h)
  · rw [ExchangePort.acceptsAll_iff]
    exact fun k hk => x.accepts_hostPages offset bytes (by omega) (by omega)
  · rw [ExchangePort.acceptsAll_iff, he]
    have byte : ∀ j < bytes.length, x.accepts (cellBase i.val + k) bytes (cellBase i.val + k + j) = (x.cells.get i == .free) :=
      fun j hj => by rw [Nat.add_assoc, x.accepts_cell _ bytes i (k + j) (by omega), if_neg (by omega)]
    constructor
    · intro h
      have h0 := h 0 hpos
      rw [byte 0 hpos] at h0
      simpa using h0
    · intro h j hj
      simp [byte j hj, h]
  · rw [he, x.acceptsAll_cellWord i hl, CellState.takes_iff]
  · by_contra h
    exact hn (covers_of_accepts_cell (by simpa using h) i hpos h1 h2).1
  · rw [he, x.acceptsAll_pageWord p hl, PageState.takes_iff]
  · by_contra h
    obtain ⟨p, k, hk, he⟩ := exists_pageBase (a := offset + bytes.length - 1) (by omega) (by omega)
    obtain ⟨⟨h3, h4⟩, -⟩ := covers_of_accepts_page (by simpa using h) p hpos (by omega) (by omega)
    exact hn ⟨h4, p, h3⟩

theorem State.hostWrite_accepted {s : State} {offset : Nat} {bytes : List Byte} (hr : s.ready = true)
    (ha : s.xp.acceptsAll offset bytes = true) : s.hostWrite offset bytes = (s.acceptWrite offset bytes).settle := by
  simp [State.hostWrite, hr, ha]

theorem State.hostWrite_refused {s : State} {offset : Nat} {bytes : List Byte} (hr : s.ready = true)
    (ha : s.xp.acceptsAll offset bytes = false) : s.hostWrite offset bytes = (s.refuseWrite offset).settle := by
  simp [State.hostWrite, hr, ha]

theorem State.hostWrite_dropped {s : State} (hr : s.ready = false) (offset : Nat) (bytes : List Byte) :
    s.hostWrite offset bytes = s := by
  simp [State.hostWrite, hr]

theorem exec_exchangeWrite {offset : Nat} {bytes : List Byte} (h : offset + bytes.length ≤ Config.windowBytes) (s : State) :
    exec (.exchangeWrite offset bytes) s = .next (s.hostWrite offset bytes) := if_pos h

/-- IDENT reads 0 exactly while the part is not ready (R1). -/
theorem State.readRegister_ident (s : State) : s.readRegister .ident = 0#32 ↔ s.ready = false := by
  have hi : Config.identValue ≠ 0#32 := by decide
  show (if s.ready then Config.identValue else 0#32) = 0#32 ↔ _
  cases s.ready <;> simp [hi]

/-- Settles O17: a write while the part is not ready is dropped. -/
theorem writesDroppedWhileNotReady : Obligations.WritesDroppedWhileNotReady := by
  unfold Obligations.WritesDroppedWhileNotReady
  intro s h
  have dropped := fun offset bytes => congrArg (Host.Outcome.next (φ := Fault) (ρ := Refusal))
    (State.hostWrite_dropped (s.readRegister_ident.mp h) offset bytes)
  exact ⟨fun offset bytes hw => (exec_exchangeWrite hw s).trans (dropped _ _), fun _ => dropped _ _, fun _ => dropped _ _,
    fun _ => dropped _ _⟩

/-- POSTED written to a FREE cell, and nothing else, is an attention event (R10). -/
theorem State.acceptWrite_attention (s : State) {offset : Nat} {bytes : List Byte} (hw : offset + bytes.length ≤ 0x80000)
    (ha : s.xp.acceptsAll offset bytes = true) : (s.acceptWrite offset bytes).orders.attention = true ↔
      s.orders.attention = true ∨ ∃ i : Fin 32, offset = cellBase i.val ∧ bytes.length = 4 ∧ s.xp.cells.get i = .free := by
  rcases s.acceptWrite_cases hw with ⟨i, ⟨rfl, hl⟩, e⟩ | ⟨p, ⟨rfl, -⟩, e⟩ | ⟨hc, -, e⟩
  · have htakes : (s.xp.cells.get i).takes (leNat bytes) = true := by rw [← s.xp.acceptsAll_cellWord i hl]; exact ha
    have hposted : (s.xp.cells.get i).written = .posted ↔ s.xp.cells.get i = .free := by
      rcases ((s.xp.cells.get i).takes_iff _).mp htakes with ⟨h, -⟩ | ⟨h, -⟩ <;> simp [h, CellState.written]
    rw [e]
    simp only [Bool.or_eq_true, beq_iff_eq, hposted, hl, true_and]
    refine or_congr_right ⟨fun h => ⟨i, rfl, h⟩, ?_⟩
    rintro ⟨j, hj, h⟩
    rwa [cellBase_injective hj]
  · rw [e]
    refine ⟨.inl, ?_⟩
    rintro (h | ⟨i, hi, -⟩)
    · exact h
    · exact absurd hi.symm (cellBase_ne_pageBase i p)
  · rw [e]
    refine ⟨.inl, ?_⟩
    rintro (h | ⟨i, hi, hl, -⟩)
    · exact h
    · exact absurd ⟨hi, hl⟩ (hc i)

/-- A stored block reads back whole. -/
theorem Memory.rdBytes_write_self (m : Memory) (a : Nat) (bs : List Byte) : (m.write a bs).rdBytes a bs.length = bs := by
  simpa using m.rdBytes_write_inside a bs 0 bs.length (by omega)

/-- Settles O15: what an accepted write stores, by `State.acceptWrite`'s lemmas, stands at the end of the event. -/
theorem acceptedWriteIsStored : Obligations.AcceptedWriteIsStored := by
  unfold Obligations.AcceptedWriteIsStored
  intro offset bytes s hr hw ha
  have hset := (s.acceptWrite offset bytes).settle_settles
  refine ⟨s.acceptWrite offset bytes, _, (exec_exchangeWrite hw s).trans (by rw [State.hostWrite_accepted hr ha]), hset, ?_, ?_,
    s.acceptWrite_cells _ _ hw, s.acceptWrite_pages _ _ hw, s.acceptWrite_attention hw ha, s.acceptWrite_rest _ _⟩
  · by_cases hb : bytes = []
    · subst hb
      rfl
    · have hlow := le_offset_of_accepts ha hb
      rw [Memory.rdBytes_congr _ (s.acceptWrite offset bytes).xp.mem offset bytes.length fun a h1 _ => hset.rd a (by omega),
        s.acceptWrite_mem, Memory.rdBytes_write_self]
  · intro a h192 hout
    rw [hset.rd a h192, s.acceptWrite_mem]
    exact Memory.rd_write_outside _ _ _ _ hout

/-- What the status block would show, shown, is what it would show then. -/
theorem State.shownNow_shown {s t : State} (hrun : t.run = s.run) (hq : t.report.queue = s.report.queue)
    (hl : t.report.lost = s.report.lost) (hp : t.xp.pages = s.xp.pages) (hs : t.strands = s.strands) {x : Word32}
    (h : t.report.shown = { s.shownNow with lastRefused := x }) : t.shownNow = t.report.shown := by
  rw [h]
  unfold State.shownNow State.strand State.freePages
  rw [hrun, hq, hl, hp, hs, h]
  rfl

theorem State.refuseWrite_shown (s : State) (offset : Nat) :
    (s.refuseWrite offset).report.shown = { s.shownNow with lastRefused := BitVec.ofNat 32 offset } := by
  unfold State.refuseWrite
  dsimp only
  rw [State.showIfChanged_eq]
  split
  · rename_i h
    exact h.symm
  · rfl

/-- A refused write changes the notice, and the status block. -/
theorem State.refuseWrite_rest (s : State) (offset : Nat) : s.refuseWrite offset = { s with
    xp := { s.xp with
      notice := (s.refuseWrite offset).xp.notice, msiSent := (s.refuseWrite offset).xp.msiSent, mem := (s.refuseWrite offset).xp.mem }
    report := { s.report with
      updateSeq := (s.refuseWrite offset).report.updateSeq, updateTime := (s.refuseWrite offset).report.updateTime,
      shown := (s.refuseWrite offset).report.shown } } := by
  unfold State.refuseWrite
  dsimp only
  rw [State.showIfChanged_eq]
  split <;> rfl

/-- A reason set stays noticed while reasons are only set. -/
theorem Notifies.noticed {s t : State} (h : Notifies s.xp t.xp) {r : Reason} (hs : s.noticed r = true) : t.noticed r = true := by
  unfold State.noticed at *
  rw [bne_iff_ne, Reason.flag_iff] at *
  rw [h.kept, BitVec.getLsbD_or, hs, Bool.true_or]

theorem State.showIfChanged_beyond (s : State) (w : Shown) : SameBeyondStatus s.xp.mem (s.showIfChanged w).xp.mem := by
  rw [State.showIfChanged_eq]
  split
  · exact fun _ _ => rfl
  · exact s.putStatus_beyond w

/-- Settles O16: REFUSED and the offset shown are set by `State.refuseWrite`, and the end of the event leaves both. -/
theorem refusedWriteStoresNothing : Obligations.RefusedWriteStoresNothing := by
  unfold Obligations.RefusedWriteStoresNothing
  intro offset bytes s hr hw ha
  have hrest := s.refuseWrite_rest offset
  have hset := (s.refuseWrite offset).settle_settles
  have hnow : (s.refuseWrite offset).shownNow = (s.refuseWrite offset).report.shown :=
    State.shownNow_shown (by rw [hrest]) (by rw [hrest]) (by rw [hrest]) (by rw [hrest]) (by rw [hrest])
      (s.refuseWrite_shown offset)
  have hshown : (s.refuseWrite offset).settle.report.shown = { s.shownNow with lastRefused := BitVec.ofNat 32 offset } := by
    rw [hset.shown, hnow, s.refuseWrite_shown]
  have hmem : SameBeyondStatus s.xp.mem (s.refuseWrite offset).settle.xp.mem := fun a h192 => by
    rw [hset.rd a h192]
    exact (s.setReason .refused).showIfChanged_beyond _ a h192
  refine ⟨_, (exec_exchangeWrite hw s).trans (by rw [State.hostWrite_refused hr ha]), ?_, hshown, hmem, fun hs => ?_, ?_⟩
  · have hflag : Notifies (s.setReason .refused).xp (s.refuseWrite offset).settle.xp :=
      ((LeavesBoard.showIfChanged _ _).settled).notifies
    exact hflag.noticed (s.noticed_setReason .refused)
  · have hagree : StatusAgrees (s.refuseWrite offset) := by
      unfold State.refuseWrite
      dsimp only
      rw [State.showIfChanged_eq]
      split
      · exact hs
      · exact State.storeStatus_agrees _
    have := (hagree.settles hset).fields.refused
    rw [hshown] at this
    rw [this, BitVec.toNat_ofNat, Nat.mod_eq_of_lt]
    unfold Config.windowBytes at hw
    omega
  · have hback : (s.refuseWrite offset).backlogged = s.backlogged := by
      unfold State.backlogged
      rw [hrest]
    have hback' := hset.backlog
    rw [hback] at hback'
    have e := hset.rest
    rw [hback'] at e
    rw [e, hrest]

/-- An accepted write of a cell's state word. -/
theorem State.acceptWrite_cellWord (s : State) (i : Fin 32) {bytes : List Byte} (hl : bytes.length = 4) :
    s.acceptWrite (cellBase i.val) bytes = { s with
      xp := { s.xp with mem := s.xp.mem.write (cellBase i.val) bytes, cells := s.xp.cells.set i (s.xp.cells.get i).written }
      orders := { s.orders with attention := s.orders.attention || (s.xp.cells.get i).written == .posted } } := by
  unfold State.acceptWrite State.wordWritten
  rw [(postedTo_eq_some _ _ i).mpr ⟨rfl, hl⟩]
  rfl

/-- An accepted write of a page's state word. -/
theorem State.acceptWrite_pageWord (s : State) (p : Fin 54) {bytes : List Byte} (hl : bytes.length = 4) :
    s.acceptWrite (pageBase p.val) bytes = { s with
      xp := { s.xp with mem := s.xp.mem.write (pageBase p.val) bytes, pages := s.xp.pages.set p .free } } := by
  have hw : pageBase p.val + bytes.length ≤ 0x80000 := by unfold pageBase; omega
  rcases s.acceptWrite_cases hw with ⟨i, ⟨h, -⟩, -⟩ | ⟨q, ⟨h, -⟩, e⟩ | ⟨-, h, -⟩
  · exact absurd h.symm (cellBase_ne_pageBase i p)
  · rw [e, pageBase_injective h]
  · exact absurd ⟨rfl, hl⟩ (h p)

/-- Settles O18: the three commands are writes of a state word, accepted by the state of the cell or page. -/
theorem stateWordWrites : Obligations.StateWordWrites := by
  unfold Obligations.StateWordWrites
  intro s
  have cellWindow : ∀ (i : Fin 32) (b : List Byte), b.length = 4 → cellBase i.val + b.length ≤ Config.windowBytes :=
    fun i b hb => by unfold cellBase Config.windowBytes; omega
  have pageWindow : ∀ (p : Fin 54) (b : List Byte), b.length = 4 → pageBase p.val + b.length ≤ Config.windowBytes :=
    fun p b hb => by unfold pageBase Config.windowBytes; omega
  refine ⟨fun i => ⟨(exec_exchangeWrite (cellWindow i _ rfl) s).symm, (exec_exchangeWrite (cellWindow i _ rfl) s).symm⟩,
    fun p => (exec_exchangeWrite (pageWindow p _ rfl) s).symm, fun hr => ⟨fun i hi => ?_, fun i hi => ?_, fun p hp => ?_⟩⟩
  · have ha : s.xp.acceptsAll (cellBase i.val) [1#8, 0#8, 0#8, 0#8] = true := by
      rw [s.xp.acceptsAll_cellWord i rfl, hi]
      rfl
    refine .of (congrArg Host.Outcome.next (State.hostWrite_accepted hr ha)) ?_
    refine (s.acceptWrite_cellWord i rfl).trans ?_
    rw [hi, show (CellState.free.written == .posted) = true from rfl, Bool.or_true]
    rfl
  · have ha : s.xp.acceptsAll (cellBase i.val) [0#8, 0#8, 0#8, 0#8] = true := by
      rw [s.xp.acceptsAll_cellWord i rfl, hi]
      rfl
    refine .of (congrArg Host.Outcome.next (State.hostWrite_accepted hr ha)) ?_
    refine (s.acceptWrite_cellWord i rfl).trans ?_
    rw [hi, show (CellState.answered.written == .posted) = false from rfl, Bool.or_false]
    rfl
  · have ha : s.xp.acceptsAll (pageBase p.val) [0#8, 0#8, 0#8, 0#8] = true := by
      rw [s.xp.acceptsAll_pageWord p rfl, hp]
      rfl
    exact .of (congrArg Host.Outcome.next (State.hostWrite_accepted hr ha)) (s.acceptWrite_pageWord p rfl)

/-! ## The statements about power-on (R15) -/

theorem State.reset_strand (n : Strand) : State.reset.strand n = {} := by cases n <;> rfl

theorem State.reset_store (k : Fin 8) : State.reset.run.store.get k = none := by
  rw [Vector.get_eq_getElem]
  exact Vector.getElem_replicate _

/-- Settles O4: each block's reset values, and the zero bytes behind the status block. -/
theorem resetState : Obligations.ResetState := by
  unfold Obligations.ResetState
  refine ⟨⟨rfl, rfl, rfl, rfl⟩, ⟨fun i => ⟨State.reset_cells i, fun k _ => State.reset_rd (by unfold cellBase; omega)⟩,
    fun p => ⟨State.reset_pages p, fun k _ => State.reset_rd (by unfold pageBase; omega)⟩,
    fun a h _ => State.reset_rd (by omega), by decide⟩, ⟨rfl, rfl, rfl, rfl⟩,
    ⟨rfl, State.reset_store, rfl, rfl, rfl, fun n => by cases n <;> rfl, rfl, rfl, rfl⟩, fun n => ?_,
    ⟨rfl, rfl, rfl, rfl, rfl, rfl, rfl, rfl⟩⟩
  rw [State.reset_strand]
  simp [Channel.position, positionOf]

/-- Settles O5: what `State.powerOn` keeps are the pins, MSI and the queue. -/
theorem powerOnResets : Obligations.PowerOnResets := by
  unfold Obligations.PowerOnResets
  exact fun s => rfl

theorem State.reset_tracksAgree : TracksAgree State.reset where
  ended _ n := by rw [State.reset_strand]
  graded h := by cases h
  outside n _ := by rw [State.reset_strand]
  closed r h := by cases h

theorem StrandState.blank_inLimits : StrandState.InLimits {} := by
  constructor <;> decide

theorem StrandState.blank_markerAgrees : StrandState.MarkerAgrees {} where
  active := by simp
  head i o h := by cases h

/-- Settles O60: the port's part by `State.reset_portOk`, each strand's by what a blank strand meets. -/
theorem resetMeetsInvariants : Obligations.ResetMeetsInvariants := by
  unfold Obligations.ResetMeetsInvariants
  refine ⟨State.reset_portOk, State.reset_tracksAgree, ⟨by decide, by decide, by decide⟩, fun n => ?_, fun h => absurd rfl h,
    fun n => ?_⟩
  · rw [State.reset_strand]
    exact ⟨StrandState.blank_inLimits, by simp [StrandState.OpenAgrees]⟩
  · rw [State.reset_strand]
    exact StrandState.blank_markerAgrees

theorem State.sampleLines_strand (s : State) (n : Strand) : s.sampleLines.strand n = { s.strand n with
    chan := { (s.strand n).chan with
      lastA := (s.strand n).chan.pinA, lastB := (s.strand n).chan.pinB, windowStart := s.clock } } := by
  cases n <;> rfl

/-- Settles O6: the status block's fields by the bytes `State.storeStatus` stores. -/
theorem powerOnInitEndMakesReady : Obligations.PowerOnInitEndMakesReady := by
  unfold Obligations.PowerOnInitEndMakesReady
  intro s hp
  have hfields : StatusFields s.endPowerOn.xp.mem s.report.updateSeq s.report.updateTime
      { s.report.shown with ident := Config.identValue, cause := some .powerOn } :=
    .of_bytes (State.storeStatus_agrees _)
  exact ⟨s.endPowerOn, congrArg Host.Outcome.next (if_pos hp), rfl, s.sampleLines_strand, rfl, hfields.ident, hfields.cause,
    State.storeStatus_beyond _, rfl⟩

/-! ## The statements about a part restart (R2, R16) -/

/-- The part as every block but the report unit has restarted. -/
def State.blocksRestarted (s : State) : State := s.restartBegun.restartOrders.restartRun.restartBlocks

theorem State.restarted_eq (s : State) : s.restarted = s.blocksRestarted.restartReport := rfl

theorem State.restartOrders_rest (s : State) : s.restartOrders = { s with
    xp := { s.xp with
      notice := s.restartOrders.xp.notice, msiSent := s.restartOrders.xp.msiSent, mem := s.restartOrders.xp.mem
      cells := s.restartOrders.xp.cells }
    orders := s.restartOrders.orders } := by
  unfold State.restartOrders
  cases s.orders.hand <;> rfl

theorem State.restartOrders_notice (s : State) :
    s.restartOrders.xp.notice = s.xp.notice ||| if s.orders.hand.isSome then Reason.bit .answer else 0#6 := by
  unfold State.restartOrders
  cases s.orders.hand with
  | none => simp
  | some o => rfl

theorem State.restartRun_notice (s : State) :
    s.restartRun.xp.notice = s.xp.notice ||| if s.run.state = .idle then 0#6 else Reason.bit .run := by
  unfold State.restartRun State.setRun
  split
  · simp
  · rfl

theorem State.restartRun_run (s : State) : s.restartRun.run = { station := s.run.station, store := s.run.store } := by
  unfold State.restartRun
  dsimp only
  rw [State.setRun_run]

theorem State.restartRun_report (s : State) : s.restartRun.report = s.report := State.setRun_report _ _

theorem State.restartRun_strands (s : State) : s.restartRun.strands = s.strands := State.setRun_strands _ _

theorem State.restartRun_inputs (s : State) : s.restartRun.inputs = s.inputs := State.setRun_inputs _ _

theorem State.restartRun_pages (s : State) : s.restartRun.xp.pages = s.xp.pages := by
  unfold State.restartRun State.setRun
  split <;> rfl

theorem State.blocksRestarted_report (s : State) : s.blocksRestarted.report = s.report := by
  show s.restartBegun.restartOrders.restartRun.report = _
  rw [State.restartRun_report, State.restartOrders_rest]
  rfl

theorem State.blocksRestarted_pages (s : State) : s.blocksRestarted.xp.pages = s.xp.pages := by
  show s.restartBegun.restartOrders.restartRun.xp.pages = _
  rw [State.restartRun_pages, State.restartOrders_rest]
  rfl

theorem State.blocksRestarted_run (s : State) : s.blocksRestarted.run = { station := s.run.station, store := s.run.store } := by
  show s.restartBegun.restartOrders.restartRun.run = _
  rw [State.restartRun_run, State.restartOrders_rest]
  rfl

theorem State.blocksRestarted_strand (s : State) (n : Strand) : s.blocksRestarted.strand n = (s.strand n).restart := by
  have h : s.restartBegun.restartOrders.restartRun.strands = s.strands := by
    rw [State.restartRun_strands, State.restartOrders_rest]
    rfl
  show (s.restartBegun.restartOrders.restartRun.onAll fun _ st => st.restart).strand n = _
  rw [State.onAll_strand, State.strand, h]
  rfl

theorem State.blocksRestarted_inputs (s : State) :
    s.blocksRestarted.inputs = { seam := s.inputs.seam.settleLevel, saw := s.inputs.saw.settleLevel } := by
  have h : s.restartBegun.restartOrders.restartRun.inputs = s.inputs := by
    rw [State.restartRun_inputs, State.restartOrders_rest]
    rfl
  show Inputs.mk s.restartBegun.restartOrders.restartRun.inputs.seam.settleLevel
    s.restartBegun.restartOrders.restartRun.inputs.saw.settleLevel [] = _
  rw [h]

theorem State.blocksRestarted_notice (s : State) : s.blocksRestarted.xp.notice =
    (if s.orders.hand.isSome then Reason.bit .answer else 0#6) |||
      (if s.run.state = .idle then 0#6 else Reason.bit .run) := by
  have hrun : s.restartBegun.restartOrders.run = s.run := by
    rw [State.restartOrders_rest]
    rfl
  show s.restartBegun.restartOrders.restartRun.xp.notice = _
  rw [State.restartRun_notice, State.restartOrders_notice, hrun]
  show 0#6 ||| _ ||| _ = _
  rw [BitVec.zero_or]
  rfl

/-- The report unit's restart: nothing but the queue and counts without a FILLING page, with one the page closed TRUNCATED (R185). -/
theorem State.restartReport_cases (s : State) :
    (s.report.fill = none ∧ s.restartReport = { s with report := { s.report with queue := [], lost := 0, backlog := false } }) ∨
      ∃ f, s.report.fill = some f ∧ s.restartReport = { s.closePage f true with
        report := { (s.closePage f true).report with queue := [], lost := 0, backlog := false } } := by
  unfold State.restartReport
  cases h : s.report.fill with
  | none => exact .inl ⟨rfl, rfl⟩
  | some f => exact .inr ⟨f, rfl, rfl⟩

/-- Of memory, pages and NOTICE, and its own fields, the report unit's restart changes, nothing else. -/
theorem State.restartReport_rest (s : State) : s.restartReport = { s with
    xp := { s.xp with
      notice := s.xp.notice ||| (if s.report.fill.isSome then Reason.bit .page else 0#6), msiSent := s.restartReport.xp.msiSent
      mem := s.restartReport.xp.mem, pages := s.restartReport.xp.pages }
    report := { s.report with queue := [], lost := 0, backlog := false, fill := none } } := by
  rcases s.restartReport_cases with ⟨h, e⟩ | ⟨f, h, e⟩
  · rw [e]
    simp [h]
  · rw [e, h]
    rfl

/-- A FILLING page is CLOSED and TRUNCATED by a restart, in its bytes (R185). -/
theorem State.restartReport_page {s : State} {f : Filling} (h : s.report.fill = some f) :
    s.restartReport.xp.pages.get f.page = .closed ∧ s.restartReport.xp.mem.rd32 (pageBase f.page.val) = 2 ∧
      s.restartReport.xp.mem.rd32 (pageBase f.page.val + 4) = 1 := by
  rcases s.restartReport_cases with ⟨h', -⟩ | ⟨g, h', e⟩
  · rw [h] at h'
    cases h'
  · obtain rfl : f = g := by
      rw [h] at h'
      exact Option.some.inj h'
    have hm := s.closePage_moves f true
    rw [e]
    refine ⟨?_, hm.word, ?_⟩
    · show (s.closePage f true).xp.pages.get f.page = _
      rw [hm.pages, if_pos rfl]
    · show (s.xp.mem.write (pageBase f.page.val) (headerBytes .closed true f)).rd32 (pageBase f.page.val + 4) = 1
      rw [Memory.rd32_write_inside _ _ _ 4 (by rw [headerBytes_length]; omega), headerBytes_truncated]
      rfl

theorem State.restartReport_pages {s : State} {p : Fin 54} (h : ∀ f, s.report.fill = some f → f.page ≠ p) :
    s.restartReport.xp.pages.get p = s.xp.pages.get p := by
  rcases s.restartReport_cases with ⟨-, e⟩ | ⟨f, hf, e⟩
  · rw [e]
  · rw [e]
    show (s.closePage f true).xp.pages.get p = _
    rw [(s.closePage_moves f true).pages, if_neg (h f hf).symm]

/-- A restart leaves no record waiting, and so no backlog. -/
theorem State.restarted_notBacklogged (s : State) : s.restarted.backlogBegins = false := by
  unfold State.backlogBegins State.backlogged
  rw [State.restarted_eq, State.restartReport_rest]
  rfl

/-- The port after a restart. -/
theorem State.restarted_notice (s : State) : s.restarted.settle.xp.notice =
    (if s.orders.hand.isSome then Reason.bit .answer else 0#6) |||
      (if s.run.state = .idle then 0#6 else Reason.bit .run) ||| (if s.report.fill.isSome then Reason.bit .page else 0#6) := by
  rw [(State.settle_settles _).notice, s.restarted_notBacklogged, if_neg (by decide), State.restarted_eq,
    State.restartReport_rest, State.blocksRestarted_report, ← s.blocksRestarted_notice]

theorem LeavesBoard.restartSettled (s : State) : LeavesBoard s.restartBegun.restartOrders s.restarted.settle :=
  (LeavesBoard.restarted s).settled

theorem State.restartBegun_phase (s : State) : s.restartBegun.restartOrders.xp.phase = .restarting := by
  rw [State.restartOrders_rest]
  rfl

theorem State.restarted_phase (s : State) : s.restarted.settle.xp.phase = .restarting :=
  (LeavesBoard.restartSettled s).phase.trans s.restartBegun_phase

/-- The cell of an aborted order, in its bytes. -/
theorem answerBytes_result (o : Order) (a : Answer) (w : Word32) :
    leNat ((answerBytes o a w).take 4) = a.result % 4294967296 := by
  simp only [answerBytes, List.append_assoc]
  rw [take_four_leBytes, leNat_leBytes_four]

theorem State.answer_mem (s : State) (o : Order) (a : Answer) : (s.answer o a).xp.mem =
    (s.xp.mem.write (cellBase o.cell.val + 64) (answerBytes o a s.time)).write (cellBase o.cell.val)
      (leBytes 4 CellState.answered.code) := rfl

/-- A field of the answer in the cell it was written to. -/
theorem State.answer_rd32 (s : State) (o : Order) (a : Answer) (j : Nat) (hj : j + 4 ≤ 16) :
    (s.answer o a).xp.mem.rd32 (cellBase o.cell.val + 64 + j) = leNat (((answerBytes o a s.time).drop j).take 4) := by
  rw [State.answer_mem]
  rw [Memory.rd32_congr fun k hk => Memory.rd_write_outside _ _ _ _ (by rw [leBytes_length]; omega),
    Memory.rd32_write_inside _ _ _ j (by rw [answerBytes_length]; omega)]

/-- An order in hand is answered ABORTED by a restart (R16). -/
theorem State.restarted_aborts {s : State} {o : Order} (h : s.orders.hand = some o) :
    s.restarted.settle.xp.cells.get o.cell = .answered ∧
      s.restarted.settle.xp.mem.rd32 (cellBase o.cell.val + 64) = 13 := by
  have hl := LeavesBoard.restartSettled s
  refine ⟨?_, ?_⟩
  · rw [hl.cells, State.restartOrders_cells, if_pos ⟨o, h, rfl⟩]
  · have hmem : s.restartBegun.restartOrders.xp.mem = (s.restartBegun.answer o .aborted).xp.mem := by
      unfold State.restartOrders
      rw [show s.restartBegun.orders.hand = some o from h]
    have hsame : s.restarted.settle.xp.mem.rd32 (cellBase o.cell.val + 64) =
        s.restartBegun.restartOrders.xp.mem.rd32 (cellBase o.cell.val + 64) :=
      Memory.rd32_congr fun k _ => by
        rw [Nat.add_assoc]
        exact hl.bytes o.cell (64 + k) (by omega)
    have hresult := s.restartBegun.answer_rd32 o .aborted 0 (by omega)
    rw [List.drop_zero, answerBytes_result] at hresult
    rw [hsame, hmem]
    exact hresult

/-- A cell of no order in hand is left by a restart. -/
theorem State.restarted_cell {s : State} {i : Fin 32} (h : ∀ o, s.orders.hand = some o → o.cell ≠ i) :
    s.restarted.settle.xp.cells.get i = s.xp.cells.get i ∧
      ∀ k < 128, s.restarted.settle.xp.mem.rd (cellBase i.val + k) = s.xp.mem.rd (cellBase i.val + k) := by
  have hl := LeavesBoard.restartSettled s
  refine ⟨?_, fun k hk => (hl.bytes i k hk).trans ?_⟩
  · rw [hl.cells, State.restartOrders_cells, if_neg]
    · rfl
    · rintro ⟨o, ho, hc⟩
      exact h o ho hc
  · unfold State.restartOrders
    cases ho : s.restartBegun.orders.hand with
    | none => rfl
    | some o =>
      have hne : i.val ≠ o.cell.val := fun e => h o ho (Fin.ext e.symm)
      exact (s.restartBegun.answer_moves o .aborted).outside _ (by unfold cellBase; omega)

theorem State.restarted_run (s : State) : s.restarted.settle.run = { station := s.run.station, store := s.run.store } := by
  rw [State.settle_run, State.restarted_eq, State.restartReport_rest]
  exact s.blocksRestarted_run

theorem pageBase_ge (p : Fin 54) : 0x14000 ≤ pageBase p.val := by unfold pageBase; omega

/-- Settles O8: block by block, what the report unit's restart and the end of the event then leave. -/
theorem restartResetsBlocks : Obligations.RestartResetsBlocks := by
  unfold Obligations.RestartResetsBlocks
  intro s hr
  have hset := s.restarted.settle_settles
  have hrep := s.blocksRestarted.restartReport_rest
  rw [← State.restarted_eq] at hrep
  have hmask : s.restarted.settle.xp.mask = s.xp.mask := by
    rw [(LeavesBoard.restartSettled s).notifies.mask, State.restartOrders_rest]
    rfl
  have hpages : s.restarted.settle.xp.pages = s.blocksRestarted.restartReport.xp.pages := by
    rw [hset.rest, ← State.restarted_eq]
  refine ⟨_, congrArg Host.Outcome.next (State.restart_of_ready hr), ⟨?_, hmask, s.restarted_notice⟩, ?_,
    fun o ho => State.restarted_aborts ho, fun i hi => State.restarted_cell hi, s.restarted_run, fun n => ?_, ?_, ?_, ?_,
    fun f hf => ?_, fun p hp => ?_⟩
  · rw [State.readRegister_ident]
    simp [State.ready, s.restarted_phase]
  · rw [(LeavesBoard.restartSettled s).orders, State.restartOrders_orders]
    rfl
  · rw [State.strand, State.settle_strands, hrep]
    exact s.blocksRestarted_strand n
  · rw [State.settle_inputs, hrep]
    exact s.blocksRestarted_inputs
  · rw [State.settle_lastServed, State.settle_service, State.settle_pieceServed, State.settle_seamMail, State.settle_grantMail,
      State.settle_sawMail, hrep]
    exact ⟨rfl, rfl, rfl, rfl, rfl, rfl⟩
  · rw [hset.rest, hrep, State.blocksRestarted_report]
    exact ⟨rfl, rfl, rfl, rfl, rfl⟩
  · have hbase := pageBase_ge f.page
    obtain ⟨h1, h2, h3⟩ := State.restartReport_page (s := s.blocksRestarted) (by rw [s.blocksRestarted_report]; exact hf)
    rw [← State.restarted_eq] at h2 h3
    refine ⟨hpages ▸ h1, ?_, ?_⟩
    · rw [Memory.rd32_congr fun k _ => hset.rd _ (by omega), h2]
    · rw [Memory.rd32_congr fun k _ => hset.rd _ (by omega), h3]
  · rw [hpages, State.restartReport_pages (by rw [s.blocksRestarted_report]; exact hp), s.blocksRestarted_pages]

/-- Settles O7: the key while ready restarts, and sets no REFUSED; all other writes leave the state. -/
theorem restartRegister : Obligations.RestartRegister := by
  unfold Obligations.RestartRegister
  intro s
  refine ⟨fun hr => ⟨_, congrArg Host.Outcome.next (State.restart_of_ready hr), s.restarted_phase, ?_⟩, fun hr => ?_,
    fun v hv => ?_, rfl⟩
  · unfold State.noticed
    rw [s.restarted_notice]
    cases s.orders.hand.isSome <;> cases s.report.fill.isSome <;> by_cases h : s.run.state = .idle <;> simp only [h] <;> decide
  · have hsame := State.restart_of_not_ready hr
    exact ⟨congrArg Host.Outcome.next hsame, congrArg Host.Outcome.next hsame⟩
  · exact congrArg Host.Outcome.next (if_neg hv)

/-! ## The statements about the order unit (R10 to R13) -/

/-! ### Its own checks (R12) -/

/-- A kind of the table is checked by its operands. -/
theorem unitAnswer_of_kind {o : Order} (h : 1 ≤ o.kind ∧ o.kind ≤ 9) :
    unitAnswer o = (firstFailing (operandChecks o)).map Answer.badOperand := by
  simp [unitAnswer, within, h]

/-- The first operand check refuses outside its range, or passes on to the next. -/
theorem badOperand_or_next (k lo hi v : Nat) (rest : List (Nat × Bool)) :
    (firstFailing ((k, within lo hi v) :: rest)).map Answer.badOperand =
      if v < lo ∨ hi < v then some ⟨2, k⟩ else (firstFailing rest).map Answer.badOperand := by
  by_cases h : lo ≤ v ∧ v ≤ hi
  · rw [if_neg (by omega)]
    simp [firstFailing, within, h]
  · rw [if_pos (by omega)]
    have hw : within lo hi v = false := by simpa [within] using h
    simp [firstFailing, hw, Answer.badOperand]

/-- The last operand check passes inside its range. -/
theorem pass_or_badOperand (k lo hi v : Nat) :
    (firstFailing [(k, within lo hi v)]).map Answer.badOperand = if lo ≤ v ∧ v ≤ hi then none else some ⟨2, k⟩ := by
  rw [badOperand_or_next]
  by_cases h : lo ≤ v ∧ v ≤ hi
  · rw [if_pos h, if_neg (by omega)]
    rfl
  · rw [if_neg h, if_pos (by omega)]

/-- Settles O20: the checks of each kind, in operand order. -/
theorem orderUnitChecks : Obligations.OrderUnitChecks := by
  unfold Obligations.OrderUnitChecks
  rintro ⟨kind, tag, op1, op2, op3, op4, cell, waiting, result⟩
  dsimp only
  refine ⟨fun h => ?_, fun h => ?_, fun h => ?_, ?_, ?_, ?_, ?_⟩
  · have hk : within 1 9 kind = false := by
      simp only [within, Bool.and_eq_false_iff, decide_eq_false_iff_not]
      omega
    simp only [unitAnswer, hk]
    rfl
  · rcases h with rfl | rfl | rfl <;> rfl
  · rcases h with rfl | rfl
    all_goals
      rw [unitAnswer_of_kind (by dsimp only; omega)]
      exact (pass_or_badOperand 1 0 7 op1).trans (by simp only [Nat.zero_le, true_and])
  · rintro rfl
    rw [unitAnswer_of_kind (by dsimp only; omega)]
    refine (badOperand_or_next 1 0 7 op1 _).trans ?_
    rw [pass_or_badOperand]
    simp only [Nat.not_lt_zero, false_or]
  · rintro rfl
    rw [unitAnswer_of_kind (by dsimp only; omega)]
    refine (badOperand_or_next 1 1 4 op1 _).trans ?_
    rw [badOperand_or_next, badOperand_or_next, badOperand_or_next]
    simp only [Nat.not_lt_zero, false_or]
    rfl
  · rintro rfl
    rw [unitAnswer_of_kind (by dsimp only; omega)]
    exact pass_or_badOperand 1 1 15 op1
  · rintro rfl
    rw [unitAnswer_of_kind (by dsimp only; omega)]
    refine (badOperand_or_next 1 1 4 op1 _).trans ?_
    rw [pass_or_badOperand]

/-! ### The search of the board (R11) -/

/-- The cells a search looks at next, in their order. -/
theorem drop_take_searchOrder (last : Fin 32) (k cells : Nat) : ((searchOrder last).drop k).take cells =
    (List.range (min cells (32 - k))).map (fun j => Fin.ofNat 32 (last.val + 1 + (k + j))) := by
  apply List.ext_getElem
  · simp [searchOrder]
  · intro j h1 h2
    simp [searchOrder]

/-- The first POSTED cell of those a search looks at. -/
theorem State.postedCell_eq_some {s : State} {k0 k cells : Nat} (h0 : k0 ≤ k) (h1 : k < k0 + cells) (h2 : k < 32)
    (hp : s.xp.cells.get (Fin.ofNat 32 (s.orders.lastTaken.val + 1 + k)) = .posted)
    (hn : ∀ j, k0 ≤ j → j < k → s.xp.cells.get (Fin.ofNat 32 (s.orders.lastTaken.val + 1 + j)) ≠ .posted) :
    s.postedCell k0 cells = some (Fin.ofNat 32 (s.orders.lastTaken.val + 1 + k)) := by
  unfold State.postedCell
  rw [drop_take_searchOrder, List.find?_eq_some_iff_getElem]
  refine ⟨beq_iff_eq.mpr hp, k - k0, by simp; omega, by simp [Nat.add_sub_cancel' h0], fun j hj => ?_⟩
  simpa using hn (k0 + j) (by omega) (by omega)

/-- None of the cells a search looks at is POSTED. -/
theorem State.postedCell_eq_none {s : State} {k0 cells : Nat}
    (hn : ∀ j, k0 ≤ j → j < k0 + cells → j < 32 →
      s.xp.cells.get (Fin.ofNat 32 (s.orders.lastTaken.val + 1 + j)) ≠ .posted) :
    s.postedCell k0 cells = none := by
  unfold State.postedCell
  rw [drop_take_searchOrder, List.find?_eq_none]
  intro i hi
  obtain ⟨j, hj, rfl⟩ := List.mem_map.mp hi
  have hj' := List.mem_range.mp hj
  simpa using hn (k0 + j) (by omega) (by omega) (by omega)

theorem State.search_of_posted {s : State} {k cells : Nat} {i : Fin 32} (h : s.postedCell k cells = some i) (answered : Bool) :
    s.search k cells answered = s.takeCell i answered := by
  simp [State.search, h]

theorem State.search_of_none {s : State} {k cells : Nat} (h : s.postedCell k cells = none) (answered : Bool) :
    s.search k cells answered =
      { s with orders := { s.orders with search := if k + cells < 32 then some (k + cells) else none } } := by
  simp [State.search, h]

/-- The order unit as a search goes on, or starts with the due search or the attention flag used up (R11). -/
def State.searching (s : State) : State :=
  { s with orders := { s.orders with
    attention := (s.orders.search.isSome || s.orders.searchDue) && s.orders.attention
    searchDue := s.orders.search.isSome && s.orders.searchDue } }

/-- There is something for the order unit to search for, from cell k0 of the search on. -/
def State.SearchFrom (s : State) (k0 : Nat) : Prop :=
  s.orders.search = some k0 ∨ s.orders.search = none ∧ k0 = 0 ∧ (s.orders.searchDue = true ∨ s.orders.attention = true)

theorem State.orderUnit_of_search {s : State} {k0 : Nat} (hr : s.ready = true) (hh : s.orders.hand = none) (h : s.SearchFrom k0)
    (cells : Nat) (answered : Bool) : s.orderUnit cells answered = s.searching.search k0 cells answered := by
  have hunit : s.orderUnit cells answered = s.searchBoard cells answered := by simp [State.orderUnit, hr, hh]
  rw [hunit]
  rcases h with hs | ⟨hs, rfl, hgo⟩
  · have same : s.searching = s := by
      simp only [State.searching, show s.orders.search.isSome = true by rw [hs]; rfl, Bool.true_or, Bool.true_and]
    rw [same]
    simp [State.searchBoard, hs]
  · cases hd : s.orders.searchDue with
    | true => simp [State.searchBoard, State.searching, hs, hd]
    | false =>
      have ha : s.orders.attention = true := by simpa [hd] using hgo
      simp [State.searchBoard, State.searching, hs, hd, ha]

theorem exec_orderSearch (s : State) (cells : Nat) (answered : Bool) :
    exec (.orderSearch cells answered) s = .next (s.orderUnit cells answered).settle := rfl

/-- The fields of the order a cell holds (R11, 12.1). -/
theorem readOrder_tag (m : Memory) (i : Fin 32) : (readOrder m i).tag.toNat = m.rd32 (cellBase i.val + 8) := by
  show (BitVec.ofNat 32 _).toNat = _
  rw [BitVec.toNat_ofNat, Nat.mod_eq_of_lt (Memory.rd32_lt _ _)]

/-- Settles O19: what the order unit searches from, which cell it finds, and what taking it does. -/
theorem searchTakesPostedCell : Obligations.SearchTakesPostedCell := by
  unfold Obligations.SearchTakesPostedCell
  refine ⟨fun s cells k0 k i answered hr hh hs h0 h1 h2 hi hp hn => ?_, fun s cells k0 answered hr hh hs hn => ?_,
    fun s cells answered hidle => ?_⟩
  · subst hi
    have hfound : s.searching.postedCell k0 cells = some (Fin.ofNat 32 (s.orders.lastTaken.val + 1 + k)) :=
      State.postedCell_eq_some (s := s.searching) h0 h1 h2 hp hn
    refine ⟨readOrder s.xp.mem _, s.searching.cellTaken _, rfl, readOrder_tag _ _, rfl, rfl, rfl, rfl, rfl, rfl, rfl, rfl,
      .of (exec_orderSearch s cells answered) ?_⟩
    rw [State.orderUnit_of_search hr hh hs, State.search_of_posted hfound, State.takeCell_eq]
    rfl
  · refine .of (exec_orderSearch s cells answered) ?_
    rw [State.orderUnit_of_search hr hh hs, State.search_of_none (State.postedCell_eq_none (s := s.searching) hn)]
    rfl
  · refine .of (exec_orderSearch s cells answered) ?_
    rcases s.orderUnit_cases cells answered with ⟨-, e⟩ | ⟨hr, ⟨hh, e⟩ | ⟨o, ho, ⟨-, e⟩ | ⟨a, ha, e⟩⟩⟩
    · exact e
    · rcases hidle with h | ⟨o, h, -⟩ | ⟨-, hs, hd, hatt⟩
      · exact absurd (hr.symm.trans h) (by decide)
      · exact absurd (hh.symm.trans h) (by simp)
      · rw [e]
        simp [State.searchBoard, hs, hd, hatt]
    · exact e
    · rcases hidle with h | ⟨o', h, hnone⟩ | ⟨h, -⟩
      · exact absurd (hr.symm.trans h) (by decide)
      · rw [ho] at h
        cases h
        exact absurd (ha.symm.trans hnone) (by simp)
      · exact absurd (ho.symm.trans h) (by simp)

/-! ### Answers (R13) -/

theorem answerBytes_detail (o : Order) (a : Answer) (w : Word32) :
    leNat (((answerBytes o a w).drop 4).take 4) = a.detail % 4294967296 := by
  simp only [answerBytes, List.append_assoc]
  rw [drop_append_add _ _ 4 0 (leBytes_length 4 _), List.drop_zero, take_four_leBytes, leNat_leBytes_four]

theorem answerBytes_tag (o : Order) (a : Answer) (w : Word32) :
    leNat (((answerBytes o a w).drop 8).take 4) = o.tag.toNat := by
  simp only [answerBytes, List.append_assoc]
  rw [drop_append_add _ _ 4 4 (leBytes_length 4 _), drop_append_add _ _ 4 0 (leBytes_length 4 _), List.drop_zero,
    take_four_leBytes, leNat_leBytes_four, Nat.mod_eq_of_lt o.tag.isLt]

theorem answerBytes_time (o : Order) (a : Answer) (w : Word32) :
    leNat (((answerBytes o a w).drop 12).take 4) = w.toNat := by
  simp only [answerBytes, List.append_assoc]
  rw [drop_append_add _ _ 4 8 (leBytes_length 4 _), drop_append_add _ _ 4 4 (leBytes_length 4 _),
    drop_append_add _ _ 4 0 (leBytes_length 4 _), List.drop_zero, List.take_of_length_le (by simp), leNat_leBytes_four,
    Nat.mod_eq_of_lt w.isLt]

/-- Outside the state word and the answer fields of the cell taken an answer changes no byte. -/
theorem State.answer_rd_outside (s : State) (o : Order) (a : Answer) {b : Nat}
    (h1 : ¬ (cellBase o.cell.val ≤ b ∧ b < cellBase o.cell.val + 4))
    (h2 : ¬ (cellBase o.cell.val + 64 ≤ b ∧ b < cellBase o.cell.val + 80)) : (s.answer o a).xp.mem.rd b = s.xp.mem.rd b := by
  rw [State.answer_mem, Memory.rd_write_outside _ _ _ _ (by rw [leBytes_length]; omega),
    Memory.rd_write_outside _ _ _ _ (by rw [answerBytes_length]; omega)]

/-- A command that carries out the orders of a kind by an effect that leaves the board alone: the effect, and its answer now or
later (R12, R13). -/
theorem carriesOut {f : State → Order → State × Answer} (hf : ∀ s o, LeavesBoard s (f s o).1) {k : Nat} {s : State} {o : Order}
    (ho : s.holds o k) {mk : Bool → Instr} (hexec : ∀ b, exec (mk b) s = .next (s.carryOut b k f).settle) :
    ∃ (u : State) (a : Answer), u.orders = s.orders ∧ u.xp.cells = s.xp.cells ∧
      (∀ i : Fin 32, ∀ j < 128, u.xp.mem.rd (cellBase i.val + j) = s.xp.mem.rd (cellBase i.val + j)) ∧
      u.noticed .answer = s.noticed .answer ∧
      Completes (mk true) s (u.answer o a) ∧
      Completes (mk false) s { u with orders := { u.orders with hand := some { o with waiting := false, result := some a } } } := by
  have h := hf s o
  exact ⟨(f s o).1, (f s o).2, h.orders, h.cells, h.bytes, h.answer, .of (hexec true) (State.carryOut_of_holds ho f true),
    .of (hexec false) (State.carryOut_of_holds ho f false)⟩

theorem State.carryOutRecorded_of_empty {s : State} (h : s.run.slot = none) (answered : Bool) (k : Nat)
    (f : State → Order → State × Answer) : s.carryOutRecorded answered k f = s.carryOut answered k f := by
  simp [State.carryOutRecorded, h]

/-- An order whose result is known neither waits nor is carried out again. -/
theorem State.carryOutRecorded_of_result {s : State} {o : Order} {a : Answer} (h : s.orders.hand = some o) (ha : o.result = some a)
    (answered : Bool) (k : Nat) (f : State → Order → State × Answer) : s.carryOutRecorded answered k f = s := by
  unfold State.carryOutRecorded
  split
  · simp [State.holdOrder, h, ha]
  · exact State.carryOut_of_result h ha f k answered

/-- The store an ADOPT_RECIPE leaves: a pinned entry stays, a slot that fails its checks empties it (R26). -/
theorem adoptRecipe_store (s : State) (o : Order) : (adoptRecipe s o).1.run.store =
    if s.pinned (entryOf o.op1) then s.run.store
    else s.run.store.set (entryOf o.op1)
      (if firstFailing (recipeChecks s.xp.mem (slotBase (entryOf o.op1).val)) = none
        then some (readRecipe s.xp.mem (slotBase (entryOf o.op1).val)) else none) := by
  unfold adoptRecipe
  dsimp only
  split
  · rfl
  · cases firstFailing (recipeChecks s.xp.mem (slotBase (entryOf o.op1).val)) with
    | none => rfl
    | some field => rfl

/-- Settles O21: one effect for each order's command; a result in hand only waits; what `State.answer` writes. -/
theorem answerWritesCell : Obligations.AnswerWritesCell := by
  unfold Obligations.AnswerWritesCell
  intro commands
  refine ⟨fun s o c hc ho hslot => ?_, fun s o a ho ha => ⟨fun c hc answered => ?_, fun hr => ⟨fun cells answered => ?_, ?_⟩⟩,
    fun s o ho hr => ?_, fun s o a hres hdet => ?_⟩
  · simp only [commands, List.mem_cons, List.not_mem_nil, or_false] at hc
    have recorded : c.1 = 3 ∨ c.1 = 6 → ∀ b k f, s.carryOutRecorded b k f = s.carryOut b k f :=
      fun h b k f => State.carryOutRecorded_of_empty (hslot h) b k f
    rcases hc with rfl | rfl | rfl | rfl | rfl | rfl | rfl | rfl | rfl
    · exact carriesOut .setStation ho fun _ => rfl
    · exact carriesOut .adoptRecipe ho fun _ => rfl
    · exact carriesOut .armRun ho fun b => by rw [← recorded (.inl rfl)]; rfl
    · exact carriesOut .amendRun ho fun _ => rfl
    · exact carriesOut .endRun ho fun _ => rfl
    · exact carriesOut .abandonRun ho fun b => by rw [← recorded (.inr rfl)]; rfl
    · exact carriesOut .addZone ho fun _ => rfl
    · exact carriesOut .softCut ho fun _ => rfl
    · exact carriesOut .forceMarker ho fun _ => rfl
  · have direct := State.carryOut_of_result ho ha
    have recorded := State.carryOutRecorded_of_result ho ha
    simp only [commands, List.mem_cons, List.not_mem_nil, or_false] at hc
    rcases hc with rfl | rfl | rfl | rfl | rfl | rfl | rfl | rfl | rfl
    · exact .of rfl (direct setStation 1 answered)
    · exact .of rfl (direct adoptRecipe 2 answered)
    · exact .of rfl (recorded answered 3 armRun)
    · exact .of rfl (direct amendRun 4 answered)
    · exact .of rfl (direct endRun 5 answered)
    · exact .of rfl (recorded answered 6 abandonRun)
    · exact .of rfl (direct addZone 7 answered)
    · exact .of rfl (direct softCut 8 answered)
    · exact .of rfl (direct forceMarker 9 answered)
  · refine .of (exec_orderSearch s cells answered) ?_
    simp [State.orderUnit, hr, ho, ha]
  · obtain ⟨hcell, hresult⟩ := State.restarted_aborts ho
    exact ⟨_, congrArg Host.Outcome.next (State.restart_of_ready hr), hcell, hresult, by rw [s.restarted_run],
      by rw [s.restarted_run]⟩
  · intro k
    have hleaves := LeavesBoard.adoptRecipe s o
    have hout : s.carryOut false 2 adoptRecipe = (adoptRecipe s o).1.conclude o (adoptRecipe s o).2 false :=
      State.carryOut_of_holds ho adoptRecipe false
    have hr' : (s.carryOut false 2 adoptRecipe).settle.ready = true := by
      rw [(LeavesBoard.settle _).ready, hout]
      exact hleaves.ready.trans hr
    have hhand : (s.carryOut false 2 adoptRecipe).settle.orders.hand =
        some { o with waiting := false, result := some (adoptRecipe s o).2 } := by
      rw [State.settle_orders, hout]
      rfl
    obtain ⟨hcell, hresult⟩ := State.restarted_aborts hhand
    refine ⟨_, _, rfl, congrArg Host.Outcome.next (State.restart_of_ready hr'), ?_, hcell, hresult⟩
    rw [State.restarted_run, State.settle_run, hout]
    exact adoptRecipe_store s o
  · have field := s.answer_rd32 o a
    refine ⟨?_, ?_, ?_, ?_, (s.answer_moves o a).word, (s.answer_moves o a).cells, fun b h1 h2 => s.answer_rd_outside o a h1 h2,
      State.noticed_setReason _ _, rfl⟩
    · have h := field 0 (by omega)
      rwa [List.drop_zero, answerBytes_result, Nat.mod_eq_of_lt hres] at h
    · rw [field 4 (by omega), answerBytes_detail, Nat.mod_eq_of_lt hdet]
    · rw [field 8 (by omega), answerBytes_tag]
    · rw [field 12 (by omega), answerBytes_time]
      rfl

/-! ## The end of a part restart (R16) -/

/-- A search touches the order unit, the cells and the notice, nothing else. -/
theorem State.search_rest (s : State) (k cells : Nat) (answered : Bool) : s.search k cells answered = { s with
    xp := { s.xp with
      notice := (s.search k cells answered).xp.notice, msiSent := (s.search k cells answered).xp.msiSent
      mem := (s.search k cells answered).xp.mem, cells := (s.search k cells answered).xp.cells }
    orders := (s.search k cells answered).orders } := by
  rcases s.search_cases k cells answered with ⟨i, -, e⟩ | ⟨-, e⟩
  · rw [e, State.takeCell_eq]
    cases unitAnswer (readOrder s.xp.mem i) with
    | none => rfl
    | some a => cases answered <;> rfl
  · rw [e]

theorem State.cellTaken_rd (s : State) (i : Fin 32) {a : Nat} (h : a < 192) : (s.cellTaken i).xp.mem.rd a = s.xp.mem.rd a :=
  (s.cellTaken_moves i).outside a (Or.inl (by unfold cellBase; omega))

/-- A search writes nothing into the status block. -/
theorem State.search_rd (s : State) (k cells : Nat) (answered : Bool) {a : Nat} (h : a < 192) :
    (s.search k cells answered).xp.mem.rd a = s.xp.mem.rd a := by
  rcases s.search_cases k cells answered with ⟨i, -, e⟩ | ⟨-, e⟩
  · rw [e, State.takeCell_eq]
    cases unitAnswer (readOrder s.xp.mem i) with
    | none => exact s.cellTaken_rd i h
    | some w =>
      cases answered with
      | false => exact s.cellTaken_rd i h
      | true =>
        exact (((s.cellTaken i).answer_moves (readOrder s.xp.mem i) w).outside a (Or.inl (by unfold cellBase; omega))).trans
          (s.cellTaken_rd i h)
  · rw [e]

/-- What taking a cell leaves of the order unit and the cells: the order in hand with what the unit's own checks say of it, or its
answer already written (R11, R12, log 31). -/
theorem State.takeCell_orders (s : State) (i : Fin 32) (answered : Bool) :
    (s.takeCell i answered).orders.lastTaken = i ∧ (s.takeCell i answered).orders.search = none ∧
      (s.takeCell i answered).orders.attention = s.orders.attention ∧
      (∀ j, j ≠ i → (s.takeCell i answered).xp.cells.get j = s.xp.cells.get j) ∧
      ((answered = true ∧ (s.takeCell i answered).xp.cells.get i = .answered ∧ (s.takeCell i answered).orders.hand = none) ∨
        ((s.takeCell i answered).xp.cells.get i = .taken ∧
          ∃ o, (s.takeCell i answered).orders.hand = some o ∧ o.cell = i ∧ o.result = unitAnswer o)) := by
  have htaken := (s.cellTaken_moves i).cells
  have hself : (s.cellTaken i).xp.cells.get i = .taken := by rw [htaken, if_pos rfl]
  have hother : ∀ j, j ≠ i → (s.cellTaken i).xp.cells.get j = s.xp.cells.get j := fun j hj => by rw [htaken, if_neg hj]
  rw [State.takeCell_eq]
  cases hu : unitAnswer (readOrder s.xp.mem i) with
  | none => exact ⟨rfl, rfl, rfl, hother, .inr ⟨hself, _, rfl, rfl, hu.symm⟩⟩
  | some a =>
    cases answered with
    | false => exact ⟨rfl, rfl, rfl, hother, .inr ⟨hself, _, rfl, rfl, hu.symm⟩⟩
    | true =>
      have hans := ((s.cellTaken i).answer_moves (readOrder s.xp.mem i) a).cells
      refine ⟨rfl, rfl, rfl, fun j hj => ?_, .inl ⟨rfl, (hans i).trans (if_pos rfl), rfl⟩⟩
      exact (hans j).trans ((if_neg hj).trans (hother j hj))

/-- The status block at the end of a restart, before the search: its values and its bytes (R14, R16). -/
theorem State.restartShowing_agrees (s : State) : StatusAgrees s.restartShowing := State.storeStatus_agrees _

theorem State.restartShown_restarts (s : State) (h : s.report.shown.restarts ≠ BitVec.allOnes 32) :
    s.restartShowing.report.shown.restarts = s.report.shown.restarts + 1#32 := if_neg h

theorem State.restartShowing_handed (s : State) (n : Strand) :
    (s.restartShowing.report.shown.strands.get n).hw = (s.strand n).chan.hw ∧
      (s.restartShowing.report.shown.strands.get n).speed = (s.strand n).chan.speed := by
  cases n <;> exact ⟨rfl, rfl⟩

/-- The end of an event leaves what the status block shows of IDENT, cause, restarts, refusal and the channels. -/
theorem Settles.shown_kept {u t : State} (h : Settles u t) :
    t.report.shown.ident = u.report.shown.ident ∧ t.report.shown.cause = u.report.shown.cause ∧
      t.report.shown.restarts = u.report.shown.restarts ∧ t.report.shown.lastRefused = u.report.shown.lastRefused ∧
      ∀ n, (t.report.shown.strands.get n).hw = (u.report.shown.strands.get n).hw ∧
        (t.report.shown.strands.get n).speed = (u.report.shown.strands.get n).speed := by
  rw [h.shown]
  refine ⟨rfl, rfl, rfl, rfl, fun n => ?_⟩
  cases n <;> exact ⟨rfl, rfl⟩

/-- One more in a 32-bit count that is not at its greatest value. -/
theorem toNat_succ_of_ne_allOnes {w : Word32} (h : w ≠ BitVec.allOnes 32) : (w + 1#32).toNat = w.toNat + 1 := by
  have hne : w.toNat ≠ 4294967295 := fun e => h (BitVec.eq_of_toNat_eq (by simpa using e))
  have := w.isLt
  rw [BitVec.toNat_add]
  simp
  omega

/-- Settles O9: the status block of `State.restartShowing` in values and bytes, then the search from there. -/
theorem restartEndMakesReady : Obligations.RestartEndMakesReady := by
  unfold Obligations.RestartEndMakesReady
  intro s cells answered hp
  let u := s.restartShowing.search 0 cells answered
  have hu : u = _ := s.restartShowing.search_rest 0 cells answered
  have hset : Settles u u.settle := u.settle_settles
  have hreport : u.report = s.restartShowing.report := by rw [hu]
  obtain ⟨hident, hcause, hrestarts, hrefused, hchan⟩ := hset.shown_kept
  rw [hreport] at hident hcause hrestarts hrefused hchan
  have hagree : StatusAgrees u := s.restartShowing_agrees.of_same
    (fun a ha => s.restartShowing.search_rd 0 cells answered ha) (by rw [hreport]) (by rw [hreport]) (by rw [hreport])
  have hfields := (hagree.settles hset).fields
  have hready : u.settle.ready = true := by
    rw [(LeavesBoard.settle u).ready, hu]
    rfl
  have hcells : u.settle.xp.cells = u.xp.cells := (LeavesBoard.settle u).cells
  refine ⟨u.settle, congrArg Host.Outcome.next (if_pos hp), ?_, hident, hcause, fun h => ?_, hrefused,
    ⟨?_, ?_, fun h => ?_, ?_, fun n => ⟨?_, ?_⟩⟩, fun n => ?_, ?_, ?_, fun hn => ?_, fun k i hk hc hi hpost hn => ?_, ?_⟩
  · exact if_pos hready
  · rw [hrestarts, s.restartShown_restarts h]
  · rw [hfields.ident, hident]
    rfl
  · rw [hfields.cause, hcause]
    rfl
  · rw [hfields.restarts, hrestarts, s.restartShown_restarts h, toNat_succ_of_ne_allOnes h]
  · rw [hfields.refused, hrefused]
    rfl
  · rw [hfields.hw, (hchan n).1, (s.restartShowing_handed n).1]
  · rw [hfields.speed, (hchan n).2, (s.restartShowing_handed n).2]
  · rw [State.strand, State.settle_strands, hu]
    exact State.sampleLines_strand _ n
  · rw [State.settle_inputs, hu]
    rfl
  · rw [State.settle_inputs, hu]
    rfl
  · have hnone : s.restartShowing.postedCell 0 cells = none :=
      State.postedCell_eq_none fun j _ h1 h2 => hn j h2 (by omega)
    have he : u = _ := State.search_of_none hnone answered
    rw [State.settle_orders, hcells, he]
    exact ⟨by simp only [Nat.zero_add]; rfl, rfl⟩
  · subst hi
    have hsome : s.restartShowing.postedCell 0 cells = some (Fin.ofNat 32 (s.orders.lastTaken.val + 1 + k)) :=
      State.postedCell_eq_some (s := s.restartShowing) (Nat.zero_le k) (by omega) hk hpost fun j _ hj => hn j hj
    have he : u = _ := State.search_of_posted hsome answered
    rw [State.settle_orders, hcells, he]
    exact s.restartShowing.takeCell_orders _ answered
  · rw [State.settle_run, hu]
    rfl

/-! ## Speed windows (R60 to R62, R82) -/

theorem State.windowOver_iff (s : State) (n : Strand) :
    s.windowOver n = true ↔ s.ready = true ∧ (s.strand n).chan.windowStart + 10 ≤ s.clock := by
  unfold State.windowOver
  rw [Bool.and_eq_true, decide_eq_true_eq]
  rfl

/-- The channel once its window has handed over the speed, before the motion state is judged (R60). -/
def Channel.measured (c : Channel) (e : Env) (n : Strand) : Channel :=
  { c with speed := windowSpeed e n c.windowSum, windowSum := 0, windowStart := c.windowStart + 10 }

/-- The motion state at a window's end, by R61 and R62. -/
theorem Channel.endWindow_eq (c : Channel) (e : Env) (n : Strand) : c.endWindow e n =
    if c.motion = .moving then
      if windowSpeed e n c.windowSum < (e.stopSpeed n : Int) then
        if c.dwell = none then { c.measured e n with dwell := some (c.windowStart + 10), stopCapture := some c.hw }
        else c.measured e n
      else if c.dwell = none then c.measured e n else { c.measured e n with dwell := none, stopCapture := none }
    else if (e.startSpeed n : Int) ≤ windowSpeed e n c.windowSum then
      if c.startCount = 0 then { c.measured e n with startCount := 1 }
      else { c.measured e n with motion := .moving, startCount := 0 }
    else { c.measured e n with startCount := 0 } := by
  have hend : c.endWindow e n = (c.measured e n).judge e n (c.windowStart + 10) := rfl
  rw [hend]
  unfold Channel.judge
  cases hm : c.motion with
  | moving =>
    cases hd : c.dwell <;> simp [Channel.measured, hm, hd]
  | still =>
    by_cases hc : c.startCount = 0 <;> simp [Channel.measured, hm, hc]
  | halted =>
    by_cases hc : c.startCount = 0 <;> simp [Channel.measured, hm, hc]

theorem Channel.endWindow_hw (c : Channel) (e : Env) (n : Strand) : (c.endWindow e n).hw = c.hw := by
  rw [Channel.endWindow_eq]
  repeat' split
  all_goals rfl

theorem Channel.endWindow_speed (c : Channel) (e : Env) (n : Strand) : (c.endWindow e n).speed = windowSpeed e n c.windowSum := by
  rw [Channel.endWindow_eq]
  repeat' split
  all_goals rfl

/-- A strand at a window's end: its channel, and a LAPSED stale timer that becomes STALE as a TRACKING strand enters MOVING (R82). -/
theorem StrandState.endWindow_eq (st : StrandState) (e : Env) (n : Strand) : st.endWindow e n =
    if st.chan.motion ≠ .moving ∧ (st.chan.endWindow e n).motion = .moving ∧ st.track = .tracking ∧
        st.port.stale = .lapsed then
      { st with
        chan := st.chan.endWindow e n
        port := { st.port with
          stale := .stale, fifo := if st.port.fifo.contains .notice then st.port.fifo else st.port.fifo ++ [.notice] }
        raised := st.raised ++ [{ kind := .stale, strand := some n, code := 0, coordinate := st.chan.hw,
                                  detail := e.staleTime n, time := e.time }] }
    else { st with chan := st.chan.endWindow e n } := by
  unfold StrandState.endWindow
  dsimp only
  split
  · simp [StrandState.goStale, StrandState.raise, Channel.endWindow_hw]
  · rfl

theorem StrandState.endWindow_chan (st : StrandState) (e : Env) (n : Strand) :
    (st.endWindow e n).chan = st.chan.endWindow e n := by
  rw [StrandState.endWindow_eq]
  split <;> rfl

/-- The part as a window's channel, and the run's first motion, have been judged, before the status block is rewritten. -/
def State.windowJudged (s : State) (n : Strand) : State :=
  (s.onStrand n (fun st => st.endWindow s.env n)).noteMoving n (s.strand n).chan.motion

theorem State.endWindow_eq (s : State) (n : Strand) :
    s.endWindow n = (s.windowJudged n).putStatus ((s.windowJudged n).windowShown n) := rfl

theorem State.noteMoving_strands (s : State) (n : Strand) (m : Motion) : (s.noteMoving n m).strands = s.strands := by
  unfold State.noteMoving
  split
  · exact State.setRun_strands _ _
  · rfl

theorem State.noteMoving_report (s : State) (n : Strand) (m : Motion) : (s.noteMoving n m).report = s.report := by
  unfold State.noteMoving
  split
  · exact State.setRun_report _ _
  · rfl

theorem State.noteMoving_clock (s : State) (n : Strand) (m : Motion) : (s.noteMoving n m).clock = s.clock := by
  unfold State.noteMoving
  split
  · exact State.setRun_clock _ _
  · rfl

theorem State.noteMoving_mem (s : State) (n : Strand) (m : Motion) :
    (s.noteMoving n m).xp.mem = s.xp.mem ∧ (s.noteMoving n m).xp.pages = s.xp.pages := by
  unfold State.noteMoving State.setRun
  split
  · split
    · exact ⟨rfl, rfl⟩
    · exact ⟨rfl, rfl⟩
  · exact ⟨rfl, rfl⟩

theorem State.noteMoving_run (s : State) (n : Strand) (m : Motion) : (s.noteMoving n m).run = { s.run with
    state := if s.run.state = .armed ∧ s.inMask n = true ∧ m ≠ .moving ∧ (s.strand n).chan.motion = .moving then .active
      else s.run.state } := by
  unfold State.noteMoving
  split
  · rw [State.setRun_run]
  · rfl

theorem State.windowJudged_strand (s : State) (n : Strand) : (s.windowJudged n).strand n = (s.strand n).endWindow s.env n := by
  unfold State.windowJudged
  rw [State.strand, State.noteMoving_strands]
  exact State.onStrand_strand s n _

theorem State.windowJudged_strand_ne (s : State) {n m : Strand} (h : m ≠ n) : (s.windowJudged n).strand m = s.strand m := by
  unfold State.windowJudged
  rw [State.strand, State.noteMoving_strands]
  exact State.onStrand_strand_ne s _ h

theorem State.windowJudged_run (s : State) (n : Strand) : (s.windowJudged n).run = { s.run with
    state := if s.run.state = .armed ∧ s.inMask n = true ∧ (s.strand n).chan.motion ≠ .moving ∧
        ((s.strand n).chan.endWindow s.env n).motion = .moving then .active else s.run.state } := by
  unfold State.windowJudged
  rw [State.noteMoving_run, State.onStrand_strand, StrandState.endWindow_chan]
  rfl

theorem State.windowJudged_report (s : State) (n : Strand) : (s.windowJudged n).report = s.report := State.noteMoving_report _ _ _

/-- What the status block shows after a window: the channel's new values, the others' as before. -/
theorem State.windowShown_get (s : State) (n m : Strand) : ((s.windowShown n).strands.get m).speed =
      (if m = n then (s.strand n).chan.speed else (s.report.shown.strands.get m).speed) ∧
    ((s.windowShown n).strands.get m).hw = if m = n then (s.strand n).chan.hw else (s.report.shown.strands.get m).hw := by
  unfold State.windowShown
  dsimp only
  rw [Four.get_set]
  split
  · exact ⟨rfl, rfl⟩
  · simp [State.shownNow, StrandState.shown]

/-- A window's rewrite shows the present values, so that the end of the event makes no second one (log 7). -/
theorem State.endWindow_shownNow (s : State) (n : Strand) : (s.endWindow n).shownNow = (s.endWindow n).report.shown := by
  rw [State.endWindow_eq]
  generalize s.windowJudged n = u
  have hstrands : ∀ m, (u.strand m).shown ((u.windowShown n).strands.get m) = (u.windowShown n).strands.get m := fun m => by
    unfold State.windowShown
    dsimp only
    rw [Four.get_set]
    split
    · subst_vars
      simp [State.shownNow, StrandState.shown]
    · simp [State.shownNow, StrandState.shown]
  show { u.windowShown n with
    runState := u.run.state, runId := u.run.runId, depth := u.report.queue.length, freePages := u.freePages
    lost := u.report.lost
    strands := Four.build fun m => (u.strand m).shown ((u.windowShown n).strands.get m) } = u.windowShown n
  rw [show (Four.build fun m => (u.strand m).shown ((u.windowShown n).strands.get m)) = (u.windowShown n).strands from
    Four.ext_get fun m => by rw [Four.get_build, hstrands]]
  rfl

/-- Settles O37: the channel by `Channel.endWindow_eq`, the strand by `StrandState.endWindow_eq`, the status block by its one
rewrite. -/
theorem speedWindowJudged : Obligations.SpeedWindowJudged := by
  unfold Obligations.SpeedWindowJudged
  intro n s c speed c1 c2
  have hc2 : c.endWindow s.env n = c2 := c.endWindow_eq s.env n
  refine ⟨fun hr hw => ?_, fun h => ?_⟩
  · have hset := (s.endWindow n).settle_settles
    obtain ⟨hmem, hseq, htime⟩ := hset.kept (s.endWindow_shownNow n)
    have hshown : (s.endWindow n).settle.report.shown = (s.windowJudged n).windowShown n :=
      hset.shown.trans (s.endWindow_shownNow n)
    have hrep := s.windowJudged_report n
    have hchan : ((s.windowJudged n).strand n).chan = c2 := by rw [s.windowJudged_strand, StrandState.endWindow_chan, hc2]
    have hspeed : c2.speed = speed := hc2 ▸ c.endWindow_speed s.env n
    have hhw : c2.hw = c.hw := hc2 ▸ c.endWindow_hw s.env n
    have hget := (s.windowJudged n).windowShown_get n
    have hagree : StatusAgrees (s.endWindow n) := State.storeStatus_agrees _
    have hfields := (hagree.settles hset).fields
    have hspeedShown : ((s.endWindow n).settle.report.shown.strands.get n).speed = speed := by
      rw [hshown, (hget n).1, if_pos rfl, hchan, hspeed]
    have hhwShown : ((s.endWindow n).settle.report.shown.strands.get n).hw = c.hw := by
      rw [hshown, (hget n).2, if_pos rfl, hchan, hhw]
    have hseq' : (s.endWindow n).settle.report.updateSeq = s.report.updateSeq + 2#32 := by
      rw [hseq]
      show (s.windowJudged n).report.updateSeq + 2#32 = _
      rw [hrep]
    have hstrands : (s.endWindow n).settle.strands = (s.windowJudged n).strands := State.settle_strands _
    have hwhole : LeavesBoard s (s.endWindow n).settle := (LeavesBoard.endWindow s n).settled
    refine ⟨_, congrArg Host.Outcome.next (if_pos ((s.windowOver_iff n).mpr ⟨hr, hw⟩)), ?_, fun m hm => ?_, ?_, hseq',
      hspeedShown, hhwShown, fun m hm => ?_, ?_, ?_, ?_, ?_, hwhole.cells, ?_, ?_⟩
    · rw [State.strand, hstrands, ← hc2]
      exact (s.windowJudged_strand n).trans ((s.strand n).endWindow_eq s.env n)
    · rw [State.strand, hstrands]
      exact s.windowJudged_strand_ne hm
    · rw [State.settle_run, ← hc2]
      exact s.windowJudged_run n
    · rw [hshown, (hget m).1, if_neg hm, hrep]
    · rw [hfields.seq, hseq']
    · rw [hfields.time, htime]
      show (BitVec.ofNat 32 (s.windowJudged n).clock).toNat = _
      rw [State.windowJudged, State.noteMoving_clock, BitVec.toNat_ofNat]
      rfl
    · rw [hfields.hw, hhwShown]
    · rw [hfields.speed, hspeedShown]
    · rw [hset.rest]
      exact (State.noteMoving_mem _ _ _).2
    · intro a ha
      rw [hset.rd a ha, State.endWindow_eq, (s.windowJudged n).putStatus_beyond _ a ha]
      exact congrArg (·.rd a) (State.noteMoving_mem _ _ _).1
  · have hno : ¬ s.windowOver n = true := fun e => h ((s.windowOver_iff n).mp e)
    exact congrArg Host.Outcome.next (if_neg hno)

end Sys2Proof.Machine
end

section
namespace Sys2Proof.Machine

/-! # The recipe store through a command (R26, R28)

Only ADOPT_RECIPE and POWER_ON write the store. The first lemmas say of each operation of the model that the run controller, or at
least its store, is as before. -/

/-! ## Operations that leave the run controller alone -/

@[simp] theorem State.setRun_store (s : State) (r : RunState) : (s.setRun r).run.store = s.run.store := by
  rw [State.setRun_run]

@[simp] theorem State.onInput_run (s : State) (i : LineInput) (f : Input → Input) : (s.onInput i f).run = s.run := by
  cases i <;> rfl

@[simp] theorem State.handOn_run (s : State) (i : LineInput) (c : Captures) : (s.handOn i c).run = s.run := by cases i <;> rfl

@[simp] theorem State.leadingEdge_run (s : State) (i : LineInput) : (s.leadingEdge i).run = s.run := by
  unfold State.leadingEdge
  split
  · split <;> simp
  · simp

@[simp] theorem State.qualify_run (s : State) (i : LineInput) : (s.qualify i).run = s.run := by
  unfold State.qualify
  split
  · split <;> simp
  · rfl
  · rfl

@[simp] theorem State.raiseShort_run (s : State) (i : LineInput) : (s.raiseShort i).run = s.run := rfl

@[simp] theorem State.inputInactive_run (s : State) (i : LineInput) : (s.inputInactive i).run = s.run := by
  unfold State.inputInactive
  split
  · split <;> simp
  · simp

@[simp] theorem State.encoderEdge_run (s : State) (n : Strand) (a b : Bool) : (s.encoderEdge n a b).run = s.run := by
  unfold State.encoderEdge
  split <;> rfl

@[simp] theorem State.seamForecast_run (s : State) : s.seamForecast.run = s.run := by
  unfold State.seamForecast
  split <;> rfl

@[simp] theorem State.frameArrival_run (s : State) (n : Strand) (content : List Byte) (e : FrameEnd) :
    (s.frameArrival n content e).run = s.run := by
  unfold State.frameArrival
  split
  · cases e <;> rfl
  · rfl

@[simp] theorem State.startDelimiter_run (s : State) (n : Strand) : (s.startDelimiter n).run = s.run := by
  unfold State.startDelimiter
  split
  · split <;> rfl
  · rfl

@[simp] theorem State.serve_run (s : State) (n : Strand) : (s.serve n).run = s.run := by
  unfold State.serve
  split <;> rfl

@[simp] theorem State.arbiterLook_run (s : State) : s.arbiterLook.run = s.run := by
  unfold State.arbiterLook
  split
  · rfl
  · split <;> simp

@[simp] theorem State.takeNotice_run (s : State) : s.takeNotice.run = s.run := by
  unfold State.takeNotice
  split
  · dsimp only
    split <;> rfl
  · rfl
  · rfl

@[simp] theorem State.buildPiece_run (s : State) (n : Strand) : (s.buildPiece n).run = s.run := by
  unfold State.buildPiece
  split <;> rfl

@[simp] theorem State.pieceBuild_run (s : State) : s.pieceBuild.run = s.run := by
  unfold State.pieceBuild
  split
  · split <;> simp
  · rfl

@[simp] theorem State.arriveIncident_run (s : State) (i : Incident) : (s.arriveIncident i).run = s.run := by
  unfold State.arriveIncident
  split
  · rfl
  · split <;> rfl

@[simp] theorem State.incidentArrival_run (s : State) (n : Option Strand) (b : Raiser) : (s.incidentArrival n b).run = s.run := by
  cases n with
  | none =>
    unfold State.incidentArrival State.inputIncident
    dsimp only
    split <;> simp
  | some n =>
    unfold State.incidentArrival State.strandIncident
    dsimp only
    split <;> simp

@[simp] theorem State.writeRecord_run (s : State) (f : Filling) (r : Record) (rest : List Record) :
    (s.writeRecord f r rest).run = s.run := by
  rw [State.writeRecord_eq]
  split <;> rfl

@[simp] theorem State.writeHead_run (s : State) : s.writeHead.run = s.run := by
  unfold State.writeHead
  split
  · split <;> simp
  · rfl

@[simp] theorem State.openPage_run (s : State) (p : Fin 54) : (s.openPage p).run = s.run := by
  rw [State.openPage_eq, State.writeHead_run]
  rfl

@[simp] theorem State.pageOpen_run (s : State) : s.pageOpen.run = s.run := by
  unfold State.pageOpen
  split
  · rfl
  · split <;> simp

@[simp] theorem State.lingerExpiry_run (s : State) : s.lingerExpiry.run = s.run := by
  unfold State.lingerExpiry
  split
  · rfl
  · split <;> rfl

@[simp] theorem State.rejudgeLinger_run (s : State) : s.rejudgeLinger.run = s.run := by
  unfold State.rejudgeLinger
  split
  · split
    · rfl
    · split <;> rfl
  · rfl

@[simp] theorem State.setAside_run (s : State) : s.setAside.run = s.run := rfl

@[simp] theorem State.sampleLines_run (s : State) : s.sampleLines.run = s.run := rfl

@[simp] theorem State.endPowerOn_run (s : State) : s.endPowerOn.run = s.run := rfl

@[simp] theorem State.conclude_run (s : State) (o : Order) (a : Answer) (answered : Bool) :
    (s.conclude o a answered).run = s.run := by
  cases answered <;> rfl

@[simp] theorem State.search_run (s : State) (k cells : Nat) (answered : Bool) : (s.search k cells answered).run = s.run := by
  rw [State.search_rest]

@[simp] theorem State.searchBoard_run (s : State) (cells : Nat) (answered : Bool) : (s.searchBoard cells answered).run = s.run := by
  unfold State.searchBoard
  split
  · simp
  · split
    · simp
    · split <;> simp

@[simp] theorem State.orderUnit_run (s : State) (cells : Nat) (answered : Bool) : (s.orderUnit cells answered).run = s.run := by
  rcases s.orderUnit_cases cells answered with ⟨-, e⟩ | ⟨-, ⟨-, e⟩ | ⟨o, -, ⟨-, e⟩ | ⟨a, -, e⟩⟩⟩ <;> simp [e]

@[simp] theorem State.endRestart_run (s : State) (cells : Nat) (answered : Bool) : (s.endRestart cells answered).run = s.run := by
  rw [State.endRestart_eq, State.search_run]
  rfl

@[simp] theorem State.hostWrite_run (s : State) (offset : Nat) (bytes : List Byte) : (s.hostWrite offset bytes).run = s.run := by
  unfold State.hostWrite
  split
  · split
    · rw [State.settle_run, State.acceptWrite_rest]
    · rw [State.settle_run, State.refuseWrite_rest]
  · rfl

@[simp] theorem State.holdOrder_run (s : State) (k : Nat) : (s.holdOrder k).run = s.run := by
  unfold State.holdOrder
  split
  · rfl
  · split <;> rfl

/-! ## Operations of the run controller -/

@[simp] theorem State.formRecord_store (s : State) (e : RunEvent) : (s.formRecord e).run.store = s.run.store := rfl

@[simp] theorem State.switchOver_store (s : State) (k : Fin 8) : (s.switchOver k).run.store = s.run.store := rfl

@[simp] theorem State.reachSwitchOver_store (s : State) (k : Fin 8) : (s.reachSwitchOver k).run.store = s.run.store := by
  unfold State.reachSwitchOver
  split <;> rfl

@[simp] theorem State.waitedSwitchOver_store (s : State) : s.waitedSwitchOver.run.store = s.run.store := by
  unfold State.waitedSwitchOver
  split <;> rfl

@[simp] theorem State.strandEvent_store (s : State) (n : Strand) (f : StrandState → StrandState) :
    (s.strandEvent n f).run.store = s.run.store := by
  unfold State.strandEvent
  dsimp only
  split
  · split <;> simp
  · rfl

/-- Events over the strands in turn, none of which writes the store. -/
theorem foldl_store {f : State → Strand → State} (h : ∀ s n, (f s n).run.store = s.run.store) (l : List Strand) (s : State) :
    (l.foldl f s).run.store = s.run.store := by
  induction l generalizing s with
  | nil => rfl
  | cons n l ih => exact (ih (f s n)).trans (h s n)

@[simp] theorem State.noteMoving_store (s : State) (n : Strand) (m : Motion) : (s.noteMoving n m).run.store = s.run.store := by
  rw [State.noteMoving_run]

@[simp] theorem State.endWindow_store (s : State) (n : Strand) : (s.endWindow n).run.store = s.run.store := by
  simp [State.endWindow]

@[simp] theorem State.applyStaged_store (s : State) (k : Fin 8) (c : Captures) : (s.applyStaged k c).run.store = s.run.store := by
  unfold State.applyStaged
  dsimp only
  split <;> simp

@[simp] theorem State.qualifiedSeam_store (s : State) : s.qualifiedSeam.run.store = s.run.store := by
  unfold State.qualifiedSeam State.seamAtRun
  split
  · rfl
  · dsimp only
    split
    · split <;> simp
    · rfl

@[simp] theorem State.sawAt_store (s : State) (c : Captures) (n : Strand) : (s.sawAt c n).run.store = s.run.store := by
  unfold State.sawAt
  split <;> simp

@[simp] theorem State.qualifiedSaw_store (s : State) : s.qualifiedSaw.run.store = s.run.store := by
  unfold State.qualifiedSaw
  split
  · rfl
  · dsimp only
    split
    · exact foldl_store (fun s n => s.sawAt_store _ n) _ _
    · rfl

@[simp] theorem State.takeScan_store (s : State) : s.takeScan.run.store = s.run.store := by
  unfold State.takeScan
  split
  · dsimp only
    split <;> simp
  · rfl
  · rfl

@[simp] theorem State.closeRun_store (s : State) : s.closeRun.run.store = s.run.store := by simp [State.closeRun]

@[simp] theorem State.restart_store (s : State) : s.restart.run.store = s.run.store := by
  cases hr : s.ready with
  | true => rw [State.restart_of_ready hr, State.restarted_run]
  | false => rw [State.restart_of_not_ready hr]

@[simp] theorem State.hostRegister_store (s : State) (reg : Register) (data : RegData) :
    (s.hostRegister reg data).run.store = s.run.store := by
  cases data with
  | short bytes => rfl
  | word v =>
    cases reg with
    | restart =>
      show (if v = Config.restartKey then s.restart else s).run.store = _
      split <;> simp
    | _ => rfl

/-! ## Orders -/

theorem setStation_store (s : State) (o : Order) : (setStation s o).1.run.store = s.run.store := by
  unfold setStation
  split
  · rfl
  · split
    · rfl
    · simp [State.adoptStation]

theorem armRun_store (s : State) (o : Order) : (armRun s o).1.run.store = s.run.store := by
  unfold armRun
  split
  · rfl
  · simp [State.openRun]

theorem amendRun_store (s : State) (o : Order) : (amendRun s o).1.run.store = s.run.store := by
  unfold amendRun
  dsimp only
  repeat' split
  all_goals rfl

theorem endRun_store (s : State) (o : Order) : (endRun s o).1.run.store = s.run.store := by
  unfold endRun
  split <;> simp

theorem abandonRun_store (s : State) (o : Order) : (abandonRun s o).1.run.store = s.run.store := by
  unfold abandonRun
  split <;> simp

theorem addZone_store (s : State) (o : Order) : (addZone s o).1.run.store = s.run.store := by
  unfold addZone State.addZoneTo
  dsimp only
  repeat' split
  all_goals rfl

theorem softCut_store (s : State) (o : Order) : (softCut s o).1.run.store = s.run.store := by
  have cut : ∀ (s : State) (n : Strand),
      (if (maskOf o.op1).get n then s.softCutAt n else s).run.store = s.run.store := fun s n => by
    split
    · exact s.strandEvent_store n _
    · rfl
  unfold softCut
  split
  · rfl
  · rfl
  all_goals
    split
    · exact foldl_store cut _ _
    · rfl

theorem forceMarker_store (s : State) (o : Order) : (forceMarker s o).1.run.store = s.run.store := by
  unfold forceMarker
  split
  · rfl
  · split <;> rfl

theorem State.carryOut_store {f : State → Order → State × Answer} (hf : ∀ s o, (f s o).1.run.store = s.run.store) (s : State)
    (answered : Bool) (k : Nat) : (s.carryOut answered k f).run.store = s.run.store := by
  unfold State.carryOut
  split
  · rfl
  · split
    · simp [hf]
    · rfl

theorem State.carryOutRecorded_store {f : State → Order → State × Answer} (hf : ∀ s o, (f s o).1.run.store = s.run.store)
    (s : State) (answered : Bool) (k : Nat) : (s.carryOutRecorded answered k f).run.store = s.run.store := by
  unfold State.carryOutRecorded
  split
  · simp
  · exact State.carryOut_store hf s answered k

@[simp] theorem State.takeWaiting_store (s : State) (answered : Bool) : (s.takeWaiting answered).run.store = s.run.store := by
  unfold State.takeWaiting
  split
  · rfl
  · split
    · rw [State.carryOut_store abandonRun_store, State.carryOut_store armRun_store]
    · rfl

@[simp] theorem State.runRecordEntry_store (s : State) (answered : Bool) : (s.runRecordEntry answered).run.store = s.run.store := by
  unfold State.runRecordEntry State.enterRunRecord
  split
  · rfl
  · split
    · dsimp only
      split <;> simp
    · rfl

/-! ## Every command -/

/-- The commands that write the store: POWER_ON, and ADOPT_RECIPE (R15, R26). -/
def Instr.writesStore : Instr → Bool
  | .powerOn | .adoptRecipe _ => true
  | _ => false

/-- No other command changes any entry, pinned or not. -/
theorem exec_store {c : Instr} {s t : State} (hc : Instr.writesStore c = false) (h : exec c s = .next t) :
    t.run.store = s.run.store := by
  have next : ∀ u : State, u.run.store = s.run.store → exec c s = .next u → t.run.store = s.run.store := fun u hu e => by
    rw [e] at h
    cases h
    exact hu
  have settled : ∀ u : State, u.run.store = s.run.store → exec c s = .next u.settle → t.run.store = s.run.store :=
    fun u hu e => next u.settle (by rw [State.settle_run, hu]) e
  cases c with
  | powerOn => cases hc
  | adoptRecipe answered => cases hc
  | powerOnInitEnd => exact next _ (by split <;> simp) rfl
  | restart => exact next _ s.restart_store rfl
  | restartEnd cells answered => exact next _ (by split <;> simp) rfl
  | pcieLinkReset => exact next (s.writeMask 0#32) rfl rfl
  | msiEnable => exact next { s with xp := { s.xp with msiEnabled := true } } rfl rfl
  | msiDisable => exact next { s with xp := { s.xp with msiEnabled := false } } rfl rfl
  | noticeWrite v => exact next _ (s.hostRegister_store .notice (.word v)) rfl
  | noticeMaskWrite v => exact next _ (s.hostRegister_store .noticeMask (.word v)) rfl
  | registerWriteIgnored r d => exact next _ (s.hostRegister_store r d) rfl
  | exchangeWrite offset bytes =>
    by_cases hw : offset + bytes.length ≤ Config.windowBytes
    · exact next _ (by simp) (exec_exchangeWrite hw s)
    · exact absurd ((if_neg hw).symm.trans h) (by simp)
  | cellPost i => exact next _ (by simp) rfl
  | cellFree i => exact next _ (by simp) rfl
  | pageReturn p => exact next _ (by simp) rfl
  | orderSearch cells answered => exact settled _ (by simp) (exec_orderSearch s cells answered)
  | setStation answered => exact settled _ (State.carryOut_store setStation_store s answered 1) rfl
  | armRun answered => exact settled _ (State.carryOutRecorded_store armRun_store s answered 3) rfl
  | amendRun answered => exact settled _ (State.carryOut_store amendRun_store s answered 4) rfl
  | endRun answered => exact settled _ (State.carryOut_store endRun_store s answered 5) rfl
  | abandonRun answered => exact settled _ (State.carryOutRecorded_store abandonRun_store s answered 6) rfl
  | addZone answered => exact settled _ (State.carryOut_store addZone_store s answered 7) rfl
  | softCut answered => exact settled _ (State.carryOut_store softCut_store s answered 8) rfl
  | forceMarker answered => exact settled _ (State.carryOut_store forceMarker_store s answered 9) rfl
  | encoderEdge n a b => exact settled _ (by simp) rfl
  | speedWindowEnd n => exact next _ (by split <;> simp) rfl
  | stopDwellExpiry n => exact next _ (by split <;> simp) rfl
  | stopForecast n => exact settled _ (by simp) rfl
  | leadingEdge i => exact next _ (by simp) rfl
  | qualificationExpiry i => exact next _ (by simp) rfl
  | inputInactive i => exact next _ (by simp) rfl
  | qualifiedSeam => exact settled _ (by simp) rfl
  | seamForecast => exact settled _ (by simp) rfl
  | qualifiedSaw => exact settled _ (by simp) rfl
  | frameArrival n content e => exact settled _ (by simp) rfl
  | staleTimerExpiry n => exact next _ (by split <;> simp) rfl
  | arbiterLook => exact next _ (by simp) rfl
  | scanTaking => exact settled _ (by simp) rfl
  | staleNoticeTaking => exact settled _ (by simp) rfl
  | switchOver => exact settled _ (by simp) rfl
  | runClosed => exact next _ (by split <;> simp) rfl
  | runRecordEntry answered => exact settled _ (by simp) rfl
  | pieceBuild => exact settled _ (by simp) rfl
  | markRequest n r => exact settled _ (by simp) rfl
  | markOff n => exact settled _ (by simp) rfl
  | incidentArrival n b => exact settled _ (by simp) rfl
  | pageOpen => exact settled _ (by simp) rfl
  | recordWrite => exact settled _ (by simp) rfl
  | lingerExpiry => exact settled _ (by simp) rfl
  | startDelimiter n => exact settled _ (by simp) rfl

/-- ADOPT_RECIPE writes no entry but the one its order names, and that one only where it is not pinned (R26, R28). -/
theorem adoptRecipe_store_get {s : State} {k : Fin 8} (hk : s.pinned k = true) (o : Order) :
    (adoptRecipe s o).1.run.store.get k = s.run.store.get k := by
  rw [adoptRecipe_store]
  split
  · rfl
  · rename_i hfree
    have hne : k ≠ entryOf o.op1 := fun e => hfree (e ▸ hk)
    rw [Vector.get_set_eq_ite, if_neg hne]

/-- Settles O24: the commands that leave the store alone by `exec_store`, ADOPT_RECIPE by `adoptRecipe_store_get`. -/
theorem pinnedEntryKept : Obligations.PinnedEntryKept := by
  unfold Obligations.PinnedEntryKept
  intro c s t k hpow hk h
  by_cases hc : Instr.writesStore c = false
  · rw [exec_store hc h]
  · cases c with
    | powerOn => exact absurd rfl hpow
    | adoptRecipe answered =>
      cases h
      rw [State.settle_run]
      unfold State.carryOut
      split
      · rfl
      · split
        · rw [State.conclude_run]
          exact adoptRecipe_store_get hk _
        · rfl
    | _ => exact absurd rfl hc

end Sys2Proof.Machine
end

section
namespace Sys2Proof.Machine

/-! # Field checks in ascending number (R19, R27)

The model checks the fields of a page from a list of numbered checks; the statements say by number which field passes. `Decides`
joins the two over a range of field numbers, so that a list is judged block by block. -/

/-- Over the field numbers from lo up to hi, a list of checks in ascending number says what a predicate says of each number it
lists, and the predicate holds of every other. -/
structure Decides (l : List (Nat × Bool)) (ok : Nat → Prop) (lo hi : Nat) : Prop where
  ascending : l.Pairwise (fun p q => p.1 < q.1)
  range : ∀ p ∈ l, lo ≤ p.1 ∧ p.1 < hi
  listed : ∀ p ∈ l, p.2 = true ↔ ok p.1
  others : ∀ f, lo ≤ f → f < hi → (∀ p ∈ l, p.1 ≠ f) → ok f

theorem Decides.nil {ok : Nat → Prop} {lo hi : Nat} (h : ∀ f, lo ≤ f → f < hi → ok f) : Decides [] ok lo hi where
  ascending := .nil
  range := by simp
  listed := by simp
  others f h1 h2 _ := h f h1 h2

theorem Decides.append {l1 l2 : List (Nat × Bool)} {ok : Nat → Prop} {lo mid hi : Nat} (h1 : Decides l1 ok lo mid)
    (h2 : Decides l2 ok mid hi) (hlo : lo ≤ mid) (hhi : mid ≤ hi) : Decides (l1 ++ l2) ok lo hi where
  ascending := List.pairwise_append.mpr ⟨h1.ascending, h2.ascending, fun p hp q hq =>
    Nat.lt_of_lt_of_le (h1.range p hp).2 (h2.range q hq).1⟩
  range p hp := by
    rcases List.mem_append.mp hp with hp | hp
    · exact ⟨(h1.range p hp).1, Nat.lt_of_lt_of_le (h1.range p hp).2 hhi⟩
    · exact ⟨Nat.le_trans hlo (h2.range p hp).1, (h2.range p hp).2⟩
  listed p hp := by
    rcases List.mem_append.mp hp with hp | hp
    · exact h1.listed p hp
    · exact h2.listed p hp
  others f hf1 hf2 hne := by
    rcases Nat.lt_or_ge f mid with h | h
    · exact h1.others f hf1 h fun p hp => hne p (List.mem_append_left _ hp)
    · exact h2.others f h hf2 fun p hp => hne p (List.mem_append_right _ hp)

theorem Decides.one {b : Bool} {ok : Nat → Prop} {k : Nat} (h : b = true ↔ ok k) : Decides [(k, b)] ok k (k + 1) where
  ascending := List.pairwise_singleton _ _
  range := by simp
  listed := by simpa using h
  others f h1 h2 hne := absurd (Nat.le_antisymm h1 (Nat.lt_succ_iff.mp h2)) (hne (k, b) (by simp))

/-- The checks of n blocks, the i-th over the numbers from base i up to base (i + 1). -/
theorem Decides.flatMap_range {g : Nat → List (Nat × Bool)} {ok : Nat → Prop} {base : Nat → Nat}
    (hmono : ∀ i, base i ≤ base (i + 1)) {n : Nat} (h : ∀ i < n, Decides (g i) ok (base i) (base (i + 1))) :
    Decides ((List.range n).flatMap g) ok (base 0) (base n) := by
  have hbase : ∀ n, base 0 ≤ base n := fun n => monotone_nat_of_le_succ hmono (Nat.zero_le n)
  induction n with
  | zero => exact .nil fun f h1 h2 => absurd h1 (Nat.not_le_of_lt h2)
  | succ n ih =>
    rw [List.range_succ, List.flatMap_append, List.flatMap_singleton]
    exact (ih fun i hi => h i (Nat.lt_succ_of_lt hi)).append (h n (Nat.lt_succ_self n)) (hbase n) (hmono n)

/-- Fields that pass may be added on either side of a list's range. -/
theorem Decides.widen {l : List (Nat × Bool)} {ok : Nat → Prop} {lo hi lo' hi' : Nat} (h : Decides l ok lo hi) (hlo : lo' ≤ lo)
    (hhi : hi ≤ hi') (below : ∀ f, lo' ≤ f → f < lo → ok f) (above : ∀ f, hi ≤ f → f < hi' → ok f) : Decides l ok lo' hi' where
  ascending := h.ascending
  range p hp := ⟨Nat.le_trans hlo (h.range p hp).1, Nat.lt_of_lt_of_le (h.range p hp).2 hhi⟩
  listed := h.listed
  others f h1 h2 hne := by
    by_cases hfl : f < lo
    · exact below f h1 hfl
    · by_cases hfh : f < hi
      · exact h.others f (Nat.le_of_not_lt hfl) hfh hne
      · exact above f (Nat.le_of_not_lt hfh) h2

/-- Checks of one field each, numbered on from lo, decide their numbers where each check does. -/
theorem Decides.map_range {v : Nat → Bool} {num : Nat → Nat} {ok : Nat → Prop} {lo k : Nat} (hnum : ∀ i, num i = lo + i)
    (h : ∀ i < k, v i = true ↔ ok (lo + i)) : Decides ((List.range k).map fun i => (num i, v i)) ok lo (lo + k) := by
  rw [List.map_eq_flatMap]
  refine Decides.flatMap_range (base := (lo + ·)) (fun i => Nat.le_succ _) fun i hi => ?_
  rw [hnum]
  exact .one (h i hi)

/-- The first failing check of a list that decides every number is the least number of which the predicate fails. -/
theorem Decides.firstFailing {l : List (Nat × Bool)} {ok : Nat → Prop} {hi : Nat} (h : Decides l ok 0 hi)
    (hrest : ∀ f, hi ≤ f → ok f) : (firstFailing l = none ↔ ∀ f, ok f) ∧
      ∀ f, firstFailing l = some f ↔ ¬ ok f ∧ ∀ g < f, ok g := by
  have unlisted : ∀ f, (∀ p ∈ l, p.1 ≠ f) → ok f := fun f hne =>
    (Nat.lt_or_ge f hi).elim (fun hf => h.others f (Nat.zero_le f) hf hne) (hrest f)
  have below : ∀ f, (∀ p ∈ l, p.1 < f → p.2 = true) ↔ ∀ g < f, ok g := fun f => by
    refine ⟨fun hp g hg => ?_, fun hg p hp hlt => (h.listed p hp).mpr (hg _ hlt)⟩
    by_cases hmem : ∃ p ∈ l, p.1 = g
    · obtain ⟨p, hpl, rfl⟩ := hmem
      exact (h.listed p hpl).mp (hp p hpl hg)
    · exact unlisted g fun p hpl e => hmem ⟨p, hpl, e⟩
  have failing : ∀ f, (f, false) ∈ l ↔ ¬ ok f := fun f => by
    refine ⟨fun hf hok => by simpa using (h.listed _ hf).mpr hok, fun hno => ?_⟩
    by_contra hmem
    refine hno (unlisted f fun p hp e => ?_)
    obtain ⟨k, b⟩ := p
    subst e
    cases b with
    | false => exact hmem hp
    | true => exact hno ((h.listed _ hp).mp rfl)
  refine ⟨?_, fun f => by rw [firstFailing_eq_some h.ascending, failing, below]⟩
  rw [firstFailing_eq_none]
  exact ⟨fun hp f => (below (f + 1)).mp (fun p hpl _ => hp p hpl) f (Nat.lt_succ_self f),
    fun hok p hp => (h.listed p hp).mpr (hok _)⟩

theorem within_iff (lo hi v : Nat) : within lo hi v = true ↔ lo ≤ v ∧ v ≤ hi := by simp [within]

/-! ## The station page (R19 to R21) -/

/-- Does field j of a strand that is present pass its check (2.1, R20, R21)? -/
def RawStrand.FieldOk (r : RawStrand) : Nat → Prop
  | 1 => r.present = 1
  | 2 => 1000 ≤ r.gauge ∧ r.gauge ≤ 400000
  | 3 => 1000 ≤ r.saw ∧ r.saw ≤ 400000
  | 4 => r.markerPresent ≤ 1
  | 5 => r.markerPresent = 0 ∨ r.marker ≤ 400000
  | 6 => 1000 ≤ r.wheelStep ∧ r.wheelStep ≤ 1000000
  | 7 => r.mode ≤ 1
  | 8 => 1 ≤ r.startSpeed ∧ r.startSpeed ≤ 5000
  | 9 => r.stopSpeed < r.startSpeed
  | 10 => 20 ≤ r.stopDwell ∧ r.stopDwell ≤ 5000
  | 11 => 200 ≤ r.bandLow ∧ r.bandLow ≤ 650
  | 12 => (200 ≤ r.bandHigh ∧ r.bandHigh ≤ 650) ∧ r.bandLow < r.bandHigh
  | 13 => r.thermalHold ≤ 255
  | 14 => 5 ≤ r.staleTime ∧ r.staleTime ≤ 500
  | 15 => 1 ≤ r.tailConfirm ∧ r.tailConfirm ≤ 255
  | _ => True

/-- The fields 100 n to 100 n + 99 are those of strand n, passed over where it is absent (R20). -/
theorem stationFieldOk_strand (m : Memory) {n j : Nat} (hn : 1 ≤ n ∧ n ≤ 4) (hj : j < 100) :
    StationFieldOk m (100 * n + j) ↔ ((readStrand m n).present ≠ 0 → (readStrand m n).FieldOk j) := by
  have hdiv : (100 * n + j) / 100 = n := by omega
  have hmod : (100 * n + j) % 100 = j := by omega
  unfold StationFieldOk
  dsimp only
  rw [hdiv, hmod, if_neg (Nat.ne_of_gt hn.1)]
  by_cases h : (readStrand m n).present = 0
  · rw [if_neg fun hp => hp.2 h]
    simp [h]
  · rw [if_pos ⟨hn.2, h⟩, forall_prop_of_true h]
    exact Iff.rfl

/-- The checks of a strand's block decide its hundred field numbers. -/
theorem strandChecks_decides (m : Memory) {n : Nat} (hn : 1 ≤ n ∧ n ≤ 4) :
    Decides (strandChecks n (readStrand m n)) (StationFieldOk m) (100 * n) (100 * (n + 1)) := by
  have field := fun j => stationFieldOk_strand m (j := j) hn
  unfold strandChecks
  split
  next habsent =>
    refine .nil fun f h1 h2 => ?_
    obtain ⟨j, rfl⟩ := Nat.exists_eq_add_of_le h1
    exact (field j (by omega)).mpr (absurd habsent)
  next hpresent =>
    constructor
    case ascending => simp
    case range =>
      simp only [List.forall_mem_cons, List.not_mem_nil, IsEmpty.forall_iff, implies_true, and_true]
      omega
    case listed =>
      have hone : (readStrand m n).present ≤ 1 ↔ (readStrand m n).present = 1 := by omega
      simp [field, hpresent, hone, RawStrand.FieldOk, within_iff, Nat.one_le_iff_ne_zero]
    case others =>
      intro f h1 h2 hne
      obtain ⟨j, rfl⟩ := Nat.exists_eq_add_of_le h1
      rw [field j (by omega)]
      intro _
      unfold RawStrand.FieldOk
      split
      case h_16 => trivial
      all_goals simp at hne

/-- The checks of the whole page decide every field number (R19). -/
theorem stationChecks_decides (m : Memory) : Decides (stationChecks m) (StationFieldOk m) 0 500 := by
  unfold stationChecks
  refine .append (mid := 100) ?_ ?_ (by omega) (by omega)
  · constructor
    case ascending => simp
    case range => simp
    case listed => simp [StationFieldOk, within_iff, stationBase]
    case others =>
      intro f _ h2 hne
      unfold StationFieldOk
      dsimp only
      rw [if_pos (Nat.div_eq_of_lt h2)]
      split
      case h_5 => trivial
      all_goals simp at hne
  · have strand := fun n hn => strandChecks_decides m (n := n) hn
    exact (strand 1 (by omega)).append ((strand 2 (by omega)).append ((strand 3 (by omega)).append (strand 4 (by omega))
      (by omega) (by omega)) (by omega) (by omega)) (by omega) (by omega)

/-- No field is numbered 500 or above (2.1). -/
theorem stationFieldOk_beyond (m : Memory) {f : Nat} (hf : 500 ≤ f) : StationFieldOk m f := by
  unfold StationFieldOk
  dsimp only
  rw [if_neg (by omega), if_neg (by omega)]
  trivial

/-! ## A recipe slot (R26, R27) -/

/-- How many holes of a slot are read and checked (2.4). -/
def slotHoles (m : Memory) (b : Nat) : Nat := min (m.rdNat (b + 37) 1) 4

/-- How many features of a slot are read and checked (2.4). -/
def slotFeatures (m : Memory) (b : Nat) : Nat := min (m.rdNat (b + 36) 1) 24

theorem readRecipe_holes (m : Memory) (b : Nat) : (readRecipe m b).holes = (upTo (slotHoles m b)).map (readHole m b) := rfl

theorem readRecipe_features (m : Memory) (b : Nat) :
    (readRecipe m b).features = (upTo (slotFeatures m b)).map (readFeature m b) := rfl

/-- A list of k entries read by number, taken with its numbers again. -/
theorem zipWith_upTo_map {α β : Type} (g : Nat → α → β) (r : Nat → α) (k : Nat) :
    (upTo ((upTo k).map r).length).zipWith g ((upTo k).map r) = (List.range k).map (fun i => g (i + 1) (r (i + 1))) := by
  simp [upTo, List.zipWith_map, List.zipWith_self]

/-- Below 100 and beyond 14 the fields are those of the holes up to the hole count. -/
theorem recipeFieldOk_hole (m : Memory) (b : Nat) {f : Nat} (h1 : 15 ≤ f) (h2 : f < 100) : RecipeFieldOk m b f ↔
    (∀ h, 1 ≤ h → h ≤ slotHoles m b → f = 20 + h → (readHole m b h).lead ≤ 200000) ∧
      ∀ h, 1 ≤ h → h ≤ slotHoles m b → f = 30 + h → 1000 ≤ (readHole m b h).length ∧ (readHole m b h).length ≤ 60000 := by
  unfold RecipeFieldOk
  dsimp only
  rw [if_pos (Nat.div_eq_of_lt h2)]
  split
  case h_14 => simp only [slotHoles, readHole, Nat.le_min, Nat.add_assoc, and_imp, imp.swap (a := _ ≤ 4)]
  all_goals omega

/-- Does field j of a feature pass its check (2.4)? -/
def Feature.FieldOk (t : Feature) : Nat → Prop
  | 1 => 100 ≤ t.nominal ∧ t.nominal ≤ 999999
  | 2 => 1 ≤ t.lower ∧ t.lower ≤ 99999
  | 3 => 1 ≤ t.upper ∧ t.upper ≤ 99999
  | 4 => 50 ≤ t.guardPercent ∧ t.guardPercent ≤ 100
  | 5 => t.minConfidence ≤ 15
  | _ => True

/-- The fields 100 n to 100 n + 99 are those of feature n, up to the feature count. -/
theorem recipeFieldOk_feature (m : Memory) (b : Nat) {n j : Nat} (hn : 1 ≤ n) (hj : j < 100) :
    RecipeFieldOk m b (100 * n + j) ↔ (n ≤ slotFeatures m b → (readFeature m b n).FieldOk j) := by
  have hdiv : (100 * n + j) / 100 = n := by omega
  have hmod : (100 * n + j) % 100 = j := by omega
  have hcount : n ≤ slotFeatures m b ↔ n ≤ 24 ∧ n ≤ m.rdNat (b + 36) 1 := by rw [slotFeatures, Nat.le_min, and_comm]
  unfold RecipeFieldOk
  dsimp only
  rw [hdiv, hmod, if_neg (Nat.ne_of_gt hn), hcount]
  by_cases h : n ≤ 24 ∧ n ≤ m.rdNat (b + 36) 1
  · rw [if_pos h, forall_prop_of_true h]
    simp only [← Nat.add_assoc]
    exact Iff.rfl
  · simp [h]

/-- The checks of a feature decide its hundred field numbers. -/
theorem featureChecks_decides (m : Memory) (b : Nat) {n : Nat} (h1 : 1 ≤ n) (h2 : n ≤ slotFeatures m b) :
    Decides (featureChecks n (readFeature m b n)) (RecipeFieldOk m b) (100 * n) (100 * (n + 1)) := by
  have field : ∀ j < 100, RecipeFieldOk m b (100 * n + j) ↔ (readFeature m b n).FieldOk j := fun j hj => by
    rw [recipeFieldOk_feature m b h1 hj, forall_prop_of_true h2]
  unfold featureChecks
  constructor
  case ascending => simp
  case range =>
    simp only [List.forall_mem_cons, List.not_mem_nil, IsEmpty.forall_iff, implies_true, and_true]
    omega
  case listed => simp [field, Feature.FieldOk, within_iff]
  case others =>
    intro f hlo hhi hne
    obtain ⟨j, rfl⟩ := Nat.exists_eq_add_of_le hlo
    rw [field j (by omega)]
    unfold Feature.FieldOk
    split
    case h_6 => trivial
    all_goals simp at hne

/-- No field beyond those of the features up to the feature count is checked. -/
theorem recipeFieldOk_beyond (m : Memory) (b : Nat) {f : Nat} (hf : 100 * (slotFeatures m b + 1) ≤ f) : RecipeFieldOk m b f := by
  rw [← Nat.div_add_mod f 100, recipeFieldOk_feature m b (by omega) (Nat.mod_lt _ (by omega))]
  intro h
  omega

/-- The checks of the holes' weld leads decide the numbers from 15 on, those of the weld lengths the ones from 31 on. -/
theorem holeChecks_decide (m : Memory) (b : Nat) :
    Decides ((List.range (slotHoles m b)).map fun i => (20 + (i + 1), within 0 200000 (readHole m b (i + 1)).lead))
      (RecipeFieldOk m b) 15 31 ∧
    Decides ((List.range (slotHoles m b)).map fun i => (30 + (i + 1), within 1000 60000 (readHole m b (i + 1)).length))
      (RecipeFieldOk m b) 31 100 := by
  have hk : slotHoles m b ≤ 4 := Nat.min_le_right _ _
  have pass : ∀ f, 15 ≤ f → f < 100 → (∀ h, 1 ≤ h → h ≤ slotHoles m b → f ≠ 20 + h ∧ f ≠ 30 + h) → RecipeFieldOk m b f :=
    fun f h1 h2 hne => (recipeFieldOk_hole m b h1 h2).mpr
      ⟨fun h ha hb e => absurd e (hne h ha hb).1, fun h ha hb e => absurd e (hne h ha hb).2⟩
  constructor
  · refine Decides.widen (.map_range (lo := 21) (fun i => by omega) fun i hi => ?_) (by omega) (by omega)
      (fun f _ _ => pass f (by omega) (by omega) fun h _ _ => by omega)
      (fun f _ _ => pass f (by omega) (by omega) fun h _ _ => by omega)
    rw [within_iff, recipeFieldOk_hole m b (by omega) (by omega)]
    refine ⟨fun hok => ⟨fun h _ _ e => ?_, fun h _ _ e => by omega⟩, fun hok => ?_⟩
    · obtain rfl : h = i + 1 := by omega
      exact hok.2
    · exact ⟨Nat.zero_le _, hok.1 (i + 1) (by omega) hi (by omega)⟩
  · refine Decides.widen (.map_range (lo := 31) (fun i => by omega) fun i hi => ?_) (by omega) (by omega)
      (fun f _ _ => by omega) (fun f _ _ => pass f (by omega) (by omega) fun h _ _ => by omega)
    rw [within_iff, recipeFieldOk_hole m b (by omega) (by omega)]
    refine ⟨fun hok => ⟨fun h _ _ e => by omega, fun h _ _ e => ?_⟩, fun hok => hok.2 (i + 1) (by omega) hi (by omega)⟩
    obtain rfl : h = i + 1 := by omega
    exact hok

/-- The checks of a slot decide its field numbers up to those of its last feature (R27). -/
theorem recipeChecks_decides (m : Memory) (b : Nat) :
    Decides (recipeChecks m b) (RecipeFieldOk m b) 0 (100 * (slotFeatures m b + 1)) := by
  obtain ⟨leads, lengths⟩ := holeChecks_decide m b
  have features : Decides ((List.range (slotFeatures m b)).flatMap fun i => featureChecks (i + 1) (readFeature m b (i + 1)))
      (RecipeFieldOk m b) 100 (100 * (slotFeatures m b + 1)) :=
    Decides.flatMap_range (base := fun i => 100 * (i + 1)) (fun i => by omega) fun i hi =>
      featureChecks_decides m b (by omega) hi
  unfold recipeChecks
  dsimp only
  rw [readRecipe_holes, readRecipe_features, zipWith_upTo_map, zipWith_upTo_map, zipWith_upTo_map, ← List.flatMap_def]
  refine .append (mid := 15) ?_ (leads.append (lengths.append features (by omega) (by omega)) (by omega) (by omega))
    (by omega) (by omega)
  constructor
  case ascending => simp
  case range => simp
  case listed =>
    simp [RecipeFieldOk, readRecipe, within_iff]
    exact fun _ => decide_eq_true_iff
  case others =>
    intro f _ h2 hne
    unfold RecipeFieldOk
    dsimp only
    rw [if_pos (Nat.div_eq_of_lt (by omega))]
    split
    case h_14 => exact ⟨by omega, by omega⟩
    all_goals simp at hne

/-! ## ADOPT_RECIPE -/

/-- Settles O23: the answers as `adoptRecipe` gives them, the failing field by `recipeChecks_decides`. -/
theorem adoptRecipeFillsEntry : Obligations.AdoptRecipeFillsEntry := by
  unfold Obligations.AdoptRecipeFillsEntry
  intro s o ho k
  have completes : ∀ u a, adoptRecipe s o = (u, a) → Completes .adoptRecipe s (u.answer o a) := fun u a e =>
    .of rfl (by rw [State.carryOut_of_holds ho, e]; rfl)
  refine ⟨fun hp => completes s .inUse ?_, fun f hp hf => completes (s.setEntry k none) (.badRecipe f) ?_,
    fun hp hf => completes (s.setEntry k (some (readRecipe s.xp.mem (slotBase k.val)))) (.done 0) ?_,
    fun m b => (recipeChecks_decides m b).firstFailing fun f => recipeFieldOk_beyond m b⟩
  · exact if_pos hp
  · simp [adoptRecipe, hp, k, hf]
  · simp [adoptRecipe, hp, k, hf]

/-! ## What an adoption makes of the blocks (R22, R23) -/

/-- The end of a dwell, the tracks that hand over their stop capture named (R63). -/
theorem StrandState.expireDwell_eq (st : StrandState) : st.expireDwell = { st with
    chan := { st.chan with motion := .halted, startCount := 0, dwell := none }
    stopMail := if st.track = .waiting ∨ st.track = .tracking then st.stopMail ++ st.chan.stopCapture.toList
                else st.stopMail } := by
  simp [StrandState.expireDwell]

/-- A running linger timer is over by the station's linger (R180). -/
theorem State.lingerOver_iff {s : State} {t : Station} (ht : s.run.station = some t) (f : Filling) :
    s.lingerOver f = true ↔ ∃ start, f.linger = some start ∧ start + t.linger ≤ s.clock := by
  unfold State.lingerOver
  rw [ht]
  cases f.linger <;> simp

theorem State.rejudgeLinger_of_none {s : State} (hf : s.report.fill = none) : s.rejudgeLinger = s := by
  simp [State.rejudgeLinger, hf]

/-- With a FILLING page and a station: no linger timer for page linger 0; else the page closes where the timer is over (R22). -/
theorem State.rejudgeLinger_of_some {s : State} {f : Filling} {t : Station} (hf : s.report.fill = some f)
    (ht : s.run.station = some t) : s.rejudgeLinger =
      if t.linger = 0 then { s with report := { s.report with fill := some { f with linger := none } } }
      else if s.lingerOver f then s.closePage f false else s := by
  simp [State.rejudgeLinger, hf, ht]

/-- Rejudging the linger timer touches the report unit and the exchange port, nothing else. -/
theorem State.rejudgeLinger_rest (s : State) :
    s.rejudgeLinger = { s with xp := s.rejudgeLinger.xp, report := s.rejudgeLinger.report } := by
  unfold State.rejudgeLinger
  split
  · split
    · rfl
    · split <;> rfl
  · rfl

/-- The part with a geometry adopted and its strands adapted, before the linger timer is rejudged. -/
def State.stationAdopted (s : State) (t : Station) : State :=
  State.onAll { s with run := { s.run with station := some t } }
    (fun n st => st.adopt { station := some t, store := s.run.store, clock := s.clock } n)

theorem State.adoptStation_eq (s : State) (t : Station) : s.adoptStation t = (s.stationAdopted t).rejudgeLinger := rfl

/-- An adoption touches the adopted geometry, the strands, the report unit and the exchange port, nothing else. -/
theorem State.adoptStation_rest (s : State) (t : Station) : s.adoptStation t = { s with
    xp := (s.adoptStation t).xp
    run := { s.run with station := some t }
    strands := (s.stationAdopted t).strands
    report := (s.adoptStation t).report } :=
  State.rejudgeLinger_rest _

theorem State.adoptStation_run (s : State) (t : Station) : (s.adoptStation t).run = { s.run with station := some t } :=
  State.rejudgeLinger_run _

theorem State.adoptStation_env (s : State) (t : Station) :
    (s.adoptStation t).env = { station := some t, store := s.run.store, clock := s.clock } := by
  rw [State.adoptStation_rest]
  rfl

theorem State.adoptStation_strand (s : State) (t : Station) (n : Strand) :
    (s.adoptStation t).strand n = (s.strand n).adopt (s.adoptStation t).env n := by
  have hstrands : (s.adoptStation t).strands = (s.stationAdopted t).strands := by rw [State.adoptStation_rest]
  rw [State.adoptStation_env, State.strand, hstrands]
  exact State.onAll_strand _ n _

/-! ## SET_STATION -/

/-- The geometry a SET_STATION leaves: the page's where it is IDLE and every field passes, or else the one before (R19). -/
theorem setStation_station (s : State) (o : Order) : (setStation s o).1.run.station =
    if s.run.state = .idle ∧ firstFailing (stationChecks s.xp.mem) = none then some (readStation s.xp.mem)
    else s.run.station := by
  unfold setStation
  by_cases hi : s.run.state = .idle
  · rw [if_neg (not_not_intro hi)]
    cases hf : firstFailing (stationChecks s.xp.mem) with
    | none => simp [hi, State.adoptStation_run]
    | some f => simp
  · simp [hi]

/-- An order carried out but not yet answered, then cut off by a restart: what its effect made of station and store stands, and the
order is answered ABORTED (R16, R24, R31). -/
theorem State.carryOut_cutOff {f : State → Order → State × Answer} (hf : ∀ s o, LeavesBoard s (f s o).1) {k : Nat} {s : State}
    {o : Order} (ho : s.holds o k) (hr : s.ready = true) : ∃ t : State,
      exec .restart (s.carryOut false k f).settle = .next t ∧
      t.run = { station := (f s o).1.run.station, store := (f s o).1.run.store } ∧
      t.xp.cells.get o.cell = .answered ∧ t.xp.mem.rd32 (cellBase o.cell.val + 64) = 13 := by
  rw [State.carryOut_of_holds ho]
  have hready : ((f s o).1.conclude o (f s o).2 false).settle.ready = true :=
    (LeavesBoard.settle _).ready.trans ((hf s o).ready.trans hr)
  have hhand : ((f s o).1.conclude o (f s o).2 false).settle.orders.hand =
      some { o with waiting := false, result := some (f s o).2 } := by
    rw [State.settle_orders]
    rfl
  obtain ⟨hcell, hresult⟩ := State.restarted_aborts hhand
  refine ⟨_, congrArg Host.Outcome.next (State.restart_of_ready hready), ?_, hcell, hresult⟩
  rw [State.restarted_run, State.settle_run, State.conclude_run]

/-- Settles O22: the adoption by the lemmas about `State.adoptStation`, the failing field by `stationChecks_decides`, the restart
by `State.carryOut_cutOff`. -/
theorem setStationAdopts : Obligations.SetStationAdopts := by
  unfold Obligations.SetStationAdopts
  intro s o ho
  have completes : ∀ u a, setStation s o = (u, a) → Completes .setStation s (u.answer o a) := fun u a e =>
    .of rfl (by rw [State.carryOut_of_holds ho, e]; rfl)
  refine ⟨fun hopen => completes s .runOpen (if_pos hopen), fun f hi hf => completes s (.badStation f) ?_, fun hi hf => ?_,
    fun hr => ?_, fun m => (stationChecks_decides m).firstFailing fun f => stationFieldOk_beyond m⟩
  · simp [setStation, hi, hf]
  · have hpass : setStation s o = (s.adoptStation (readStation s.xp.mem), .done 0) := by simp [setStation, hi, hf]
    generalize readStation s.xp.mem = t at hpass ⊢
    have hiff := State.lingerOver_iff (s := s.stationAdopted t) (t := t) rfl
    refine ⟨s.adoptStation t, completes _ _ hpass, s.adoptStation_run t, fun n => ?_, fun hfill => ?_, fun f hfill hzero => ?_,
      fun f hfill hpos => ?_, ?_⟩
    · rw [s.adoptStation_strand t n, StrandState.adopt, StrandState.rejudgeDwell, StrandState.expireDwell_eq]
      rfl
    · rw [State.adoptStation_eq, State.rejudgeLinger_of_none (s := s.stationAdopted t) hfill]
      exact ⟨rfl, rfl⟩
    · rw [State.adoptStation_eq, State.rejudgeLinger_of_some (s := s.stationAdopted t) hfill rfl, if_pos hzero]
      exact ⟨rfl, rfl⟩
    · rw [State.adoptStation_eq, State.rejudgeLinger_of_some (s := s.stationAdopted t) hfill rfl, if_neg (Nat.ne_of_gt hpos)]
      split
      next hover =>
        rw [if_pos ((hiff f).mpr hover)]
        refine ⟨rfl, ?_, State.noticed_setReason _ _⟩
        rw [((s.stationAdopted t).closePage_moves f false).pages, if_pos rfl]
      next hover =>
        rw [if_neg fun h => hover ((hiff f).mp h)]
        exact ⟨rfl, rfl⟩
    · rw [State.adoptStation_rest]
  · obtain ⟨t, hexec, hrun, hcell, hresult⟩ := State.carryOut_cutOff LeavesBoard.setStation ho hr
    exact ⟨_, t, rfl, hexec, by rw [hrun, setStation_station], hcell, hresult⟩

end Sys2Proof.Machine
end

section
namespace Sys2Proof.Machine

/-! # Runs and their orders (chapter 3)

Each order's effect is said once as an equation for the states that take it; the statements put the equations together. -/

/-! ## Orders at the run controller, and the states that do not take them (R33, R35) -/

/-- An order command whose order is in hand ends with the order's effect, answered. -/
theorem Completes.answered {c : Instr} {s u : State} {o : Order} {k : Nat} {f : State → Order → State × Answer} {a : Answer}
    (h : s.holds o k) (hc : exec c s = .next (s.carryOut true k f).settle) (e : f s o = (u, a)) :
    Completes c s (u.answer o a) :=
  .of hc (by rw [State.carryOut_of_holds h, e]; rfl)

/-- With the run record slot empty an order that forms a record is carried out as any other (R49). -/
theorem Completes.recorded {c : Instr} {s u : State} {o : Order} {k : Nat} {f : State → Order → State × Answer} {a : Answer}
    (h : s.holds o k) (hs : s.run.slot = none) (hc : exec c s = .next (s.carryOutRecorded true k f).settle) (e : f s o = (u, a)) :
    Completes c s (u.answer o a) :=
  .answered h (hc.trans (by rw [State.carryOutRecorded_of_empty hs])) e

/-- With the slot full it waits, its order in hand (R49). -/
theorem State.carryOutRecorded_of_full {s : State} {o : Order} {k : Nat} (h : s.holds o k) (hs : s.run.slot.isSome = true)
    (answered : Bool) (f : State → Order → State × Answer) : s.carryOutRecorded answered k f =
      { s with orders := { s.orders with hand := some { o with waiting := true } } } := by
  obtain ⟨hhand, hkind, hresult⟩ := h
  simp [State.carryOutRecorded, hs, State.holdOrder, hhand, hkind, hresult]

/-- The strands in ascending number are all of them. -/
theorem mem_strandsAscending (n : Strand) : n ∈ strandsAscending := by cases n <;> decide

/-- The mask check of ARM RUN passes where each strand named is held and has a hole (R35). -/
theorem State.maskOk_iff (s : State) (mask : Four Bool) (r : Recipe) : s.maskOk mask r = true ↔
    ∀ n, mask.get n = true → (s.env.strand n).isSome = true ∧ n.num ≤ r.holes.length := by
  simp only [State.maskOk, List.all_eq_true, mem_strandsAscending, true_imp_iff, Bool.or_eq_true, Bool.not_eq_true',
    Bool.and_eq_true, decide_eq_true_eq]
  refine forall_congr' fun n => ?_
  cases mask.get n <;> simp

/-- The first check of ARM RUN that fails gives the answer (R35). -/
theorem armRun_refused {s : State} {o : Order} {a : Answer} (h : s.armCheck o = some a) : armRun s o = (s, a) := by
  simp [armRun, h]

/-- ARM RUN that passes its checks (R35). -/
theorem State.armCheck_eq_none {s : State} {o : Order} {r : Recipe} (hs : s.run.station.isSome = true) (hi : s.run.state = .idle)
    (hr : s.run.store.get (entryOf o.op1) = some r)
    (hm : ∀ n, (maskOf o.op2).get n = true → (s.env.strand n).isSome = true ∧ n.num ≤ r.holes.length) : s.armCheck o = none := by
  have hn : s.run.station.isNone = false := by simpa using hs
  simp [State.armCheck, hn, hi, hr, (s.maskOk_iff _ r).mpr hm]

/-- Settles O26: the checks of `State.armCheck` one after the other, and the wait by `State.carryOutRecorded_of_full`. -/
theorem armRunRefusedOrWaits : Obligations.ArmRunRefusedOrWaits := by
  unfold Obligations.ArmRunRefusedOrWaits
  refine ⟨fun s o ho hslot => ?_, fun s o answered hslot => ⟨fun ho => ?_, fun ho => ?_⟩⟩
  · have refused : ∀ a, s.armCheck o = some a → Completes .armRun s (s.answer o a) :=
      fun a h => .recorded ho hslot rfl (armRun_refused h)
    refine ⟨fun hs => refused .noStation ?_, fun hs hi => refused .runOpen ?_, fun hs hi hk => refused (.badOperand 1) ?_,
      fun r hs hi hk hm => refused (.badOperand 2) ?_⟩
    · simp [State.armCheck, hs]
    all_goals have hn : s.run.station.isNone = false := by simpa using hs
    · simp [State.armCheck, hn, hi]
    · simp [State.armCheck, hn, hi, hk]
    · have hbad : ¬ s.maskOk (maskOf o.op2) r = true := by
        rw [State.maskOk_iff]
        obtain ⟨n, hn, hno⟩ := hm
        intro hall
        obtain ⟨hsome, hle⟩ := hall n hn
        rcases hno with hno | hno
        · simp [hno] at hsome
        · omega
      simp [State.armCheck, hn, hi, hk, hbad]
  · exact .of rfl (State.carryOutRecorded_of_full ho hslot answered _)
  · exact .of rfl (State.carryOutRecorded_of_full ho hslot answered _)

/-- Settles O27: each order's owner looks at the run's state first. -/
theorem runOrdersByState : Obligations.RunOrdersByState := by
  unfold Obligations.RunOrdersByState
  refine fun s o => ⟨fun hi => ⟨fun h => ?_, fun h => ?_, fun h hs => ?_, fun h => ?_, fun h => ?_⟩,
    fun hf => ⟨fun h => ?_, fun h => ?_, fun h => ?_, fun h => ?_⟩⟩
  · exact .answered h rfl (by simp [amendRun, hi]; rfl)
  · exact .answered h rfl (by simp [endRun, hi]; rfl)
  · exact .recorded h hs rfl (by simp [abandonRun, hi]; rfl)
  · exact .answered h rfl (by simp [addZone, hi]; rfl)
  · exact .answered h rfl (by simp [softCut, hi]; rfl)
  · exact .answered h rfl (by simp [amendRun, hf]; rfl)
  · exact .answered h rfl (by simp [endRun, hf]; rfl)
  · exact .answered h rfl (by simp [addZone, hf]; rfl)
  · exact .answered h rfl (by simp [softCut, hf]; rfl)

/-! ## AMEND RUN (R41) -/

theorem Recipe.compatible_iff (a b : Recipe) :
    a.compatible b = true ↔ a.features.length = b.features.length ∧ a.holes.length = b.holes.length := by
  simp [Recipe.compatible]

/-- AMEND RUN in ARMED or ACTIVE refuses an EMPTY entry (R41). -/
theorem amendRun_of_empty {s : State} {o : Order} (h : s.run.state = .armed ∨ s.run.state = .active)
    (hk : s.run.store.get (entryOf o.op1) = none) : amendRun s o = (s, .badOperand 1) := by
  rcases h with h | h <;> simp [amendRun, h, hk]

/-- AMEND RUN in ARMED or ACTIVE stages a recipe that is compatible with the run recipe (R41). -/
theorem amendRun_of_entry {s : State} {o : Order} {r : Recipe} (h : s.run.state = .armed ∨ s.run.state = .active)
    (hk : s.run.store.get (entryOf o.op1) = some r) : amendRun s o =
    if r.compatible (s.env.entry (s.run.recipe.getD 0)) then
      ({ s with run := { s.run with staged := some (entryOf o.op1) } }, .done (if s.run.staged.isSome then 1 else 0))
    else (s, .incompatible) := by
  rcases h with h | h <;> simp [amendRun, h, hk]

/-- Settles O28: the two equations of AMEND RUN, and the pins read off `State.pinned`. -/
theorem amendRunStages : Obligations.AmendRunStages := by
  unfold Obligations.AmendRunStages
  intro s o j old ho hopen hj hold
  have hrun : s.env.entry (s.run.recipe.getD 0) = old := by simp [Env.entry, State.env, hj, hold]
  dsimp only
  split
  next hk => exact .answered ho rfl (amendRun_of_empty hopen hk)
  next r hk =>
    have hamend := amendRun_of_entry hopen hk
    rw [hrun] at hamend
    by_cases hc : r.compatible old = true
    · rw [if_pos ((Recipe.compatible_iff r old).mp hc)]
      rw [if_pos hc] at hamend
      refine ⟨.answered ho rfl hamend, by simp [State.pinned], fun m hm => ?_⟩
      have hne : (some (entryOf o.op1) == some m) = false := by simpa using Ne.symm hm
      simp [State.pinned, hne]
    · rw [if_neg (mt (Recipe.compatible_iff r old).mpr hc)]
      rw [if_neg hc] at hamend
      exact .answered ho rfl hamend

/-! ## Run records and the switch-over (R44, R46, R48) -/

theorem State.closable_iff (s : State) : s.closable = true ↔ s.run.state = .finishing ∧ s.run.slot = none ∧
    s.run.waitingSwitch = none ∧ ∀ n, s.inMask n = true → (s.strand n).cuts.pending = [] := by
  simp only [State.closable, Bool.and_eq_true, beq_iff_eq, Option.isNone_iff_eq_none, List.all_eq_true, mem_strandsAscending,
    true_imp_iff, Bool.or_eq_true, Bool.not_eq_true', List.isEmpty_iff, and_assoc]
  refine and_congr_right fun _ => and_congr_right fun _ => and_congr_right fun _ => forall_congr' fun n => ?_
  cases s.inMask n <;> simp

/-- The record of a run whose recipe stands in the store shows that recipe (R48). -/
theorem State.runRecord_recipe {s : State} {k : Fin 8} {r : Recipe} (hk : s.run.recipe = some k) (hr : s.run.store.get k = some r)
    (event : RunEvent) :
    (s.runRecord event).index = k ∧ (s.runRecord event).recipeId = r.id ∧ (s.runRecord event).edition = r.edition := by
  simp [State.runRecord, hk, Env.entry, State.env, hr]

theorem State.runRecord_strands (s : State) (event : RunEvent) (n : Strand) : (s.runRecord event).strands.get n =
    if s.inMask n then
      { nose := (s.strand n).map.nose, frontier := (s.strand n).map.frontier, pieces := (s.strand n).cuts.pieces }
    else { nose := none, frontier := 0, pieces := 0 } := by
  simp only [State.runRecord, Four.get_build, State.runStrand]

theorem State.waitedSwitchOver_of_waiting {s : State} {k : Fin 8} (hs : s.run.slot = none) (hk : s.run.waitingSwitch = some k) :
    s.waitedSwitchOver = s.switchOver k := by simp [State.waitedSwitchOver, hs, hk]

theorem State.waitedSwitchOver_of_none {s : State} (h : s.run.waitingSwitch = none) : s.waitedSwitchOver = s := by
  simp [State.waitedSwitchOver, h]

theorem State.waitedSwitchOver_of_full {s : State} (h : s.run.slot.isSome = true) : s.waitedSwitchOver = s := by
  obtain ⟨r, hr⟩ := Option.isSome_iff_exists.mp h
  simp [State.waitedSwitchOver, hr]

/-- Settles O31: the records are those of `State.runRecord` at the state that forms them. -/
theorem slotRecordsFormed : Obligations.SlotRecordsFormed := by
  unfold Obligations.SlotRecordsFormed
  refine fun s hs => ⟨fun k r hk hr => ?_, fun hf hw hp => ?_⟩
  · obtain ⟨hindex, hid, hedition⟩ :=
      State.runRecord_recipe (s := { s with run := { s.run with recipe := some k, waitingSwitch := none } }) rfl hr .amended
    exact ⟨_, .of rfl (State.waitedSwitchOver_of_waiting hs hk), rfl, hindex, hid, hedition, rfl, rfl, rfl, rfl⟩
  · have hc : s.closable = true := s.closable_iff.mpr ⟨hf, hs, hw, hp⟩
    exact ⟨s.runRecord .closed, congrArg Host.Outcome.next (if_pos hc), rfl, rfl, rfl, rfl, rfl,
      fun k r hk hr => State.runRecord_recipe hk hr .closed, s.runRecord_strands .closed⟩

end Sys2Proof.Machine
end


section
namespace Sys2Proof.Machine

/-! # ARM RUN, ABANDON RUN and the RUN record that enters the queue -/

/-! ## ARM RUN opens the run (R36) -/

/-- The state in which ARM RUN has set the run controller and every strand, before the run state changes and the record OPENED is
formed (R36). -/
def State.runBegun (s : State) (k : Fin 8) (mask : Four Bool) (id : Word32) : State :=
  State.onAll { s with
    run := { s.run with runId := id, recipe := some k, mask := mask, billets := 0, staged := none }
    service := s.service.map (fun (v : Service) => { v with armed := v.armed || mask.get v.port })
    seamMail := []
    grantMail := []
    sawMail := [] } (fun n st => if mask.get n then st.arm k else st.leave)

theorem State.openRun_eq (s : State) (k : Fin 8) (mask : Four Bool) (id : Word32) : s.openRun k mask id =
    ((s.runBegun k mask id).setRun (if (s.runBegun k mask id).anyMoving then .active else .armed)).formRecord .opened := rfl

theorem State.runBegun_strand (s : State) (k : Fin 8) (mask : Four Bool) (id : Word32) (n : Strand) :
    (s.runBegun k mask id).strand n = if mask.get n then (s.strand n).arm k else (s.strand n).leave :=
  State.onAll_strand _ _ _

/-- ARM RUN leaves the motion of every channel as it was. -/
theorem State.runBegun_anyMoving (s : State) (k : Fin 8) (mask : Four Bool) (id : Word32) : (s.runBegun k mask id).anyMoving =
    [Strand.s1, .s2, .s3, .s4].any (fun n => mask.get n && (s.strand n).chan.motion == .moving) := by
  have hmotion : ∀ n, ((s.runBegun k mask id).strand n).chan.motion = (s.strand n).chan.motion := fun n => by
    rw [State.runBegun_strand]
    split <;> rfl
  simp only [State.anyMoving, hmotion]
  rfl

/-- The record of a run just opened shows no nose and zeros on every strand (R48). -/
theorem State.runBegun_runStrand (s : State) (k : Fin 8) (mask : Four Bool) (id : Word32) (r : RunState) :
    ((s.runBegun k mask id).setRun r).runStrand = fun _ => { nose := none, frontier := 0, pieces := 0 } := by
  funext n
  have hmask : ((s.runBegun k mask id).setRun r).inMask n = mask.get n := by
    unfold State.inMask
    rw [State.setRun_run]
    rfl
  have hstrand : ((s.runBegun k mask id).setRun r).strand n = (s.runBegun k mask id).strand n := by
    unfold State.strand
    rw [State.setRun_strands]
  rw [State.runStrand, hmask, hstrand, State.runBegun_strand]
  split <;> rfl

/-- The run controller of an opened run, its recipe in the store (R36, R48). -/
theorem State.openRun_run {s : State} {k : Fin 8} {r : Recipe} (hr : s.run.store.get k = some r) (mask : Four Bool) (id : Word32) :
    (s.openRun k mask id).run = { s.run with
      state := if (s.runBegun k mask id).anyMoving then .active else .armed
      runId := id
      recipe := some k
      mask := mask
      billets := 0
      staged := none
      slot := some {
        event := .opened, index := k, recipeId := r.id, edition := r.edition, mask := mask, runId := id, billets := 0, time := s.time,
        strands := Four.build (fun _ => { nose := none, frontier := 0, pieces := 0 }) } } := by
  have hentry : s.env.entry k = r := by simp [Env.entry, State.env, hr]
  rw [State.openRun_eq]
  generalize (if (s.runBegun k mask id).anyMoving then RunState.active else .armed) = state
  have hrecord : ((s.runBegun k mask id).setRun state).runRecord .opened = {
      event := .opened, index := k, recipeId := r.id, edition := r.edition, mask := mask, runId := id, billets := 0, time := s.time,
      strands := Four.build (fun _ => { nose := none, frontier := 0, pieces := 0 }) } := by
    have henv : ((s.runBegun k mask id).setRun state).env = s.env := by
      unfold State.env
      rw [State.setRun_run, State.setRun_clock]
      rfl
    unfold State.runRecord State.time
    rw [State.runBegun_runStrand, State.setRun_run, henv, ← hentry]
    rfl
  rw [State.formRecord, hrecord]
  dsimp only
  rw [State.setRun_run]
  rfl

/-- ARM RUN carried out: its checks passed, the run is opened (R35, R36). -/
theorem armRun_opens {s : State} {o : Order} (h : s.armCheck o = none) :
    armRun s o = (s.openRun (entryOf o.op1) (maskOf o.op2) (BitVec.ofNat 32 o.op3), .done 0) := by
  simp [armRun, h]

/-- What a change of the run state leaves: all but the run state and the notice register. -/
theorem State.setRun_rest (s : State) (r : RunState) : s.setRun r = { s with
    xp := { s.xp with notice := (s.setRun r).xp.notice, msiSent := (s.setRun r).xp.msiSent }
    run := { s.run with state := r } } := by
  unfold State.setRun
  split
  · subst_vars
    rfl
  · rfl

/-- A run state that changes sets RUN (R33). -/
theorem State.setRun_noticed {s : State} {r : RunState} (h : s.run.state ≠ r) : (s.setRun r).noticed .run = true := by
  rw [State.setRun_ne s r h]
  exact State.noticed_setReason _ _

/-- An empty queue's output is active where it is forced ON (R172). -/
theorem ForceMode.output_false (f : ForceMode) : f.output false = (f == .on) := by cases f <;> decide

/-- Settles O25: the run by `State.openRun_run`, each strand by `State.runBegun_strand`. -/
theorem armRunOpensRun : Obligations.ArmRunOpensRun := by
  unfold Obligations.ArmRunOpensRun
  intro s o r ho hslot hstation hidle k mask hr hm
  have hopen : ∀ n, (s.openRun k mask (BitVec.ofNat 32 o.op3)).strand n =
      (s.runBegun k mask (BitVec.ofNat 32 o.op3)).strand n := fun n => by
    unfold State.strand
    rw [State.openRun_eq]
    exact congrArg (·.get n) (State.setRun_strands _ _)
  refine ⟨_, .recorded ho hslot rfl (armRun_opens (State.armCheck_eq_none hstation hidle hr hm)), ?_, fun n hn => ?_, fun n hn => ?_,
    ?_⟩
  · rw [State.openRun_run hr, State.runBegun_anyMoving]
  · rw [hopen, State.runBegun_strand, if_pos hn]
    rw [StrandState.arm, Marker.empty, ForceMode.output_false]
    rfl
  · rw [hopen, State.runBegun_strand, hn]
    rfl
  · have hchanges : (s.runBegun k mask (BitVec.ofNat 32 o.op3)).run.state ≠
        if (s.runBegun k mask (BitVec.ofNat 32 o.op3)).anyMoving then .active else .armed := by
      rw [show (s.runBegun k mask (BitVec.ofNat 32 o.op3)).run.state = .idle from hidle]
      split <;> decide
    have hnoticed := State.setRun_noticed hchanges
    rw [State.openRun_eq]
    generalize (if (s.runBegun k mask (BitVec.ofNat 32 o.op3)).anyMoving then RunState.active else .armed) = state at hnoticed ⊢
    have hservice : ((s.runBegun k mask (BitVec.ofNat 32 o.op3)).setRun state).service =
        s.service.map (fun (v : Service) => { v with armed := v.armed || mask.get v.port }) := State.setRun_service _ _
    refine ⟨fun h => ?_, fun v h => ?_, hnoticed, ?_⟩
    · exact hservice.trans (by rw [h]; rfl)
    · exact hservice.trans (by rw [h]; rfl)
    · rw [State.setRun_rest]
      exact ⟨rfl, rfl, rfl, rfl, rfl, rfl, rfl⟩

/-! ## ABANDON RUN (R47) -/

/-- A qualifier set aside: a TIMING one is HELD with its latches empty (R70). -/
theorem Input.setAside_eq (i : Input) : i.setAside =
    if i.state = .quiet ∨ i.state = .held then i else { active := i.active, state := .held } := by
  unfold Input.setAside
  cases h : i.state <;> simp

/-- An open map mark that ends sends its OFF (R143). -/
theorem StrandState.endMark_eq (st : StrandState) (e : Env) (n : Strand) (y : Nat) : st.endMark e n y = { st with
    map := { st.map with mapMark := none }
    mapMail := st.mapMail ++ st.map.mapMark.toList.map (fun _ => .off (min (y + (e.marker n).getD 0) 4000000000)) } := by
  unfold StrandState.endMark
  split
  next h => rw [h, Option.toList_none, List.map_nil, List.append_nil, ← h]
  next h => rw [h]; rfl

/-- ABANDON RUN of an open run (R47). -/
theorem abandonRun_of_open {s : State} {o : Order} (h : s.run.state ≠ .idle) : abandonRun s o =
    (State.setRun (State.setAside
      { (s.formRecord .abandoned).onRun (fun n st => st.abandon s.env n) with
        run := { (s.formRecord .abandoned).run with recipe := none, staged := none, waitingSwitch := none } }) .idle, .done 0) := by
  unfold abandonRun
  split
  next hi => exact absurd hi h
  all_goals rfl

/-- The run controller after ABANDON RUN, its record formed from the state it found (R47, R48). -/
theorem abandonRun_run {s : State} {o : Order} (h : s.run.state ≠ .idle) : (abandonRun s o).1.run = { s.run with
    state := .idle, recipe := none, staged := none, waitingSwitch := none, slot := some (s.runRecord .abandoned) } := by
  rw [abandonRun_of_open h]
  dsimp only
  rw [State.setRun_run]
  rfl

theorem abandonRun_report {s : State} {o : Order} (h : s.run.state ≠ .idle) : (abandonRun s o).1.report = s.report := by
  rw [abandonRun_of_open h]
  exact State.setRun_report _ _

/-- Settles O30: the record is formed before the strands are dropped. -/
theorem abandonRunDrops : Obligations.AbandonRunDrops := by
  unfold Obligations.AbandonRunDrops
  intro s o ho hslot hopen
  have hrun := abandonRun_run (o := o) hopen
  rw [abandonRun_of_open hopen] at hrun
  refine ⟨_, .recorded ho hslot rfl (abandonRun_of_open hopen), ⟨s.runRecord .abandoned, hrun, rfl, rfl, rfl, rfl, rfl,
    fun k r hk hr => State.runRecord_recipe hk hr .abandoned, s.runRecord_strands .abandoned⟩, State.setRun_noticed hopen, ?_⟩
  · rw [State.setRun_rest]
    have hstrand : ∀ n, ((s.formRecord .abandoned).onRun (fun n st => st.abandon s.env n)).strand n =
        if s.inMask n then (s.strand n).abandon s.env n else s.strand n := fun n => State.onRun_strand _ n _
    refine ⟨fun n hn => ?_, fun n hn => ?_, ?_, rfl, rfl, rfl⟩
    · exact (hstrand n).trans (by rw [hn]; rfl)
    · refine (hstrand n).trans ?_
      rw [if_pos hn, StrandState.abandon, StrandState.endMark_eq]
      rfl
    · simp only [State.setAside, Input.setAside_eq]
      rfl

/-! ## A RUN record enters the queue (R46, R49, R175) -/

/-- The state as the slot has emptied, before a waiting order is taken: the record in the queue, and the run IDLE where it was
CLOSED (R46, R175). -/
def State.recordEntered (s : State) (r : RunRecord) : State :=
  if r.event = .closed then (State.enqueue { s with run := { s.run with slot := none } } (.run r)).closeRun
  else State.enqueue { s with run := { s.run with slot := none } } (.run r)

theorem State.runRecordEntry_of_room {s : State} {r : RunRecord} (hs : s.run.slot = some r) (hq : s.report.queue.length < 8)
    (answered : Bool) : s.runRecordEntry answered = ((s.recordEntered r).takeWaiting answered).waitedSwitchOver := by
  have hroom : s.queueRoom = true := decide_eq_true hq
  simp [State.runRecordEntry, hs, hroom]
  rfl

/-- The run returned to IDLE (R46). -/
theorem State.closeRun_eq (s : State) : s.closeRun = { s with
    xp := { s.xp with notice := s.closeRun.xp.notice, msiSent := s.closeRun.xp.msiSent }
    run := { s.run with state := .idle, recipe := none }
    strands := Four.build (fun n => { s.strand n with recipe := none }) } := by
  unfold State.closeRun
  conv_lhs => rw [State.setRun_rest]
  rfl

theorem State.recordEntered_run (s : State) (r : RunRecord) : (s.recordEntered r).run.slot = none ∧
    (s.recordEntered r).run.waitingSwitch = s.run.waitingSwitch ∧ (s.recordEntered r).orders = s.orders ∧
    (s.recordEntered r).xp.cells = s.xp.cells := by
  unfold State.recordEntered
  split
  · rw [State.closeRun_eq]
    exact ⟨rfl, rfl, rfl, rfl⟩
  · exact ⟨rfl, rfl, rfl, rfl⟩

theorem State.takeWaiting_of_none {s : State} (h : ∀ o, s.orders.hand = some o → o.waiting = false) (answered : Bool) :
    s.takeWaiting answered = s := by
  unfold State.takeWaiting
  split
  · rfl
  next o ho => simp [h o ho]

/-- An order of another kind is not carried out. -/
theorem State.carryOut_of_kind {s : State} {o : Order} (h : s.orders.hand = some o) {k : Nat} (hk : o.kind ≠ k) (answered : Bool)
    (f : State → Order → State × Answer) : s.carryOut answered k f = s := by
  simp [State.carryOut, h, hk]

/-- After its effect an order is not carried out again as one of another kind. -/
theorem State.carryOut_conclude (s : State) (o : Order) (a : Answer) (answered : Bool) (k : Nat)
    (f : State → Order → State × Answer) : (s.conclude o a answered).carryOut answered k f = s.conclude o a answered := by
  cases answered with
  | true => rfl
  | false => exact State.carryOut_of_result rfl rfl f k false

/-- A waiting ABANDON RUN is taken as the slot empties (R49). -/
theorem State.takeWaiting_abandon {s : State} {o : Order} (h : s.holds o 6) (hw : o.waiting = true) (answered : Bool) :
    s.takeWaiting answered = (abandonRun s o).1.conclude o (abandonRun s o).2 answered := by
  obtain ⟨hhand, hkind, hresult⟩ := h
  have hne : o.kind ≠ 3 := by omega
  simp only [State.takeWaiting, hhand, hw, if_true, State.carryOut_of_kind hhand hne]
  exact State.carryOut_of_holds ⟨hhand, hkind, hresult⟩ _ _

/-- A waiting ARM RUN is taken as the slot empties (R49). -/
theorem State.takeWaiting_arm {s : State} {o : Order} (h : s.holds o 3) (hw : o.waiting = true) (answered : Bool) :
    s.takeWaiting answered = s.carryOut answered 3 armRun := by
  have hhand := h.1
  simp only [State.takeWaiting, hhand, hw, if_true]
  rw [State.carryOut_of_holds h, State.carryOut_conclude]

/-- ARM RUN makes no waiting switch-over. -/
theorem armRun_waitingSwitch (s : State) (o : Order) : (armRun s o).1.run.waitingSwitch = s.run.waitingSwitch := by
  unfold armRun
  split
  · rfl
  · rw [State.openRun_eq, State.formRecord]
    dsimp only
    rw [State.setRun_run]
    rfl

/-- An order concluded: answered in its cell, or its result in hand (R13, log 31). -/
theorem State.conclude_hand (s : State) (o : Order) (a : Answer) (answered : Bool) :
    if answered then (s.conclude o a answered).orders.hand = none ∧ (s.conclude o a answered).xp.cells.get o.cell = .answered
    else (s.conclude o a answered).orders.hand = some { o with waiting := false, result := some a } ∧
      (s.conclude o a answered).xp.cells = s.xp.cells := by
  cases answered with
  | true =>
    refine ⟨rfl, ?_⟩
    rw [State.conclude, if_pos rfl, (s.answer_moves o a).cells, if_pos rfl]
  | false => exact ⟨rfl, rfl⟩

/-- The report unit's queue takes no part in concluding an order. -/
theorem State.conclude_report (s : State) (o : Order) (a : Answer) (answered : Bool) :
    (s.conclude o a answered).report = s.report := by cases answered <;> rfl

/-- A RUN record enters with no order and no switch-over waiting (R46, R175). -/
theorem State.runRecordEntry_alone {s : State} {r : RunRecord} (hs : s.run.slot = some r) (hq : s.report.queue.length < 8)
    (hw : s.run.waitingSwitch = none) (hhand : ∀ o, s.orders.hand = some o → o.waiting = false) (answered : Bool) :
    s.runRecordEntry answered = s.recordEntered r := by
  obtain ⟨-, hswitch, horders, -⟩ := s.recordEntered_run r
  rw [State.runRecordEntry_of_room hs hq, State.takeWaiting_of_none (by rw [horders]; exact hhand),
    State.waitedSwitchOver_of_none (hswitch.trans hw)]

/-- It enters with an ABANDON RUN waiting, whose own record leaves a waiting switch-over no time (R49). -/
theorem State.runRecordEntry_abandon {s : State} {r : RunRecord} {o : Order} (hs : s.run.slot = some r) (hr : r.event ≠ .closed)
    (hq : s.report.queue.length < 8) (ho : s.holds o 6) (hwait : o.waiting = true) (hopen : s.run.state ≠ .idle) (answered : Bool) :
    s.runRecordEntry answered = (abandonRun (s.recordEntered r) o).1.conclude o (.done 0) answered := by
  have hv : s.recordEntered r = State.enqueue { s with run := { s.run with slot := none } } (.run r) := if_neg hr
  have hvopen : (s.recordEntered r).run.state ≠ .idle := by rw [hv]; exact hopen
  have hdone : (abandonRun (s.recordEntered r) o).2 = .done 0 := by rw [abandonRun_of_open hvopen]
  rw [State.runRecordEntry_of_room hs hq, State.takeWaiting_abandon (by rw [hv]; exact ho) hwait, hdone]
  exact State.waitedSwitchOver_of_full (by rw [State.conclude_run, abandonRun_run hvopen]; rfl)

/-- It enters with an ARM RUN waiting and no switch-over (R49). -/
theorem State.runRecordEntry_arm {s : State} {r : RunRecord} {o : Order} (hs : s.run.slot = some r)
    (hq : s.report.queue.length < 8) (hw : s.run.waitingSwitch = none) (ho : s.holds o 3) (hwait : o.waiting = true)
    (answered : Bool) : s.runRecordEntry answered = (s.recordEntered r).carryOutRecorded answered 3 armRun := by
  obtain ⟨hslot, hswitch, horders, -⟩ := s.recordEntered_run r
  have hv : (s.recordEntered r).holds o 3 := by unfold State.holds; rw [horders]; exact ho
  rw [State.runRecordEntry_of_room hs hq, State.takeWaiting_arm hv hwait, State.carryOutRecorded_of_empty hslot,
    State.carryOut_of_holds hv]
  exact State.waitedSwitchOver_of_none (by rw [State.conclude_run, armRun_waitingSwitch, hswitch, hw])

/-- Settles O32: the state between the emptying of the slot and the waiting order is `State.recordEntered`. -/
theorem runRecordEnters : Obligations.RunRecordEnters := by
  unfold Obligations.RunRecordEnters
  refine ⟨fun s r answered hs hw hhand => ?_, fun s r answered hs hr hq => ⟨fun o ho hwait hopen => ?_, fun k q hhand hk hq' => ?_⟩,
    fun s r o answered hs hq hw ho hwait => ?_⟩
  · split
    next hq =>
      refine ⟨s.recordEntered r, .of rfl (State.runRecordEntry_alone hs hq hw hhand answered), ?_⟩
      unfold State.recordEntered
      split
      next hc =>
        rw [State.closeRun_eq]
        exact ⟨rfl, fun hne => absurd hc hne,
          fun _ => ⟨rfl, fun n => Four.get_build _ n, fun hne => State.setRun_noticed hne, rfl, rfl⟩⟩
      next hc => exact ⟨rfl, fun _ => rfl, fun h => absurd h hc⟩
    next hq =>
      have hroom : s.queueRoom = false := decide_eq_false hq
      exact .of rfl (by simp [State.runRecordEntry, hs, hroom])
  · have hv : s.recordEntered r = State.enqueue { s with run := { s.run with slot := none } } (.run r) := if_neg hr
    have hrun := abandonRun_run (s := s.recordEntered r) (o := o) (by rw [hv]; exact hopen)
    have hreport := abandonRun_report (s := s.recordEntered r) (o := o) (by rw [hv]; exact hopen)
    have hcells := (LeavesBoard.abandonRun (s.recordEntered r) o).cells
    obtain ⟨-, -, -, hentered⟩ := s.recordEntered_run r
    rw [hentered] at hcells
    have hentry := State.runRecordEntry_abandon hs hr hq ho hwait hopen answered
    generalize (abandonRun (s.recordEntered r) o).1 = u at hrun hreport hcells hentry
    refine ⟨(u.conclude o (.done 0) answered).settle, congrArg (fun v : State => Host.Outcome.next v.settle) hentry, ?_, ?_, ?_, ?_,
      (s.recordEntered r).runRecord .abandoned, ?_, rfl⟩
    · have hqueue : (u.conclude o (.done 0) answered).report.queue = s.report.queue ++ [.run r] := by
        rw [State.conclude_report, hreport, hv]
        rfl
      rw [(State.settle_settles _).rest]
      exact hqueue
    · rw [State.settle_run, State.conclude_run, hrun]
    · rw [State.settle_run, State.conclude_run, hrun]
    · rw [State.settle_orders, (LeavesBoard.settle _).cells, ← hcells]
      exact u.conclude_hand o (.done 0) answered
    · rw [State.settle_run, State.conclude_run, hrun]
  · have hv : s.recordEntered r = State.enqueue { s with run := { s.run with slot := none } } (.run r) := if_neg hr
    have hentry := State.runRecordEntry_of_room hs hq answered
    rw [State.takeWaiting_of_none (by rw [hv]; exact hhand), State.waitedSwitchOver_of_waiting (k := k) (by rw [hv]; rfl)
      (by rw [hv]; exact hk), hv] at hentry
    obtain ⟨hindex, hid, hedition⟩ := State.runRecord_recipe (s := { State.enqueue { s with run := { s.run with slot := none } } (.run r)
      with run := { s.run with slot := none, recipe := some k, waitingSwitch := none } }) rfl hq' .amended
    exact ⟨_, _, .of rfl hentry, rfl, rfl, hindex, hid, hedition⟩
  · obtain ⟨hslot, -, horders, hcells⟩ := s.recordEntered_run r
    have hv : (s.recordEntered r).holds o 3 := by unfold State.holds; rw [horders]; exact ho
    refine ⟨s.recordEntered r, _, congrArg (fun v : State => Host.Outcome.next v.settle)
      (State.runRecordEntry_arm hs hq hw ho hwait answered), rfl, ?_, hslot, hv.1, fun hne => if_neg hne, fun hc => ?_⟩
    · have hhand := (armRun (s.recordEntered r) o).1.conclude_hand o (armRun (s.recordEntered r) o).2 answered
      rw [(LeavesBoard.armRun _ _).cells, hcells] at hhand
      rw [State.settle_orders, (LeavesBoard.settle _).cells, State.carryOutRecorded_of_empty hslot, State.carryOut_of_holds hv]
      cases answered with
      | true => exact hhand
      | false => exact ⟨⟨_, hhand.1⟩, hhand.2⟩
    · rw [State.recordEntered, if_pos hc]
      refine ⟨?_, fun hne => State.setRun_noticed hne⟩
      conv_lhs => rw [State.closeRun_eq]
      rfl

end Sys2Proof.Machine
end

section
namespace Sys2Proof.Machine

/-! # What the map unit and the evaluator leave of a strand (chapters 6 and 8)

The layer below the statements about scans and cuts. `Redrawn` says which fields an operation on the map may touch, `Drawn` also that
it only adds segments at the end of the map and raises only MAP_MERGED; an equation for each branch says what a boundary makes. -/

/-! ## The segments of a map, the open one last -/

/-- The segments of a map without their ends: the closed ones, and the open one last (R127). -/
def StrandMap.bodies (m : StrandMap) : List SegBody := m.closed.map (·.body) ++ m.cur.toList

/-- Where they start. -/
def StrandMap.starts (m : StrandMap) : List Nat := m.bodies.map (·.start)

theorem StrandMap.count_eq (m : StrandMap) : m.count = m.bodies.length := by
  unfold StrandMap.count StrandMap.bodies
  cases m.cur <;> simp

/-- Segments are only added at the end: the closed ones stay, and every segment keeps its start. -/
def StrandMap.Grows (m m' : StrandMap) : Prop :=
  (∃ gs, m'.closed = m.closed ++ gs) ∧ ∃ more, m'.starts = m.starts ++ more

theorem StrandMap.Grows.refl (m : StrandMap) : m.Grows m := ⟨⟨[], by simp⟩, ⟨[], by simp⟩⟩

theorem StrandMap.Grows.trans {a b c : StrandMap} (h : a.Grows b) (k : b.Grows c) : a.Grows c := by
  obtain ⟨⟨gs, h1⟩, more, h2⟩ := h
  obtain ⟨⟨gs', k1⟩, more', k2⟩ := k
  exact ⟨⟨gs ++ gs', by rw [k1, h1, List.append_assoc]⟩, more ++ more', by rw [k2, h2, List.append_assoc]⟩

/-! ## The frame of an operation on the map -/

/-- From st to t nothing has changed but the forecast, the segments and the map mark, the confirmed state and the candidate, and the
messages and incidents on their way. -/
def Redrawn (st t : StrandState) : Prop := t = { st with
  fore := t.fore
  map := { st.map with closed := t.map.closed, cur := t.map.cur, mapMark := t.map.mapMark }
  eval := { st.eval with confirmed := t.eval.confirmed, candidate := t.eval.candidate }
  mapMail := t.mapMail
  raised := t.raised }

@[refl] theorem Redrawn.refl (st : StrandState) : Redrawn st st := rfl

theorem Redrawn.trans {a b c : StrandState} (h : Redrawn a b) (k : Redrawn b c) : Redrawn a c := by
  unfold Redrawn at *
  rw [k, h]

/-- An operation on the map that only adds to it: `Redrawn`, with segments added at the end, an open segment exactly where there was
one, and MAP_MERGED the only incident. -/
structure Drawn (st t : StrandState) : Prop where
  redrawn : Redrawn st t
  grows : st.map.Grows t.map
  opens : t.map.cur.isSome = st.map.cur.isSome
  raised : ∃ l : List Incident, t.raised = st.raised ++ l ∧ ∀ i ∈ l, i.kind = .mapMerged

@[refl] theorem Drawn.refl (st : StrandState) : Drawn st st := ⟨rfl, .refl _, rfl, [], by simp, by simp⟩

theorem Drawn.trans {a b c : StrandState} (h : Drawn a b) (k : Drawn b c) : Drawn a c where
  redrawn := h.redrawn.trans k.redrawn
  grows := h.grows.trans k.grows
  opens := k.opens.trans h.opens
  raised := by
    obtain ⟨l, h1, h2⟩ := h.raised
    obtain ⟨l', k1, k2⟩ := k.raised
    exact ⟨l ++ l', by rw [k1, h1, List.append_assoc], fun i hi => (List.mem_append.mp hi).elim (h2 i) (k2 i)⟩

/-- A change of the open segment that keeps its start, of the forecast and of the tracker. -/
theorem Drawn.of_open {st t : StrandState} (h : Redrawn st t) (hc : t.map.closed = st.map.closed)
    (ho : t.map.cur.map (·.start) = st.map.cur.map (·.start)) (hr : t.raised = st.raised) : Drawn st t where
  redrawn := h
  grows := by
    refine ⟨⟨[], by rw [hc, List.append_nil]⟩, [], ?_⟩
    unfold StrandMap.starts StrandMap.bodies
    rw [hc, List.map_append, List.map_append, ← Option.toList_map, ← Option.toList_map, ho, List.append_nil]
  opens := by simpa using congrArg Option.isSome ho
  raised := ⟨[], by rw [hr, List.append_nil], by simp⟩

/-! ## Map marks -/

/-- Judging the open segment for a map mark touches the mark and the messages alone (R142, R143). -/
theorem StrandState.judgeMark_rest (st : StrandState) (e : Env) (n : Strand) (x y : Nat) : st.judgeMark e n x y = { st with
    map := { st.map with mapMark := (st.judgeMark e n x y).map.mapMark }
    mapMail := (st.judgeMark e n x y).mapMail } := by
  unfold StrandState.judgeMark StrandState.startMark StrandState.endMark
  repeat' split
  all_goals rfl

/-! ## Boundaries (R119, R128, R129, R136) -/

/-- With no open segment the zones act alone (R119). -/
theorem StrandState.boundary_of_none {st : StrandState} (hc : st.map.cur = none) (e : Env) (n : Strand) (b : Nat) (dim : DimClass)
    (stats : Stats) (others : List BoundarySource) :
    st.boundary e n b dim stats others = { st with fore := st.fore.act b } := by
  simp [StrandState.boundary, hc]

/-- The open segment as a boundary at its start recolours it (R129). -/
def StrandState.recoloured (st : StrandState) (e : Env) (cur : SegBody) (fore : Forecast) (dim : DimClass) (stats : Stats) : SegBody :=
  { cur with
    dim := if cur.flags.merged then cur.dim.higher dim else dim
    overlay := if cur.flags.merged then higherOverlay cur.overlay fore.overlay else fore.overlay
    index := st.index
    edition := (e.recipe st).edition
    stats := cur.stats.add stats }

/-- A boundary at or below the open segment's start recolours it (R129). -/
theorem StrandState.boundary_recolours {st : StrandState} {cur : SegBody} (hc : st.map.cur = some cur) (e : Env) (n : Strand) {b : Nat}
    (hb : b ≤ cur.start) (dim : DimClass) (stats : Stats) (others : List BoundarySource) :
    st.boundary e n b dim stats others = { st with
      fore := st.fore.act b
      map := { st.map with
        cur := some (st.recoloured e cur (st.fore.act b) dim stats)
        mapMark := (st.boundary e n b dim stats others).map.mapMark }
      mapMail := (st.boundary e n b dim stats others).mapMail } := by
  have h : st.boundary e n b dim stats others =
      StrandState.recolour { st with fore := st.fore.act b } e n cur dim stats := by
    simp [StrandState.boundary, hc, hb]
  rw [h, StrandState.recolour]
  exact StrandState.judgeMark_rest _ _ _ _ _

/-- A boundary above it, with a place free, closes it and opens a new one (R128). -/
theorem StrandState.boundary_breaks {st : StrandState} {cur : SegBody} (hc : st.map.cur = some cur) (e : Env) (n : Strand) {b : Nat}
    (hb : cur.start < b) (hroom : st.map.count < 60) (dim : DimClass) (stats : Stats) (others : List BoundarySource) :
    st.boundary e n b dim stats others = { st with
      fore := st.fore.act b
      map := { st.map with
        closed := st.map.closed ++ [{ body := cur, stop := b }]
        cur := some {
          start := b, dim := dim, overlay := (st.fore.act b).overlay, index := st.index, edition := (e.recipe st).edition, stats := stats }
        mapMark := (st.boundary e n b dim stats others).map.mapMark }
      eval := st.eval.raiseSide b
      mapMail := (st.boundary e n b dim stats others).mapMail } := by
  have h : st.boundary e n b dim stats others =
      StrandState.breakAt { st with fore := st.fore.act b } e n cur b dim stats := by
    simp [StrandState.boundary, hc, Nat.not_le.mpr hb, Config.ordinarySegments, hroom]
  rw [h, StrandState.breakAt]
  exact StrandState.judgeMark_rest _ _ _ _ _

/-- On a full map it merges into the open segment, with MAP_MERGED (R136). -/
theorem StrandState.boundary_refused {st : StrandState} {cur : SegBody} (hc : st.map.cur = some cur) (e : Env) (n : Strand) {b : Nat}
    (hb : cur.start < b) (hfull : 60 ≤ st.map.count) (dim : DimClass) (stats : Stats) (others : List BoundarySource) :
    ∃ i : Incident, i.kind = .mapMerged ∧ st.boundary e n b dim stats others = { st with
      fore := st.fore.act b
      map := { st.map with
        cur := some { cur with
          dim := cur.dim.higher dim
          overlay := higherOverlay cur.overlay (st.fore.act b).overlay
          flags := { cur.flags with merged := true }
          stats := cur.stats.add stats }
        mapMark := (st.boundary e n b dim stats others).map.mapMark }
      mapMail := (st.boundary e n b dim stats others).mapMail
      raised := st.raised ++ [i] } := by
  have h : st.boundary e n b dim stats others = StrandState.refuse { st with fore := st.fore.act b } e n cur b dim stats
      (BoundarySource.shown b (st.sourcesAt b others)) := by
    simp [StrandState.boundary, hc, Nat.not_le.mpr hb, Config.ordinarySegments, Nat.not_lt.mpr hfull]
  rw [h, StrandState.refuse, StrandState.raise]
  exact ⟨_, rfl, StrandState.judgeMark_rest _ _ _ _ _⟩

/-- What a boundary can do, said once. -/
theorem StrandState.boundary_cases (st : StrandState) (e : Env) (n : Strand) (b : Nat) (dim : DimClass) (stats : Stats)
    (others : List BoundarySource) : Drawn st (st.boundary e n b dim stats others) ∧
      (st.boundary e n b dim stats others).fore = st.fore.act b ∧
      (st.boundary e n b dim stats others).eval.confirmed = st.eval.confirmed ∧
      ((st.boundary e n b dim stats others).eval.candidate = st.eval.candidate ∨
        (st.boundary e n b dim stats others).eval.candidate =
          st.eval.candidate.map (fun c => { c with start := max c.start b })) := by
  cases hc : st.map.cur with
  | none =>
    rw [StrandState.boundary_of_none hc]
    exact ⟨.of_open rfl rfl rfl rfl, rfl, rfl, .inl rfl⟩
  | some cur =>
    by_cases hb : b ≤ cur.start
    · rw [StrandState.boundary_recolours hc e n hb]
      exact ⟨.of_open rfl rfl (by rw [hc]; rfl) rfl, rfl, rfl, .inl rfl⟩
    · rw [Nat.not_le] at hb
      by_cases hroom : st.map.count < 60
      · rw [StrandState.boundary_breaks hc e n hb hroom]
        refine ⟨⟨rfl, ⟨⟨_, rfl⟩, [b], ?_⟩, by rw [hc]; rfl, [], (List.append_nil _).symm, by simp⟩, rfl, rfl, .inr rfl⟩
        simp [StrandMap.starts, StrandMap.bodies, hc]
      · obtain ⟨i, hi, heq⟩ := StrandState.boundary_refused hc e n hb (Nat.not_lt.mp hroom) dim stats others
        rw [heq]
        refine ⟨⟨rfl, ⟨⟨[], (List.append_nil _).symm⟩, [], ?_⟩, by rw [hc]; rfl, [i], rfl, by simpa using hi⟩, rfl, rfl, .inl rfl⟩
        simp [StrandMap.starts, StrandMap.bodies, hc]

theorem Drawn.boundary (st : StrandState) (e : Env) (n : Strand) (b : Nat) (dim : DimClass) (stats : Stats)
    (others : List BoundarySource) : Drawn st (st.boundary e n b dim stats others) := (st.boundary_cases e n b dim stats others).1

@[simp] theorem StrandState.boundary_fore (st : StrandState) (e : Env) (n : Strand) (b : Nat) (dim : DimClass) (stats : Stats)
    (others : List BoundarySource) : (st.boundary e n b dim stats others).fore = st.fore.act b :=
  (st.boundary_cases e n b dim stats others).2.1

@[simp] theorem StrandState.boundary_confirmed (st : StrandState) (e : Env) (n : Strand) (b : Nat) (dim : DimClass) (stats : Stats)
    (others : List BoundarySource) : (st.boundary e n b dim stats others).eval.confirmed = st.eval.confirmed :=
  let ⟨_, _, hconfirmed, _⟩ := st.boundary_cases e n b dim stats others
  hconfirmed

end Sys2Proof.Machine
end

section
namespace Sys2Proof.Machine

/-! # Cuts, and the switch-over they can make (R43, R44, R148, R149) -/

/-! ## What a frame says of each field -/

theorem Redrawn.track {st t : StrandState} (h : Redrawn st t) : t.track = st.track := congrArg (·.track) h
theorem Redrawn.recipe {st t : StrandState} (h : Redrawn st t) : t.recipe = st.recipe := congrArg (·.recipe) h
theorem Redrawn.switch {st t : StrandState} (h : Redrawn st t) : t.switch = st.switch := congrArg (·.switch) h
theorem Redrawn.chan {st t : StrandState} (h : Redrawn st t) : t.chan = st.chan := congrArg (·.chan) h
theorem Redrawn.port {st t : StrandState} (h : Redrawn st t) : t.port = st.port := congrArg (·.port) h
theorem Redrawn.cuts {st t : StrandState} (h : Redrawn st t) : t.cuts = st.cuts := congrArg (·.cuts) h
theorem Redrawn.tailCount {st t : StrandState} (h : Redrawn st t) : t.tailCount = st.tailCount := congrArg (·.tailCount) h
theorem Redrawn.lastMaterial {st t : StrandState} (h : Redrawn st t) : t.lastMaterial = st.lastMaterial :=
  congrArg (·.lastMaterial) h
theorem Redrawn.frontier {st t : StrandState} (h : Redrawn st t) : t.map.frontier = st.map.frontier :=
  congrArg (·.map.frontier) h
theorem Redrawn.nose {st t : StrandState} (h : Redrawn st t) : t.map.nose = st.map.nose := congrArg (·.map.nose) h
theorem Redrawn.tail {st t : StrandState} (h : Redrawn st t) : t.map.tail = st.map.tail := congrArg (·.map.tail) h
theorem Redrawn.resolved {st t : StrandState} (h : Redrawn st t) : t.eval.resolved = st.eval.resolved :=
  congrArg (·.eval.resolved) h

/-- The recipe in force on a strand whose recipe is the same. -/
theorem Redrawn.recipeOf {st t : StrandState} (h : Redrawn st t) (e : Env) : e.recipe t = e.recipe st := by
  unfold Env.recipe StrandState.index
  rw [h.recipe]

/-! ## Boundaries offered, and switches passed -/

theorem Drawn.makeOffers (st : StrandState) (e : Env) (n : Strand) (sw : Option Nat) (g : Bool) (joint : Confirming)
    (coords : List Nat) : Drawn st (st.makeOffers e n sw g joint coords) := by
  unfold StrandState.makeOffers
  induction coords generalizing st with
  | nil => exact .refl st
  | cons b coords ih => exact (Drawn.boundary st e n b _ _ _).trans (ih _)

/-- A switch is passed or it is not; nothing else changes (R43). -/
theorem StrandState.passSwitch_eq (st : StrandState) (x : Nat) : st.passSwitch x = { st with
    recipe := st.switch.elim st.recipe (fun w => if w.coord ≤ x then some w.entry else st.recipe)
    switch := st.switch.filter (fun w => x < w.coord) } := by
  unfold StrandState.passSwitch
  split
  next h => rw [h, Option.elim_none, Option.filter_none, ← h]
  next w h =>
    rw [h, Option.elim_some]
    by_cases hx : w.coord ≤ x
    · simp [hx, Option.filter, Nat.not_lt.mpr hx]
    · simp [hx, Option.filter, Nat.not_le.mp hx, ← h]

/-- A strand gets no switch but at a seam: an event keeps the one it has, or passes it (R42, R43). -/
def SwitchKept (st t : StrandState) : Prop := t.switch = st.switch ∨ t.switch = none

theorem SwitchKept.trans {a b c : StrandState} (h : SwitchKept a b) (k : SwitchKept b c) : SwitchKept a c := by
  rcases k with k | k
  · rcases h with h | h
    · exact .inl (k.trans h)
    · exact .inr (k.trans h)
  · exact .inr k

theorem Redrawn.kept {st t : StrandState} (h : Redrawn st t) : SwitchKept st t := .inl h.switch

theorem SwitchKept.passSwitch (st : StrandState) (x : Nat) : SwitchKept st (st.passSwitch x) := by
  rw [StrandState.passSwitch_eq]
  unfold SwitchKept
  cases st.switch with
  | none => exact .inl rfl
  | some w => by_cases h : x < w.coord <;> simp [Option.filter, h]

theorem SwitchKept.moveFrontier (st : StrandState) (x : Nat) : SwitchKept st (st.moveFrontier x) :=
  SwitchKept.passSwitch { st with map := { st.map with frontier := x } } x

/-! ## Cuts (R134, R138, R139) -/

theorem StrandState.breakAt_redrawn (st : StrandState) (e : Env) (n : Strand) (cur : SegBody) (b : Nat) (dim : DimClass)
    (stats : Stats) : Redrawn st (st.breakAt e n cur b dim stats) := by
  rw [StrandState.breakAt, StrandState.judgeMark_rest]
  rfl

theorem SwitchKept.cutBoundary (st : StrandState) (e : Env) (n : Strand) (c : Nat) : SwitchKept st (st.cutBoundary e n c) := by
  unfold StrandState.cutBoundary
  dsimp only
  split
  · exact .inl rfl
  · exact (StrandState.breakAt_redrawn { st with fore := st.fore.act c } e n _ c _ _).kept

theorem SwitchKept.extend (st : StrandState) (e : Env) (n : Strand) (c : Nat) : SwitchKept st (st.extend e n c) := by
  have gap : SwitchKept st (st.gapAtFrontier e n) :=
    (SwitchKept.passSwitch st _).trans (Drawn.boundary _ e n _ _ _ _).redrawn.kept
  unfold StrandState.extend
  dsimp only
  refine SwitchKept.trans ?_ (.cutBoundary _ e n c)
  exact (gap.trans (.moveFrontier _ c)).trans (Drawn.makeOffers _ e n _ true none _).redrawn.kept

/-- A cut at or below the frontier touches the map alone (R139). -/
theorem StrandState.divideMap_redrawn {st : StrandState} {c : Nat} (h : ¬ (st.track = .tracking ∧ st.map.frontier < c)) (e : Env)
    (n : Strand) : Redrawn st (st.divideMap e n c) := by
  unfold StrandState.divideMap
  rw [if_neg h]
  split
  · rfl
  · split
    · rfl
    · split <;> rfl

theorem SwitchKept.divideMap (st : StrandState) (e : Env) (n : Strand) (c : Nat) : SwitchKept st (st.divideMap e n c) := by
  by_cases h : st.track = .tracking ∧ st.map.frontier < c
  · rw [StrandState.divideMap, if_pos h]
    exact .extend st e n c
  · exact (StrandState.divideMap_redrawn h e n).kept

/-- A join touches the map alone (R138). -/
theorem StrandState.joinAt_redrawn (st : StrandState) (e : Env) (n : Strand) (k old : Nat) : Redrawn st (st.joinAt e n k old) := by
  unfold StrandState.joinAt
  split
  · rfl
  · split
    · rfl
    · rw [StrandState.judgeMark_rest]
      rfl
  · rfl

/-- Withdrawing the newest cut touches the map and takes the cut off the list (R138, R153). -/
theorem StrandState.withdrawNewest_rest (st : StrandState) (e : Env) (n : Strand) (p : PendingCut) : ∃ u : StrandState,
    Redrawn st u ∧ st.withdrawNewest e n p = { u with cuts := { st.cuts with pending := st.cuts.pending.dropLast } } := by
  refine ⟨if p.place = .used then st.joinAt e n (heldSegs st.cuts.pending) p.coord else st, ?_, ?_⟩
  · split
    · exact StrandState.joinAt_redrawn st e n _ _
    · rfl
  · unfold StrandState.withdrawNewest
    dsimp only
    split
    · rw [StrandState.joinAt_cuts]
    · rfl

theorem SwitchKept.acceptCut (st : StrandState) (e : Env) (n : Strand) (source : CutSource) (c : Nat) :
    SwitchKept st (st.acceptCut e n source c) := by
  have append : ∀ (u : StrandState) (f j : Bool) (copy : VerdictCopy), SwitchKept u (u.appendCut e n c f j copy) :=
    fun u _ _ _ => SwitchKept.divideMap u e n c
  unfold StrandState.acceptCut
  dsimp only
  split
  · exact append st _ _ _
  · split
    · exact .inl rfl
    next p _ =>
      obtain ⟨u, hu, heq⟩ := st.withdrawNewest_rest e n p
      exact SwitchKept.trans (b := st.withdrawNewest e n p) (.inl (by rw [heq]; exact hu.switch))
        (append _ (p.isFinal || source == .final) true (verdictCopy e st))

/-- A cut passes a pending switch or leaves it (R43, R134). -/
theorem SwitchKept.cutBehind (st : StrandState) (e : Env) (n : Strand) (source : CutSource) (x : Nat) :
    SwitchKept st (st.cutBehind e n source x) := by
  unfold StrandState.cutBehind StrandState.judgeCut
  split
  · exact .inl rfl
  · split
    · exact .inl rfl
    · split
      · exact .inl rfl
      · split
        · exact .inl rfl
        · split
          · split
            · split
              · exact .inl rfl
              · exact .acceptCut st e n source _
            · exact .acceptCut st e n source _
          · exact .acceptCut st e n source _

/-! ## An event of a strand (R44) -/

theorem State.noSwitch_iff (s : State) : s.noSwitch = true ↔ ∀ n, (s.strand n).switch = none := by
  simp only [State.noSwitch, Four.all, Bool.and_eq_true, Option.isNone_iff_eq_none, and_assoc]
  exact ⟨fun ⟨h1, h2, h3, h4⟩ n => by cases n <;> assumption, fun h => ⟨h .s1, h .s2, h .s3, h .s4⟩⟩

/-- The switch-over is made, or waits for the run record slot (R44, R48). -/
theorem State.reachSwitchOver_switches (s : State) (k : Fin 8) : SwitchesOver s (s.reachSwitchOver k) k s.strand := by
  unfold State.reachSwitchOver
  refine ⟨fun h => by rw [if_pos h], fun h => ?_⟩
  rw [h]
  rfl

/-- The switch-over reads the run controller and the clock of the state before. -/
theorem SwitchesOver.of_same {s s' t : State} {k : Fin 8} {v : Strand → StrandState} (h : SwitchesOver s t k v)
    (hr : s'.run = s.run) (hc : s'.clock = s.clock) : SwitchesOver s' t k v := by
  have henv : s'.env = s.env := by unfold State.env; rw [hr, hc]
  unfold SwitchesOver State.time State.inMask at *
  rw [hr, henv]
  exact h

/-- The switch-over touches the run controller alone. -/
theorem State.reachSwitchOver_rest (s : State) (k : Fin 8) :
    s.reachSwitchOver k = { s with run := (s.reachSwitchOver k).run } := by
  unfold State.reachSwitchOver
  split <;> rfl

/-- An event of a strand touches that strand and, by a switch-over, the run controller. -/
theorem State.strandEvent_rest (s : State) (n : Strand) (f : StrandState → StrandState) : s.strandEvent n f =
    { s with strands := s.strands.set n (f (s.strand n)), run := (s.strandEvent n f).run } := by
  unfold State.strandEvent
  dsimp only
  split
  · split
    · exact State.reachSwitchOver_rest _ _
    · rfl
  · rfl

theorem State.strandEvent_strand (s : State) (n m : Strand) (f : StrandState → StrandState) :
    (s.strandEvent n f).strand m = if m = n then f (s.strand n) else s.strand m := by
  rw [State.strandEvent_rest]
  exact Four.get_set _ _ _ _

theorem State.strandEvent_clock (s : State) (n : Strand) (f : StrandState → StrandState) : (s.strandEvent n f).clock = s.clock := by
  rw [State.strandEvent_rest]

/-- An event of a strand that passes no switch, or not the last one of the run, leaves the run controller (R44). -/
theorem State.strandEvent_run {s : State} {n : Strand} {f : StrandState → StrandState}
    (h : (f (s.strand n)).switch = (s.strand n).switch ∨ ∃ m, ((s.strandEvent n f).strand m).switch.isSome = true) :
    (s.strandEvent n f).run = s.run := by
  have hstrands : ∀ m, (s.strandEvent n f).strand m = (s.onStrand n f).strand m := fun m => by
    rw [State.strandEvent_strand, State.onStrand_strand_eq]
    split
    · subst_vars; rfl
    · rfl
  simp only [hstrands] at h
  unfold State.strandEvent
  dsimp only
  rw [State.onStrand_strand]
  split
  next w hw hnone =>
    rw [if_neg]
    · rfl
    · rw [State.noSwitch_iff]
      intro hall
      rcases h with h | ⟨m, hm⟩
      · rw [hw, hnone] at h
        cases h
      · rw [hall m] at hm
        cases hm
  · rfl

/-- An event that passes the last pending switch of the run makes the switch-over (R44). -/
theorem State.strandEvent_switches {s : State} {n : Strand} {f : StrandState → StrandState} {w : Switch}
    (hw : (s.strand n).switch = some w) (hf : (f (s.strand n)).switch = none) (hm : ∀ m, m ≠ n → (s.strand m).switch = none) :
    SwitchesOver s (s.strandEvent n f) w.entry (s.strandEvent n f).strand := by
  have hno : (s.onStrand n f).noSwitch = true := by
    rw [State.noSwitch_iff]
    intro m
    rw [State.onStrand_strand_eq]
    split
    · subst_vars; exact hf
    · exact hm m ‹_›
  have hevent : s.strandEvent n f = (s.onStrand n f).reachSwitchOver w.entry := by
    unfold State.strandEvent
    dsimp only
    rw [State.onStrand_strand, hw, hf]
    exact if_pos hno
  have hstrand : (s.strandEvent n f).strand = (s.onStrand n f).strand := by
    rw [hevent, State.reachSwitchOver_rest]
    rfl
  rw [hstrand, hevent]
  exact (State.reachSwitchOver_switches _ _).of_same rfl rfl

/-- An event that changes nothing of the strand is none. -/
theorem State.strandEvent_id {s : State} {n : Strand} {f : StrandState → StrandState} (h : f (s.strand n) = s.strand n) :
    s.strandEvent n f = s := by
  rw [State.strandEvent_rest, State.strandEvent_run (.inl (by rw [h])), h]
  show { s with strands := s.strands.set n (s.strands.get n) } = s
  rw [Four.set_get]

/-! ## One event over several strands -/

/-- The events of strands in turn (log 38). -/
def State.strandEvents (s : State) (f : Strand → StrandState → StrandState) (l : List Strand) : State :=
  l.foldl (fun s n => s.strandEvent n (f n)) s

theorem State.strandEvents_cons (s : State) (f : Strand → StrandState → StrandState) (n : Strand) (l : List Strand) :
    s.strandEvents f (n :: l) = (s.strandEvent n (f n)).strandEvents f l := rfl

theorem State.strandEvents_rest (s : State) (f : Strand → StrandState → StrandState) (l : List Strand) :
    s.strandEvents f l = { s with strands := (s.strandEvents f l).strands, run := (s.strandEvents f l).run } := by
  induction l generalizing s with
  | nil => rfl
  | cons n l ih =>
    rw [State.strandEvents_cons, ih, State.strandEvent_rest]

theorem State.strandEvents_strand (s : State) (f : Strand → StrandState → StrandState) {l : List Strand} (hl : l.Nodup) (m : Strand) :
    (s.strandEvents f l).strand m = if m ∈ l then f m (s.strand m) else s.strand m := by
  induction l generalizing s with
  | nil => rfl
  | cons n l ih =>
    obtain ⟨hn, hl⟩ := List.nodup_cons.mp hl
    rw [State.strandEvents_cons, ih _ hl, State.strandEvent_strand]
    by_cases hm : m = n
    · subst hm
      simp [hn]
    · simp [hm]

section
variable {f : Strand → StrandState → StrandState} (hf : ∀ n st, SwitchKept st (f n st))
include hf

/-- The switch of each strand after the events of strands in turn. -/
theorem State.strandEvents_kept (s : State) (l : List Strand) (m : Strand) :
    SwitchKept (s.strand m) ((s.strandEvents f l).strand m) := by
  induction l generalizing s with
  | nil => exact .inl rfl
  | cons n l ih =>
    refine SwitchKept.trans ?_ (ih (s.strandEvent n (f n)))
    rw [State.strandEvent_strand]
    split
    next h => rw [h]; exact hf n _
    · exact .inl rfl

/-- Events that pass no switch, or not the last one of the run, leave the run controller (R44). -/
theorem State.strandEvents_run {s : State} {l : List Strand} (hl : l.Nodup)
    (h : (∀ m, ((s.strandEvents f l).strand m).switch = (s.strand m).switch) ∨
      ∃ m, ((s.strandEvents f l).strand m).switch.isSome = true) : (s.strandEvents f l).run = s.run := by
  induction l generalizing s with
  | nil => rfl
  | cons n l ih =>
    obtain ⟨hn, hl⟩ := List.nodup_cons.mp hl
    have hkept := State.strandEvents_kept hf (s.strandEvent n (f n)) l
    rw [State.strandEvents_cons] at *
    rcases h with h | ⟨m, hm⟩
    · have hsame : ∀ m, ((s.strandEvent n (f n)).strand m).switch = (s.strand m).switch := fun m => by
        by_cases hmn : m = n
        · rw [← h m, State.strandEvents_strand _ _ hl, hmn, if_neg hn]
        · rw [State.strandEvent_strand, if_neg hmn]
      have hself := hsame n
      rw [State.strandEvent_strand, if_pos rfl] at hself
      rw [ih hl (.inl fun m => (h m).trans (hsame m).symm), State.strandEvent_run (.inl hself)]
    · have hone : ((s.strandEvent n (f n)).strand m).switch.isSome = true := by
        rcases hkept m with hk | hk
        · rw [← hk]; exact hm
        · rw [hk] at hm; cases hm
      rw [ih hl (.inr ⟨m, hm⟩), State.strandEvent_run (.inr ⟨m, hone⟩)]

/-- Events that pass the last pending switch of the run, all of one entry, make the switch-over, each strand in its record as before or
after its own event (R44, R48, log 38). -/
theorem State.strandEvents_switches {s : State} {l : List Strand} (hl : l.Nodup) {k : Fin 8}
    (hsome : ∃ m, (s.strand m).switch.isSome = true) (hk : ∀ m w, (s.strand m).switch = some w → w.entry = k)
    (hnone : ∀ m, ((s.strandEvents f l).strand m).switch = none) :
    ∃ v : Strand → StrandState, (∀ m, v m = s.strand m ∨ v m = (s.strandEvents f l).strand m) ∧
      SwitchesOver s (s.strandEvents f l) k v := by
  induction l generalizing s with
  | nil =>
    obtain ⟨m, hm⟩ := hsome
    have hm' : (s.strand m).switch = none := hnone m
    rw [hm'] at hm
    cases hm
  | cons n l ih =>
    obtain ⟨hn, hl⟩ := List.nodup_cons.mp hl
    rw [State.strandEvents_cons] at *
    have hat : ∀ m, (s.strandEvent n (f n)).strand m = s.strand m ∨
        (s.strandEvent n (f n)).strand m = ((s.strandEvent n (f n)).strandEvents f l).strand m := fun m => by
      by_cases hmn : m = n
      · exact .inr (by rw [State.strandEvents_strand _ _ hl, hmn, if_neg hn])
      · exact .inl (by rw [State.strandEvent_strand, if_neg hmn])
    by_cases hlast : ∀ m, ((s.strandEvent n (f n)).strand m).switch = none
    · have hself := hlast n
      rw [State.strandEvent_strand, if_pos rfl] at hself
      have hothers : ∀ m, m ≠ n → (s.strand m).switch = none := fun m hmn => by
        rw [← hlast m, State.strandEvent_strand, if_neg hmn]
      obtain ⟨w, hw⟩ : ∃ w, (s.strand n).switch = some w := by
        obtain ⟨m, hm⟩ := hsome
        by_cases hmn : m = n
        · exact Option.isSome_iff_exists.mp (hmn ▸ hm)
        · rw [hothers m hmn] at hm
          cases hm
      have hrun := State.strandEvents_run hf hl (s := s.strandEvent n (f n)) (.inl fun m => (hnone m).trans (hlast m).symm)
      refine ⟨_, hat, ?_⟩
      have hover := State.strandEvent_switches hw hself hothers
      rw [hk n w hw] at hover
      unfold SwitchesOver at hover ⊢
      rw [hrun]
      exact hover
    · obtain ⟨m, hm⟩ := not_forall.mp hlast
      have hm := Option.isSome_iff_ne_none.mpr hm
      have hentry : ∀ q w, ((s.strandEvent n (f n)).strand q).switch = some w → w.entry = k := fun q w hq => by
        have hkept := State.strandEvents_kept hf s [n] q
        rw [State.strandEvents_cons] at hkept
        rcases hkept with hkept | hkept
        · exact hk q w (hkept.symm.trans hq)
        · cases hkept.symm.trans hq
      obtain ⟨v, hv, hover⟩ := ih hl ⟨m, hm⟩ hentry hnone
      refine ⟨v, fun q => ?_, hover.of_same (State.strandEvent_run (.inr ⟨m, hm⟩)).symm (State.strandEvent_clock s n _).symm⟩
      rcases hv q with h | h
      · rw [h]; exact hat q
      · exact .inr h

end

/-! ## SOFT CUT and qualified saws (R148, R149) -/

/-- What the run controller becomes as the cuts of an event pass switches (R44). -/
theorem State.strandEvents_runAfter {s : State} {f : Strand → StrandState → StrandState} (hf : ∀ n st, SwitchKept st (f n st)) :
    ((∀ n, ((s.strandEvents f strandsAscending).strand n).switch = (s.strand n).switch) ∨
        (∃ n, ((s.strandEvents f strandsAscending).strand n).switch.isSome = true) →
      (s.strandEvents f strandsAscending).run = s.run) ∧
    ∀ k : Fin 8, (∃ n, (s.strand n).switch.isSome = true) → (∀ n w, (s.strand n).switch = some w → w.entry = k) →
      (∀ n, ((s.strandEvents f strandsAscending).strand n).switch = none) →
      ∃ v : Strand → StrandState, (∀ n, v n = s.strand n ∨ v n = (s.strandEvents f strandsAscending).strand n) ∧
        SwitchesOver s (s.strandEvents f strandsAscending) k v :=
  ⟨State.strandEvents_run hf (by decide), fun _ => State.strandEvents_switches hf (by decide)⟩

/-- What SOFT CUT makes of a strand (R149). -/
def softCutOf (e : Env) (mask : Four Bool) (n : Strand) (st : StrandState) : StrandState :=
  if mask.get n then st.cutBehind e n .soft st.chan.hw else st

/-- What a qualified saw makes of a strand (R148). -/
def sawCutOf (e : Env) (c : Captures) (n : Strand) (st : StrandState) : StrandState :=
  match c.get n with
  | none => st
  | some x => st.cutBehind e n .saw x

/-- A switch-over changes nothing that strand events read. -/
theorem State.reachSwitchOver_env (s : State) (k : Fin 8) : (s.reachSwitchOver k).env = s.env := by
  unfold State.reachSwitchOver
  split <;> rfl

theorem State.strandEvent_env (s : State) (n : Strand) (f : StrandState → StrandState) : (s.strandEvent n f).env = s.env := by
  unfold State.strandEvent
  dsimp only
  split
  · split
    · exact State.reachSwitchOver_env _ _
    · rfl
  · rfl

/-- A chain of events over the strands, each of which reads the environment of its state. -/
theorem State.foldl_strandEvent {g : State → Strand → State} {f : Env → Strand → StrandState → StrandState}
    (hg : ∀ s n, g s n = s.strandEvent n (f s.env n)) (l : List Strand) (s : State) :
    l.foldl g s = s.strandEvents (f s.env) l := by
  induction l generalizing s with
  | nil => rfl
  | cons n l ih => rw [List.foldl_cons, ih, hg, State.strandEvent_env, State.strandEvents_cons]

theorem State.softCutAt_eq (s : State) (mask : Four Bool) (n : Strand) :
    (if mask.get n then s.softCutAt n else s) = s.strandEvent n (softCutOf s.env mask n) := by
  split
  next h =>
    unfold softCutOf
    simp only [h, if_true]
    rfl
  next h => exact (State.strandEvent_id (if_neg h)).symm

theorem State.sawAt_eq (s : State) (c : Captures) (n : Strand) : s.sawAt c n = s.strandEvent n (sawCutOf s.env c n) := by
  unfold State.sawAt sawCutOf
  cases h : c.get n with
  | none => exact (State.strandEvent_id rfl).symm
  | some x => rfl

theorem SwitchKept.softCutOf (e : Env) (mask : Four Bool) (n : Strand) (st : StrandState) :
    SwitchKept st (softCutOf e mask n st) := by
  unfold Machine.softCutOf
  split
  · exact .cutBehind st e n .soft _
  · exact .inl rfl

theorem SwitchKept.sawCutOf (e : Env) (c : Captures) (n : Strand) (st : StrandState) : SwitchKept st (sawCutOf e c n st) := by
  unfold Machine.sawCutOf
  split
  · exact .inl rfl
  · exact .cutBehind st e n .saw _

theorem State.maskInRun_iff (s : State) (mask : Four Bool) :
    s.maskInRun mask = true ↔ ∀ n, mask.get n = true → s.inMask n = true := by
  simp only [State.maskInRun, List.all_eq_true, mem_strandsAscending, true_imp_iff, Bool.or_eq_true, Bool.not_eq_true']
  refine forall_congr' fun n => ?_
  cases mask.get n <;> simp

/-- SOFT CUT in ARMED or ACTIVE (R149). -/
theorem softCut_of_open {s : State} {o : Order} (h : s.run.state = .armed ∨ s.run.state = .active) : softCut s o =
    if s.maskInRun (maskOf o.op1) then (s.strandEvents (softCutOf s.env (maskOf o.op1)) strandsAscending, .done 0)
    else (s, .badOperand 1) := by
  have hfold := State.foldl_strandEvent (f := fun e => softCutOf e (maskOf o.op1)) (fun s n => s.softCutAt_eq (maskOf o.op1) n)
    strandsAscending s
  rcases h with h | h <;> simp only [softCut, h, hfold]

theorem State.grading_iff (s : State) : s.grading = true ↔ s.run.state = .armed ∨ s.run.state = .active := by
  simp [State.grading]

/-- A qualified saw (R148). -/
theorem State.qualifiedSaw_of_mail {s : State} {c : Captures} {rest : List Captures} (h : s.sawMail = c :: rest) : s.qualifiedSaw =
    if s.grading then State.strandEvents { s with sawMail := rest } (sawCutOf s.env c) strandsAscending
    else { s with sawMail := rest } := by
  unfold State.qualifiedSaw
  rw [h]
  dsimp only
  rw [State.foldl_strandEvent (f := fun e => sawCutOf e c) (fun s n => s.sawAt_eq c n)]
  rfl

/-- Settles O34: the strands' events one after the other, and what they make of the run by `State.strandEvents_runAfter`. -/
theorem sawAndSoftCuts : Obligations.SawAndSoftCuts := by
  unfold Obligations.SawAndSoftCuts
  refine ⟨fun s o ho hopen => ⟨fun hbad => ?_, fun hmask => ?_⟩, fun s c rest hmail => ⟨fun hopen => ?_, fun hended => ?_⟩⟩
  · refine .answered ho rfl ((softCut_of_open hopen).trans (if_neg ?_))
    rw [State.maskInRun_iff]
    obtain ⟨n, hn, hout⟩ := hbad
    intro hall
    rw [hall n hn] at hout
    cases hout
  · refine ⟨_, .answered ho rfl ((softCut_of_open hopen).trans (if_pos ((s.maskInRun_iff _).mpr hmask))), fun n => ?_,
      State.strandEvents_rest _ _ _, State.strandEvents_runAfter (.softCutOf _ _)⟩
    rw [State.strandEvents_strand _ _ (by decide), if_pos (mem_strandsAscending n)]
    rfl
  · refine ⟨_, .of rfl ((State.qualifiedSaw_of_mail hmail).trans (if_pos (s.grading_iff.mpr hopen))), fun n => ?_,
      State.strandEvents_rest _ _ _, State.strandEvents_runAfter (.sawCutOf _ _)⟩
    rw [State.strandEvents_strand _ _ (by decide), if_pos (mem_strandsAscending n)]
    rfl
  · refine .of rfl ((State.qualifiedSaw_of_mail hmail).trans (if_neg ?_))
    rw [State.grading_iff]
    rcases hended with h | h <;> simp [h]

/-! ## A qualified seam (R42, R69) -/

/-- The state in which a seam has turned the staged amendment into pending switches (R42). -/
def State.switchesTaken (s : State) (k : Fin 8) (c : Captures) : State :=
  { s.onRun (fun n st => st.takeSwitch k (c.get n)) with run := { s.run with staged := none } }

theorem State.applyStaged_eq (s : State) (k : Fin 8) (c : Captures) : s.applyStaged k c =
    if (s.switchesTaken k c).noSwitch then (s.switchesTaken k c).reachSwitchOver k else s.switchesTaken k c := rfl

theorem State.switchesTaken_strand (s : State) (k : Fin 8) (c : Captures) (n : Strand) : (s.switchesTaken k c).strand n =
    if s.inMask n then (s.strand n).takeSwitch k (c.get n) else s.strand n :=
  State.onRun_strand s n (fun n st => st.takeSwitch k (c.get n))

/-- Turning the staged amendment into switches touches the strands and the run controller alone. -/
theorem State.applyStaged_rest (s : State) (k : Fin 8) (c : Captures) : s.applyStaged k c =
    { s with strands := (s.switchesTaken k c).strands, run := (s.applyStaged k c).run } := by
  rw [State.applyStaged_eq]
  split
  · conv_lhs => rw [State.reachSwitchOver_rest]
    rfl
  · rfl

theorem State.applyStaged_strand (s : State) (k : Fin 8) (c : Captures) :
    (s.applyStaged k c).strand = (s.switchesTaken k c).strand := by
  rw [State.applyStaged_rest]
  rfl

theorem State.reachSwitchOver_mask (s : State) (k : Fin 8) : (s.reachSwitchOver k).run.mask = s.run.mask := by
  unfold State.reachSwitchOver
  split <;> rfl

theorem State.reachSwitchOver_counts (s : State) (k : Fin 8) : (s.reachSwitchOver k).run.billets = s.run.billets ∧
    (s.reachSwitchOver k).run.staged = s.run.staged := by
  unfold State.reachSwitchOver
  split <;> exact ⟨rfl, rfl⟩

theorem State.applyStaged_run (s : State) (k : Fin 8) (c : Captures) : (s.applyStaged k c).run.mask = s.run.mask ∧
    (s.applyStaged k c).run.billets = s.run.billets ∧ (s.applyStaged k c).run.staged = none := by
  rw [State.applyStaged_eq]
  split
  · exact ⟨State.reachSwitchOver_mask _ _, State.reachSwitchOver_counts _ _⟩
  · exact ⟨rfl, rfl, rfl⟩

/-- The state of the run controller with one more billet counted (R42). -/
def State.billetCounted (s : State) (rest : List Captures) : State :=
  { s with seamMail := rest, run := { s.run with billets := min (s.run.billets + 1) 65535 } }

theorem State.qualifiedSeam_of_mail {s : State} {c : Captures} {rest : List Captures} (h : s.seamMail = c :: rest) :
    s.qualifiedSeam = if s.grading then State.seamAtRun { s with seamMail := rest } c else { s with seamMail := rest } := by
  unfold State.qualifiedSeam
  rw [h]
  rfl

/-- A seam with nothing to switch to (R42, R69). -/
theorem State.seamAtRun_of_none {s : State} (h : s.switching = none) (rest c) : State.seamAtRun { s with seamMail := rest } c =
    { s.billetCounted rest with grantMail := s.grantMail ++ [(s.billetCounted rest).grants none c] } := by
  have hb : (s.billetCounted rest).switching = none := h
  unfold State.billetCounted at hb ⊢
  simp only [State.seamAtRun, hb]

/-- A seam that turns the staged amendment into switches (R42, R69). -/
theorem State.seamAtRun_of_some {s : State} {k : Fin 8} (h : s.switching = some k) (rest c) :
    State.seamAtRun { s with seamMail := rest } c = { (s.billetCounted rest).applyStaged k c with
      grantMail := s.grantMail ++ [((s.billetCounted rest).applyStaged k c).grants (some k) c] } := by
  have hb : (s.billetCounted rest).switching = some k := h
  have hg : ((s.billetCounted rest).applyStaged k c).grantMail = s.grantMail := by
    rw [State.applyStaged_rest]
    rfl
  unfold State.billetCounted at hb hg ⊢
  simp only [State.seamAtRun, hb, hg]

/-- The grants of a seam, by the mask of the run and the strand recipes (R69). -/
theorem State.grants_eq {s : State} {mask : Four Bool} (h : s.run.mask = mask) (k : Fin 8) (c : Captures) :
    s.grants (some k) c = Four.build (fun n => if mask.get n then (c.get n).map (fun x => { capture := x, entry := k }) else none) := by
  rw [← h]
  rfl

theorem State.switching_eq_none {s : State} (h : s.run.staged = none ∨ ∃ n, ((s.strand n).switch).isSome = true) :
    s.switching = none := by
  unfold State.switching
  split
  next hno =>
    rcases h with h | ⟨n, hn⟩
    · exact h
    · rw [s.noSwitch_iff.mp hno n] at hn
      cases hn
  · rfl

/-- Settles O40: the seam with nothing to switch to, and the one that turns the staged amendment into switches. -/
theorem qualifiedSeamCounts : Obligations.QualifiedSeamCounts := by
  unfold Obligations.QualifiedSeamCounts
  refine ⟨fun s c rest hmail hended => ?_, fun s c rest hmail hopen => ?_⟩
  · refine .of rfl ((State.qualifiedSeam_of_mail hmail).trans (if_neg ?_))
    rw [State.grading_iff]
    rcases hended with h | h <;> simp [h]
  · have hseam : s.qualifiedSeam = State.seamAtRun { s with seamMail := rest } c :=
      (State.qualifiedSeam_of_mail hmail).trans (if_pos (s.grading_iff.mpr hopen))
    cases hs : s.switching with
    | none =>
      refine ⟨_, .of rfl (hseam.trans (State.seamAtRun_of_none hs rest c)), rfl, rfl, fun _ => ⟨rfl, rfl, rfl⟩,
        fun k hk hno => ?_, rfl, rfl, rfl⟩
      rw [State.switching, if_pos (s.noSwitch_iff.mpr hno), hk] at hs
      cases hs
    | some k =>
      obtain ⟨hmask, hbillets, hstaged⟩ := (s.billetCounted rest).applyStaged_run k c
      have hrest := (s.billetCounted rest).applyStaged_rest k c
      have hstrand : ∀ n, ((s.billetCounted rest).applyStaged k c).strand n =
          if s.inMask n then (s.strand n).takeSwitch k (c.get n) else s.strand n := fun n => by
        rw [State.applyStaged_strand, State.switchesTaken_strand]
        rfl
      refine ⟨_, .of rfl (hseam.trans (State.seamAtRun_of_some hs rest c)), ?_, hbillets, fun hnone => ?_, fun k' hk' hno => ?_,
        ?_, ?_, ?_⟩
      · show ((s.billetCounted rest).applyStaged k c).seamMail = rest
        rw [hrest]
        rfl
      · rw [State.switching_eq_none hnone] at hs
        cases hs
      · rw [State.switching, if_pos (s.noSwitch_iff.mpr hno), hk'] at hs
        cases hs
        refine ⟨hstaged, fun n hn => ?_, fun n hn => ?_, ?_, fun hall => ?_, fun hsome => ?_⟩
        · exact (hstrand n).trans (by rw [hn]; rfl)
        · exact (hstrand n).trans (by rw [hn]; rfl)
        · exact congrArg (fun g => s.grantMail ++ [g]) (State.grants_eq hmask k c)
        · have hno' : ((s.billetCounted rest).switchesTaken k c).noSwitch = true := by
            rw [State.noSwitch_iff, ← State.applyStaged_strand]
            exact hall
          have hover := ((s.billetCounted rest).switchesTaken k c).reachSwitchOver_switches k
          have happly := ((s.billetCounted rest).applyStaged_eq k c).trans (if_pos hno')
          rw [← happly, ← State.applyStaged_strand] at hover
          refine SwitchesOver.of_same hover ?_ rfl
          show { s.run with billets := ((s.billetCounted rest).applyStaged k c).run.billets, staged := none } = _
          rw [hbillets]
          rfl
        · have hno' : ¬ ((s.billetCounted rest).switchesTaken k c).noSwitch = true := by
            rw [State.noSwitch_iff, ← State.applyStaged_strand]
            obtain ⟨n, hn⟩ := hsome
            exact fun hall => Option.isSome_iff_ne_none.mp hn (hall n)
          have happly := ((s.billetCounted rest).applyStaged_eq k c).trans (if_neg hno')
          show ((s.billetCounted rest).applyStaged k c).run = _
          rw [happly]
          rfl
      · exact congrArg (·.xp) hrest
      · exact congrArg (·.report) hrest
      · exact congrArg (·.orders) hrest

/-! ## Scans that are discarded (R39, R87 to R89) -/

/-- A scan in service is taken on its strand (R87, R88). -/
theorem State.takeScan_of_service {s : State} {n : Strand} {sc : Scan} {armed : Bool}
    (h : s.service = some { port := n, entry := .scan sc, armed := armed }) : s.takeScan =
    if armed then { s with service := none }
    else State.strandEvent { s with service := none } n (fun st => st.takeScan s.env n sc) := by
  unfold State.takeScan
  rw [h]

/-- A taking that leaves the strand as it was. -/
theorem Completes.scanKept {s : State} {n : Strand} {sc : Scan} (h : s.service = some { port := n, entry := .scan sc, armed := false })
    (hk : (s.strand n).takeScan s.env n sc = s.strand n) : Completes .scanTaking s { s with service := none } :=
  .of rfl ((State.takeScan_of_service h).trans (State.strandEvent_id (s := { s with service := none }) hk))

theorem StrandState.isRescan_iff (st : StrandState) (sc : Scan) :
    st.isRescan sc = true ↔ sc.stamp < sc.hw ∨ sc.stamp < st.map.frontier := by
  simp [StrandState.isRescan]

/-- Settles O47: the branches of the taking that keep the strand, and the RESCAN flag. -/
theorem scanDiscarded : Obligations.ScanDiscarded := by
  unfold Obligations.ScanDiscarded
  intro s n sc armed hs
  refine ⟨fun h => ?_, fun harmed hre => ⟨fun ht => ?_, fun b ht hb => ?_⟩, fun harmed ht hm => ?_⟩
  · rcases h with h | h
    · exact .of rfl ((State.takeScan_of_service hs).trans (if_pos h))
    · cases armed with
      | true => exact .of rfl (State.takeScan_of_service hs)
      | false => exact .scanKept hs (by simp [StrandState.takeScan, h])
  · subst harmed
    have hre := ((s.strand n).isRescan_iff sc).mpr hre
    refine .scanKept hs ?_
    rcases ht with ht | ht <;> simp [StrandState.takeScan, ht, hre]
  · subst harmed
    have hre := ((s.strand n).isRescan_iff sc).mpr hre
    have htake : (s.strand n).takeScan s.env n sc = (s.strand n).flagRescan := by simp [StrandState.takeScan, ht, hre]
    have hevent := (State.takeScan_of_service hs).trans (if_neg Bool.false_ne_true)
    rw [State.strandEvent_rest, State.strandEvent_run] at hevent
    · refine .of rfl (hevent.trans ?_)
      show { s with service := none, strands := s.strands.set n ((s.strand n).takeScan s.env n sc) } = _
      rw [htake, StrandState.flagRescan, StrandState.onOpen, hb]
      rfl
    · exact .inl (congrArg (·.switch) htake)
  · subst harmed
    exact .scanKept hs (by simp [StrandState.takeScan, ht, hm])

end Sys2Proof.Machine
end

section
namespace Sys2Proof.Machine

/-! # END RUN (R45) -/

/-! ## The final cut (R161) -/

/-- From st to t a cut at or below the frontier, or a withdrawn one, has redrawn the map and changed the list of pending cuts. -/
structure Recut (st t : StrandState) : Prop where
  redrawn : Redrawn { st with cuts := t.cuts } t
  cuts : t.cuts = { st.cuts with pending := t.cuts.pending }

theorem Recut.trans {a b c : StrandState} (h : Recut a b) (k : Recut b c) : Recut a c where
  redrawn := by
    have hb := h.redrawn
    have hc := k.redrawn
    unfold Redrawn at *
    rw [hc, hb]
  cuts := by rw [k.cuts, h.cuts]

theorem Recut.withdrawNewest (st : StrandState) (e : Env) (n : Strand) (p : PendingCut) : Recut st (st.withdrawNewest e n p) := by
  obtain ⟨u, hu, heq⟩ := st.withdrawNewest_rest e n p
  rw [heq]
  refine ⟨?_, rfl⟩
  unfold Redrawn at *
  rw [hu]

theorem Recut.appendCut {st : StrandState} {c : Nat} (h : c ≤ st.map.frontier) (e : Env) (n : Strand) (f j : Bool)
    (copy : VerdictCopy) : Recut st (st.appendCut e n c f j copy) := by
  have hd := StrandState.divideMap_redrawn (st := st) (c := c) (fun hlt => absurd hlt.2 (Nat.not_lt.mpr h)) e n
  have hcuts := st.divideMap_cuts e n c
  unfold StrandState.appendCut
  dsimp only
  rw [hcuts]
  refine ⟨?_, rfl⟩
  unfold Redrawn at *
  conv_lhs => rw [hd]

/-- A cut at or below the frontier (R151, R153). -/
theorem Recut.acceptCut {st : StrandState} {c : Nat} (h : c ≤ st.map.frontier) (e : Env) (n : Strand) (source : CutSource) :
    Recut st (st.acceptCut e n source c) := by
  unfold StrandState.acceptCut
  dsimp only
  split
  · exact .appendCut h e n _ _ _
  · split
    · exact ⟨rfl, rfl⟩
    next p _ =>
      have hw := Recut.withdrawNewest st e n p
      have hf : c ≤ (st.withdrawNewest e n p).map.frontier := by rw [hw.redrawn.frontier]; exact h
      have hc : Recut _ ((st.withdrawNewest e n p).appendCut e n c (p.isFinal || source == .final) true (verdictCopy e st)) :=
        .appendCut hf e n _ _ _
      exact (hw.trans hc).trans ⟨rfl, rfl⟩

theorem Recut.finalCut (st : StrandState) (e : Env) (n : Strand) : Recut st (st.finalCut e n) := by
  unfold StrandState.finalCut
  split
  · exact ⟨rfl, rfl⟩
  · exact .acceptCut (Nat.le_refl _) e n .final

/-- A strand without an open segment gets none by a join, and its evaluator takes no part in it. -/
theorem StrandState.joinAt_closed {st : StrandState} (hc : st.map.cur = none) (e : Env) (n : Strand) (k old : Nat) :
    (st.joinAt e n k old).map.cur = none ∧ (st.joinAt e n k old).eval = st.eval := by
  unfold StrandState.joinAt
  split
  · exact ⟨hc, rfl⟩
  · rw [hc]
    exact ⟨hc, rfl⟩
  · exact ⟨hc, rfl⟩

theorem StrandState.withdrawNewest_closed {st : StrandState} (hc : st.map.cur = none) (e : Env) (n : Strand) (p : PendingCut) :
    (st.withdrawNewest e n p).map.cur = none ∧ (st.withdrawNewest e n p).eval = st.eval := by
  unfold StrandState.withdrawNewest
  dsimp only
  split
  · exact StrandState.joinAt_closed hc e n _ _
  · exact ⟨hc, rfl⟩

/-- Nor by a cut at or below the frontier. -/
theorem StrandState.appendCut_closed {st : StrandState} (hc : st.map.cur = none) {c : Nat} (h : c ≤ st.map.frontier) (e : Env)
    (n : Strand) (f j : Bool) (copy : VerdictCopy) :
    (st.appendCut e n c f j copy).map.cur = none ∧ (st.appendCut e n c f j copy).eval = st.eval := by
  have hdivide : (st.divideMap e n c).map.cur = none ∧ (st.divideMap e n c).eval = st.eval := by
    unfold StrandState.divideMap
    rw [if_neg (fun hlt => absurd hlt.2 (Nat.not_lt.mpr h))]
    split
    · exact ⟨hc, rfl⟩
    · rw [hc]
      exact ⟨hc, rfl⟩
  exact hdivide

theorem StrandState.finalCut_closed {st : StrandState} (hc : st.map.cur = none) (e : Env) (n : Strand) :
    (st.finalCut e n).map.cur = none ∧ (st.finalCut e n).eval = st.eval := by
  unfold StrandState.finalCut StrandState.acceptCut
  dsimp only
  split
  · exact ⟨hc, rfl⟩
  · split
    · exact StrandState.appendCut_closed hc (Nat.le_refl _) e n _ _ _
    · split
      · exact ⟨hc, rfl⟩
      next p _ =>
        obtain ⟨hw, heval⟩ := StrandState.withdrawNewest_closed hc e n p
        have hf : st.map.frontier ≤ (st.withdrawNewest e n p).map.frontier :=
          Nat.le_of_eq (Recut.withdrawNewest st e n p).redrawn.frontier.symm
        obtain ⟨hcur, heval'⟩ := StrandState.appendCut_closed hw hf e n (p.isFinal || CutSource.final == .final) true (verdictCopy e st)
        exact ⟨hcur, heval'.trans heval⟩

theorem Cutter.atOrBelowNewest_iff (k : Cutter) (c : Nat) :
    k.atOrBelowNewest c = true ↔ ∃ w, k.newest = some w ∧ c ≤ w := by
  unfold Cutter.atOrBelowNewest
  cases k.newest <;> simp

/-- A newest cut at or beyond the frontier becomes the final one (R161). -/
theorem StrandState.finalCut_of_reached {st : StrandState} (h : ∃ w, st.cuts.newest = some w ∧ st.map.frontier ≤ w) (e : Env)
    (n : Strand) : st.finalCut e n = { st with cuts := { st.cuts with pending := markFinal st.cuts.pending } } :=
  if_pos ((st.cuts.atOrBelowNewest_iff _).mpr h)

/-- Otherwise the final cut is the newest, at the frontier and FINAL (R161). -/
theorem StrandState.finalCut_newest {st : StrandState} (h : ¬ ∃ w, st.cuts.newest = some w ∧ st.map.frontier ≤ w) (e : Env)
    (n : Strand) : ∃ p, (st.finalCut e n).cuts.pending.getLast? = some p ∧ p.coord = st.map.frontier ∧ p.isFinal = true := by
  have hlast : ∀ (u : StrandState) (f j : Bool) (copy : VerdictCopy), f = true →
      ∃ p, (u.appendCut e n st.map.frontier f j copy).cuts.pending.getLast? = some p ∧ p.coord = st.map.frontier ∧
        p.isFinal = true := fun u f j copy hf => by
    obtain ⟨p, hp, hcoord, hfinal, -⟩ := u.appendCut_cuts e n st.map.frontier f j copy
    exact ⟨p, by rw [hp, List.getLast?_concat], hcoord, hfinal.trans hf⟩
  unfold StrandState.finalCut
  rw [if_neg (mt (st.cuts.atOrBelowNewest_iff _).mp h)]
  unfold StrandState.acceptCut
  dsimp only
  split
  · exact hlast _ _ _ _ (by decide)
  next hfull =>
    split
    next hnone =>
      rw [List.getLast?_eq_none_iff.mp hnone] at hfull
      exact absurd (by decide) hfull
    next p _ => exact hlast _ _ _ _ (Bool.or_true _)

/-- With room in the list and the map closed up to the frontier, the final cut changes nothing but the list (R139, R151). -/
theorem StrandState.finalCut_appends {st : StrandState} (h : ¬ ∃ w, st.cuts.newest = some w ∧ st.map.frontier ≤ w)
    (hstop : ∀ g ∈ st.map.closed, g.stop ≤ st.map.frontier) (hc : st.map.cur = none) (hroom : st.cuts.pending.length < 4) (e : Env)
    (n : Strand) : ∃ p, st.finalCut e n = { st with cuts := { st.cuts with pending := st.cuts.pending ++ [p] } } ∧
      p.joined = false := by
  have hclear : ¬ st.map.closed.any (fun g => g.inside st.map.frontier) = true := by
    rw [List.any_eq_true]
    rintro ⟨g, hg, hi⟩
    have := hstop g hg
    simp only [Segment.inside, Bool.and_eq_true, decide_eq_true_eq] at hi
    omega
  have hdivide : st.divideMap e n st.map.frontier = st := by
    unfold StrandState.divideMap
    rw [if_neg (fun hlt => Nat.lt_irrefl _ hlt.2), if_neg hclear, hc]
  have hfinal : st.finalCut e n =
      st.appendCut e n st.map.frontier (CutSource.final == .final) false (verdictCopy e st) := by
    unfold StrandState.finalCut StrandState.acceptCut
    rw [if_neg (mt (st.cuts.atOrBelowNewest_iff _).mp h)]
    exact if_pos hroom
  rw [hfinal, StrandState.appendCut, hdivide]
  exact ⟨_, rfl, rfl⟩

/-! ## The map closes (R45, R103, R143, R146) -/

theorem StrandState.dropCandidate_eq (st : StrandState) : st.dropCandidate = { st with
    eval := { st.eval with candidate := none }
    map := { st.map with cur := st.map.cur.map (fun b =>
      { b with stats := st.eval.candidate.elim b.stats (fun k => b.stats.add k.side) }) } } := by
  unfold StrandState.dropCandidate
  split
  next h =>
    have hcur : st.map.cur.map (fun b => { b with stats := b.stats }) = st.map.cur := Option.map_id'
    rw [h]
    dsimp only [Option.elim_none]
    rw [hcur, ← h]
  next k h => rw [h]; rfl

@[simp] theorem growNewest_length (ps : List PendingCut) : (growNewest ps).length = ps.length := by
  fun_induction growNewest ps with
  | case1 => rfl
  | case2 p => rfl
  | case3 p ps _ ih => exact congrArg (· + 1) ih

theorem growNewest_concat (ps : List PendingCut) (p : PendingCut) :
    growNewest (ps ++ [p]) = ps ++ [{ p with segs := p.segs + 1 }] := by
  induction ps with
  | nil => rfl
  | cons q qs ih =>
    have hne : qs ++ [p] ≠ [] := by simp
    rw [List.cons_append, growNewest.eq_3 q _ hne, ih, List.cons_append]

theorem growNewest_newest (k : Cutter) : ({ k with pending := growNewest k.pending } : Cutter).newest = k.newest := by
  unfold Cutter.newest
  dsimp only
  obtain hnil | ⟨ps, p, hp⟩ := List.eq_nil_or_concat' k.pending
  · rw [hnil]
    rfl
  · rw [hp, growNewest_concat, List.getLast?_concat, List.getLast?_concat]

/-- The open segment of a TRACKING strand closed at the frontier, with the side accumulator folded in (R45, R103, R139, R143). -/
def StrandState.closedAtEnd (st : StrandState) (e : Env) (n : Strand) (b : SegBody) : StrandState := { st with
  track := .off
  eval := { st.eval with candidate := none }
  map := { st.map with
    closed := st.map.closed ++ [{
      body := { b with stats := st.eval.candidate.elim b.stats (fun c => b.stats.add c.side) }
      stop := st.map.frontier }]
    cur := none
    mapMark := none }
  mapMail := st.mapMail ++ st.map.mapMark.toList.map (fun _ =>
    .off (min (st.map.frontier + (e.marker n).getD 0) 4000000000))
  cuts := if (∃ p, st.cuts.pending.getLast? = some p ∧ st.map.frontier ≤ p.coord) ∧
        heldSegs st.cuts.pending = st.map.closed.length then
      { st.cuts with pending := growNewest st.cuts.pending }
    else st.cuts }

theorem StrandState.closesBelowCut_iff (st : StrandState) : st.closesBelowCut = true ↔
    (∃ p, st.cuts.pending.getLast? = some p ∧ st.map.frontier ≤ p.coord) ∧ heldSegs st.cuts.pending = st.map.closed.length := by
  unfold StrandState.closesBelowCut
  simp [Option.any_eq_true]

theorem StrandState.closeMap_of_open {st : StrandState} {b : SegBody} (h : st.map.cur = some b) (e : Env) (n : Strand) :
    { st.dropCandidate.closeMap e n with track := .off } = st.closedAtEnd e n b := by
  rw [StrandState.dropCandidate_eq, h, StrandState.closeMap]
  dsimp only [Option.map_some]
  rw [StrandState.endMark_eq]
  unfold StrandState.closedAtEnd
  simp only [← StrandState.closesBelowCut_iff]
  rfl

theorem StrandState.closeMap_of_closed {st : StrandState} (h : st.map.cur = none) (e : Env) (n : Strand) :
    { st.dropCandidate.closeMap e n with track := .off } =
      { st with track := .off, eval := { st.eval with candidate := none } } := by
  rw [StrandState.dropCandidate_eq, h, StrandState.closeMap]
  dsimp only [Option.map_none]
  rw [← h]

theorem StrandState.closedAtEnd_cuts (st : StrandState) (e : Env) (n : Strand) (b : SegBody) :
    (st.closedAtEnd e n b).cuts.newest = st.cuts.newest ∧
      (st.closedAtEnd e n b).cuts.pending.length = st.cuts.pending.length := by
  unfold StrandState.closedAtEnd
  dsimp only
  split
  · exact ⟨growNewest_newest _, growNewest_length _⟩
  · exact ⟨rfl, rfl⟩

/-! ## The strand after END RUN -/

/-- The strand as it goes OFF (R45, R80, R125). -/
def StrandState.ended (st : StrandState) : StrandState :=
  StrandState.disarmStale { st with track := .off, switch := none, fore := {} }

theorem Recut.ended {a b : StrandState} (h : Recut a b) : Recut a.ended b.ended where
  redrawn := by
    have hr := h.redrawn
    unfold Redrawn at *
    unfold StrandState.ended StrandState.disarmStale
    conv_lhs => rw [hr]
  cuts := h.cuts

/-- Closing the map is a part of END RUN that only redraws. -/
theorem Recut.closeMap (st : StrandState) (e : Env) (n : Strand) :
    Recut { st with track := .off } { st.dropCandidate.closeMap e n with track := .off } := by
  cases h : st.map.cur with
  | none =>
    rw [StrandState.closeMap_of_closed h]
    exact ⟨rfl, rfl⟩
  | some b =>
    rw [StrandState.closeMap_of_open h]
    refine ⟨rfl, ?_⟩
    unfold StrandState.closedAtEnd
    dsimp only
    split <;> rfl

theorem StrandState.endRun_of_tracking {st : StrandState} (h : st.track = .tracking) (e : Env) (n : Strand) :
    st.endRun e n = (StrandState.finalCut { st.dropCandidate.closeMap e n with track := .off } e n).ended := by
  unfold StrandState.endRun
  rw [h]
  rfl

theorem StrandState.endRun_of_tailed {st : StrandState} (h : st.track = .tailed) (e : Env) (n : Strand) :
    st.endRun e n = (st.finalCut e n).ended := by
  unfold StrandState.endRun
  rw [h]
  rfl

theorem StrandState.endRun_of_unplaced {st : StrandState} (h : st.track = .waiting ∨ st.track = .off) (e : Env) (n : Strand) :
    st.endRun e n = st.ended := by
  unfold StrandState.endRun
  obtain h | h := h <;> rw [h] <;> rfl

theorem StrandState.endRun_recut (st : StrandState) (e : Env) (n : Strand) : Recut st.ended (st.endRun e n) := by
  cases h : st.track with
  | tracking =>
    rw [StrandState.endRun_of_tracking h]
    exact ((Recut.closeMap st e n).trans (.finalCut _ e n)).ended
  | tailed =>
    rw [StrandState.endRun_of_tailed h]
    exact (Recut.finalCut st e n).ended
  | waiting =>
    rw [StrandState.endRun_of_unplaced (.inl h)]
    exact ⟨rfl, rfl⟩
  | off =>
    rw [StrandState.endRun_of_unplaced (.inr h)]
    exact ⟨rfl, rfl⟩

/-- The candidate is dropped with the map of a TRACKING strand (R103, R127). -/
theorem StrandState.endRun_tracking {st : StrandState} (h : st.track = .tracking) (e : Env) (n : Strand) :
    (st.endRun e n).map.cur = none ∧ (st.endRun e n).eval = { st.eval with candidate := none } := by
  have hclosed : ({ st.dropCandidate.closeMap e n with track := .off } : StrandState).map.cur = none ∧
      ({ st.dropCandidate.closeMap e n with track := .off } : StrandState).eval = { st.eval with candidate := none } := by
    cases hc : st.map.cur with
    | none =>
      rw [StrandState.closeMap_of_closed hc]
      exact ⟨hc, rfl⟩
    | some b =>
      rw [StrandState.closeMap_of_open hc]
      exact ⟨rfl, rfl⟩
  rw [StrandState.endRun_of_tracking h]
  obtain ⟨hcur, heval⟩ := StrandState.finalCut_closed hclosed.1 e n
  exact ⟨hcur, heval.trans hclosed.2⟩

theorem StrandState.endRun_cur {st : StrandState} (h : st.OpenAgrees) (e : Env) (n : Strand) : (st.endRun e n).map.cur = none := by
  by_cases ht : st.track = .tracking
  · exact (StrandState.endRun_tracking ht e n).1
  · have hc : st.map.cur = none := Option.not_isSome_iff_eq_none.mp (mt h.mp ht)
    cases hk : st.track with
    | tracking => exact absurd hk ht
    | tailed =>
      rw [StrandState.endRun_of_tailed hk]
      exact (StrandState.finalCut_closed hc e n).1
    | waiting =>
      rw [StrandState.endRun_of_unplaced (.inl hk)]
      exact hc
    | off =>
      rw [StrandState.endRun_of_unplaced (.inr hk)]
      exact hc

/-- The map that the final cut of R161 divides: a TAILED strand's own, or a TRACKING one's closed at the frontier. -/
theorem StrandState.endRun_finalCut {st closed : StrandState} {e : Env} {n : Strand} (h : (st.track = .tailed ∧ closed = st) ∨
    (st.track = .tracking ∧ ∃ b, st.map.cur = some b ∧ closed = st.closedAtEnd e n b)) :
    st.endRun e n = (closed.finalCut e n).ended ∧ closed.map.frontier = st.map.frontier ∧ closed.port = st.port ∧
      closed.cuts.newest = st.cuts.newest ∧ closed.cuts.pending.length = st.cuts.pending.length := by
  obtain ⟨hk, rfl⟩ | ⟨hk, b, hb, rfl⟩ := h
  · exact ⟨StrandState.endRun_of_tailed hk e n, rfl, rfl, rfl, rfl⟩
  · obtain ⟨hnewest, hlength⟩ := st.closedAtEnd_cuts e n b
    exact ⟨by rw [StrandState.endRun_of_tracking hk, StrandState.closeMap_of_open hb], rfl, rfl, hnewest, hlength⟩

theorem StrandState.endRun_fore (st : StrandState) (e : Env) (n : Strand) : (st.endRun e n).fore = {} := rfl

/-- END RUN of a run that is taken (R45). -/
theorem endRun_of_open {s : State} (h : s.run.state = .armed ∨ s.run.state = .active) (o : Order) : endRun s o =
    (State.setRun (State.setAside { s.onRun (fun n st => st.endRun s.env n) with run := { s.run with staged := none } }) .finishing,
      .done 0) := by
  unfold endRun
  obtain h | h := h <;> rw [h] <;> rfl

theorem endRun_strand {s : State} (h : s.run.state = .armed ∨ s.run.state = .active) (o : Order) (n : Strand) :
    (endRun s o).1.strand n = if s.inMask n then (s.strand n).endRun s.env n else s.strand n := by
  rw [endRun_of_open h]
  dsimp only
  rw [State.setRun_rest]
  exact State.onRun_strand s n (fun n st => st.endRun s.env n)

/-- What END RUN leaves besides the strands. -/
theorem endRun_rest {s : State} (h : s.run.state = .armed ∨ s.run.state = .active) (o : Order) :
    (endRun s o).1.run = { s.run with state := .finishing, staged := none } ∧ (endRun s o).1.noticed .run = true ∧
      (endRun s o).1.inputs = { s.inputs with seam := s.inputs.seam.setAside, saw := s.inputs.saw.setAside } ∧
      (endRun s o).1.xp.mem = s.xp.mem ∧ (endRun s o).1.xp.cells = s.xp.cells ∧ (endRun s o).1.report = s.report := by
  have hchanges : s.run.state ≠ .finishing := by
    obtain h | h := h <;> rw [h] <;> decide
  rw [endRun_of_open h]
  refine ⟨?_, State.setRun_noticed hchanges, ?_⟩
  · dsimp only
    rw [State.setRun_run]
    rfl
  · dsimp only
    rw [State.setRun_rest]
    exact ⟨rfl, rfl, rfl, rfl⟩

/-- Settles O29: each part of the final cut is a lemma about `StrandState.finalCut`, on the map END RUN has closed. -/
theorem endRunCloses : Obligations.EndRunCloses := by
  unfold Obligations.EndRunCloses
  intro s o ho hopen
  have hstrand := endRun_strand hopen o
  obtain ⟨hrun, hnoticed, hinputs, hrest⟩ := endRun_rest hopen o
  refine ⟨(endRun s o).1, .answered ho rfl (by rw [endRun_of_open hopen]; rfl), hrun, hnoticed, fun n hn => ?_,
    fun n hn => ?_, ?_, hrest⟩
  · rw [hstrand, hn]
    rfl
  · dsimp only
    rw [hstrand, if_pos hn]
    have hr := (s.strand n).endRun_recut s.env n
    refine ⟨hr.redrawn.track, hr.redrawn.switch, StrandState.endRun_fore _ _ n, hr.redrawn.recipe, hr.redrawn.nose,
      hr.redrawn.frontier, congrArg (·.lastCut) hr.cuts, congrArg (·.pieces) hr.cuts, congrArg (·.marker) hr.redrawn,
      hr.redrawn.chan, congrArg (·.stale) hr.redrawn.port, fun ha => StrandState.endRun_cur ha _ n,
      fun hk _ => (StrandState.endRun_tracking hk _ n).2, fun hk => ?_, fun closed hclosed => ?_⟩
    · rw [StrandState.endRun_of_unplaced (.inl hk)]
      exact ⟨rfl, rfl, rfl⟩
    · obtain ⟨hend, hfrontier, hport, hnewest, hlength⟩ := StrandState.endRun_finalCut (e := s.env) (n := n) hclosed
      rw [hend, ← hfrontier, ← hport, ← hnewest, ← hlength]
      split
      next h =>
        rw [StrandState.finalCut_of_reached h]
        rfl
      next h =>
        refine ⟨StrandState.finalCut_newest h _ n, fun hstop hc hroom => ?_⟩
        obtain ⟨p, hp, hj⟩ := StrandState.finalCut_appends h hstop hc hroom s.env n
        exact ⟨p, by rw [hp]; rfl, hj⟩
  · rw [hinputs, Input.setAside_eq, Input.setAside_eq]

end Sys2Proof.Machine
end

section
namespace Sys2Proof.Machine

/-! # Scans taken (R87 to R104, R119, R130)

The layer below the statements about scans: what the forecast's list becomes when a frontier reaches its zones, what step 9 of a scan
leaves of a strand, and what the taking leaves of the state. -/

/-! ## The list as a frontier reaches it (R119, R121) -/

/-- The list as a frontier at x leaves it: every zone and class boundary at or below x has acted. -/
def Forecast.reachedBy (f : Forecast) (x : Nat) : Forecast :=
  { zones := f.zones.filterMap (fun z => z.reached x), classBoundary := f.classBoundary.filter (fun a => x < a) }

/-- The coordinates at which one zone offers boundaries (R119). -/
def Zone.offers (z : Zone) : List Nat := if z.phase = .ahead then [z.start, z.stop] else [z.stop]

theorem Zone.mem_offers {z : Zone} {a : Nat} : a ∈ z.offers ↔ a = z.stop ∨ z.phase = .ahead ∧ a = z.start := by
  unfold Zone.offers
  split
  next h => simp [h, or_comm]
  next h => simp [h]

theorem Forecast.mem_offers {f : Forecast} {a : Nat} :
    a ∈ f.offers ↔ (∃ z ∈ f.zones, a ∈ z.offers) ∨ f.classBoundary = some a := by
  show a ∈ f.zones.flatMap Zone.offers ++ f.classBoundary.toList ↔ _
  rw [List.mem_append, List.mem_flatMap, Option.mem_toList]

theorem Zone.at'_of_not_offered {z : Zone} {b : Nat} (h : b ∉ z.offers) : z.at' b = some z := by
  rw [Zone.mem_offers, not_or, not_and] at h
  unfold Zone.at'
  rw [if_neg (Ne.symm h.1), if_neg (fun k => h.2 k.1 k.2.symm)]

/-- Where the list offers no boundary nothing acts. -/
theorem Forecast.act_of_not_offered {f : Forecast} {b : Nat} (h : b ∉ f.offers) : f.act b = f := by
  rw [Forecast.mem_offers, not_or] at h
  unfold Forecast.act
  rw [if_neg h.2, List.filterMap_congr (g := some) fun z hz => Zone.at'_of_not_offered fun hb => h.1 ⟨z, hz, hb⟩,
    List.filterMap_some]

theorem Zone.reached_of_not_offered {z : Zone} {x : Nat} (h : ∀ a ∈ z.offers, x < a) : z.reached x = some z := by
  unfold Zone.reached
  rw [if_neg (Nat.not_le.mpr (h _ (Zone.mem_offers.mpr (.inl rfl)))),
    if_neg (fun k => absurd (h _ (Zone.mem_offers.mpr (.inr ⟨k.1, rfl⟩))) (Nat.not_lt.mpr k.2))]

/-- A list that offers nothing at or below x is as a frontier at x leaves it. -/
theorem Forecast.reachedBy_of_beyond {f : Forecast} {x : Nat} (h : ∀ a ∈ f.offers, x < a) : f.reachedBy x = f := by
  unfold Forecast.reachedBy
  rw [List.filterMap_congr (g := some) fun z hz =>
      Zone.reached_of_not_offered fun a ha => h a (Forecast.mem_offers.mpr (.inl ⟨z, hz, ha⟩)),
    List.filterMap_some]
  have hclass : f.classBoundary.filter (fun a => x < a) = f.classBoundary := by
    cases hc : f.classBoundary with
    | none => rfl
    | some a => simp [Option.filter, h a (Forecast.mem_offers.mpr (.inr hc))]
  rw [hclass]

theorem Zone.offers_reached {z z' : Zone} {x a : Nat} (h : z.reached x = some z') (ha : a ∈ z'.offers) : x < a := by
  unfold Zone.reached at h
  split at h
  · cases h
  next hstop =>
    rw [Option.some.injEq] at h
    subst h
    rw [Zone.mem_offers] at ha
    split at ha
    next => 
      obtain rfl | ⟨hp, -⟩ := ha
      · exact Nat.not_le.mp hstop
      · cases hp
    next hover =>
      obtain rfl | ⟨hp, rfl⟩ := ha
      · exact Nat.not_le.mp hstop
      · exact Nat.not_le.mp fun hle => hover ⟨hp, hle⟩

/-- What a frontier at x leaves offers nothing at or below x. -/
theorem Forecast.offers_reachedBy {f : Forecast} {x a : Nat} (h : a ∈ (f.reachedBy x).offers) : x < a := by
  rw [Forecast.mem_offers] at h
  rcases h with ⟨z', hz', ha⟩ | hc
  · obtain ⟨z, -, hz⟩ := List.mem_filterMap.mp hz'
    exact Zone.offers_reached hz ha
  · exact of_decide_eq_true (Option.filter_eq_some_iff.mp hc).2

/-- So a boundary at or below x changes nothing there. -/
theorem Forecast.act_reachedBy {f : Forecast} {x b : Nat} (h : b ≤ x) : (f.reachedBy x).act b = f.reachedBy x :=
  Forecast.act_of_not_offered fun hb => Nat.not_lt.mpr h (Forecast.offers_reachedBy hb)

theorem Zone.reached_at' (z : Zone) {x b : Nat} (h : b ≤ x) : (z.at' b).bind (fun z => z.reached x) = z.reached x := by
  unfold Zone.at'
  by_cases hstop : z.stop = b
  · rw [if_pos hstop, Zone.reached, if_pos (by omega)]
    rfl
  · rw [if_neg hstop, Option.bind_some]
    by_cases hover : z.phase = .ahead ∧ z.start = b
    · rw [if_pos hover]
      have hx : z.phase = .ahead ∧ z.start ≤ x := ⟨hover.1, by omega⟩
      simp [Zone.reached, hx]
    · rw [if_neg hover]

/-- A boundary at or below x is one of those that a frontier at x reaches. -/
theorem Forecast.reachedBy_act (f : Forecast) {x b : Nat} (h : b ≤ x) : (f.act b).reachedBy x = f.reachedBy x := by
  unfold Forecast.reachedBy Forecast.act
  rw [List.filterMap_filterMap, List.filterMap_congr (fun z _ => z.reached_at' h)]
  congr 1
  split
  next hc => simp [hc, Option.filter, Nat.not_lt.mpr h]
  · rfl

theorem Zone.offers_at' {z z' : Zone} {a b : Nat} (h : z.at' b = some z') (ha : a ∈ z'.offers) : a ∈ z.offers ∧ a ≠ b := by
  unfold Zone.at' at h
  split at h
  · cases h
  next hstop =>
    rw [Option.some.injEq] at h
    subst h
    rw [Zone.mem_offers] at ha ⊢
    split at ha
    next =>
      obtain rfl | ⟨hp, -⟩ := ha
      · exact ⟨.inl rfl, hstop⟩
      · cases hp
    next hover =>
      obtain rfl | ⟨hp, rfl⟩ := ha
      · exact ⟨.inl rfl, hstop⟩
      · exact ⟨.inr ⟨hp, rfl⟩, fun h => hover ⟨hp, h⟩⟩

/-- A boundary takes the coordinate from the list, and puts none there. -/
theorem Forecast.offers_act {f : Forecast} {a b : Nat} (h : a ∈ (f.act b).offers) : a ∈ f.offers ∧ a ≠ b := by
  rw [Forecast.mem_offers] at h ⊢
  rcases h with ⟨z', hz', ha⟩ | hc
  · obtain ⟨z, hmem, hz⟩ := List.mem_filterMap.mp hz'
    obtain ⟨hoffer, hne⟩ := Zone.offers_at' hz ha
    exact ⟨.inl ⟨z, hmem, hoffer⟩, hne⟩
  · unfold Forecast.act at hc
    dsimp only at hc
    split at hc
    · cases hc
    next hne => exact ⟨.inr hc, fun h => hne (h ▸ hc)⟩

/-- The boundaries of a list of coordinates, those it offers at or below x among them, leave it as a frontier at x does. -/
theorem Forecast.foldl_act {x : Nat} {l : List Nat} :
    ∀ {f : Forecast}, (∀ b ∈ l, b ≤ x) → (∀ a ∈ f.offers, a ≤ x → a ∈ l) → l.foldl Forecast.act f = f.reachedBy x := by
  induction l with
  | nil =>
    intro f _ hall
    exact (Forecast.reachedBy_of_beyond fun a ha => Nat.not_le.mp fun h => List.not_mem_nil (hall a ha h)).symm
  | cons b l ih =>
    intro f hl hall
    rw [List.foldl_cons, ih (fun c hc => hl c (.tail _ hc)), Forecast.reachedBy_act f (hl b (.head _))]
    intro a ha hx
    obtain ⟨hoffer, hne⟩ := Forecast.offers_act ha
    exact (List.mem_cons.mp (hall a hoffer hx)).resolve_left hne

/-! ## Temperature (R92, R93) -/

/-- The tracker takes no part in the temperature of a scan. -/
theorem Evaluator.resolve_tracker (v : Evaluator) (a : DimClass) (k : Option Candidate) (p : Option StrandStation) (d r : Nat) :
    Evaluator.resolve { v with confirmed := a, candidate := k } p d r =
      { v.resolve p d r with eval := { (v.resolve p d r).eval with confirmed := a, candidate := k } } := by
  unfold Evaluator.resolve
  dsimp only
  split
  · rfl
  · cases v.lastValid with
    | none => rfl
    | some last =>
      dsimp only
      split <;> rfl

theorem Evaluator.resolve_confirmed (v : Evaluator) (p : Option StrandStation) (d r : Nat) :
    (v.resolve p d r).eval.confirmed = v.confirmed ∧ (v.resolve p d r).eval.candidate = v.candidate := by
  have h := v.resolve_tracker v.confirmed v.candidate p d r
  exact ⟨congrArg (·.eval.confirmed) h, congrArg (·.eval.candidate) h⟩

/-- The temperature of a scan on a strand (R92, R93). -/
def StrandState.resolution (st : StrandState) (e : Env) (n : Strand) (sc : Scan) : Resolved :=
  st.eval.resolve (e.strand n) (e.recipe st).defaultTemp sc.temp

/-- THERMAL_DEFAULT where the scan opens an episode (R93). -/
def StrandState.thermalDefault (st : StrandState) (e : Env) (n : Strand) (x : Nat) (sc : Scan) : List Incident :=
  if (st.resolution e n sc).assumed = true ∧ st.eval.episode = false then
    [{ kind := .thermalDefault, strand := some n, code := 0, coordinate := x, detail := sc.temp, time := e.time }]
  else []

/-- The strand with the temperature of a scan resolved. -/
def StrandState.tempered (st : StrandState) (e : Env) (n : Strand) (x : Nat) (sc : Scan) : StrandState :=
  { st with eval := (st.resolution e n sc).eval, raised := st.raised ++ st.thermalDefault e n x sc }

/-- What a scan contributes to the statistics (R104). -/
def StrandState.contribution (st : StrandState) (e : Env) (n : Strand) (sc : Scan) : Contribution :=
  { temp := (st.resolution e n sc).temp, thermal := (st.resolution e n sc).assumed,
    feats := gradeScan sc (e.recipe st) (st.resolution e n sc).temp }

/-- Steps 3 to 9 of a scan: the temperature, then the tracker (R92 to R99). -/
theorem StrandState.measure_eq (st : StrandState) (e : Env) (n : Strand) (x : Nat) (sc : Scan) (made : List Nat) :
    st.measure e n x sc made =
      (st.tempered e n x sc).track9 e n x (st.stateOf e n sc) (st.contribution e n sc) made := by
  have hraise : (if (st.resolution e n sc).assumed && !st.eval.episode then
      StrandState.raise { st with eval := (st.resolution e n sc).eval } e n .thermalDefault 0 x sc.temp
      else { st with eval := (st.resolution e n sc).eval }) = st.tempered e n x sc := by
    unfold StrandState.tempered StrandState.thermalDefault
    cases (st.resolution e n sc).assumed <;> cases st.eval.episode <;> simp [StrandState.raise]
  unfold StrandState.measure
  dsimp only
  exact congrArg (fun u : StrandState => u.track9 e n x (st.stateOf e n sc) (st.contribution e n sc) made) hraise

/-! ## Step 9 (R99 to R101) -/

theorem Drawn.onOpen (st : StrandState) {f : SegBody → SegBody} (hf : ∀ b, (f b).start = b.start) : Drawn st (st.onOpen f) :=
  .of_open rfl rfl (by show (st.map.cur.map f).map _ = _; rw [Option.map_map]; exact congrArg (st.map.cur.map ·) (funext hf)) rfl

theorem Drawn.foldOpen (st : StrandState) (c : Contribution) : Drawn st (st.foldOpen c) := .onOpen st fun _ => rfl

theorem Drawn.dropCandidate (st : StrandState) : Drawn st st.dropCandidate := by
  rw [StrandState.dropCandidate_eq]
  exact .of_open rfl rfl (by show (st.map.cur.map _).map _ = _; rw [Option.map_map]; rfl) rfl

theorem Drawn.confirm (st : StrandState) (e : Env) (n : Strand) (made : List Nat) (c : Candidate) :
    Drawn st (st.confirm e n made c) := by
  have hconfirmed : Drawn st { st with eval := { st.eval with confirmed := c.state, candidate := none } } :=
    .of_open rfl rfl rfl rfl
  unfold StrandState.confirm
  dsimp only
  split
  · exact hconfirmed.trans (.onOpen _ fun _ => rfl)
  · exact hconfirmed.trans (.boundary _ e n _ _ _ _)

theorem Drawn.holdCandidate (st : StrandState) (e : Env) (n : Strand) (made : List Nat) (c : Candidate) :
    Drawn st (st.holdCandidate e n made c) := by
  unfold StrandState.holdCandidate
  split
  · exact .confirm st e n made c
  · exact .of_open rfl rfl rfl rfl

/-- What step 9 can do, said once: fold the scan into the open segment, or go on with a candidate (R99). -/
theorem StrandState.track9_cases (st : StrandState) (e : Env) (n : Strand) (x : Nat) (d : DimClass) (c : Contribution)
    (made : List Nat) :
    (d = st.eval.confirmed ∧ st.track9 e n x d c made = st.dropCandidate.foldOpen c) ∨
      (d ≠ st.eval.confirmed ∧ ∃ (u : StrandState) (k : Candidate), (u = st ∨ u = st.dropCandidate) ∧ k.state = d ∧
        (k.start = x ∨ ∃ k', st.eval.candidate = some k' ∧ k.start = k'.start) ∧
        st.track9 e n x d c made = u.holdCandidate e n made k) := by
  unfold StrandState.track9
  split
  next h => exact .inl ⟨h, rfl⟩
  next h =>
    refine .inr ⟨h, ?_⟩
    split
    next k hk =>
      split
      next hs => exact ⟨_, { k with count := k.count + 1, side := k.side.fold c }, .inl rfl, hs.symm, .inr ⟨k, hk, rfl⟩, rfl⟩
      next => exact ⟨_, _, .inr rfl, rfl, .inl rfl, rfl⟩
    next => exact ⟨_, _, .inl rfl, rfl, .inl rfl, rfl⟩

theorem StrandState.dropCandidate_of_none {st : StrandState} (h : st.eval.candidate = none) : st.dropCandidate = st := by
  unfold StrandState.dropCandidate
  rw [h]

/-- Without a candidate a scan begins one at x, or is folded in (R99). -/
theorem StrandState.track9_of_none {st : StrandState} (h : st.eval.candidate = none) (e : Env) (n : Strand) (x : Nat) (d : DimClass)
    (c : Contribution) (made : List Nat) : st.track9 e n x d c made = st.foldOpen c ∨
      ∃ k : Candidate, k.start = x ∧ st.track9 e n x d c made = st.holdCandidate e n made k := by
  have hdrop := StrandState.dropCandidate_of_none h
  obtain ⟨-, heq⟩ | ⟨-, u, k, hu, -, hstart | ⟨k', hk', -⟩, heq⟩ := st.track9_cases e n x d c made
  · exact .inl (by rw [heq, hdrop])
  · refine .inr ⟨k, hstart, ?_⟩
    obtain rfl | rfl := hu
    · exact heq
    · rw [heq, hdrop]
  · rw [h] at hk'
    cases hk'

theorem Drawn.track9 (st : StrandState) (e : Env) (n : Strand) (x : Nat) (d : DimClass) (c : Contribution) (made : List Nat) :
    Drawn st (st.track9 e n x d c made) := by
  obtain ⟨-, h⟩ | ⟨-, u, k, hu, -, -, h⟩ := st.track9_cases e n x d c made
  · rw [h]
    exact (Drawn.dropCandidate st).trans (.foldOpen _ c)
  · rw [h]
    obtain rfl | rfl := hu
    · exact .holdCandidate _ e n made k
    · exact (Drawn.dropCandidate st).trans (.holdCandidate _ e n made k)

/-- The open segment and the candidate start at or below x. -/
structure StrandState.StartsBy (st : StrandState) (x : Nat) : Prop where
  cur : ∀ b, st.map.cur = some b → b.start ≤ x
  candidate : ∀ c, st.eval.candidate = some c → c.start ≤ x

theorem StrandState.dropCandidate_fore (st : StrandState) : st.dropCandidate.fore = st.fore := by
  rw [StrandState.dropCandidate_eq]

theorem StrandState.dropCandidate_starts (st : StrandState) :
    st.dropCandidate.map.cur.map (·.start) = st.map.cur.map (·.start) := by
  rw [StrandState.dropCandidate_eq]
  show (st.map.cur.map _).map _ = _
  rw [Option.map_map]
  rfl

theorem StrandState.confirmationAt_le {st : StrandState} {x y : Nat} (hc : ∀ b, st.map.cur = some b → b.start ≤ x) (hy : y ≤ x) :
    st.confirmationAt y ≤ x := by
  unfold StrandState.confirmationAt
  cases h : st.map.cur with
  | none => exact Nat.max_le.mpr ⟨hy, Nat.zero_le _⟩
  | some b => exact Nat.max_le.mpr ⟨hy, hc b h⟩

/-- Step 9 makes a boundary at or below x, or none. -/
theorem StrandState.track9_fore {st : StrandState} {x : Nat} (h : st.StartsBy x) (e : Env) (n : Strand) (d : DimClass)
    (c : Contribution) (made : List Nat) :
    (st.track9 e n x d c made).fore = st.fore ∨ ∃ b ≤ x, (st.track9 e n x d c made).fore = st.fore.act b := by
  have hold : ∀ u : StrandState, u.fore = st.fore → (∀ b, u.map.cur = some b → b.start ≤ x) → ∀ k : Candidate, k.start ≤ x →
      (u.holdCandidate e n made k).fore = st.fore ∨ ∃ b ≤ x, (u.holdCandidate e n made k).fore = st.fore.act b := by
    intro u hu hc k hk
    unfold StrandState.holdCandidate StrandState.confirm
    dsimp only
    split
    · split
      · exact .inl hu
      · exact .inr ⟨_, StrandState.confirmationAt_le hc hk, by rw [StrandState.boundary_fore, ← hu]⟩
    · exact .inl hu
  obtain ⟨-, heq⟩ | ⟨-, u, k, hu, -, hk, heq⟩ := st.track9_cases e n x d c made
  · rw [heq]
    exact .inl st.dropCandidate_fore
  · have hkx : k.start ≤ x := by
      obtain hk | ⟨k', hk', hk⟩ := hk
      · exact hk.le
      · exact hk.le.trans (h.candidate k' hk')
    rw [heq]
    obtain rfl | rfl := hu
    · exact hold _ rfl h.cur k hkx
    · refine hold _ st.dropCandidate_fore (fun b hb => ?_) k hkx
      have hstarts := st.dropCandidate_starts
      rw [hb] at hstarts
      obtain ⟨b', hb', hstart⟩ := Option.map_eq_some_iff.mp hstarts.symm
      exact hstart.ge.trans (h.cur b' hb')

/-! ## The taking of a scan (R44, R87, R88) -/

/-- What the taking of a scan leaves of the state: the strand it was taken on, and the switch-over where it passed the last switch. -/
theorem exec_scanTaking {s : State} {n : Strand} {sc : Scan} (hs : s.service = some { port := n, entry := .scan sc, armed := false }) :
    ∃ t : State, exec .scanTaking s = .next t ∧ t.service = none ∧ (∀ m, m ≠ n → t.strand m = s.strand m) ∧
      t.strand n = (s.strand n).takeScan s.env n sc ∧
      (∀ w, (s.strand n).switch = some w → (t.strand n).switch = none → (∀ m, m ≠ n → (s.strand m).switch = none) →
        SwitchesOver s t w.entry t.strand) ∧
      ((t.strand n).switch = (s.strand n).switch ∨ (t.strand n).switch.isSome = true ∨
        (∃ m, m ≠ n ∧ (s.strand m).switch.isSome = true) → t.run = s.run) := by
  have htake := (State.takeScan_of_service hs).trans (if_neg Bool.false_ne_true)
  have hstrand : ∀ m, s.takeScan.settle.strand m = if m = n then (s.strand n).takeScan s.env n sc else s.strand m := fun m => by
    rw [State.strand, State.settle_strands, htake]
    exact State.strandEvent_strand _ n m _
  have hself : s.takeScan.settle.strand n = (s.strand n).takeScan s.env n sc := (hstrand n).trans (if_pos rfl)
  refine ⟨s.takeScan.settle, rfl, ?_, fun m hm => (hstrand m).trans (if_neg hm), hself, fun w hw hnone hm => ?_, fun h => ?_⟩
  · rw [State.settle_service, htake, State.strandEvent_rest]
  · rw [hself] at hnone
    have hover : SwitchesOver { s with service := none } s.takeScan w.entry s.takeScan.strand := by
      rw [htake]
      exact State.strandEvent_switches (s := { s with service := none }) hw hnone hm
    have hsettled : s.takeScan.settle.strand = s.takeScan.strand := congrArg (fun z m => Four.get z m) (State.settle_strands _)
    rw [hsettled]
    unfold SwitchesOver at hover ⊢
    rw [State.settle_run]
    exact hover
  · rw [State.settle_run, htake]
    refine State.strandEvent_run (s := { s with service := none }) ?_
    have hat : ∀ m, (State.strandEvent { s with service := none } n (fun st => st.takeScan s.env n sc)).strand m =
        s.takeScan.settle.strand m := fun m => by
      rw [State.strand, State.strand, State.settle_strands, htake]
    obtain h | h | ⟨m, hm, h⟩ := h
    · exact .inl ((congrArg (·.switch) hself).symm.trans h)
    · exact .inr ⟨n, by rw [hat]; exact h⟩
    · exact .inr ⟨m, by rw [hat, hstrand, if_neg hm]; exact h⟩

end Sys2Proof.Machine
end

section
namespace Sys2Proof.Machine

/-! # A scan on a WAITING strand (R37, R89, R121) -/

/-- The recipe entry in force at x: that of a switch x reaches, or the strand's own (R43). -/
def StrandState.entryAt (st : StrandState) (x : Nat) : Fin 8 :=
  match st.switch with
  | some w => if w.coord ≤ x then w.entry else st.recipe.getD 0
  | none => st.recipe.getD 0

theorem StrandState.passSwitch_index (st : StrandState) (x : Nat) : (st.passSwitch x).index = st.entryAt x := by
  rw [StrandState.passSwitch_eq]
  unfold StrandState.index StrandState.entryAt
  cases st.switch with
  | none => rfl
  | some w =>
    dsimp only [Option.elim_some]
    split <;> rfl

theorem StrandState.waitAt_eq (st : StrandState) (x : Nat) : st.waitAt x = { st with
    map := { st.map with frontier := x }
    fore := st.fore.advance x
    recipe := st.switch.elim st.recipe (fun w => if w.coord ≤ x then some w.entry else st.recipe)
    switch := st.switch.filter (fun w => x < w.coord) } := by
  unfold StrandState.waitAt
  rw [StrandState.passSwitch_eq]

theorem StrandState.waitAt_index (st : StrandState) (x : Nat) : (st.waitAt x).index = st.entryAt x :=
  StrandState.passSwitch_index { st with map := { st.map with frontier := x }, fore := st.fore.advance x } x

/-- The map as the nose opens it at x: one segment, with what is in force there, that no boundary has marked (R37, R126, R128). -/
structure StrandState.NoseAt (st : StrandState) (e : Env) (x : Nat) : Prop where
  closed : st.map.closed = []
  opened : ∃ b, st.map.cur = some b ∧ b.start = x ∧ b.index = st.index ∧ b.edition = (e.recipe st).edition ∧
    b.overlay = st.fore.overlay ∧ b.dim = st.eval.confirmed ∧ b.flags = {}

theorem StrandState.makeNose_eq (st : StrandState) (e : Env) (n : Strand) (x : Nat) : st.makeNose e n x = { st with
    eval := { st.eval with confirmed := .sound, candidate := none }
    track := .tracking
    tailCount := 0
    cuts := { st.cuts with lastCut := some x }
    map := { st.map with
      nose := some x
      cur := some { start := x, dim := .sound, overlay := st.fore.overlay, index := st.index, edition := (e.recipe st).edition,
                    stats := {} }
      mapMark := (st.makeNose e n x).map.mapMark }
    mapMail := (st.makeNose e n x).mapMail
    port := { st.port with stale := .running (e.clock + e.staleTime n) } } := by
  unfold StrandState.makeNose StrandState.startStale
  dsimp only
  rw [StrandState.judgeMark_rest]
  rfl

theorem StrandState.NoseAt.onOpen {st : StrandState} {e : Env} {x : Nat} (h : st.NoseAt e x) (f : SegBody → Stats) :
    (st.onOpen (fun b => { b with stats := f b })).NoseAt e x := by
  obtain ⟨hclosed, b, hb, hopened⟩ := h
  exact ⟨hclosed, { b with stats := f b }, by rw [StrandState.onOpen, hb]; rfl, hopened⟩

/-- A boundary at its start, with the confirmed state, leaves the nose's segment one (R129). -/
theorem StrandState.NoseAt.boundary {st : StrandState} {b : SegBody} {x y : Nat} (hclosed : st.map.closed = [])
    (hb : st.map.cur = some b) (hstart : b.start = x) (hflags : b.flags = {}) (hy : y ≤ x) (e : Env) (n : Strand) (stats : Stats)
    (others : List BoundarySource) : (st.boundary e n y st.eval.confirmed stats others).NoseAt e x := by
  rw [StrandState.boundary_recolours hb e n (hy.trans hstart.ge)]
  refine ⟨hclosed, _, rfl, hstart, rfl, rfl, ?_, ?_, hflags⟩
  · rw [StrandState.recoloured, hflags]
    rfl
  · rw [StrandState.recoloured, hflags]
    rfl

/-- The first scan, at the nose itself, leaves it so: where the tracker confirms, it does so at the nose (R99, R100, R129). -/
theorem StrandState.NoseAt.track9 {st : StrandState} {e : Env} {x : Nat} (h : st.NoseAt e x) (hk : st.eval.candidate = none)
    (n : Strand) (d : DimClass) (c : Contribution) : (st.track9 e n x d c).NoseAt e x := by
  obtain heq | ⟨k, hx, heq⟩ := StrandState.track9_of_none hk e n x d c []
  · rw [heq]
    exact h.onOpen _
  · rw [heq]
    obtain ⟨hclosed, b, hb, hbstart, -, -, -, -, hflags⟩ := id h
    unfold StrandState.holdCandidate StrandState.confirm
    dsimp only
    split
    · rw [if_neg (by simp)]
      have hy : st.confirmationAt k.start ≤ x := StrandState.confirmationAt_le (fun b' hb' => by
        rw [hb] at hb'
        cases hb'
        exact hbstart.le) hx.le
      exact StrandState.NoseAt.boundary (st := { st with eval := { st.eval with confirmed := k.state, candidate := none } })
        hclosed hb hbstart hflags hy e n k.side _
    · exact ⟨h.closed, h.opened⟩

/-- The strand as the nose leaves it, before the first scan is measured. -/
def StrandState.nosed (st : StrandState) (e : Env) (n : Strand) (x : Nat) : StrandState :=
  { (st.waitAt x).makeNose e n x with lastMaterial := x }

theorem StrandState.scanWaiting_of_valid {st : StrandState} {e : Env} {n : Strand} {x : Nat} {sc : Scan} (hm : sc.material = true)
    (hv : (validValues sc (e.entry (st.entryAt x))).any Option.isSome = true) :
    st.scanWaiting e n x sc = ((st.nosed e n x).tempered e n x sc).track9 e n x ((st.nosed e n x).stateOf e n sc)
      ((st.nosed e n x).contribution e n sc) := by
  have hif : (sc.material && (validValues sc (e.recipe (st.waitAt x))).any Option.isSome) = true := by
    rw [hm, Env.recipe, st.waitAt_index, hv]
    rfl
  unfold StrandState.scanWaiting
  dsimp only
  rw [if_pos hif]
  exact (st.nosed e n x).measure_eq e n x sc []

theorem StrandState.scanWaiting_of_invalid {st : StrandState} {e : Env} {n : Strand} {x : Nat} {sc : Scan}
    (h : sc.material = false ∨ (validValues sc (e.entry (st.entryAt x))).any Option.isSome = false) :
    st.scanWaiting e n x sc = st.waitAt x := by
  have hif : (sc.material && (validValues sc (e.recipe (st.waitAt x))).any Option.isSome) = false := by
    rw [Env.recipe, st.waitAt_index, Bool.and_eq_false_iff]
    exact h
  unfold StrandState.scanWaiting
  dsimp only
  rw [hif]
  rfl

theorem StrandState.nosed_eq (st : StrandState) (e : Env) (n : Strand) (x : Nat) : st.nosed e n x = { st.waitAt x with
    eval := { st.eval with confirmed := .sound, candidate := none }
    track := .tracking
    tailCount := 0
    lastMaterial := x
    cuts := { st.cuts with lastCut := some x }
    map := { st.map with
      frontier := x
      nose := some x
      cur := some { start := x, dim := .sound, overlay := (st.fore.advance x).overlay, index := st.entryAt x,
                    edition := (e.entry (st.entryAt x)).edition, stats := {} }
      mapMark := (st.nosed e n x).map.mapMark }
    mapMail := (st.nosed e n x).mapMail
    port := { st.port with stale := .running (e.clock + e.staleTime n) } } := by
  unfold StrandState.nosed
  conv_lhs => rw [StrandState.makeNose_eq, Env.recipe, st.waitAt_index]
  rw [st.waitAt_eq x]

/-- A boundary at or below the frontier of a WAITING strand changes no zone (R121). -/
theorem Forecast.act_advance (f : Forecast) {x b : Nat} (h : b ≤ x) : ((f.advance x).act b).zones = (f.advance x).zones :=
  congrArg (·.zones) (f.act_reachedBy h : (f.reachedBy x).act b = f.reachedBy x)

/-- The segment the nose opens (R37, R126). -/
def StrandState.noseSegment (st : StrandState) (e : Env) (x : Nat) : SegBody :=
  { start := x, dim := .sound, overlay := (st.fore.advance x).overlay, index := st.entryAt x
    edition := (e.entry (st.entryAt x)).edition, stats := {} }

theorem StrandState.nosed_tempered (st : StrandState) (e : Env) (n : Strand) (x : Nat) (sc : Scan) :
    ((st.nosed e n x).tempered e n x sc).map.cur = some (st.noseSegment e x) ∧
      ((st.nosed e n x).tempered e n x sc).eval.confirmed = .sound ∧
      ((st.nosed e n x).tempered e n x sc).eval.candidate = none := by
  have hresolve := (st.nosed e n x).eval.resolve_confirmed (e.strand n) (e.recipe (st.nosed e n x)).defaultTemp sc.temp
  refine ⟨?_, hresolve.1.trans ?_, hresolve.2.trans ?_⟩
  · show (st.nosed e n x).map.cur = _
    rw [st.nosed_eq e n x]
    rfl
  · rw [st.nosed_eq e n x]
  · rw [st.nosed_eq e n x]

/-- The map of the nose, its first scan measured. -/
theorem StrandState.nosed_noseAt {st : StrandState} (hclosed : st.map.closed = []) (e : Env) (n : Strand) (x : Nat) (sc : Scan) :
    (((st.nosed e n x).tempered e n x sc).track9 e n x ((st.nosed e n x).stateOf e n sc)
      ((st.nosed e n x).contribution e n sc)).NoseAt e x := by
  obtain ⟨hcur, hconfirmed, hcandidate⟩ := st.nosed_tempered e n x sc
  have hindex : (st.nosed e n x).index = st.entryAt x := by
    rw [st.nosed_eq e n x]
    exact st.waitAt_index x
  refine StrandState.NoseAt.track9 ⟨?_, _, hcur, rfl, hindex.symm, ?_, ?_, hconfirmed.symm, rfl⟩ hcandidate n _ _
  · show (st.nosed e n x).map.closed = []
    rw [st.nosed_eq e n x]
    exact hclosed
  · show _ = (e.entry (st.nosed e n x).index).edition
    rw [hindex]
    rfl
  · show _ = (st.nosed e n x).fore.overlay
    rw [st.nosed_eq e n x, st.waitAt_eq x]
    rfl

/-- What every scan on a WAITING strand makes of its zones, its switch and its recipe (R43, R89, R121). -/
theorem StrandState.scanWaiting_reaches (st : StrandState) (e : Env) (n : Strand) (x : Nat) (sc : Scan) :
    (st.scanWaiting e n x sc).map.frontier = x ∧ (st.scanWaiting e n x sc).chan = st.chan ∧
      (st.scanWaiting e n x sc).fore.zones = (st.fore.advance x).zones ∧
      (st.fore.classBoundary = none → (st.scanWaiting e n x sc).fore.classBoundary = none) ∧
      (st.scanWaiting e n x sc).switch = (st.waitAt x).switch ∧ (st.scanWaiting e n x sc).recipe = (st.waitAt x).recipe := by
  by_cases h : sc.material = true ∧ (validValues sc (e.entry (st.entryAt x))).any Option.isSome = true
  · rw [StrandState.scanWaiting_of_valid h.1 h.2]
    have hd := Drawn.track9 ((st.nosed e n x).tempered e n x sc) e n x ((st.nosed e n x).stateOf e n sc)
      ((st.nosed e n x).contribution e n sc) []
    obtain ⟨hcur, -, hcandidate⟩ := st.nosed_tempered e n x sc
    have hstarts : ((st.nosed e n x).tempered e n x sc).StartsBy x :=
      ⟨fun b hb => by cases hcur.symm.trans hb; exact Nat.le_refl x, fun c hc => by cases hcandidate.symm.trans hc⟩
    have hfore := StrandState.track9_fore hstarts e n ((st.nosed e n x).stateOf e n sc) ((st.nosed e n x).contribution e n sc) []
    have hnosed : (st.nosed e n x).fore = st.fore.advance x := by rw [st.nosed_eq e n x, st.waitAt_eq x]
    rw [show ((st.nosed e n x).tempered e n x sc).fore = st.fore.advance x from hnosed] at hfore
    refine ⟨hd.redrawn.frontier.trans ?_, hd.redrawn.chan.trans ?_, ?_, fun hc => ?_, hd.redrawn.switch.trans ?_,
      hd.redrawn.recipe.trans ?_⟩
    · show (st.nosed e n x).map.frontier = x
      rw [st.nosed_eq e n x]
    · show (st.nosed e n x).chan = st.chan
      rw [st.nosed_eq e n x, st.waitAt_eq x]
    · obtain hf | ⟨b, hb, hf⟩ := hfore
      · rw [hf]
      · rw [hf, Forecast.act_advance _ hb]
    · obtain hf | ⟨b, hb, hf⟩ := hfore
      · rw [hf]
        exact hc
      · rw [hf, Forecast.act, Forecast.advance, hc]
        rfl
    · show (st.nosed e n x).switch = (st.waitAt x).switch
      rw [st.nosed_eq e n x]
    · show (st.nosed e n x).recipe = (st.waitAt x).recipe
      rw [st.nosed_eq e n x]
  · rw [StrandState.scanWaiting_of_invalid, st.waitAt_eq x]
    · exact ⟨rfl, rfl, rfl, id, rfl, rfl⟩
    · rw [not_and_or, Bool.not_eq_true, Bool.not_eq_true] at h
      exact h

/-- Settles O48: the taking is `StrandState.scanWaiting`, and a nose it makes is `StrandState.NoseAt`. -/
theorem noseJudged : Obligations.NoseJudged := by
  unfold Obligations.NoseJudged
  intro s n sc hs st x k zones ht hhw hfrontier
  have hk : k = st.entryAt x := rfl
  have htake : st.takeScan s.env n sc = st.scanWaiting s.env n x sc := by
    have hre : ¬ st.isRescan sc = true := by
      rw [StrandState.isRescan_iff]
      omega
    simp [StrandState.takeScan, ht, hre]
    rfl
  obtain ⟨t, hexec, hservice, hothers, hstrand, hover, hrun⟩ := exec_scanTaking hs
  rw [htake] at hstrand
  obtain ⟨hfr, hchan, hzones, hclass, hswitch, hrecipe⟩ := st.scanWaiting_reaches s.env n x sc
  rw [st.waitAt_eq x] at hswitch hrecipe
  refine ⟨t, hexec, hservice, hothers, by rw [hstrand, hfr], by rw [hstrand, hchan], by rw [hstrand, hzones]; rfl,
    fun hc => by rw [hstrand, hclass hc], fun hm hv hclosed => ?_, fun h => ?_, by rw [hstrand, hswitch], by rw [hstrand, hrecipe],
    fun w hw hx hm => ?_, fun h => ?_⟩
  · rw [hk] at hv ⊢
    have hnose := StrandState.nosed_noseAt hclosed s.env n x sc
    have hd := Drawn.track9 ((st.nosed s.env n x).tempered s.env n x sc) s.env n x ((st.nosed s.env n x).stateOf s.env n sc)
      ((st.nosed s.env n x).contribution s.env n sc) []
    rw [← StrandState.scanWaiting_of_valid hm hv, ← hstrand] at hnose hd
    obtain ⟨hclosed', b, hb, hstart, hindex, hedition, hopened⟩ := hnose
    have heq := st.nosed_eq s.env n x
    have hentry : (t.strand n).index = st.entryAt x := by
      rw [hstrand, StrandState.index, hrecipe, ← st.waitAt_index x, st.waitAt_eq x]
      rfl
    refine ⟨hd.redrawn.track.trans (congrArg (·.track) heq), hd.redrawn.nose.trans (congrArg (·.map.nose) heq), hclosed',
      ⟨b, hb, hstart, hindex.trans hentry, ?_, hopened⟩, hd.redrawn.cuts.trans (congrArg (·.cuts) heq),
      hd.redrawn.tailCount.trans (congrArg (·.tailCount) heq), hd.redrawn.lastMaterial.trans (congrArg (·.lastMaterial) heq),
      (congrArg (·.stale) hd.redrawn.port).trans (congrArg (·.port.stale) heq)⟩
    rw [hedition, Env.recipe, hentry]
  · rw [hk] at h
    rw [hstrand, StrandState.scanWaiting_of_invalid h, st.waitAt_eq x]
    rfl
  · refine hover w hw ?_ hm
    rw [hstrand, hswitch, hw, Option.filter_some, if_neg (by simpa using hx)]
  · rcases h with h | h
    · refine hrun (.inl ?_)
      rw [hstrand, hswitch]
      cases hw : st.switch with
      | none => rfl
      | some w => rw [Option.filter_some, if_pos (decide_eq_true (h w hw))]
    · exact hrun (.inr (.inr h))

end Sys2Proof.Machine
end

section
namespace Sys2Proof.Machine

/-! # The frontier of a TRACKING strand (R119, R128, R130) -/

/-! ## The coordinates offered -/

theorem insertCoord_sorted {l : List Nat} (h : l.Pairwise (· < ·)) (x : Nat) : (insertCoord x l).Pairwise (· < ·) := by
  induction l with
  | nil => exact List.pairwise_singleton _ _
  | cons y ys ih =>
    obtain ⟨hy, hys⟩ := List.pairwise_cons.mp h
    unfold insertCoord
    split
    next hlt =>
      refine List.pairwise_cons.mpr ⟨fun z hz => ?_, h⟩
      obtain rfl | hz := List.mem_cons.mp hz
      · exact hlt
      · exact hlt.trans (hy z hz)
    next hge =>
      split
      · exact h
      next hne =>
        refine List.pairwise_cons.mpr ⟨fun z hz => ?_, ih hys⟩
        obtain rfl | hz := (mem_insertCoord x z ys).mp hz
        · omega
        · exact hy z hz

theorem ascending_sorted (l : List Nat) : (ascending l).Pairwise (· < ·) := by
  induction l with
  | nil => exact List.Pairwise.nil
  | cons x l ih => exact insertCoord_sorted ih x

/-- The coordinates of the boundaries that a scan at x makes, in their order (R130). -/
def StrandState.offeredBy (st : StrandState) (x : Nat) : List Nat := (st.moveFrontier x).offeredUpTo (st.switchBoundary x) x

theorem StrandState.moveFrontier_eq (st : StrandState) (x : Nat) : st.moveFrontier x = { st with
    map := { st.map with frontier := x }
    recipe := st.switch.elim st.recipe (fun w => if w.coord ≤ x then some w.entry else st.recipe)
    switch := st.switch.filter (fun w => x < w.coord) } := by
  unfold StrandState.moveFrontier
  rw [StrandState.passSwitch_eq]

theorem StrandState.moveFrontier_index (st : StrandState) (x : Nat) : (st.moveFrontier x).index = st.entryAt x :=
  StrandState.passSwitch_index { st with map := { st.map with frontier := x } } x

theorem StrandState.switchBoundary_eq_some {st : StrandState} {x a : Nat} : st.switchBoundary x = some a ↔
    ∃ w, st.switch = some w ∧ w.coord ≤ x ∧ a = max w.coord st.map.frontier := by
  unfold StrandState.switchBoundary
  rw [Option.bind_eq_some_iff]
  refine exists_congr fun w => and_congr_right fun _ => ?_
  split
  next h => simp [h, eq_comm]
  next h => simp [h]

theorem StrandState.mem_offeredBy {st : StrandState} {x a : Nat} : a ∈ st.offeredBy x ↔ st.Offered x a := by
  unfold StrandState.offeredBy StrandState.offeredUpTo StrandState.Offered
  rw [mem_ascending, List.mem_append, List.mem_filter, Option.mem_toList, StrandState.switchBoundary_eq_some, decide_eq_true_iff,
    st.moveFrontier_eq x]

theorem StrandState.offeredBy_le {st : StrandState} {x a : Nat} (h : st.map.frontier ≤ x) (ha : a ∈ st.offeredBy x) : a ≤ x := by
  obtain ⟨-, hx⟩ | ⟨w, -, hw, rfl⟩ := StrandState.mem_offeredBy.mp ha
  · exact hx
  · exact Nat.max_le.mpr ⟨hw, h⟩

theorem StrandState.offeredBy_sorted (st : StrandState) (x : Nat) : (st.offeredBy x).Pairwise (· < ·) := ascending_sorted _

theorem StrandState.offeredBy_length {st : StrandState} {l : List Nat} (h : ∀ a ∈ st.fore.offers, a ∈ l) (x : Nat) :
    (st.offeredBy x).length ≤ l.length + 1 := by
  have hsub : st.offeredBy x ⊆ l ++ (st.switchBoundary x).toList := fun a ha => by
    obtain ⟨ha, -⟩ | hw := StrandState.mem_offeredBy.mp ha
    · exact List.mem_append_left _ (h a ha)
    · exact List.mem_append_right _ (Option.mem_toList.mpr (StrandState.switchBoundary_eq_some.mpr hw))
  have hnodup : (st.offeredBy x).Nodup := (st.offeredBy_sorted x).imp Nat.ne_of_lt
  have hle := (List.subperm_of_subset hnodup hsub).length_le
  rw [List.length_append] at hle
  have hone : (st.switchBoundary x).toList.length ≤ 1 := by cases st.switchBoundary x <;> simp
  omega

/-! ## The boundaries made -/

/-- Where the taking's confirmation falls once the offered boundaries are made (R100, R129). -/
def StrandState.jointAt (st : StrandState) (e : Env) (n : Strand) (x : Nat) (conf : Confirming) : Confirming :=
  conf.map (fun c => (c.1, ((st.moveFrontier x).makeOffers e n (st.switchBoundary x) false none (st.offeredBy x)).confirmationAt c.2))

theorem StrandState.advanceMap_eq (st : StrandState) (e : Env) (n : Strand) (x : Nat) (conf : Confirming) :
    st.advanceMap e n x conf =
      (st.moveFrontier x).makeOffers e n (st.switchBoundary x) false (st.jointAt e n x conf) (st.offeredBy x) := rfl

theorem Drawn.advanceMap (st : StrandState) (e : Env) (n : Strand) (x : Nat) (conf : Confirming) :
    Drawn (st.moveFrontier x) (st.advanceMap e n x conf) := .makeOffers _ e n _ _ _ _

theorem StrandState.makeOffers_fore (st : StrandState) (e : Env) (n : Strand) (sw : Option Nat) (g : Bool) (joint : Confirming)
    (l : List Nat) : (st.makeOffers e n sw g joint l).fore = l.foldl Forecast.act st.fore := by
  unfold StrandState.makeOffers
  induction l generalizing st with
  | nil => rfl
  | cons b l ih => rw [List.foldl_cons, ih, StrandState.boundary_fore, List.foldl_cons]

@[simp] theorem StrandState.makeOffers_confirmed (st : StrandState) (e : Env) (n : Strand) (sw : Option Nat) (g : Bool)
    (joint : Confirming) (l : List Nat) : (st.makeOffers e n sw g joint l).eval.confirmed = st.eval.confirmed := by
  unfold StrandState.makeOffers
  induction l generalizing st with
  | nil => rfl
  | cons b l ih => rw [List.foldl_cons, ih, StrandState.boundary_confirmed]

theorem StrandState.makeOffers_candidate {st : StrandState} (h : st.eval.candidate = none) (e : Env) (n : Strand) (sw : Option Nat)
    (g : Bool) (joint : Confirming) (l : List Nat) : (st.makeOffers e n sw g joint l).eval.candidate = none := by
  unfold StrandState.makeOffers
  induction l generalizing st with
  | nil => exact h
  | cons b l ih =>
    refine ih ?_
    obtain ⟨-, -, -, hk | hk⟩ := st.boundary_cases e n b (st.offeredClass g joint b) {} (offerSources sw joint b)
    · rw [hk, h]
    · rw [hk, h]
      rfl

theorem StrandState.advanceMap_confirmed (st : StrandState) (e : Env) (n : Strand) (x : Nat) (conf : Confirming) :
    (st.advanceMap e n x conf).eval.confirmed = st.eval.confirmed := by
  rw [StrandState.advanceMap_eq, StrandState.makeOffers_confirmed, st.moveFrontier_eq x]

/-- The boundaries at or below x are those the list offers there (R119, R130). -/
theorem StrandState.advanceMap_fore {st : StrandState} {x : Nat} (h : st.map.frontier ≤ x) (e : Env) (n : Strand) (conf : Confirming) :
    (st.advanceMap e n x conf).fore = st.fore.reachedBy x := by
  rw [StrandState.advanceMap_eq, StrandState.makeOffers_fore, st.moveFrontier_eq x]
  exact Forecast.foldl_act (fun b hb => StrandState.offeredBy_le h hb)
    (fun a ha hx => StrandState.mem_offeredBy.mpr (.inl ⟨ha, hx⟩))

theorem StrandState.StartsBy.boundary {st : StrandState} {x b : Nat} (h : st.StartsBy x) (hb : b ≤ x) (e : Env) (n : Strand)
    (dim : DimClass) (stats : Stats) (others : List BoundarySource) : (st.boundary e n b dim stats others).StartsBy x := by
  refine ⟨fun c hc => ?_, fun c hc => ?_⟩
  · cases hcur : st.map.cur with
    | none =>
      rw [StrandState.boundary_of_none hcur] at hc
      exact h.cur c hc
    | some cur =>
      by_cases hle : b ≤ cur.start
      · rw [StrandState.boundary_recolours hcur e n hle] at hc
        cases hc
        exact h.cur cur hcur
      · rw [Nat.not_le] at hle
        by_cases hroom : st.map.count < 60
        · rw [StrandState.boundary_breaks hcur e n hle hroom] at hc
          cases hc
          exact hb
        · obtain ⟨i, -, heq⟩ := StrandState.boundary_refused hcur e n hle (Nat.not_lt.mp hroom) dim stats others
          rw [heq] at hc
          cases hc
          exact h.cur cur hcur
  · obtain ⟨-, -, -, hk | hk⟩ := st.boundary_cases e n b dim stats others
    · exact h.candidate c (hk ▸ hc)
    · rw [hk] at hc
      obtain ⟨c', hc', rfl⟩ := Option.map_eq_some_iff.mp hc
      exact Nat.max_le.mpr ⟨h.candidate c' hc', hb⟩

theorem StrandState.StartsBy.makeOffers {st : StrandState} {x : Nat} {l : List Nat} (h : st.StartsBy x) (hl : ∀ b ∈ l, b ≤ x)
    (e : Env) (n : Strand) (sw : Option Nat) (g : Bool) (joint : Confirming) : (st.makeOffers e n sw g joint l).StartsBy x := by
  unfold StrandState.makeOffers
  induction l generalizing st with
  | nil => exact h
  | cons b l ih => exact ih (h.boundary (hl b (.head _)) e n _ _ _) fun c hc => hl c (.tail _ hc)

theorem StrandState.StartsBy.advanceMap {st : StrandState} {x : Nat} (h : st.StartsBy x) (hf : st.map.frontier ≤ x) (e : Env)
    (n : Strand) (conf : Confirming) : (st.advanceMap e n x conf).StartsBy x := by
  have hmoved : (st.moveFrontier x).StartsBy x := by
    rw [st.moveFrontier_eq x]
    exact ⟨h.cur, h.candidate⟩
  exact hmoved.makeOffers (fun b hb => StrandState.offeredBy_le hf hb) e n _ _ _

/-- With no boundary offered, the frontier alone moves (R130). -/
theorem StrandState.advanceMap_of_none {st : StrandState} {x : Nat} (h : ∀ a, ¬ st.Offered x a) (e : Env) (n : Strand)
    (conf : Confirming) : st.offeredBy x = [] ∧ st.advanceMap e n x conf = { st with map := { st.map with frontier := x } } := by
  have hnil : st.offeredBy x = [] := List.eq_nil_iff_forall_not_mem.mpr fun a ha => h a (StrandState.mem_offeredBy.mp ha)
  refine ⟨hnil, ?_⟩
  rw [StrandState.advanceMap_eq, hnil, StrandState.moveFrontier, StrandState.passSwitch]
  show (match st.switch with
    | none => _
    | some w => _) = _
  split
  · rfl
  next w hw =>
    rw [if_neg]
    exact fun hx => h _ (.inr ⟨w, hw, hx, rfl⟩)

/-! ## The segments made -/

theorem StrandState.boundary_count_le (st : StrandState) (e : Env) (n : Strand) (b : Nat) (dim : DimClass) (stats : Stats)
    (others : List BoundarySource) : (st.boundary e n b dim stats others).map.count ≤ st.map.count + 1 := by
  cases hcur : st.map.cur with
  | none =>
    rw [StrandState.boundary_of_none hcur]
    exact Nat.le_succ _
  | some cur =>
    by_cases hle : b ≤ cur.start
    · rw [StrandState.boundary_recolours hcur e n hle]
      simp [StrandMap.count, hcur]
    · rw [Nat.not_le] at hle
      by_cases hroom : st.map.count < 60
      · rw [StrandState.boundary_breaks hcur e n hle hroom]
        simp [StrandMap.count, hcur]
      · obtain ⟨i, -, heq⟩ := StrandState.boundary_refused hcur e n hle (Nat.not_lt.mp hroom) dim stats others
        rw [heq]
        simp [StrandMap.count, hcur]

theorem StrandState.makeOffers_count_le (st : StrandState) (e : Env) (n : Strand) (sw : Option Nat) (g : Bool) (joint : Confirming)
    (l : List Nat) : (st.makeOffers e n sw g joint l).map.count ≤ st.map.count + l.length := by
  unfold StrandState.makeOffers
  induction l generalizing st with
  | nil => exact Nat.le_refl _
  | cons b l ih =>
    have hfirst := st.boundary_count_le e n b (st.offeredClass g joint b) {} (offerSources sw joint b)
    have hrest := ih (st.boundary e n b (st.offeredClass g joint b) {} (offerSources sw joint b))
    rw [List.foldl_cons, List.length_cons]
    omega

/-- A boundary with a place for it opens a segment where it lies above the open one's start (R128, R129). -/
theorem StrandState.boundary_starts {st : StrandState} {b : SegBody} {c : Nat} (hb : st.map.cur = some b)
    (hroom : b.start < c → st.map.count < 60) (e : Env) (n : Strand) (dim : DimClass) (stats : Stats) (others : List BoundarySource) :
    (st.boundary e n c dim stats others).map.cur.map (·.start) = some (max b.start c) ∧
      (st.boundary e n c dim stats others).map.starts = st.map.starts ++ if b.start < c then [c] else [] := by
  by_cases hlt : b.start < c
  · rw [StrandState.boundary_breaks hb e n hlt (hroom hlt), if_pos hlt, Nat.max_eq_right hlt.le]
    exact ⟨rfl, by simp [StrandMap.starts, StrandMap.bodies, hb]⟩
  · rw [StrandState.boundary_recolours hb e n (Nat.not_lt.mp hlt), if_neg hlt, Nat.max_eq_left (Nat.not_lt.mp hlt)]
    exact ⟨rfl, by simp [StrandMap.starts, StrandMap.bodies, hb, StrandState.recoloured]⟩

/-- With a place free for each, every boundary offered above the open segment's start opens a segment (R128). -/
theorem StrandState.makeOffers_starts {st : StrandState} {b : SegBody} (hb : st.map.cur = some b) {l : List Nat}
    (hl : l.Pairwise (· < ·)) (hroom : st.map.count + l.length ≤ 60) (e : Env) (n : Strand) (sw : Option Nat) (g : Bool)
    (joint : Confirming) : ∃ more, (st.makeOffers e n sw g joint l).map.starts = st.map.starts ++ more ∧
      ∀ a ∈ l, b.start < a → a ∈ more := by
  unfold StrandState.makeOffers
  induction l generalizing st b with
  | nil => exact ⟨[], (List.append_nil _).symm, fun a ha => absurd ha List.not_mem_nil⟩
  | cons c l ih =>
    obtain ⟨hc, hl⟩ := List.pairwise_cons.mp hl
    rw [List.length_cons] at hroom
    rw [List.foldl_cons]
    have hcount := st.boundary_count_le e n c (st.offeredClass g joint c) {} (offerSources sw joint c)
    obtain ⟨hstart, hstarts⟩ := StrandState.boundary_starts hb (c := c) (fun _ => by omega) e n (st.offeredClass g joint c) {}
      (offerSources sw joint c)
    generalize st.boundary e n c (st.offeredClass g joint c) {} (offerSources sw joint c) = u at hcount hstart hstarts ⊢
    obtain ⟨b', hb', hmax⟩ := Option.map_eq_some_iff.mp hstart
    obtain ⟨more, hmore, hmem⟩ := ih hb' hl (by omega)
    refine ⟨_, by rw [hmore, hstarts, List.append_assoc], fun a ha hlt => ?_⟩
    obtain rfl | ha := List.mem_cons.mp ha
    · rw [if_pos hlt]
      exact .head _
    · exact List.mem_append_right _ (hmem a ha (by rw [hmax]; exact Nat.max_lt.mpr ⟨hlt, hc a ha⟩))

/-! ## The temperature after the boundaries -/

/-- What the map unit changes takes no part in the temperature and the grade of a scan. -/
theorem Redrawn.resolution {st t : StrandState} (h : Redrawn st t) (e : Env) (n : Strand) (sc : Scan) : t.resolution e n sc =
    { st.resolution e n sc with
      eval := { (st.resolution e n sc).eval with confirmed := t.eval.confirmed, candidate := t.eval.candidate } } := by
  unfold StrandState.resolution
  rw [h.recipeOf e, show t.eval = { st.eval with confirmed := t.eval.confirmed, candidate := t.eval.candidate } from
    congrArg (·.eval) h]
  exact st.eval.resolve_tracker _ _ _ _ _

theorem Redrawn.contribution {st t : StrandState} (h : Redrawn st t) (e : Env) (n : Strand) (sc : Scan) :
    t.contribution e n sc = st.contribution e n sc := by
  unfold StrandState.contribution
  rw [h.resolution, h.recipeOf]

theorem Redrawn.thermalDefault {st t : StrandState} (h : Redrawn st t) (e : Env) (n : Strand) (x : Nat) (sc : Scan) :
    t.thermalDefault e n x sc = st.thermalDefault e n x sc := by
  have hepisode : t.eval.episode = st.eval.episode := congrArg (·.eval.episode) h
  unfold StrandState.thermalDefault
  rw [h.resolution, hepisode]

end Sys2Proof.Machine
end

section
namespace Sys2Proof.Machine

/-! # Scans on a TRACKING and on a TAILED strand (R38, R40, R90 to R104, R130 to R133) -/

/-- Counting a scan takes no part in the map. -/
theorem Drawn.counted {a b : StrandState} (h : Drawn a b) (i j : Nat) :
    Drawn { a with tailCount := i, lastMaterial := j } { b with tailCount := i, lastMaterial := j } where
  redrawn := by
    have hr := h.redrawn
    unfold Redrawn at *
    conv_lhs => rw [hr]
  grows := h.grows
  opens := h.opens
  raised := h.raised

/-- The segments made behind an open one, by where they start. -/
theorem StrandMap.starts_after {m m' : StrandMap} {b : SegBody} {rest : List Segment} {more : List Nat} (hb : m.cur = some b)
    (hc : m'.closed = m.closed ++ rest) (hs : m'.starts = m.starts ++ more) :
    rest.map (fun g => g.body.start) ++ (m'.cur.map (·.start)).toList = b.start :: more := by
  unfold StrandMap.starts StrandMap.bodies at hs
  rw [hc, hb] at hs
  simpa [Option.toList_map, Function.comp_def] using hs

/-! ## A scan with MATERIAL (R90 to R104, R130) -/

/-- A strand that counts a scan with MATERIAL at x, its frontier and its switch moved, before the boundaries (R90, R130). -/
def StrandState.materialAt (st : StrandState) (x : Nat) : StrandState := { st.moveFrontier x with tailCount := 0, lastMaterial := x }

/-- With the boundaries made that the scan offers, one of them with its confirmation (R129, R130). -/
def StrandState.advanced (st : StrandState) (e : Env) (n : Strand) (x : Nat) (sc : Scan) : StrandState :=
  { st.advanceMap e n x ((st.moveFrontier x).confirming e x ((st.moveFrontier x).stateOf e n sc)) with
    tailCount := 0, lastMaterial := x }

theorem Drawn.advanced (st : StrandState) (e : Env) (n : Strand) (x : Nat) (sc : Scan) :
    Drawn (st.materialAt x) (st.advanced e n x sc) := (Drawn.advanceMap st e n x _).counted 0 x

theorem StrandState.materialAt_eq (st : StrandState) (x : Nat) : st.materialAt x = { st with
    tailCount := 0
    lastMaterial := x
    map := { st.map with frontier := x }
    recipe := st.switch.elim st.recipe (fun w => if w.coord ≤ x then some w.entry else st.recipe)
    switch := st.switch.filter (fun w => x < w.coord) } := by
  unfold StrandState.materialAt
  rw [st.moveFrontier_eq x]

theorem StrandState.materialAt_resolution (st : StrandState) (e : Env) (n : Strand) (x : Nat) (sc : Scan) :
    (st.materialAt x).resolution e n sc =
      st.eval.resolve (e.strand n) (e.entry (st.entryAt x)).defaultTemp sc.temp := by
  have hindex : (st.materialAt x).index = st.entryAt x := st.moveFrontier_index x
  unfold StrandState.resolution Env.recipe
  rw [hindex, st.materialAt_eq x]

theorem StrandState.materialAt_recipe (st : StrandState) (e : Env) (x : Nat) : e.recipe (st.materialAt x) = e.entry (st.entryAt x) :=
  congrArg e.entry (st.moveFrontier_index x)

theorem Redrawn.tempered {st t : StrandState} (h : Redrawn st t) (e : Env) (n : Strand) (x : Nat) (sc : Scan) :
    t.tempered e n x sc = { t with
      eval := { (st.resolution e n sc).eval with confirmed := t.eval.confirmed, candidate := t.eval.candidate }
      raised := t.raised ++ st.thermalDefault e n x sc } := by
  unfold StrandState.tempered
  rw [h.resolution, h.thermalDefault]

theorem StrandState.scanTracking_of_material {sc : Scan} (hm : sc.material = true) (st : StrandState) (e : Env) (n : Strand) (x : Nat) :
    st.scanTracking e n x sc = ((st.advanced e n x sc).tempered e n x sc).track9 e n x
      (scanState ((st.materialAt x).contribution e n sc).feats) ((st.materialAt x).contribution e n sc) (st.offeredBy x) := by
  have hc := (Drawn.advanced st e n x sc).redrawn.contribution e n sc
  unfold StrandState.scanTracking
  dsimp only
  rw [if_pos hm, ← hc]
  exact (st.advanced e n x sc).measure_eq e n x sc (st.offeredBy x)

section
variable {st : StrandState} {e : Env} {n : Strand} {x : Nat} {sc : Scan} (hm : sc.material = true)
include hm

/-- The scan redraws the strand it has counted, its temperature resolved. -/
theorem StrandState.scanTracking_drawn : Drawn ((st.advanced e n x sc).tempered e n x sc) (st.scanTracking e n x sc) := by
  rw [StrandState.scanTracking_of_material hm]
  exact .track9 _ e n x _ _ _

/-- It counts the scan, moves the frontier and passes the switch (R43, R90, R130). -/
theorem StrandState.scanTracking_keeps :
    (st.scanTracking e n x sc).track = st.track ∧ (st.scanTracking e n x sc).tailCount = 0 ∧
      (st.scanTracking e n x sc).lastMaterial = x ∧ (st.scanTracking e n x sc).map.frontier = x ∧
      (st.scanTracking e n x sc).map.tail = st.map.tail ∧ (st.scanTracking e n x sc).cuts = st.cuts ∧
      (st.scanTracking e n x sc).port = st.port ∧
      (st.scanTracking e n x sc).switch = st.switch.filter (fun w => x < w.coord) ∧
      (st.scanTracking e n x sc).recipe = st.switch.elim st.recipe (fun w => if w.coord ≤ x then some w.entry else st.recipe) := by
  have ha := (Drawn.advanced st e n x sc).redrawn
  have hd := (StrandState.scanTracking_drawn hm (st := st) (e := e) (n := n) (x := x)).redrawn
  generalize st.scanTracking e n x sc = u at hd ⊢
  generalize st.advanced e n x sc = a at ha hd
  rw [st.materialAt_eq x] at ha
  exact ⟨hd.track.trans ha.track, hd.tailCount.trans ha.tailCount, hd.lastMaterial.trans ha.lastMaterial,
    hd.frontier.trans ha.frontier, hd.tail.trans ha.tail, hd.cuts.trans ha.cuts, hd.port.trans ha.port, hd.switch.trans ha.switch,
    hd.recipe.trans ha.recipe⟩

/-- Its temperature, which the tracker takes no part in (R92, R93). -/
theorem StrandState.scanTracking_resolved :
    (st.scanTracking e n x sc).eval.lastValid = ((st.materialAt x).resolution e n sc).eval.lastValid ∧
      (st.scanTracking e n x sc).eval.hold = ((st.materialAt x).resolution e n sc).eval.hold ∧
      (st.scanTracking e n x sc).eval.episode = ((st.materialAt x).resolution e n sc).eval.episode ∧
      (st.scanTracking e n x sc).eval.resolved = ((st.materialAt x).resolution e n sc).eval.resolved := by
  have hd := (StrandState.scanTracking_drawn hm (st := st) (e := e) (n := n) (x := x)).redrawn
  have ht := (Drawn.advanced st e n x sc).redrawn.tempered e n x sc
  refine ⟨(congrArg (·.eval.lastValid) hd).trans ?_, (congrArg (·.eval.hold) hd).trans ?_,
    (congrArg (·.eval.episode) hd).trans ?_, (congrArg (·.eval.resolved) hd).trans ?_⟩ <;> rw [ht]

/-- Its incidents: those of the boundaries, THERMAL_DEFAULT, those of the tracker's confirmation (R93, R136). -/
theorem StrandState.scanTracking_raised : ∃ before after : List Incident,
    (st.scanTracking e n x sc).raised = st.raised ++ (before ++ ((st.materialAt x).thermalDefault e n x sc ++ after)) ∧
      ∀ i ∈ before ++ after, i.kind = .mapMerged := by
  obtain ⟨before, hbefore, hb⟩ := (Drawn.advanced st e n x sc).raised
  obtain ⟨after, hafter, ha⟩ := (StrandState.scanTracking_drawn hm (st := st) (e := e) (n := n) (x := x)).raised
  refine ⟨before, after, ?_, fun i hi => (List.mem_append.mp hi).elim (hb i) (ha i)⟩
  rw [hafter, (Drawn.advanced st e n x sc).redrawn.tempered]
  dsimp only
  rw [hbefore, st.materialAt_eq x]
  simp only [List.append_assoc]

/-- Every zone and class boundary at or below x has acted (R119). -/
theorem StrandState.scanTracking_fore (hf : st.map.frontier ≤ x) (hs : st.StartsBy x) :
    (st.scanTracking e n x sc).fore = st.fore.reachedBy x := by
  have hfore : ((st.advanced e n x sc).tempered e n x sc).fore = st.fore.reachedBy x := StrandState.advanceMap_fore hf e n _
  have hstarts : ((st.advanced e n x sc).tempered e n x sc).StartsBy x := by
    have hadv := hs.advanceMap hf e n ((st.moveFrontier x).confirming e x ((st.moveFrontier x).stateOf e n sc))
    rw [(Drawn.advanced st e n x sc).redrawn.tempered]
    exact ⟨hadv.cur, hadv.candidate⟩
  rw [StrandState.scanTracking_of_material hm]
  obtain h | ⟨b, hb, h⟩ := StrandState.track9_fore hstarts e n (scanState ((st.materialAt x).contribution e n sc).feats)
    ((st.materialAt x).contribution e n sc) (st.offeredBy x)
  · rw [h, hfore]
  · rw [h, hfore, Forecast.act_reachedBy hb]

/-- With no boundary offered the scan goes to the tracker alone (R99). -/
theorem StrandState.scanTracking_of_none (h : ∀ a, ¬ st.Offered x a) :
    st.scanTracking e n x sc = StrandState.track9 { st with
        tailCount := 0
        lastMaterial := x
        map := { st.map with frontier := x }
        eval := ((st.materialAt x).resolution e n sc).eval
        raised := st.raised ++ (st.materialAt x).thermalDefault e n x sc }
      e n x (scanState ((st.materialAt x).contribution e n sc).feats) ((st.materialAt x).contribution e n sc) := by
  obtain ⟨hnil, hadv⟩ := StrandState.advanceMap_of_none h e n
    ((st.moveFrontier x).confirming e x ((st.moveFrontier x).stateOf e n sc))
  have hsame : st.advanced e n x sc = st.materialAt x := by
    unfold StrandState.advanced
    rw [StrandState.advanceMap_eq, hnil]
    rfl
  have hplain : st.materialAt x = { st with tailCount := 0, lastMaterial := x, map := { st.map with frontier := x } } := by
    rw [← hsame, StrandState.advanced, hadv]
  rw [StrandState.scanTracking_of_material hm, hsame, hnil, StrandState.tempered]
  generalize (st.materialAt x).resolution e n sc = res
  generalize (st.materialAt x).contribution e n sc = y
  generalize (st.materialAt x).thermalDefault e n x sc = l
  rw [hplain]

/-- One boundary above the open segment's start, and a scan in the confirmed state: the candidate's statistics begin the new segment,
with the scan (R101, R104, R128). -/
theorem StrandState.scanTracking_of_one {a : Nat} {b : SegBody} (ha : ∀ a', st.Offered x a' ↔ a' = a) (hb : st.map.cur = some b)
    (hlt : b.start < a) (hroom : st.map.count < 60)
    (hd : scanState ((st.materialAt x).contribution e n sc).feats = st.eval.confirmed) :
    (st.scanTracking e n x sc).map.closed = st.map.closed ++ [{ body := b, stop := a }] ∧
      (st.scanTracking e n x sc).eval.candidate = none ∧ (st.scanTracking e n x sc).eval.confirmed = st.eval.confirmed ∧
      (st.scanTracking e n x sc).map.cur = some {
        start := a, dim := st.eval.confirmed, overlay := (st.fore.act a).overlay, index := st.entryAt x
        edition := (e.entry (st.entryAt x)).edition
        stats := (st.eval.candidate.elim {} (fun c => Stats.add {} c.side)).fold ((st.materialAt x).contribution e n sc) } := by
  have hone : st.offeredBy x = [a] := by
    have hperm := (List.perm_ext_iff_of_nodup ((st.offeredBy_sorted x).imp Nat.ne_of_lt) (List.nodup_singleton a)).mpr
      fun a' => by rw [StrandState.mem_offeredBy, ha, List.mem_singleton]
    exact List.perm_singleton.mp hperm
  have hmoved : (st.moveFrontier x).eval = st.eval ∧ (st.moveFrontier x).map.cur = some b ∧
      (st.moveFrontier x).map.closed = st.map.closed ∧ (st.moveFrontier x).map.count = st.map.count ∧
      (st.moveFrontier x).fore = st.fore := by
    rw [st.moveFrontier_eq x]
    exact ⟨rfl, hb, rfl, rfl, rfl⟩
  obtain ⟨heval, hcur, hclosed, hcount, hfore⟩ := hmoved
  have hconf : (st.moveFrontier x).confirming e x ((st.moveFrontier x).stateOf e n sc) = none := by
    unfold StrandState.confirming
    exact if_neg fun h => h.1 (hd.trans (congrArg (·.confirmed) heval).symm)
  have hmade : st.advanced e n x sc = { (st.moveFrontier x).boundary e n a st.eval.confirmed {}
      (offerSources (st.switchBoundary x) none a) with tailCount := 0, lastMaterial := x } := by
    rw [StrandState.advanced, hconf, StrandState.advanceMap_eq, hone, ← heval]
    rfl
  rw [StrandState.boundary_breaks hcur e n hlt (hcount.trans_lt hroom)] at hmade
  have ht := (Drawn.advanced st e n x sc).redrawn.tempered e n x sc
  have hconfirmed : ((st.advanced e n x sc).tempered e n x sc).eval.confirmed = st.eval.confirmed := by
    rw [ht, hmade, ← heval]
    rfl
  rw [StrandState.scanTracking_of_material hm, StrandState.track9, if_pos (hd.trans hconfirmed.symm), StrandState.dropCandidate_eq,
    ht, hmade, heval, hclosed, hfore, st.moveFrontier_index x, Env.recipe, st.moveFrontier_index x]
  refine ⟨rfl, rfl, rfl, ?_⟩
  unfold StrandState.foldOpen StrandState.onOpen Evaluator.raiseSide
  cases st.eval.candidate <;> rfl

/-- With a place free for each, every boundary offered above the open segment's start opens a segment (R128, R130). -/
theorem StrandState.scanTracking_starts {b : SegBody} (hb : st.map.cur = some b)
    (hroom : st.map.count + st.fore.offers.length + 1 < 60) :
    ∃ rest : List Segment, (st.scanTracking e n x sc).map.closed = st.map.closed ++ rest ∧
      ∀ a, st.Offered x a → b.start < a →
        (∃ g ∈ rest, g.body.start = a) ∨ ∃ c, (st.scanTracking e n x sc).map.cur = some c ∧ c.start = a := by
  have hmoved : (st.moveFrontier x).map.cur = some b ∧ (st.moveFrontier x).map.closed = st.map.closed := by
    rw [st.moveFrontier_eq x]
    exact ⟨hb, rfl⟩
  have hlength := StrandState.offeredBy_length (st := st) (fun _ ha => ha) x
  have hcount : (st.moveFrontier x).map.count = st.map.count := by
    rw [st.moveFrontier_eq x]
    rfl
  obtain ⟨made, hmade, hmem⟩ := StrandState.makeOffers_starts hmoved.1 (st.offeredBy_sorted x) (by omega) e n (st.switchBoundary x)
    false (st.jointAt e n x ((st.moveFrontier x).confirming e x ((st.moveFrontier x).stateOf e n sc)))
  obtain ⟨⟨gs, hgs⟩, -⟩ := (Drawn.advanced st e n x sc).grows
  obtain ⟨⟨gs', hgs'⟩, more, hmore⟩ := (StrandState.scanTracking_drawn hm (st := st) (e := e) (n := n) (x := x)).grows
  have hclosed : (st.scanTracking e n x sc).map.closed = (st.moveFrontier x).map.closed ++ (gs ++ gs') := by
    rw [hgs', ← List.append_assoc]
    exact congrArg (· ++ gs') hgs
  have hstarts : (st.scanTracking e n x sc).map.starts = (st.moveFrontier x).map.starts ++ (made ++ more) := by
    rw [hmore, ← List.append_assoc]
    exact congrArg (· ++ more) hmade
  have hafter := StrandMap.starts_after hmoved.1 hclosed hstarts
  refine ⟨gs ++ gs', by rw [hclosed, hmoved.2], fun a ha hlt => ?_⟩
  have hin : a ∈ b.start :: (made ++ more) :=
    .tail _ (List.mem_append_left _ (hmem a (StrandState.mem_offeredBy.mpr ha) hlt))
  rw [← hafter, List.mem_append, List.mem_map, Option.mem_toList, Option.map_eq_some_iff] at hin
  exact hin

end

end Sys2Proof.Machine
end

section
namespace Sys2Proof.Machine

/-! ## What every scan keeps -/

/-- A scan keeps the nose and the channel, and gives the strand no switch (R37, R43). -/
structure ScanKeeps (st t : StrandState) : Prop where
  nose : t.map.nose = st.map.nose
  chan : t.chan = st.chan
  switch : SwitchKept st t

theorem ScanKeeps.trans {a b c : StrandState} (h : ScanKeeps a b) (k : ScanKeeps b c) : ScanKeeps a c :=
  ⟨k.nose.trans h.nose, k.chan.trans h.chan, h.switch.trans k.switch⟩

theorem ScanKeeps.counted {a b : StrandState} (h : ScanKeeps a b) (i j : Nat) :
    ScanKeeps a { b with tailCount := i, lastMaterial := j } := ⟨h.nose, h.chan, h.switch⟩

theorem Redrawn.keeps {st t : StrandState} (h : Redrawn st t) : ScanKeeps st t := ⟨h.nose, h.chan, h.kept⟩

theorem ScanKeeps.moveFrontier (st : StrandState) (x : Nat) : ScanKeeps st (st.moveFrontier x) := by
  have hs := SwitchKept.moveFrontier st x
  rw [st.moveFrontier_eq x] at hs ⊢
  exact ⟨rfl, rfl, hs⟩

theorem ScanKeeps.advanceMap (st : StrandState) (e : Env) (n : Strand) (x : Nat) (conf : Confirming) :
    ScanKeeps st (st.advanceMap e n x conf) :=
  (ScanKeeps.moveFrontier st x).trans (Drawn.advanceMap st e n x conf).redrawn.keeps

theorem ScanKeeps.measure (st : StrandState) (e : Env) (n : Strand) (x : Nat) (sc : Scan) (made : List Nat) :
    ScanKeeps st (st.measure e n x sc made) := by
  rw [st.measure_eq]
  exact ScanKeeps.trans (b := st.tempered e n x sc) ⟨rfl, rfl, .inl rfl⟩ (Drawn.track9 _ e n x _ _ _).redrawn.keeps

/-! ## A scan without MATERIAL (R38, R90, R132) -/

theorem StrandState.tailReached_iff {st : StrandState} {e : Env} {n : Strand} {p : StrandStation} (hp : e.strand n = some p) :
    st.tailReached e n = true ↔ p.tailConfirm ≤ st.tailCount + 1 := by
  rw [StrandState.tailReached, hp]
  exact decide_eq_true_iff

theorem StrandState.advanceMap_tailCount (st : StrandState) (e : Env) (n : Strand) (x : Nat) (conf : Confirming) :
    (st.advanceMap e n x conf).tailCount = st.tailCount := by
  rw [(Drawn.advanceMap st e n x conf).redrawn.tailCount, st.moveFrontier_eq x]

/-- Below the tail count it is a blind scan to the tracker (R90). -/
theorem StrandState.scanTracking_of_blind {st : StrandState} {e : Env} {n : Strand} {sc : Scan} (hm : sc.material = false)
    (ht : st.tailReached e n = false) (x : Nat) :
    st.scanTracking e n x sc = StrandState.track9
      { st.advanceMap e n x ((st.moveFrontier x).confirming e x .unmeasured) with tailCount := st.tailCount + 1 }
      e n x .unmeasured st.blindContribution (st.offeredBy x) := by
  have hcount := st.advanceMap_tailCount e n x ((st.moveFrontier x).confirming e x .unmeasured)
  have hresolved : (st.advanceMap e n x ((st.moveFrontier x).confirming e x .unmeasured)).eval.resolved = st.eval.resolved := by
    rw [(Drawn.advanceMap st e n x _).redrawn.resolved, st.moveFrontier_eq x]
  have hreached : (st.advanceMap e n x ((st.moveFrontier x).confirming e x .unmeasured)).tailReached e n = false := by
    rw [StrandState.tailReached, hcount]
    exact ht
  have hblind : st.scanTracking e n x sc =
      (st.advanceMap e n x ((st.moveFrontier x).confirming e x .unmeasured)).scanBlind e n x (st.offeredBy x) := by
    unfold StrandState.scanTracking
    dsimp only
    rw [hm, ht]
    rfl
  rw [hblind, StrandState.scanBlind, hreached, hcount]
  unfold StrandState.blindContribution
  rw [← hresolved]
  rfl

/-- At the tail count it confirms the tail (R38, R132). -/
theorem StrandState.scanTracking_of_tail {st : StrandState} {e : Env} {n : Strand} {sc : Scan} (hm : sc.material = false)
    (ht : st.tailReached e n = true) (x : Nat) :
    st.scanTracking e n x sc = StrandState.confirmTail { st.advanceMap e n x none with tailCount := st.tailCount + 1 } e n := by
  have hcount := st.advanceMap_tailCount e n x none
  have hreached : (st.advanceMap e n x none).tailReached e n = true := by
    rw [StrandState.tailReached, hcount]
    exact ht
  have hblind : st.scanTracking e n x sc = (st.advanceMap e n x none).scanBlind e n x (st.offeredBy x) := by
    unfold StrandState.scanTracking
    dsimp only
    rw [hm, ht]
    rfl
  rw [hblind, StrandState.scanBlind, hreached, hcount]
  rfl

/-- The last segment of a confirmed tail (R38, R132). -/
def StrandState.tailSegment (st : StrandState) (b : SegBody) : Segment :=
  { body := { b with
      stats := (st.eval.candidate.elim b.stats (fun k => b.stats.add k.side)).fold st.blindContribution
      flags := { b.flags with tail := true } }
    stop := max st.lastMaterial b.start }

theorem StrandState.confirmTail_of_open {st : StrandState} {b : SegBody} (h : st.map.cur = some b) (e : Env) (n : Strand) :
    st.confirmTail e n = { st with
      track := .tailed
      eval := { st.eval with candidate := none }
      map := { st.map with
        closed := st.map.closed ++ [st.tailSegment b]
        cur := none
        mapMark := none
        frontier := max st.lastMaterial b.start
        tail := some (max st.lastMaterial b.start) }
      fore := { st.fore with classBoundary := none }
      mapMail := (st.confirmTail e n).mapMail
      recipe := st.switch.elim st.recipe (fun w => some w.entry)
      switch := none
      port := { st.port with stale := .notArmed } } := by
  unfold StrandState.confirmTail StrandState.foldOpen StrandState.onOpen
  rw [StrandState.dropCandidate_eq, h]
  dsimp only [Option.map_some]
  rw [StrandState.endMark_eq]
  rfl

theorem StrandState.confirmTail_of_closed {st : StrandState} (h : st.map.cur = none) (e : Env) (n : Strand) :
    st.confirmTail e n = st.dropCandidate.foldOpen st.blindContribution := by
  unfold StrandState.confirmTail
  rw [StrandState.dropCandidate_eq, StrandState.foldOpen, StrandState.onOpen, h]
  rfl

theorem ScanKeeps.confirmTail (st : StrandState) (e : Env) (n : Strand) : ScanKeeps st (st.confirmTail e n) := by
  cases h : st.map.cur with
  | none =>
    rw [StrandState.confirmTail_of_closed h]
    exact ((Drawn.dropCandidate st).trans (.foldOpen _ _)).redrawn.keeps
  | some b =>
    rw [StrandState.confirmTail_of_open h]
    exact ⟨rfl, rfl, .inr rfl⟩

/-- Below the tail count the strand is TRACKING still (R90). -/
theorem StrandState.scanTracking_blind {st : StrandState} {e : Env} {n : Strand} {sc : Scan} (hm : sc.material = false)
    (ht : st.tailReached e n = false) (x : Nat) :
    (st.scanTracking e n x sc).track = st.track ∧ (st.scanTracking e n x sc).tailCount = st.tailCount + 1 ∧
      (st.scanTracking e n x sc).map.frontier = x ∧ (st.scanTracking e n x sc).lastMaterial = st.lastMaterial ∧
      ((∀ a, ¬ st.Offered x a) → st.scanTracking e n x sc = StrandState.track9
        { st with tailCount := st.tailCount + 1, map := { st.map with frontier := x } } e n x .unmeasured st.blindContribution) := by
  rw [StrandState.scanTracking_of_blind hm ht]
  have hadv := (Drawn.advanceMap st e n x ((st.moveFrontier x).confirming e x .unmeasured)).redrawn
  have hnone := fun h => StrandState.advanceMap_of_none (st := st) (x := x) h e n ((st.moveFrontier x).confirming e x .unmeasured)
  generalize st.advanceMap e n x ((st.moveFrontier x).confirming e x .unmeasured) = a at hadv hnone ⊢
  have hd := (Drawn.track9 { a with tailCount := st.tailCount + 1 } e n x .unmeasured st.blindContribution (st.offeredBy x)).redrawn
  rw [st.moveFrontier_eq x] at hadv
  refine ⟨hd.track.trans hadv.track, hd.tailCount, hd.frontier.trans hadv.frontier, hd.lastMaterial.trans hadv.lastMaterial,
    fun h => ?_⟩
  obtain ⟨hnil, ha⟩ := hnone h
  rw [hnil, ha]

/-- At the tail count it is TAILED, its last segment closed at the last material (R38, R80, R103, R132). -/
theorem StrandState.scanTracking_tail {st : StrandState} {e : Env} {n : Strand} {sc : Scan} (hm : sc.material = false)
    (ht : st.tailReached e n = true) (hc : st.map.cur.isSome = true) (x : Nat) :
    (st.scanTracking e n x sc).track = .tailed ∧ (st.scanTracking e n x sc).map.cur = none ∧
      (∃ g, (st.scanTracking e n x sc).map.closed.getLast? = some g ∧ g.body.flags.tail = true ∧
        g.stop = max st.lastMaterial g.body.start ∧ (st.scanTracking e n x sc).map.tail = some g.stop ∧
        (st.scanTracking e n x sc).map.frontier = g.stop) ∧
      (st.scanTracking e n x sc).eval.confirmed = st.eval.confirmed ∧ (st.scanTracking e n x sc).eval.candidate = none ∧
      (st.scanTracking e n x sc).switch = none ∧
      (st.scanTracking e n x sc).recipe = st.switch.elim st.recipe (fun w => some w.entry) ∧
      (st.scanTracking e n x sc).port.stale = .notArmed ∧ (st.scanTracking e n x sc).cuts = st.cuts := by
  rw [StrandState.scanTracking_of_tail hm ht]
  have hadv := Drawn.advanceMap st e n x none
  have hconfirmed := st.advanceMap_confirmed e n x none
  generalize st.advanceMap e n x none = a at hadv hconfirmed ⊢
  rw [st.moveFrontier_eq x] at hadv
  obtain ⟨b, hb⟩ := Option.isSome_iff_exists.mp (hadv.opens.trans hc)
  have hlast : a.lastMaterial = st.lastMaterial := hadv.redrawn.lastMaterial
  have hrecipe : a.switch.elim a.recipe (fun w => some w.entry) = st.switch.elim st.recipe (fun w => some w.entry) := by
    rw [hadv.redrawn.switch, hadv.redrawn.recipe]
    dsimp only
    cases st.switch with
    | none => rfl
    | some w => by_cases hw : w.coord ≤ x <;> simp [Option.filter, hw, Nat.not_lt.mpr, Nat.not_le.mp]
  rw [StrandState.confirmTail_of_open (st := { a with tailCount := st.tailCount + 1 }) hb]
  refine ⟨rfl, rfl, ⟨_, List.getLast?_concat, rfl, congrArg (max · b.start) hlast, rfl, rfl⟩, hconfirmed, rfl, rfl, hrecipe, rfl,
    hadv.redrawn.cuts⟩

/-! ## The resumption (R40, R103, R133, R137) -/

theorem StrandState.openGap_eq (st : StrandState) (e : Env) (n : Strand) (t : Nat) (dim : DimClass) : st.openGap e n t dim = { st with
    fore := st.fore.act t
    map := { st.map with
      cur := some { start := t, dim := dim, overlay := (st.fore.act t).overlay, index := st.index, edition := (e.recipe st).edition,
                    stats := {} }
      mapMark := (st.openGap e n t dim).map.mapMark }
    cuts := { st.cuts with pending := st.cuts.pending.map (PendingCut.useHeld t) }
    mapMail := (st.openGap e n t dim).mapMail } := by
  unfold StrandState.openGap
  dsimp only
  conv_lhs => rw [StrandState.judgeMark_rest]
  rfl

/-- A resumption at the map leaves an open segment, and a HELD cut's place used (R133, R137). -/
theorem StrandState.resumeMap_recut (st : StrandState) (e : Env) (n : Strand) (t : Nat) (dim : DimClass) :
    Recut st (st.resumeMap e n t dim) ∧ (st.resumeMap e n t dim).map.cur.isSome = true := by
  have hopen : Recut st (st.openGap e n t dim) ∧ (st.openGap e n t dim).map.cur.isSome = true := by
    rw [st.openGap_eq e n t dim]
    exact ⟨⟨rfl, rfl⟩, rfl⟩
  unfold StrandState.resumeMap
  split
  · exact hopen
  · split
    · exact hopen
    · unfold StrandState.reopen
      dsimp only
      rw [StrandState.judgeMark_rest]
      exact ⟨⟨rfl, rfl⟩, rfl⟩

theorem StrandState.resumeMap_of_room {st : StrandState} (h : st.map.count < 60) (e : Env) (n : Strand) (t : Nat) (dim : DimClass) :
    st.resumeMap e n t dim = st.openGap e n t dim := by
  unfold StrandState.resumeMap
  rw [if_pos]
  rw [Bool.or_eq_true]
  exact .inl (decide_eq_true h)

/-- The strand as a scan resumes it, before its map (R40, R103). -/
def StrandState.resuming (st : StrandState) (x : Nat) : StrandState := { st with
  track := .tracking
  tailCount := 0
  lastMaterial := x
  eval := { st.eval with confirmed := .unmeasured, candidate := none } }

/-- What the resuming scan confirms (R99). -/
def StrandState.resumeConf (st : StrandState) (e : Env) (n : Strand) (x : Nat) (sc : Scan) : Confirming :=
  ((st.resuming x).moveFrontier x).confirming e x (((st.resuming x).moveFrontier x).stateOf e n sc)

/-- It begins a candidate at x (R99, R103). -/
theorem StrandState.resumeConf_start {st : StrandState} {e : Env} {n : Strand} {x : Nat} {sc : Scan} {d : DimClass} {z : Nat}
    (h : st.resumeConf e n x sc = some (d, z)) : z = x := by
  have hcandidate : ((st.resuming x).moveFrontier x).eval.candidate = none := by rw [StrandState.moveFrontier_eq]; rfl
  unfold StrandState.resumeConf StrandState.confirming at h
  rw [hcandidate] at h
  dsimp only at h
  split at h
  · cases h
    rfl
  · cases h

/-- The map resumed at the tail t (R133). -/
def StrandState.resumed (st : StrandState) (e : Env) (n : Strand) (x t : Nat) (sc : Scan) : StrandState :=
  (st.resuming x).resumeMap e n t (if x = t then (st.resumeConf e n x sc).elim .unmeasured (·.1) else .unmeasured)

/-- The boundaries, the timer and the measured scan, on a strand r that is resumed (R80, R99, R130). -/
def StrandState.scannedOn (r : StrandState) (e : Env) (n : Strand) (x : Nat) (sc : Scan) (conf : Confirming) (made : List Nat) :
    StrandState := ((r.advanceMap e n x conf).startStale e n).measure e n x sc made

theorem StrandState.scanResuming_eq {st : StrandState} {y : Nat} (hy : st.map.tail.getD st.map.frontier = y) (e : Env) (n : Strand)
    (x : Nat) (sc : Scan) :
    st.scanResuming e n x sc = ((st.resumed e n x y sc).scannedOn e n x sc (st.resumeConf e n x sc)
      (y :: (st.resumed e n x y sc).offeredBy x)).raise e n .materialResumed 0 y x := by
  unfold StrandState.scanResuming
  rw [hy]
  rfl

theorem ScanKeeps.scanTracking (st : StrandState) (e : Env) (n : Strand) (x : Nat) (sc : Scan) :
    ScanKeeps st (st.scanTracking e n x sc) := by
  cases hm : sc.material with
  | true =>
    unfold StrandState.scanTracking
    dsimp only
    rw [if_pos hm]
    exact ((ScanKeeps.advanceMap st e n x _).counted 0 x).trans (.measure _ e n x sc _)
  | false =>
    have hcounted : ∀ conf, ScanKeeps st { st.advanceMap e n x conf with tailCount := st.tailCount + 1 } := fun conf =>
      (ScanKeeps.advanceMap st e n x conf).counted (st.tailCount + 1) (st.advanceMap e n x conf).lastMaterial
    cases ht : st.tailReached e n with
    | false =>
      rw [StrandState.scanTracking_of_blind hm ht]
      exact (hcounted _).trans (Drawn.track9 _ e n x _ _ _).redrawn.keeps
    | true =>
      rw [StrandState.scanTracking_of_tail hm ht]
      exact (hcounted _).trans (.confirmTail _ e n)

theorem ScanKeeps.scannedOn (r : StrandState) (e : Env) (n : Strand) (x : Nat) (sc : Scan) (conf : Confirming) (made : List Nat) :
    ScanKeeps r (r.scannedOn e n x sc conf made) := by
  have hadv := ScanKeeps.advanceMap r e n x conf
  unfold StrandState.scannedOn
  generalize r.advanceMap e n x conf = a at hadv ⊢
  exact ScanKeeps.trans (b := a.startStale e n) ⟨hadv.nose, hadv.chan, hadv.switch⟩ (.measure _ e n x sc made)

theorem ScanKeeps.scanResuming (st : StrandState) (e : Env) (n : Strand) (x : Nat) (sc : Scan) :
    ScanKeeps st (st.scanResuming e n x sc) := by
  rw [StrandState.scanResuming_eq rfl]
  generalize st.map.tail.getD st.map.frontier = y
  have hmap := ((st.resuming x).resumeMap_recut e n y
    (if x = y then (st.resumeConf e n x sc).elim .unmeasured (·.1) else .unmeasured)).1.redrawn.keeps
  have hresumed : ScanKeeps st (st.resumed e n x y sc) := ⟨hmap.nose, hmap.chan, hmap.switch⟩
  have hscanned := hresumed.trans (.scannedOn _ e n x sc (st.resumeConf e n x sc) (y :: (st.resumed e n x y sc).offeredBy x))
  generalize (st.resumed e n x y sc).scannedOn e n x sc (st.resumeConf e n x sc) (y :: (st.resumed e n x y sc).offeredBy x) = u
    at hscanned ⊢
  exact ⟨hscanned.nose, hscanned.chan, hscanned.switch⟩

/-! ### The gap segment -/

/-- The gap segment of a resumption at y, as R133 opens it. -/
structure SegBody.IsGap (b : SegBody) (y : Nat) : Prop where
  start : b.start = y
  dim : b.dim = .unmeasured
  unmerged : b.flags.merged = false

/-- The k-th segment is a gap from y. -/
def StrandMap.GapAt (m : StrandMap) (k y : Nat) : Prop := ∃ b, m.bodies[k]? = some b ∧ b.IsGap y

theorem StrandMap.GapAt.onCur {m m' : StrandMap} {k y : Nat} {c c' : SegBody} (h : m.GapAt k y) (hclosed : m'.closed = m.closed)
    (hc : m.cur = some c) (hc' : m'.cur = some c') (hgap : c.IsGap y → c'.IsGap y) : m'.GapAt k y := by
  obtain ⟨b, hb, hisgap⟩ := h
  unfold StrandMap.GapAt StrandMap.bodies
  rw [hclosed, hc']
  unfold StrandMap.bodies at hb
  rw [hc] at hb
  rw [Option.toList_some] at hb ⊢
  obtain hlt | rfl | hgt := lt_trichotomy k (m.closed.map (·.body)).length
  · rw [List.getElem?_append_left hlt] at hb ⊢
    exact ⟨b, hb, hisgap⟩
  · rw [List.getElem?_concat_length] at hb ⊢
    cases hb
    exact ⟨c', rfl, hgap hisgap⟩
  · rw [List.getElem?_eq_none (by rw [List.length_append, List.length_singleton]; omega)] at hb
    cases hb

theorem StrandMap.GapAt.concat {m m' : StrandMap} {k y : Nat} {b : SegBody} (h : m.GapAt k y) (hb : m'.bodies = m.bodies ++ [b]) :
    m'.GapAt k y := by
  obtain ⟨c, hc, hgap⟩ := h
  refine ⟨c, ?_, hgap⟩
  rw [hb, List.getElem?_append_left (List.getElem?_eq_some_iff.mp hc).choose, hc]

theorem StrandMap.GapAt.onOpen {st : StrandState} {k y : Nat} (h : st.map.GapAt k y) (f : SegBody → Stats) :
    (st.onOpen (fun b => { b with stats := f b })).map.GapAt k y := by
  cases hc : st.map.cur with
  | none =>
    have hsame : (st.onOpen (fun b => { b with stats := f b })).map = st.map := by
      rw [StrandState.onOpen, hc, Option.map_none, ← hc]
    rw [hsame]
    exact h
  | some c =>
    refine h.onCur (c' := { c with stats := f c }) rfl hc ?_ fun hgap => ⟨hgap.start, hgap.dim, hgap.unmerged⟩
    rw [StrandState.onOpen, hc]
    rfl

/-- A boundary beyond its start leaves a gap UNMEASURED, and so does an UNMEASURED one at it (R128, R129). -/
theorem StrandMap.GapAt.boundary {st : StrandState} {k y b : Nat} {dim : DimClass} (h : st.map.GapAt k y)
    (hopen : st.map.cur.isSome = true) (hroom : st.map.count < 60) (hdim : b ≤ y → dim = .unmeasured) (e : Env) (n : Strand)
    (stats : Stats) (others : List BoundarySource) : (st.boundary e n b dim stats others).map.GapAt k y := by
  obtain ⟨c, hc⟩ := Option.isSome_iff_exists.mp hopen
  by_cases hle : b ≤ c.start
  · rw [StrandState.boundary_recolours hc e n hle]
    refine h.onCur rfl hc rfl fun hgap => ⟨hgap.start, ?_, hgap.unmerged⟩
    rw [StrandState.recoloured, hgap.unmerged]
    exact hdim (hle.trans hgap.start.le)
  · rw [StrandState.boundary_breaks hc e n (Nat.not_le.mp hle) hroom]
    refine h.concat (b := ?_) ?_
    · exact { start := b, dim := dim, overlay := (st.fore.act b).overlay, index := st.index, edition := (e.recipe st).edition
              stats := stats }
    · simp [StrandMap.bodies, hc]

theorem StrandMap.GapAt.makeOffers {st : StrandState} {k y : Nat} {l : List Nat} {joint : Confirming} (h : st.map.GapAt k y)
    (hopen : st.map.cur.isSome = true) (hroom : st.map.count + l.length ≤ 60) (hconfirmed : st.eval.confirmed = .unmeasured)
    (hjoint : ∀ d z, joint = some (d, z) → y < z) (e : Env) (n : Strand) (sw : Option Nat) :
    (st.makeOffers e n sw false joint l).map.GapAt k y := by
  unfold StrandState.makeOffers
  induction l generalizing st with
  | nil => exact h
  | cons b l ih =>
    rw [List.length_cons] at hroom
    have hcount := st.boundary_count_le e n b (st.offeredClass false joint b) {} (offerSources sw joint b)
    have hclass : b ≤ y → st.offeredClass false joint b = .unmeasured := fun hb => by
      unfold StrandState.offeredClass
      cases hj : joint with
      | none => exact hconfirmed
      | some c => 
        obtain ⟨d, z⟩ := c
        have hz := hjoint d z hj
        show (if z = b then d else st.eval.confirmed) = .unmeasured
        rw [if_neg (by omega)]
        exact hconfirmed
    refine ih (h.boundary hopen (by omega) hclass e n {} _) ?_ (Nat.le_trans (Nat.add_le_add_right hcount _) (by omega)) ?_
    · rw [(Drawn.boundary st e n b _ {} _).opens]
      exact hopen
    · rw [StrandState.boundary_confirmed]
      exact hconfirmed

/-- A scan beyond y that begins a candidate leaves the gap (R99, R100). -/
theorem StrandMap.GapAt.track9 {st : StrandState} {k y x : Nat} (h : st.map.GapAt k y) (hopen : st.map.cur.isSome = true)
    (hroom : st.map.count < 60) (hk : st.eval.candidate = none) (hx : y < x) (e : Env) (n : Strand) (d : DimClass) (c : Contribution)
    (made : List Nat) : (st.track9 e n x d c made).map.GapAt k y := by
  obtain heq | ⟨cand, hcx, heq⟩ := StrandState.track9_of_none hk e n x d c made
  · rw [heq]
    exact h.onOpen _
  · rw [heq]
    unfold StrandState.holdCandidate StrandState.confirm
    dsimp only
    split
    · have hbeyond : x ≤ st.confirmationAt cand.start := by
        rw [← hcx]
        exact Nat.le_max_left _ _
      split
      · exact h.onOpen (st := { st with eval := { st.eval with confirmed := cand.state, candidate := none } }) fun b =>
          b.stats.add cand.side
      · exact StrandMap.GapAt.boundary (st := { st with eval := { st.eval with confirmed := cand.state, candidate := none } }) h hopen
          hroom (fun hle => by omega) e n cand.side _
    · exact h

/-- A gap behind the closed segments, by where it is found (R133). -/
theorem StrandMap.head_of_bodies {m : StrandMap} {cl rest : List Segment} (hc : m.closed = cl ++ rest) {α : Type} (f : SegBody → α) :
    (rest.head?.map (fun g => f g.body) <|> m.cur.map f) = m.bodies[cl.length]?.map f := by
  unfold StrandMap.bodies
  rw [hc, List.map_append, List.append_assoc, List.getElem?_append_right (by rw [List.length_map]), List.length_map, Nat.sub_self]
  cases rest with
  | nil => cases m.cur <;> rfl
  | cons g gs => rfl

/-! ### What the resumption leaves -/

theorem StrandState.scannedOn_drawn (r : StrandState) (e : Env) (n : Strand) (x : Nat) (sc : Scan) (conf : Confirming)
    (made : List Nat) :
    Drawn (((r.advanceMap e n x conf).startStale e n).tempered e n x sc) (r.scannedOn e n x sc conf made) := by
  rw [StrandState.scannedOn, StrandState.measure_eq]
  exact .track9 _ e n x _ _ _

/-- Behind the resumption segments are only added, and the strand stays as it was resumed (R128, R133). -/
theorem StrandState.scannedOn_keeps (r : StrandState) (e : Env) (n : Strand) (x : Nat) (sc : Scan) (conf : Confirming)
    (made : List Nat) :
    (r.scannedOn e n x sc conf made).track = r.track ∧ (r.scannedOn e n x sc conf made).tailCount = r.tailCount ∧
      (r.scannedOn e n x sc conf made).lastMaterial = r.lastMaterial ∧ (r.scannedOn e n x sc conf made).map.frontier = x ∧
      (r.scannedOn e n x sc conf made).map.tail = r.map.tail ∧
      (r.scannedOn e n x sc conf made).map.cur.isSome = r.map.cur.isSome ∧
      (r.scannedOn e n x sc conf made).port.stale = .running (e.clock + e.staleTime n) ∧
      r.map.Grows (r.scannedOn e n x sc conf made).map := by
  have hadv := Drawn.advanceMap r e n x conf
  have hd := r.scannedOn_drawn e n x sc conf made
  generalize r.scannedOn e n x sc conf made = u at hd ⊢
  generalize r.advanceMap e n x conf = a at hadv hd
  rw [r.moveFrontier_eq x] at hadv
  exact ⟨hd.redrawn.track.trans hadv.redrawn.track, hd.redrawn.tailCount.trans hadv.redrawn.tailCount,
    hd.redrawn.lastMaterial.trans hadv.redrawn.lastMaterial, hd.redrawn.frontier.trans hadv.redrawn.frontier,
    hd.redrawn.tail.trans hadv.redrawn.tail, hd.opens.trans hadv.opens, congrArg (·.stale) hd.redrawn.port,
    hadv.grows.trans hd.grows⟩

/-- A gap that r opens at y < x stays one, with a place for every boundary (R128, R129, R133). -/
theorem StrandMap.GapAt.scannedOn {r : StrandState} {k y x : Nat} (h : r.map.GapAt k y) (hopen : r.map.cur.isSome = true)
    (hroom : r.map.count + (r.offeredBy x).length < 60) (hconfirmed : r.eval.confirmed = .unmeasured)
    (hk : r.eval.candidate = none) {conf : Confirming} (hconf : ∀ d z, conf = some (d, z) → z = x) (hx : y < x) (e : Env) (n : Strand)
    (sc : Scan) (made : List Nat) : (r.scannedOn e n x sc conf made).map.GapAt k y := by
  have hmoved : (r.moveFrontier x).map.GapAt k y ∧ (r.moveFrontier x).map.cur = r.map.cur ∧
      (r.moveFrontier x).map.count = r.map.count ∧ (r.moveFrontier x).eval = r.eval := by
    rw [r.moveFrontier_eq x]
    exact ⟨h, rfl, rfl, rfl⟩
  obtain ⟨hgap, hcur, hcount, heval⟩ := hmoved
  have hjoint : ∀ d z, r.jointAt e n x conf = some (d, z) → y < z := fun d z hj => by
    obtain ⟨⟨d', z'⟩, hc, hz⟩ := Option.map_eq_some_iff.mp hj
    rw [← (Prod.mk.inj hz).2, hconf d' z' hc]
    exact hx.trans_le (Nat.le_max_left _ _)
  have hadv : (r.advanceMap e n x conf).map.GapAt k y := by
    rw [StrandState.advanceMap_eq]
    exact hgap.makeOffers (by rw [hcur]; exact hopen) (by omega) (by rw [heval]; exact hconfirmed) hjoint e n _
  have hadvCount : (r.advanceMap e n x conf).map.count ≤ r.map.count + (r.offeredBy x).length := by
    rw [StrandState.advanceMap_eq, ← hcount]
    exact StrandState.makeOffers_count_le _ e n _ _ _ _
  have hadvOpen : (r.advanceMap e n x conf).map.cur.isSome = true := by
    rw [(Drawn.advanceMap r e n x conf).opens, hcur]
    exact hopen
  have hadvCandidate : (r.advanceMap e n x conf).eval.candidate = none := by
    rw [StrandState.advanceMap_eq]
    exact StrandState.makeOffers_candidate (by rw [heval]; exact hk) e n _ _ _ _
  rw [StrandState.scannedOn, StrandState.measure_eq]
  generalize r.advanceMap e n x conf = a at hadv hadvCount hadvOpen hadvCandidate ⊢
  refine StrandMap.GapAt.track9 (st := (a.startStale e n).tempered e n x sc) hadv hadvOpen (hadvCount.trans_lt hroom) ?_ hx e n _ _ made
  exact (Evaluator.resolve_confirmed _ _ _ _).2.trans hadvCandidate

/-- The strand as the resumption at the map leaves it: TRACKING, with an open segment (R40, R133). -/
theorem StrandState.resumed_keeps (st : StrandState) (e : Env) (n : Strand) (x y : Nat) (sc : Scan) :
    (st.resumed e n x y sc).track = .tracking ∧ (st.resumed e n x y sc).tailCount = 0 ∧ (st.resumed e n x y sc).lastMaterial = x ∧
      (st.resumed e n x y sc).map.tail = st.map.tail ∧ (st.resumed e n x y sc).map.cur.isSome = true := by
  obtain ⟨hrecut, hopen⟩ := (st.resuming x).resumeMap_recut e n y
    (if x = y then (st.resumeConf e n x sc).elim .unmeasured (·.1) else .unmeasured)
  have hr : Redrawn { st.resuming x with cuts := (st.resumed e n x y sc).cuts } (st.resumed e n x y sc) := hrecut.redrawn
  exact ⟨hr.track, hr.tailCount, hr.lastMaterial, hr.tail, hopen⟩

/-- With a place for it, by the gap (R133, R137). -/
theorem StrandState.resumed_of_room {st : StrandState} (hroom : st.map.count < 60) (e : Env) (n : Strand) (x y : Nat) (sc : Scan) :
    (st.resumed e n x y sc).map.closed = st.map.closed ∧ (st.resumed e n x y sc).eval = (st.resuming x).eval ∧
      (st.resumed e n x y sc).fore = st.fore.act y ∧ ∃ b, (st.resumed e n x y sc).map.cur = some b ∧ b.start = y ∧
        (y < x → b.IsGap y) := by
  have hgap : st.resumed e n x y sc = (st.resuming x).openGap e n y
      (if x = y then (st.resumeConf e n x sc).elim .unmeasured (·.1) else .unmeasured) :=
    StrandState.resumeMap_of_room (st := st.resuming x) hroom e n y _
  rw [hgap, StrandState.openGap_eq]
  exact ⟨rfl, rfl, rfl, _, rfl, rfl, fun hx => ⟨rfl, if_neg hx.ne', rfl⟩⟩

/-- The strand TRACKING again from its tail, with MATERIAL_RESUMED (R40, R80, R133). -/
theorem StrandState.scanResuming_resumes {st : StrandState} {y : Nat} (hy : st.map.tail = some y) (e : Env) (n : Strand) (x : Nat)
    (sc : Scan) :
    (st.scanResuming e n x sc).track = .tracking ∧ (st.scanResuming e n x sc).tailCount = 0 ∧
      (st.scanResuming e n x sc).lastMaterial = x ∧ (st.scanResuming e n x sc).map.frontier = x ∧
      (st.scanResuming e n x sc).map.tail = some y ∧ (st.scanResuming e n x sc).map.cur.isSome = true ∧
      (st.scanResuming e n x sc).port.stale = .running (e.clock + e.staleTime n) ∧
      ∃ i : Incident, (st.scanResuming e n x sc).raised.getLast? = some i ∧ i.kind = .materialResumed ∧ i.strand = some n ∧
        i.coordinate = y ∧ i.detail = x := by
  obtain ⟨htrack, hcount, hlast, htail, hopen⟩ := st.resumed_keeps e n x y sc
  obtain ⟨htrack', hcount', hlast', hfrontier, htail', hopen', hstale, -⟩ := (st.resumed e n x y sc).scannedOn_keeps e n x sc
    (st.resumeConf e n x sc) (y :: (st.resumed e n x y sc).offeredBy x)
  rw [StrandState.scanResuming_eq (y := y) (by rw [hy, Option.getD_some])]
  generalize (st.resumed e n x y sc).scannedOn e n x sc (st.resumeConf e n x sc) (y :: (st.resumed e n x y sc).offeredBy x) = u
    at htrack' hcount' hlast' hfrontier htail' hopen' hstale ⊢
  exact ⟨htrack'.trans htrack, hcount'.trans hcount, hlast'.trans hlast, hfrontier, (htail'.trans htail).trans hy,
    hopen'.trans hopen, hstale, _, List.getLast?_concat, rfl, rfl, rfl, rfl⟩

/-- With a place for it the gap is the first new segment, from the tail; beyond the tail, with a place for every boundary, it stays
UNMEASURED (R133). -/
theorem StrandState.scanResuming_opens {st : StrandState} {y : Nat} (hy : st.map.tail = some y) (hroom : st.map.count < 60) (e : Env)
    (n : Strand) (x : Nat) (sc : Scan) : ∃ rest : List Segment, (st.scanResuming e n x sc).map.closed = st.map.closed ++ rest ∧
      (rest.head?.map (·.body.start) <|> (st.scanResuming e n x sc).map.cur.map (·.start)) = some y ∧
      (y < x → st.map.count + st.fore.offers.length + 2 < 60 →
        (rest.head?.map (·.body.dim) <|> (st.scanResuming e n x sc).map.cur.map (·.dim)) = some .unmeasured) := by
  obtain ⟨hclosed, heval, hfore, b, hb, hstart, hisgap⟩ := StrandState.resumed_of_room hroom e n x y sc
  obtain ⟨-, -, -, -, -, -, -, ⟨rest, hrest⟩, more, hmore⟩ := (st.resumed e n x y sc).scannedOn_keeps e n x sc
    (st.resumeConf e n x sc) (y :: (st.resumed e n x y sc).offeredBy x)
  have hraise : ∀ u : StrandState, (u.raise e n .materialResumed 0 y x).map = u.map := fun _ => rfl
  rw [StrandState.scanResuming_eq (y := y) (by rw [hy, Option.getD_some])]
  refine ⟨rest, by rw [← hclosed]; exact hrest, ?_, fun hx hall => ?_⟩
  · have hafter := StrandMap.starts_after hb hrest hmore
    rw [hstart] at hafter
    have hhead := congrArg List.head? hafter
    rw [List.head?_append, List.head?_map, Option.head?_toList, List.head?_cons] at hhead
    rw [hraise, Option.orElse_eq_orElse, Option.orElse_eq_or]
    exact hhead
  · have hoffers : ∀ a ∈ (st.resumed e n x y sc).fore.offers, a ∈ st.fore.offers := fun a ha =>
      (Forecast.offers_act (hfore ▸ ha)).1
    have hlength := StrandState.offeredBy_length hoffers x
    have hcount : (st.resumed e n x y sc).map.count ≤ st.map.count + 1 := by
      simp [StrandMap.count, hclosed, hb]
    have hgap : (st.resumed e n x y sc).map.GapAt st.map.closed.length y := by
      refine ⟨b, ?_, hisgap hx⟩
      rw [StrandMap.bodies, hclosed, hb, Option.toList_some, ← List.length_map (·.body), List.getElem?_concat_length]
    obtain ⟨c, hc, hgap⟩ := hgap.scannedOn (conf := st.resumeConf e n x sc) (by rw [hb]; rfl) (by omega)
      (by rw [heval]; rfl) (by rw [heval]; rfl) (fun d z => StrandState.resumeConf_start) hx e n sc (y :: (st.resumed e n x y sc).offeredBy x)
    rw [hclosed] at hrest
    rw [hraise, StrandMap.head_of_bodies hrest (·.dim)]
    exact (congrArg (Option.map (·.dim)) hc).trans (congrArg some hgap.dim)

/-! ## What a taking leaves of the strand -/

theorem ScanKeeps.takeScan {st : StrandState} {sc : Scan} (hre : ¬ st.isRescan sc = true)
    (ht : st.track = .tracking ∨ st.track = .tailed) (e : Env) (n : Strand) : ScanKeeps st (st.takeScan e n sc) := by
  unfold StrandState.takeScan
  obtain ht | ht := ht
  · rw [ht]
    dsimp only
    rw [if_neg hre]
    exact .scanTracking st e n _ sc
  · rw [ht]
    dsimp only
    split
    · exact ⟨rfl, rfl, .inl rfl⟩
    · exact .scanResuming st e n _ sc

/-- Settles O49: each kind of taking by its own lemmas, the state by `exec_scanTaking`. -/
theorem tailAndResumption : Obligations.TailAndResumption := by
  unfold Obligations.TailAndResumption
  intro s n sc p hs st x hp hhw hfrontier htrack
  have hre : ¬ st.isRescan sc = true := by
    rw [StrandState.isRescan_iff]
    omega
  have htracking : st.track = .tracking → st.takeScan s.env n sc = st.scanTracking s.env n x sc := fun ht => by
    simp [StrandState.takeScan, ht, hre]
    rfl
  have hkeeps := ScanKeeps.takeScan hre htrack s.env n
  obtain ⟨t, hexec, hservice, hothers, hstrand, hover, hrun⟩ := exec_scanTaking hs
  have hstrand : t.strand n = st.takeScan s.env n sc := hstrand
  rw [← hstrand] at hkeeps htracking
  refine ⟨t, hexec, hservice, hothers, hkeeps.nose, hkeeps.chan, hover, fun h => ?_, fun b ht hm hb => ?_, fun ht hm hc => ?_,
    fun ht hm hc hopen => ?_, fun y ht hm hy hx => ?_⟩
  · obtain h | h | h := h
    · exact hrun (.inl (hkeeps.switch.elim id (·.trans h.symm)))
    · exact hrun (.inr (.inl h))
    · exact hrun (.inr (.inr h))
  · rw [htracking ht]
    intro k r res feats d y thermalDefault
    have hk : k = st.entryAt x := rfl
    have hr : r = s.env.entry (st.entryAt x) := rfl
    have hres : res = (st.materialAt x).resolution s.env n sc := by
      rw [st.materialAt_resolution, hp, ← hk]
    have hy : y = (st.materialAt x).contribution s.env n sc := by
      rw [StrandState.contribution, ← hres, st.materialAt_recipe, ← hk]
    have hd : d = scanState ((st.materialAt x).contribution s.env n sc).feats := by
      rw [← hy]
    have hthermal : thermalDefault = (st.materialAt x).thermalDefault s.env n x sc := by
      rw [StrandState.thermalDefault, ← hres, st.materialAt_eq x]
      rfl
    obtain ⟨htrack', hcount, hlast, hfr, htail, hcuts, hport, hswitch, hrecipe⟩ :=
      StrandState.scanTracking_keeps hm (st := st) (e := s.env) (n := n) (x := x)
    rw [hy, hd, hk, hr, hres, hthermal]
    refine ⟨htrack'.trans ht, hcount, hlast, hfr, htail, hcuts, hport, hswitch, hrecipe, fun hb' hc => ?_,
      StrandState.scanTracking_resolved hm, StrandState.scanTracking_raised hm, StrandState.scanTracking_of_none hm,
      fun a ha hlt hroom hconfirmed => ?_, StrandState.scanTracking_starts hm hb⟩
    · refine StrandState.scanTracking_fore hm hfrontier ⟨fun b' hcur => ?_, fun c hcand => ?_⟩
      · cases hb.symm.trans hcur
        exact hb'.trans hfrontier
      · exact (hc c hcand).trans hfrontier
    · obtain ⟨hclosed, hcand, hconf, hcur⟩ := StrandState.scanTracking_of_one hm ha hb hlt hroom hconfirmed
      exact ⟨hclosed, hcand, hconf.trans hconfirmed.symm, by rw [hcur, hconfirmed]⟩
  · have hreached : st.tailReached s.env n = false := by
      rw [← Bool.not_eq_true, StrandState.tailReached_iff hp]
      omega
    rw [htracking ht]
    obtain ⟨htrack', hrest⟩ := StrandState.scanTracking_blind hm hreached x
    exact ⟨htrack'.trans ht, hrest⟩
  · rw [htracking ht]
    exact StrandState.scanTracking_tail hm ((StrandState.tailReached_iff hp).mpr hc) hopen x
  · have hresume : t.strand n = st.scanResuming s.env n x sc := by
      rw [hstrand]
      simp [StrandState.takeScan, ht, hre, hm]
      rfl
    rw [hresume]
    obtain ⟨htrack', hcount, hlast, hfr, htail, hopen, hstale, hraised⟩ := StrandState.scanResuming_resumes hy s.env n x sc
    exact ⟨htrack', hcount, hlast, hfr, htail, hopen, hstale, hraised,
      fun hroom => StrandState.scanResuming_opens hy hroom s.env n x sc⟩

end Sys2Proof.Machine
end

section
namespace Sys2Proof.Machine

/-! # Counted edges (R52 to R58, R170) -/

/-- QUADRATURE: one level changes, and A's new level against B's old one, or the two new ones, give the direction (R53). -/
theorem edgeDirection_quadrature (a0 b0 a b : Bool) : edgeDirection .quadrature a0 b0 a b =
    if a ≠ a0 ∧ b = b0 then some (a != b) else if a = a0 ∧ b ≠ b0 then some (a == b) else none := by
  revert a0 b0 a b
  decide

/-- SINGLE: a rising A is a forward edge (R54). -/
theorem edgeDirection_single (a0 b0 a b : Bool) : edgeDirection .single a0 b0 a b =
    if a0 = false ∧ a = true then some true else none := by
  revert a0 b0 a b
  decide

/-- The current position as the integer quotient (R56). -/
theorem positionOf_eq (acc : Int) : positionOf acc = if acc < 0 then 0 else (acc / 100000).toNat := by
  unfold positionOf Config.unitNanometres
  split
  · rfl
  · omega

/-- A forward edge adds a wheel step, up to the bound (R55). -/
theorem stepAccumulator_forward (acc : Int) (step : Nat) :
    stepAccumulator acc true step = min (acc + step) 400000000000000 := rfl

/-- A reverse edge subtracts it, where that is a signed 64-bit value (R55, log 13). -/
theorem stepAccumulator_reverse {acc : Int} {step : Nat} (h : -9223372036854775808 ≤ acc - step) :
    stepAccumulator acc false step = acc - step := by
  unfold stepAccumulator Config.accumulatorLeast
  rw [if_neg Bool.false_ne_true, if_neg (Int.not_lt.mpr h)]

/-- The channel after a counted edge that leaves the accumulator `acc` (R52, R55 to R58). -/
def Channel.counted (c : Channel) (forward : Bool) (step : Nat) (acc : Int) : Channel := { c with
  acc := acc
  windowSum := if forward then c.windowSum + step else c.windowSum - step
  hw := max c.hw (positionOf acc)
  reverse := if c.hw < positionOf acc then false else if positionOf acc < c.hw then true else c.reverse
  capReached := c.capReached || (forward && acc == 400000000000000) }

/-- The incidents it raises: COORD_LIMIT, then REVERSE (R55, R58). -/
def StrandState.edgeIncidents (st : StrandState) (e : Env) (n : Strand) (forward : Bool) (acc : Int) : List Incident :=
  (if forward = true ∧ acc = 400000000000000 ∧ st.chan.capReached = false ∧ st.track ≠ .off then
    [{ kind := .coordLimit, strand := some n, code := 0, coordinate := 4000000000, detail := 0, time := e.time }]
  else []) ++
  (if positionOf acc < st.chan.hw ∧ st.chan.reverse = false ∧ st.track ≠ .off then
    [{ kind := .reverse, strand := some n, code := 0, coordinate := st.chan.hw, detail := positionOf acc, time := e.time }]
  else [])

/-- An episode begins where the position falls below the high-water coordinate, and ends where it rises above it (R57, R58). -/
theorem reverse_after (r : Bool) (hw pos : Nat) : ((r || (decide (pos < hw) && !r)) && !decide (hw < pos)) =
    if hw < pos then false else if pos < hw then true else r := by
  rcases Nat.lt_trichotomy hw pos with h | rfl | h
  · simp [h]
  · simp
  · cases r <;> simp [h, Nat.lt_asymm h]

/-- An incident raised where a condition holds. -/
theorem StrandState.raise_if (st : StrandState) (e : Env) (n : Strand) (kind : IncidentKind) (code x d : Nat) (b : Bool) :
    (if b then st.raise e n kind code x d else st) = { st with raised := st.raised ++ if b = true then
      [{ kind := kind, strand := some n, code := code, coordinate := x, detail := d, time := e.time }] else [] } := by
  cases b
  · simp
  · rfl

/-- One counted edge, in its three effects: channel, incidents, marker (R52, R55 to R58, R170). -/
theorem StrandState.countEdge_eq (st : StrandState) (e : Env) (n : Strand) (forward : Bool) (step : Nat) {acc : Int}
    (hacc : stepAccumulator st.chan.acc forward step = acc) : st.countEdge e n forward step = { st with
      chan := st.chan.counted forward step acc
      raised := st.raised ++ st.edgeIncidents e n forward acc
      marker := if st.chan.hw < positionOf acc then st.marker.serve (positionOf acc) else st.marker } := by
  have hreverse := reverse_after st.chan.reverse st.chan.hw (positionOf acc)
  have hcap : (forward && decide (acc = Config.accumulatorBound)) = (forward && acc == 400000000000000) := by
    rw [Config.accumulatorBound, ← Bool.beq_eq_decide_eq]
  unfold StrandState.countEdge
  dsimp only
  rw [hacc, hreverse, hcap, StrandState.raise_if, StrandState.raise_if]
  simp only [Bool.and_eq_true, Bool.not_eq_true', decide_eq_true_eq, beq_iff_eq, and_assoc, List.append_assoc]
  by_cases h : st.chan.hw < positionOf acc
  · simp only [if_pos h, Channel.counted, StrandState.serve, Nat.max_eq_right (Nat.le_of_lt h)]
    rfl
  · simp only [if_neg h, Channel.counted]
    rfl

/-- The pins of a channel take new levels, which it samples while the part is ready (R53, R65). -/
theorem State.encoderEdge_eq (s : State) (n : Strand) (a b : Bool) : s.encoderEdge n a b = { s with
    strands := s.strands.set n
      (if s.ready then
        StrandState.sampleEdge { s.strand n with chan := { (s.strand n).chan with pinA := a, pinB := b } } s.env n a b
      else { s.strand n with chan := { (s.strand n).chan with pinA := a, pinB := b } }) } := by
  unfold State.encoderEdge
  split
  · simp only [State.onStrand, Four.get_set_self, Four.set_set]
    rfl
  · rfl

/-- ENCODER_EDGE completes with what its strand becomes. -/
theorem Completes.encoderEdge {s : State} {n : Strand} {a b : Bool} {st : StrandState}
    (h : (if s.ready then
        StrandState.sampleEdge { s.strand n with chan := { (s.strand n).chan with pinA := a, pinB := b } } s.env n a b
      else { s.strand n with chan := { (s.strand n).chan with pinA := a, pinB := b } }) = st) :
    Completes (.encoderEdge n a b) s { s with strands := s.strands.set n st } :=
  .of rfl (h ▸ s.encoderEdge_eq n a b)

/-- Settles O36: the edges by the truth tables, each kind of sample by `StrandState.sampleEdge`, a counted edge by
`StrandState.countEdge_eq`. -/
theorem encoderEdgeCounts : Obligations.EncoderEdgeCounts := by
  unfold Obligations.EncoderEdgeCounts
  refine ⟨edgeDirection_quadrature, edgeDirection_single, fun n a b s => ?_⟩
  intro st sampled
  refine ⟨fun hr => .encoderEdge (by simp [hr, st]), fun hr hstation => .encoderEdge ?_, fun t hr ht hno => .encoderEdge ?_,
    fun t forward hr ht hedge => ?_⟩
  · simp [hr, StrandState.sampleEdge, hstation, st, sampled]
  · simp [hr, StrandState.sampleEdge, ht, hno, st, sampled]
  · refine ⟨stepAccumulator st.chan.acc forward t.wheelStep, ?_, ?_, ?_⟩
    · rintro rfl
      exact stepAccumulator_forward _ _
    · rintro rfl
      exact stepAccumulator_reverse
    · have hcount := StrandState.countEdge_eq { st with chan := sampled } s.env n forward t.wheelStep rfl
      rw [← positionOf_eq]
      refine .encoderEdge ?_
      rw [if_pos hr, StrandState.sampleEdge, ht]
      dsimp only
      rw [hedge]
      exact hcount

/-! # The stop dwell (R63) -/

theorem State.dwellOver_iff (s : State) (n : Strand) :
    s.dwellOver n = true ↔ ∃ start, (s.strand n).chan.dwell = some start ∧ start + s.env.stopDwell n ≤ s.clock := by
  unfold State.dwellOver Channel.dwellOver
  cases (s.strand n).chan.dwell with
  | none => simp
  | some start =>
    simp only [Option.elim_some, decide_eq_true_eq, Option.some.injEq, exists_eq_left']
    rfl

/-- Settles O38: a dwell whose time has come by `StrandState.expireDwell_eq`. -/
theorem stopDwellExpires : Obligations.StopDwellExpires := by
  unfold Obligations.StopDwellExpires
  refine fun n s => ⟨fun start hdwell hover => ?_, fun hearly => ?_⟩
  · have hover := (s.dwellOver_iff n).mpr ⟨start, hdwell, hover⟩
    refine .of (congrArg Host.Outcome.next (if_pos hover)) ?_
    show { s with strands := s.strands.set n ((s.strand n).expireDwell) } = _
    rw [StrandState.expireDwell_eq]
  · refine congrArg Host.Outcome.next (if_neg fun hover => ?_)
    obtain ⟨start, hdwell, hover⟩ := (s.dwellOver_iff n).mp hover
    exact absurd hover (Nat.not_le.mpr (hearly start hdwell))

/-! # The qualifiers of SEAM and SAW (R66 to R70) -/

/-- The later of two changes of one input is made of the first's. -/
theorem State.onInput_onInput (s : State) (i : LineInput) (f g : Input → Input) :
    (s.onInput i f).onInput i g = s.onInput i (fun q => g (f q)) := by cases i <;> rfl

/-- A change of an input reads no other. -/
theorem State.onInput_congr (s : State) (i : LineInput) {f g : Input → Input} (h : f (s.inputs.get i) = g (s.inputs.get i)) :
    s.onInput i f = s.onInput i g := by
  cases i with
  | seam => exact congrArg (fun q => { s with inputs := { s.inputs with seam := q } }) h
  | saw => exact congrArg (fun q => { s with inputs := { s.inputs with saw := q } }) h

/-- A leading edge, by the qualifier it finds and the run (R66). -/
theorem State.leadingEdge_eq (s : State) (i : LineInput) : s.leadingEdge i = s.onInput i (fun q =>
    if s.ready = true ∧ (s.inputs.get i).state = .quiet then
      if s.grading = true then { active := true, state := .timing (s.clock + s.qualification i), latches := s.captures }
      else { q with active := true, state := .held }
    else { q with active := true }) := by
  unfold State.leadingEdge
  split
  · split <;> exact State.onInput_onInput s i _ _
  · rfl

/-- The timer of a TIMING qualifier, once its time has come, and before (R67, R69). -/
theorem State.qualify_of_timing {s : State} {i : LineInput} {due : Nat} (h : (s.inputs.get i).state = .timing due) : s.qualify i =
    if due ≤ s.clock then
      (s.onInput i (fun q => { q with state := .held, latches := ⟨none, none, none, none⟩ })).handOn i (s.inputs.get i).latches
    else s := by
  unfold State.qualify
  rw [h]

/-- Settles O39: each state of the qualifier by the branch of the event that meets it. -/
theorem qualifierEvents : Obligations.QualifierEvents := by
  unfold Obligations.QualifierEvents
  intro i s q empty
  have edge : ∀ q', (if s.ready = true ∧ q.state = .quiet then
        if s.grading = true then
          { active := true, state := .timing (s.clock + s.qualification i), latches := s.captures : Input }
        else { q with active := true, state := .held }
      else { q with active := true }) = q' → exec (.leadingEdge i) s = .next (s.onInput i (fun _ => q')) := fun q' h =>
    congrArg Host.Outcome.next ((s.leadingEdge_eq i).trans (s.onInput_congr i h))
  refine ⟨fun hr hq hopen => edge _ ?_, fun hr hq hended => edge _ ?_, fun h => edge _ ?_, fun due hq hdue => ?_, fun hearly => ?_,
    fun hr hq => ?_, fun due hr hq => ?_, fun h => ?_⟩
  · rw [if_pos ⟨hr, hq⟩, if_pos (s.grading_iff.mpr hopen)]
    rfl
  · rw [if_pos ⟨hr, hq⟩, if_neg]
    rw [State.grading_iff]
    rcases hended with h | h <;> simp [h]
  · rw [if_neg]
    rintro ⟨hr, hq⟩
    rcases h with h | h
    · rw [hr] at h
      cases h
    · exact h hq
  · refine congrArg Host.Outcome.next ((State.qualify_of_timing hq).trans ((if_pos hdue).trans ?_))
    cases i <;> rfl
  · refine congrArg Host.Outcome.next ?_
    unfold State.qualify
    split
    next due hq => exact if_neg (Nat.not_le.mpr (hearly due hq))
    · rfl
    · rfl
  · refine congrArg Host.Outcome.next ?_
    unfold State.inputInactive
    rw [if_pos hr, hq]
    exact (State.onInput_onInput s i _ _).trans (s.onInput_congr i rfl)
  · refine congrArg Host.Outcome.next ?_
    unfold State.inputInactive
    rw [if_pos hr, hq]
    cases i <;> rfl
  · have hkept : s.inputInactive i = s.onInput i (fun q => { q with active := false }) := by
      unfold State.inputInactive
      rcases h with h | h
      · rw [if_neg (by simp [h])]
      · rw [show (s.inputs.get i).state = .quiet from h]
        exact ite_self _
    exact congrArg Host.Outcome.next (hkept.trans (s.onInput_congr i rfl))

end Sys2Proof.Machine
end

section
namespace Sys2Proof.Machine

/-! # The limits of a strand's state (R55, R57, R78, R111, R153, R165)

`Within` says of an operation that nothing with a limit has grown, but for the pending cuts up to theirs; `Steady` also that the strand
stays as it is tracked, with an open segment where there was one; `Taken` that it stays graded or stays OFF. -/

/-! ## What map unit, evaluator and piece builder keep within -/

/-- From st to t the channel, the FIFO and the marker are as they were, no zone has entered, and the pending cuts have not grown past
their limit. -/
structure Within (st t : StrandState) : Prop where
  chan : t.chan = st.chan
  fifo : t.port.fifo = st.port.fifo
  marker : t.marker = st.marker
  zones : t.fore.zones.length ≤ st.fore.zones.length
  cuts : t.cuts.pending.length ≤ max st.cuts.pending.length Config.pendingCuts

theorem Within.of_same {st t : StrandState} (hchan : t.chan = st.chan) (hfifo : t.port.fifo = st.port.fifo)
    (hmarker : t.marker = st.marker) (hzones : t.fore.zones.length ≤ st.fore.zones.length)
    (hcuts : t.cuts.pending.length = st.cuts.pending.length) : Within st t :=
  ⟨hchan, hfifo, hmarker, hzones, hcuts ▸ Nat.le_max_left _ _⟩

theorem Within.trans {a b c : StrandState} (h : Within a b) (k : Within b c) : Within a c where
  chan := k.chan.trans h.chan
  fifo := k.fifo.trans h.fifo
  marker := k.marker.trans h.marker
  zones := k.zones.trans h.zones
  cuts := k.cuts.trans (Nat.max_le.mpr ⟨h.cuts, Nat.le_max_right _ _⟩)

theorem StrandState.InLimits.within {st t : StrandState} (h : st.InLimits) (w : Within st t) : t.InLimits where
  acc := by rw [w.chan]; exact h.acc
  hw := by rw [w.chan]; exact h.hw
  position := by rw [w.chan]; exact h.position
  fifo := by unfold LinkPort.scans; rw [w.fifo]; exact h.fifo
  zones := w.zones.trans h.zones
  cuts := w.cuts.trans (Nat.max_le.mpr ⟨h.cuts, Nat.le_refl _⟩)
  marks := by rw [w.marker]; exact h.marks

/-- `Within`, the strand tracked as before, an open segment where there was one. -/
structure Steady (st t : StrandState) : Prop where
  within : Within st t
  track : t.track = st.track
  opens : t.map.cur.isSome = st.map.cur.isSome

@[refl] theorem Steady.refl (st : StrandState) : Steady st st :=
  ⟨.of_same rfl rfl rfl (Nat.le_refl _) rfl, rfl, rfl⟩

theorem Steady.trans {a b c : StrandState} (h : Steady a b) (k : Steady b c) : Steady a c :=
  ⟨h.within.trans k.within, k.track.trans h.track, k.opens.trans h.opens⟩

theorem Steady.openAgrees {st t : StrandState} (h : Steady st t) (ho : st.OpenAgrees) : t.OpenAgrees := by
  unfold StrandState.OpenAgrees at *
  rw [h.opens, h.track]
  exact ho

theorem Redrawn.steady {st t : StrandState} (h : Redrawn st t) (hzones : t.fore.zones.length ≤ st.fore.zones.length)
    (hopens : t.map.cur.isSome = st.map.cur.isSome) : Steady st t :=
  ⟨.of_same h.chan (congrArg (·.port.fifo) h) (congrArg (·.marker) h) hzones (congrArg (·.cuts.pending.length) h), h.track, hopens⟩

theorem Drawn.steady {st t : StrandState} (h : Drawn st t) (hzones : t.fore.zones.length ≤ st.fore.zones.length) : Steady st t :=
  h.redrawn.steady hzones h.opens

/-- `Within`, and the strand stays graded or stays OFF. -/
structure Taken (st t : StrandState) : Prop where
  within : Within st t
  off : t.track = .off ↔ st.track = .off

theorem Taken.trans {a b c : StrandState} (h : Taken a b) (k : Taken b c) : Taken a c :=
  ⟨h.within.trans k.within, k.off.trans h.off⟩

theorem Steady.taken {st t : StrandState} (h : Steady st t) : Taken st t := ⟨h.within, by rw [h.track]⟩

/-! ## Boundaries and the frontier -/

theorem Forecast.act_length_le (f : Forecast) (b : Nat) : (f.act b).zones.length ≤ f.zones.length := List.length_filterMap_le _ _

theorem Forecast.advance_length_le (f : Forecast) (x : Nat) : (f.advance x).zones.length ≤ f.zones.length :=
  List.length_filterMap_le _ _

theorem Steady.boundary (st : StrandState) (e : Env) (n : Strand) (b : Nat) (dim : DimClass) (stats : Stats)
    (others : List BoundarySource) : Steady st (st.boundary e n b dim stats others) :=
  (Drawn.boundary st e n b dim stats others).steady (by rw [StrandState.boundary_fore]; exact st.fore.act_length_le b)

theorem Steady.makeOffers (st : StrandState) (e : Env) (n : Strand) (sw : Option Nat) (g : Bool) (joint : Confirming)
    (coords : List Nat) : Steady st (st.makeOffers e n sw g joint coords) := by
  unfold StrandState.makeOffers
  induction coords generalizing st with
  | nil => exact .refl st
  | cons b coords ih => exact (Steady.boundary st e n b _ _ _).trans (ih _)

theorem Steady.passSwitch (st : StrandState) (x : Nat) : Steady st (st.passSwitch x) := by
  rw [StrandState.passSwitch_eq]
  exact ⟨.of_same rfl rfl rfl (Nat.le_refl _) rfl, rfl, rfl⟩

theorem Steady.moveFrontier (st : StrandState) (x : Nat) : Steady st (st.moveFrontier x) := by
  rw [StrandState.moveFrontier_eq]
  exact ⟨.of_same rfl rfl rfl (Nat.le_refl _) rfl, rfl, rfl⟩

theorem Steady.advanceMap (st : StrandState) (e : Env) (n : Strand) (x : Nat) (conf : Confirming) :
    Steady st (st.advanceMap e n x conf) :=
  (Steady.moveFrontier st x).trans (.makeOffers _ e n _ _ _ _)

/-! ## The tracker -/

theorem Steady.onOpen (st : StrandState) {f : SegBody → SegBody} (hf : ∀ b, (f b).start = b.start) : Steady st (st.onOpen f) :=
  (Drawn.onOpen st hf).steady (Nat.le_refl _)

theorem Steady.confirm (st : StrandState) (e : Env) (n : Strand) (made : List Nat) (c : Candidate) :
    Steady st (st.confirm e n made c) := by
  have hconfirmed : Steady st { st with eval := { st.eval with confirmed := c.state, candidate := none } } :=
    ⟨.of_same rfl rfl rfl (Nat.le_refl _) rfl, rfl, rfl⟩
  unfold StrandState.confirm
  dsimp only
  split
  · exact hconfirmed.trans (.onOpen _ fun _ => rfl)
  · exact hconfirmed.trans (.boundary _ e n _ _ _ _)

theorem Steady.holdCandidate (st : StrandState) (e : Env) (n : Strand) (made : List Nat) (c : Candidate) :
    Steady st (st.holdCandidate e n made c) := by
  unfold StrandState.holdCandidate
  split
  · exact .confirm st e n made c
  · exact ⟨.of_same rfl rfl rfl (Nat.le_refl _) rfl, rfl, rfl⟩

theorem Steady.dropCandidate (st : StrandState) : Steady st st.dropCandidate :=
  (Drawn.dropCandidate st).steady (by rw [StrandState.dropCandidate_fore])

theorem Steady.foldOpen (st : StrandState) (c : Contribution) : Steady st (st.foldOpen c) :=
  (Drawn.foldOpen st c).steady (Nat.le_refl _)

theorem Steady.track9 (st : StrandState) (e : Env) (n : Strand) (x : Nat) (d : DimClass) (c : Contribution) (made : List Nat) :
    Steady st (st.track9 e n x d c made) := by
  obtain ⟨-, h⟩ | ⟨-, u, k, hu, -, -, h⟩ := st.track9_cases e n x d c made
  · rw [h]
    exact (Steady.dropCandidate st).trans (.foldOpen _ c)
  · rw [h]
    obtain rfl | rfl := hu
    · exact .holdCandidate _ e n made k
    · exact (Steady.dropCandidate st).trans (.holdCandidate _ e n made k)

theorem Steady.measure (st : StrandState) (e : Env) (n : Strand) (x : Nat) (sc : Scan) (made : List Nat) :
    Steady st (st.measure e n x sc made) := by
  rw [StrandState.measure_eq]
  exact Steady.trans (b := st.tempered e n x sc) ⟨.of_same rfl rfl rfl (Nat.le_refl _) rfl, rfl, rfl⟩ (.track9 _ e n x _ _ _)

/-! ## Scans and stale notices -/

theorem Steady.counted {a b : StrandState} (h : Steady a b) (i j : Nat) : Steady a { b with tailCount := i, lastMaterial := j } :=
  h.trans ⟨.of_same rfl rfl rfl (Nat.le_refl _) rfl, rfl, rfl⟩

theorem Taken.scanWaiting {st : StrandState} (ht : st.track = .waiting) (e : Env) (n : Strand) (x : Nat) (sc : Scan) :
    Taken st (st.scanWaiting e n x sc) := by
  have hwait : Steady st (st.waitAt x) := by
    rw [StrandState.waitAt_eq]
    exact ⟨.of_same rfl rfl rfl (Forecast.advance_length_le _ x) rfl, rfl, rfl⟩
  unfold StrandState.scanWaiting
  dsimp only
  split
  · have hnose : Taken (st.waitAt x) { (st.waitAt x).makeNose e n x with lastMaterial := x } := by
      refine ⟨.of_same ?_ ?_ ?_ ?_ ?_, ?_⟩
      case refine_6 => rw [StrandState.makeNose_eq, hwait.track, ht]; simp
      all_goals rw [StrandState.makeNose_eq]
    exact (hwait.taken.trans hnose).trans (Steady.measure _ e n x sc []).taken
  · exact hwait.taken

theorem Taken.confirmTail {st : StrandState} (ht : st.track ≠ .off) (e : Env) (n : Strand) : Taken st (st.confirmTail e n) := by
  cases h : st.map.cur with
  | none =>
    rw [StrandState.confirmTail_of_closed h]
    exact ((Steady.dropCandidate st).trans (.foldOpen _ _)).taken
  | some b =>
    rw [StrandState.confirmTail_of_open h]
    exact ⟨.of_same rfl rfl rfl (Nat.le_refl _) rfl, by simp [ht]⟩

theorem Taken.scanTracking {st : StrandState} (ht : st.track ≠ .off) (e : Env) (n : Strand) (x : Nat) (sc : Scan) :
    Taken st (st.scanTracking e n x sc) := by
  have hcounted : ∀ conf, Steady st { st.advanceMap e n x conf with tailCount := st.tailCount + 1 } := fun conf =>
    (Steady.advanceMap st e n x conf).counted (st.tailCount + 1) (st.advanceMap e n x conf).lastMaterial
  cases hm : sc.material with
  | true =>
    unfold StrandState.scanTracking
    dsimp only
    rw [if_pos hm]
    exact (((Steady.advanceMap st e n x _).counted 0 x).trans (.measure _ e n x sc _)).taken
  | false =>
    cases htail : st.tailReached e n with
    | false =>
      rw [StrandState.scanTracking_of_blind hm htail]
      exact ((hcounted _).trans (.track9 _ e n x _ _ _)).taken
    | true =>
      rw [StrandState.scanTracking_of_tail hm htail]
      exact (hcounted none).taken.trans (.confirmTail (by rw [(hcounted none).track]; exact ht) e n)

theorem Within.resumeMap (st : StrandState) (e : Env) (n : Strand) (t : Nat) (dim : DimClass) :
    Within st (st.resumeMap e n t dim) := by
  have hgap : Within st (st.openGap e n t dim) := by
    rw [StrandState.openGap_eq]
    exact .of_same rfl rfl rfl (st.fore.act_length_le t) (List.length_map _)
  unfold StrandState.resumeMap
  split
  · exact hgap
  · split
    · exact hgap
    · unfold StrandState.reopen
      dsimp only
      rw [StrandState.judgeMark_rest]
      exact .of_same rfl rfl rfl (st.fore.act_length_le t) rfl

theorem Steady.raise (st : StrandState) (e : Env) (n : Strand) (kind : IncidentKind) (code x d : Nat) :
    Steady st (st.raise e n kind code x d) := ⟨.of_same rfl rfl rfl (Nat.le_refl _) rfl, rfl, rfl⟩

theorem Steady.startStale (st : StrandState) (e : Env) (n : Strand) : Steady st (st.startStale e n) :=
  ⟨.of_same rfl rfl rfl (Nat.le_refl _) rfl, rfl, rfl⟩

theorem Steady.scannedOn (r : StrandState) (e : Env) (n : Strand) (x : Nat) (sc : Scan) (conf : Confirming) (made : List Nat) :
    Steady r (r.scannedOn e n x sc conf made) :=
  ((Steady.advanceMap r e n x conf).trans (.startStale _ e n)).trans (.measure _ e n x sc made)

theorem Taken.scanResuming {st : StrandState} (ht : st.track ≠ .off) (e : Env) (n : Strand) (x : Nat) (sc : Scan) :
    Taken st (st.scanResuming e n x sc) := by
  rw [StrandState.scanResuming_eq rfl]
  generalize st.map.tail.getD st.map.frontier = y
  have hresumed : Taken st (st.resumed e n x y sc) := by
    have hmap := Within.resumeMap (st.resuming x) e n y (if x = y then (st.resumeConf e n x sc).elim .unmeasured (·.1) else .unmeasured)
    refine ⟨⟨hmap.chan, hmap.fifo, hmap.marker, hmap.zones, hmap.cuts⟩, ?_⟩
    have htrack : (st.resumed e n x y sc).track = .tracking := ((st.resuming x).resumeMap_recut e n y _).1.redrawn.track
    simp [htrack, ht]
  exact (hresumed.trans (Steady.scannedOn _ e n x sc _ _).taken).trans (Steady.raise _ e n _ _ _ _).taken

theorem Steady.flagRescan (st : StrandState) : Steady st st.flagRescan := .onOpen st fun _ => rfl

theorem StrandState.takeScan_of_off {st : StrandState} (h : st.track = .off) (e : Env) (n : Strand) (sc : Scan) :
    st.takeScan e n sc = st := by simp [StrandState.takeScan, h]

theorem Taken.takeScan (st : StrandState) (e : Env) (n : Strand) (sc : Scan) : Taken st (st.takeScan e n sc) := by
  have same : Taken st st := (Steady.refl st).taken
  unfold StrandState.takeScan
  split
  · exact same
  next ht =>
    split
    · exact same
    · exact .scanWaiting ht e n _ sc
  next ht =>
    split
    · exact (Steady.flagRescan st).taken
    · exact .scanTracking (by rw [ht]; decide) e n _ sc
  next ht =>
    split
    · exact same
    · exact .scanResuming (by rw [ht]; decide) e n _ sc

theorem Steady.takeNotice (st : StrandState) (e : Env) (n : Strand) : Steady st (st.takeNotice e n) := by
  unfold StrandState.takeNotice
  split
  · exact .refl st
  · dsimp only
    split
    · exact .dropCandidate st
    · refine Steady.trans ((Steady.dropCandidate st).trans ?_) (.boundary _ e n _ _ _ _)
      exact ⟨.of_same rfl rfl rfl (Nat.le_refl _) rfl, rfl, rfl⟩

/-! ## Cuts -/

theorem Steady.cutBoundary (st : StrandState) (e : Env) (n : Strand) (c : Nat) : Steady st (st.cutBoundary e n c) := by
  unfold StrandState.cutBoundary
  dsimp only
  split
  · exact ⟨.of_same rfl rfl rfl (st.fore.act_length_le c) rfl, rfl, rfl⟩
  next cur hcur =>
    rw [StrandState.breakAt, StrandState.judgeMark_rest]
    exact ⟨.of_same rfl rfl rfl (st.fore.act_length_le c) rfl, rfl, (congrArg Option.isSome hcur).symm⟩

theorem Steady.extend (st : StrandState) (e : Env) (n : Strand) (c : Nat) : Steady st (st.extend e n c) := by
  have hgap : Steady st (st.gapAtFrontier e n) := (Steady.passSwitch st _).trans (.boundary _ e n _ _ _ _)
  unfold StrandState.extend
  dsimp only
  exact ((hgap.trans (.moveFrontier _ c)).trans (.makeOffers _ e n _ true none _)).trans (.cutBoundary _ e n c)

theorem Steady.divideMap (st : StrandState) (e : Env) (n : Strand) (c : Nat) : Steady st (st.divideMap e n c) := by
  unfold StrandState.divideMap
  split
  · exact .extend st e n c
  · split
    · exact ⟨.of_same rfl rfl rfl (Nat.le_refl _) rfl, rfl, rfl⟩
    · split
      · exact .refl st
      next cur hcur =>
        split
        · exact ⟨.of_same rfl rfl rfl (Nat.le_refl _) rfl, rfl, (congrArg Option.isSome hcur).symm⟩
        · exact .refl st

theorem Steady.joinAt (st : StrandState) (e : Env) (n : Strand) (k old : Nat) : Steady st (st.joinAt e n k old) := by
  unfold StrandState.joinAt
  split
  · exact ⟨.of_same rfl rfl rfl (Nat.le_refl _) rfl, rfl, rfl⟩
  · split
    · exact .refl st
    next b hcur =>
      rw [StrandState.judgeMark_rest]
      exact ⟨.of_same rfl rfl rfl (Nat.le_refl _) rfl, rfl, (congrArg Option.isSome hcur).symm⟩
  · exact .refl st

theorem Steady.withdrawNewest (st : StrandState) (e : Env) (n : Strand) (p : PendingCut) : Steady st (st.withdrawNewest e n p) := by
  have hcuts := st.withdrawNewest_cuts e n p
  have hlen : (st.withdrawNewest e n p).cuts.pending.length ≤ max st.cuts.pending.length Config.pendingCuts := by
    rw [hcuts, List.length_dropLast]
    omega
  have hjoin : Steady st (if p.place = .used then st.joinAt e n (heldSegs st.cuts.pending) p.coord else st) := by
    split
    · exact .joinAt st e n _ _
    · exact .refl st
  exact ⟨⟨hjoin.within.chan, hjoin.within.fifo, hjoin.within.marker, hjoin.within.zones, hlen⟩, hjoin.track, hjoin.opens⟩

/-- A cut enters a list that has not reached its limit. -/
theorem Steady.appendCut {a st : StrandState} (h : Steady a st)
    (hroom : st.cuts.pending.length < max a.cuts.pending.length Config.pendingCuts) (e : Env) (n : Strand) (c : Nat) (f j : Bool)
    (copy : VerdictCopy) : Steady a (st.appendCut e n c f j copy) := by
  have hdivide := h.trans (.divideMap st e n c)
  obtain ⟨p, hcuts, -⟩ := st.appendCut_cuts e n c f j copy
  have hlen : (st.appendCut e n c f j copy).cuts.pending.length ≤ max a.cuts.pending.length Config.pendingCuts := by
    rw [hcuts, List.length_append]
    exact hroom
  exact ⟨⟨hdivide.within.chan, hdivide.within.fifo, hdivide.within.marker, hdivide.within.zones, hlen⟩, hdivide.track,
    hdivide.opens⟩

theorem Steady.acceptCut (st : StrandState) (e : Env) (n : Strand) (source : CutSource) (c : Nat) :
    Steady st (st.acceptCut e n source c) := by
  unfold StrandState.acceptCut
  dsimp only
  split
  next hroom => exact .appendCut (.refl st) (Nat.lt_of_lt_of_le hroom (Nat.le_max_right _ _)) e n c _ _ _
  · split
    · exact .refl st
    next p hp =>
      have hpos : 0 < st.cuts.pending.length := List.length_pos_of_mem (List.mem_of_getLast? hp)
      have hroom : (st.withdrawNewest e n p).cuts.pending.length < max st.cuts.pending.length Config.pendingCuts := by
        rw [StrandState.withdrawNewest_cuts, List.length_dropLast]
        omega
      have hcut := Steady.appendCut (.withdrawNewest st e n p) hroom e n c (p.isFinal || source == .final) true (verdictCopy e st)
      exact hcut.trans (.raise _ e n _ _ _ _)

theorem Steady.cutBehind (st : StrandState) (e : Env) (n : Strand) (source : CutSource) (x : Nat) :
    Steady st (st.cutBehind e n source x) := by
  unfold StrandState.cutBehind StrandState.judgeCut
  split
  · exact .refl st
  · split
    · exact .refl st
    · split
      · exact .refl st
      · split
        · exact .raise st e n _ _ _ _
        · split
          · split
            · split
              · exact .raise st e n _ _ _ _
              · exact .acceptCut st e n source _
            · exact .acceptCut st e n source _
          · exact .acceptCut st e n source _

theorem markFinal_length (ps : List PendingCut) : (markFinal ps).length = ps.length := by
  simpa using congrArg List.length (markFinal_coords ps)

theorem Steady.finalCut (st : StrandState) (e : Env) (n : Strand) : Steady st (st.finalCut e n) := by
  unfold StrandState.finalCut
  split
  · exact ⟨.of_same rfl rfl rfl (Nat.le_refl _) (markFinal_length _), rfl, rfl⟩
  · exact .acceptCut st e n .final _

/-! ## The end of a run -/

/-- The map of a TRACKING strand closes, and the strand goes OFF (R45). -/
theorem Within.closeMap (st : StrandState) (e : Env) (n : Strand) :
    Within st { st.dropCandidate.closeMap e n with track := .off } := by
  cases h : st.map.cur with
  | none =>
    rw [StrandState.closeMap_of_closed h]
    exact .of_same rfl rfl rfl (Nat.le_refl _) rfl
  | some b =>
    rw [StrandState.closeMap_of_open h]
    exact .of_same rfl rfl rfl (Nat.le_refl _) (st.closedAtEnd_cuts e n b).2

theorem Within.ended (st : StrandState) : Within st st.ended := .of_same rfl rfl rfl (Nat.zero_le _) rfl

theorem Within.endRun (st : StrandState) (e : Env) (n : Strand) : Within st (st.endRun e n) := by
  cases h : st.track with
  | tracking =>
    rw [StrandState.endRun_of_tracking h]
    exact ((Within.closeMap st e n).trans (Steady.finalCut _ e n).within).trans (.ended _)
  | tailed =>
    rw [StrandState.endRun_of_tailed h]
    exact (Steady.finalCut st e n).within.trans (.ended _)
  | waiting =>
    rw [StrandState.endRun_of_unplaced (.inl h)]
    exact .ended st
  | off =>
    rw [StrandState.endRun_of_unplaced (.inr h)]
    exact .ended st

theorem Within.abandon (st : StrandState) (e : Env) (n : Strand) : Within st (st.abandon e n) := by
  unfold StrandState.abandon
  rw [StrandState.endMark_eq]
  exact ⟨rfl, rfl, rfl, Nat.zero_le _, Nat.zero_le _⟩

end Sys2Proof.Machine
end

section
namespace Sys2Proof.Machine

/-! # A strand's part of the invariant

## What it says, and what it lets be changed -/

/-- What a strand's state meets: its limits and its open segment; it is OFF unless it is graded, and in an open run its map fits
(3.3, R36, R45). -/
structure StrandOk (graded inRun : Prop) (st : StrandState) : Prop where
  limits : st.InLimits
  opens : st.OpenAgrees
  track : st.track ≠ .off ↔ graded
  map : inRun → st.MapOk

section
variable {g r : Prop} {st t : StrandState}

theorem StrandOk.of_shape (h : StrandOk g r st) (hshape : SameShape st t) (hlimits : t.InLimits) : StrandOk g r t where
  limits := hlimits
  opens := hshape.opens h.opens
  track := by rw [hshape.track]; exact h.track
  map hr := (h.map hr).of_same hshape

/-- Evaluator, map unit and piece builder as they were. -/
theorem StrandOk.of_map (h : StrandOk g r st) (htrack : t.track = st.track) (hmap : t.map = st.map) (hcuts : t.cuts = st.cuts)
    (heval : t.eval = st.eval) (hlimits : t.InLimits) : StrandOk g r t :=
  h.of_shape ⟨htrack, by rw [hmap], by rw [hmap], by rw [hmap], by rw [hmap], by rw [hmap], hcuts,
    fun c hc => ⟨c, by rw [← heval]; exact hc, rfl⟩⟩ hlimits

theorem StrandOk.imp {g' r' : Prop} (h : StrandOk g r st) (hg : g' ↔ g) (hr : r' → r) : StrandOk g' r' st :=
  ⟨h.limits, h.opens, h.track.trans hg.symm, fun k => h.map (hr k)⟩

theorem StrandOk.setChan (h : StrandOk g r st) {c : Channel} (hacc : c.acc ≤ Config.accumulatorBound) (hhw : c.hw ≤ Config.coordCap)
    (hposition : c.position ≤ c.hw) : StrandOk g r { st with chan := c } :=
  h.of_map rfl rfl rfl rfl ⟨hacc, hhw, hposition, h.limits.fifo, h.limits.zones, h.limits.cuts, h.limits.marks⟩

/-- Accumulator and high-water coordinate as they were. -/
theorem StrandOk.setChan_same (h : StrandOk g r st) {c : Channel} (hacc : c.acc = st.chan.acc) (hhw : c.hw = st.chan.hw) :
    StrandOk g r { st with chan := c } := by
  have hposition : c.position = st.chan.position := congrArg positionOf hacc
  exact h.setChan (hacc ▸ h.limits.acc) (hhw ▸ h.limits.hw) (hposition ▸ hhw ▸ h.limits.position)

theorem StrandOk.setPort (h : StrandOk g r st) {p : LinkPort} (hfifo : p.scans ≤ Config.fifoScans) :
    StrandOk g r { st with port := p } :=
  h.of_map rfl rfl rfl rfl ⟨h.limits.acc, h.limits.hw, h.limits.position, hfifo, h.limits.zones, h.limits.cuts, h.limits.marks⟩

theorem StrandOk.setFore (h : StrandOk g r st) {f : Forecast} (hzones : f.zones.length ≤ Config.forecastZones) :
    StrandOk g r { st with fore := f } :=
  h.of_map rfl rfl rfl rfl ⟨h.limits.acc, h.limits.hw, h.limits.position, h.limits.fifo, hzones, h.limits.cuts, h.limits.marks⟩

theorem StrandOk.setMarker (h : StrandOk g r st) {m : Marker} (hmarks : m.queue.length ≤ Config.markIntervals) :
    StrandOk g r { st with marker := m } :=
  h.of_map rfl rfl rfl rfl ⟨h.limits.acc, h.limits.hw, h.limits.position, h.limits.fifo, h.limits.zones, h.limits.cuts, hmarks⟩

/-- What has no part in the invariant: the recipe and the pending switch, requests and incidents on their way. -/
theorem StrandOk.setRest (h : StrandOk g r st) (recipe : Option (Fin 8)) (switch : Option Switch) (stopMail : List Nat)
    (foreMail : List MarkRequest) (mapMail : List MapMessage) (raised : List Incident) : StrandOk g r { st with
      recipe := recipe, switch := switch, stopMail := stopMail, foreMail := foreMail, mapMail := mapMail, raised := raised } :=
  h.of_map rfl rfl rfl rfl ⟨h.limits.acc, h.limits.hw, h.limits.position, h.limits.fifo, h.limits.zones, h.limits.cuts, h.limits.marks⟩

theorem StrandOk.raise (h : StrandOk g r st) (e : Env) (n : Strand) (kind : IncidentKind) (code x d : Nat) :
    StrandOk g r (st.raise e n kind code x d) := h.setRest _ _ _ _ _ _

/-! ## The length channel (R55 to R58, R60 to R63) -/

theorem stepAccumulator_le {acc : Int} (h : acc ≤ Config.accumulatorBound) (forward : Bool) (step : Nat) :
    stepAccumulator acc forward step ≤ Config.accumulatorBound := by
  unfold stepAccumulator
  split
  · exact min_le_right _ _
  · split
    · exact min_le_right _ _
    · omega

theorem positionOf_le {acc : Int} (h : acc ≤ Config.accumulatorBound) : positionOf acc ≤ Config.coordCap := by
  rw [positionOf_eq]
  unfold Config.accumulatorBound at h
  unfold Config.coordCap
  split <;> omega

theorem Marker.serve_length_le (m : Marker) (hw : Nat) : (m.serve hw).queue.length ≤ m.queue.length :=
  (List.dropWhile_sublist _).length_le

theorem StrandOk.serve (h : StrandOk g r st) : StrandOk g r st.serve :=
  h.setMarker ((st.marker.serve_length_le _).trans h.limits.marks)

theorem StrandOk.countEdge (h : StrandOk g r st) (e : Env) (n : Strand) (forward : Bool) (step : Nat) :
    StrandOk g r (st.countEdge e n forward step) := by
  have hacc := stepAccumulator_le h.limits.acc forward step
  rw [StrandState.countEdge_eq st e n forward step rfl]
  have hcounted := h.setChan (c := st.chan.counted forward step _) hacc (Nat.max_le.mpr ⟨h.limits.hw, positionOf_le hacc⟩)
    (Nat.le_max_right _ _)
  refine (hcounted.setRest _ _ _ _ _ _).setMarker ?_
  split
  · exact (st.marker.serve_length_le _).trans h.limits.marks
  · exact h.limits.marks

theorem StrandOk.sampleEdge (h : StrandOk g r st) (e : Env) (n : Strand) (a b : Bool) : StrandOk g r (st.sampleEdge e n a b) := by
  have hsampled : StrandOk g r { st with chan := { st.chan with lastA := a, lastB := b } } := h.setChan_same rfl rfl
  unfold StrandState.sampleEdge
  dsimp only
  split
  · exact hsampled
  · split
    · exact hsampled
    · exact hsampled.countEdge e n _ _

theorem Channel.endWindow_acc (c : Channel) (e : Env) (n : Strand) : (c.endWindow e n).acc = c.acc := by
  rw [Channel.endWindow_eq]
  repeat' split
  all_goals rfl

/-- A stale notice is no scan (R78). -/
theorem LinkPort.scans_notice (p q : LinkPort)
    (hq : q.fifo = if p.fifo.contains .notice then p.fifo else p.fifo ++ [.notice]) : q.scans = p.scans := by
  unfold LinkPort.scans
  rw [hq]
  split
  · rfl
  · simp [FifoEntry.isScan]

theorem StrandOk.goStale (h : StrandOk g r st) (e : Env) (n : Strand) : StrandOk g r (st.goStale e n) := by
  unfold StrandState.goStale
  exact (h.setPort ((LinkPort.scans_notice st.port _ rfl).trans_le h.limits.fifo)).raise e n _ _ _ _

theorem StrandOk.endWindow (h : StrandOk g r st) (e : Env) (n : Strand) : StrandOk g r (st.endWindow e n) := by
  have hwindow : StrandOk g r { st with chan := st.chan.endWindow e n } :=
    h.setChan_same (st.chan.endWindow_acc e n) (st.chan.endWindow_hw e n)
  unfold StrandState.endWindow
  dsimp only
  split
  · exact hwindow.goStale e n
  · exact hwindow

theorem StrandOk.expireDwell (h : StrandOk g r st) : StrandOk g r st.expireDwell := by
  have hhalted := h.setChan_same (c := { st.chan with motion := .halted, startCount := 0, dwell := none }) rfl rfl
  rw [StrandState.expireDwell_eq]
  exact hhalted.setRest _ _ _ _ _ _

theorem StrandOk.adopt (h : StrandOk g r st) (e : Env) (n : Strand) : StrandOk g r (st.adopt e n) := by
  have hdwell : StrandOk g r (st.rejudgeDwell e n) := by
    unfold StrandState.rejudgeDwell
    split
    · exact h.expireDwell
    · exact h
  unfold StrandState.adopt
  dsimp only
  split
  · have hmarker := hdwell.setMarker (m := {}) (Nat.zero_le _)
    exact hmarker.setRest _ _ _ _ _ _
  · exact hdwell

/-! ## The gauge link (R72 to R81) -/

theorem StrandOk.startStale (h : StrandOk g r st) (e : Env) (n : Strand) : StrandOk g r (st.startStale e n) :=
  h.setPort h.limits.fifo

theorem StrandOk.disarmStale (h : StrandOk g r st) : StrandOk g r st.disarmStale := h.setPort h.limits.fifo

theorem StrandOk.expireStale (h : StrandOk g r st) (e : Env) (n : Strand) : StrandOk g r (st.expireStale e n) := by
  unfold StrandState.expireStale
  split
  · exact h.goStale e n
  · exact h.setPort h.limits.fifo

theorem StrandOk.setAssembling (h : StrandOk g r st) (on : Bool) : StrandOk g r (st.setAssembling on) := h.setPort h.limits.fifo

theorem StrandOk.linkCheck (h : StrandOk g r st) (e : Env) (n : Strand) (d : Nat) : StrandOk g r (st.linkCheck e n d) := by
  unfold StrandState.linkCheck
  split
  · exact h
  · exact h.raise e n _ _ _ _

theorem StrandOk.trackSeq (h : StrandOk g r st) (e : Env) (n : Strand) (seq : Byte) : StrandOk g r (st.trackSeq e n seq) := by
  have hseq : StrandOk g r { st with port := { st.port with lastSeq := some seq } } := h.setPort h.limits.fifo
  unfold StrandState.trackSeq
  dsimp only
  split
  · exact hseq
  · split
    · exact hseq
    · exact hseq.raise e n _ _ _ _

theorem StrandOk.trackFault (h : StrandOk g r st) (e : Env) (n : Strand) (sc : Scan) : StrandOk g r (st.trackFault e n sc) := by
  have hfault : StrandOk g r { st with port := { st.port with fault := sc.laserFault } } := h.setPort h.limits.fifo
  unfold StrandState.trackFault
  dsimp only
  split
  · exact hfault.raise e n _ _ _ _
  · exact hfault

/-- A scan enters a FIFO that holds fewer than 16 (R78). -/
theorem StrandOk.enqueueScan (h : StrandOk g r st) (e : Env) (n : Strand) (sc : Scan) : StrandOk g r (st.enqueueScan e n sc) := by
  unfold StrandState.enqueueScan
  split
  next hroom =>
    refine h.setPort ?_
    unfold LinkPort.scans at hroom ⊢
    rw [List.countP_append, List.countP_singleton]
    exact hroom
  · exact h.raise e n _ _ _ _

theorem StrandOk.frameStale (h : StrandOk g r st) (e : Env) (n : Strand) : StrandOk g r (st.frameStale e n) := by
  unfold StrandState.frameStale
  split
  · exact h.startStale e n
  · exact h.startStale e n
  · exact h.disarmStale
  · exact h.disarmStale

theorem StrandOk.acceptFrame (h : StrandOk g r st) (e : Env) (n : Strand) (content : List Byte) :
    StrandOk g r (st.acceptFrame e n content) := by
  unfold StrandState.acceptFrame
  dsimp only
  split
  · exact h.trackSeq e n _
  · exact (((h.trackSeq e n _).trackFault e n _).enqueueScan e n _).frameStale e n

theorem StrandOk.arrive (h : StrandOk g r st) (e : Env) (n : Strand) (content : List Byte) (finished : Bool) :
    StrandOk g r (st.arrive e n content finished) := by
  unfold StrandState.arrive
  split
  · exact h.linkCheck e n 1
  · split
    · exact h.linkCheck e n 3
    · split
      · exact h.linkCheck e n 2
      · exact h.acceptFrame e n content

/-- The oldest entry of the FIFO goes into service (R83). -/
theorem StrandOk.serveFifo (h : StrandOk g r st) {x : FifoEntry} {rest : List FifoEntry} (hfifo : st.port.fifo = x :: rest) :
    StrandOk g r { st with port := { st.port with fifo := rest } } := by
  refine h.setPort (le_trans ?_ h.limits.fifo)
  unfold LinkPort.scans
  rw [hfifo]
  exact (List.sublist_cons_self x rest).countP_le

/-! ## The forecast unit (R111 to R118) -/

theorem length_takeWhile_add_dropWhile {α : Type} (p : α → Bool) (l : List α) :
    (l.takeWhile p).length + (l.dropWhile p).length = l.length := by
  rw [← List.length_append, List.takeWhile_append_dropWhile]

theorem insertZone_length (zs : List Zone) (z : Zone) : (insertZone zs z).length = zs.length + 1 := by
  have h := length_takeWhile_add_dropWhile (fun y : Zone => y.start ≤ z.start) zs
  unfold insertZone
  rw [List.length_append, List.length_cons]
  omega

theorem takeNeighbour_length {zs rest : List Zone} {z y : Zone} (h : takeNeighbour zs z = some (y, rest)) :
    rest.length + 1 = zs.length := by
  have hparts := length_takeWhile_add_dropWhile (fun y : Zone => y.start ≤ z.start) zs
  unfold takeNeighbour at h
  dsimp only at h
  generalize zs.takeWhile (fun y => decide (y.start ≤ z.start)) = before at h hparts
  generalize zs.dropWhile (fun y => decide (y.start ≤ z.start)) = after at h hparts
  split at h
  · obtain ⟨p, hp, e⟩ := Option.map_eq_some_iff.mp h
    cases e
    have hpos : 0 < before.length := List.length_pos_of_mem (List.mem_of_getLast? hp)
    rw [List.length_append, List.length_dropLast]
    omega
  · obtain ⟨s, hs, e⟩ := Option.map_eq_some_iff.mp h
    cases e
    have hpos : 0 < after.length := List.length_pos_of_mem (List.mem_of_head? hs)
    rw [List.length_append, List.length_tail]
    omega

theorem StrandOk.sendZoneMark (h : StrandOk g r st) (e : Env) (n : Strand) (governing : Recipe) (cls : ZoneClass) (start stop : Nat) :
    StrandOk g r (st.sendZoneMark e n governing cls start stop) := by
  unfold StrandState.sendZoneMark
  split
  · exact h
  · split
    · exact h.setRest _ _ _ _ _ _
    · exact h

theorem StrandOk.enterZone (h : StrandOk g r st) (hroom : st.fore.zones.length < Config.forecastZones) (e : Env) (n : Strand)
    (governing : Recipe) (z : Zone) : StrandOk g r (st.enterZone e n governing z) := by
  unfold StrandState.enterZone
  exact (h.setFore ((insertZone_length _ z).trans_le hroom)).sendZoneMark e n _ _ _ _

theorem StrandOk.mergeZone (h : StrandOk g r st) (e : Env) (n : Strand) (governing : Recipe) (z : Zone) :
    StrandOk g r (st.mergeZone e n governing z) := by
  unfold StrandState.mergeZone
  split
  · exact h
  next neighbour rest hn =>
    have hlength : (insertZone rest (neighbour.merge z)).length ≤ Config.forecastZones :=
      ((insertZone_length _ _).trans (takeNeighbour_length hn)).trans_le h.limits.zones
    exact ((h.setFore hlength).raise e n _ _ _ _).sendZoneMark e n _ _ _ _

theorem StrandOk.autoZone (h : StrandOk g r st) (e : Env) (n : Strand) (governing : Recipe) (cls : ZoneClass) (origin : Origin)
    (start stop : Nat) : StrandOk g r (st.autoZone e n governing cls origin start stop) := by
  unfold StrandState.autoZone
  dsimp only
  split
  · exact h
  · split
    · exact h
    · split
      next hroom => exact h.enterZone hroom e n _ _
      · exact h.mergeZone e n _ _

theorem StrandOk.forecastSeam (h : StrandOk g r st) (e : Env) (n : Strand) (grant : Option SeamGrant) :
    StrandOk g r (st.forecastSeam e n grant) := by
  unfold StrandState.forecastSeam
  split
  · split
    · exact h
    · exact h.autoZone e n _ _ _ _ _
  · split
    · exact h
    · exact h.autoZone e n _ _ _ _ _
  · exact h

theorem StrandOk.forecastStop (h : StrandOk g r st) (e : Env) (n : Strand) (capture : Nat) :
    StrandOk g r (st.forecastStop e n capture) := by
  unfold StrandState.forecastStop
  dsimp only
  split
  · split
    · exact h
    · exact h.autoZone e n _ _ _ _ _
  · split
    · exact h
    · exact h.autoZone e n _ _ _ _ _
  · exact h
  · exact h

theorem StrandOk.takeStop (h : StrandOk g r st) (e : Env) (n : Strand) : StrandOk g r (st.takeStop e n) := by
  unfold StrandState.takeStop
  split
  · exact h
  · exact (h.setRest _ _ _ _ _ _).forecastStop e n _

/-! ## The marker unit (R165 to R171) -/

theorem mergeInterval_length_le (q : List Interval) (incoming : Interval) : (mergeInterval q incoming).length ≤ max q.length 1 := by
  have hparts := length_takeWhile_add_dropWhile (fun i : Interval => i.on ≤ incoming.on) q
  unfold mergeInterval
  dsimp only
  generalize q.takeWhile (fun i => decide (i.on ≤ incoming.on)) = before at hparts ⊢
  generalize q.dropWhile (fun i => decide (i.on ≤ incoming.on)) = after at hparts ⊢
  cases hp : before.getLast? with
  | none =>
    cases after with
    | nil => exact Nat.le_max_right _ _
    | cons s rest => simp at hparts ⊢; omega
  | some p =>
    have hpos : 0 < before.length := List.length_pos_of_mem (List.mem_of_getLast? hp)
    cases after with
    | nil => simp at hparts ⊢; omega
    | cons s rest =>
      dsimp only
      split
      · simp at hparts ⊢; omega
      · simp at hparts ⊢; omega

/-- The incoming interval takes the place of those it touches (R167). -/
theorem joinInterval_length_le {gap : Nat} {q : List Interval} {incoming : Interval} (h : q.any (Interval.touches gap incoming) = true) :
    (joinInterval gap q incoming).length ≤ q.length := by
  have hparts := length_takeWhile_add_dropWhile (fun i => !Interval.touches gap incoming i) q
  unfold joinInterval
  dsimp only
  cases hd : q.dropWhile (fun i => !Interval.touches gap incoming i) with
  | nil =>
    rw [List.dropWhile_eq_nil_iff] at hd
    obtain ⟨i, hi, htouch⟩ := List.any_eq_true.mp h
    exact absurd htouch (by simpa using hd i hi)
  | cons j rest =>
    have hfirst : (!Interval.touches gap incoming j) = false := by
      have hj := List.head?_dropWhile_not (fun i => !Interval.touches gap incoming i) q
      rw [hd] at hj
      exact hj
    rw [List.filter_cons_of_neg (by simp [hfirst]), List.length_append, List.length_cons]
    rw [hd, List.length_cons] at hparts
    have hrest := List.length_filter_le (fun i => !Interval.touches gap incoming i) rest
    omega

theorem insertInterval_length (q : List Interval) (incoming : Interval) : (insertInterval q incoming).length = q.length + 1 := by
  have h := length_takeWhile_add_dropWhile (fun i : Interval => i.on ≤ incoming.on) q
  unfold insertInterval
  rw [List.length_append, List.length_cons]
  omega

theorem placeInterval_length_le (gap : Nat) {q : List Interval} (h : q.length ≤ Config.markIntervals) (incoming : Interval) :
    (placeInterval gap q incoming).length ≤ Config.markIntervals := by
  unfold placeInterval
  split
  next htouch => exact (joinInterval_length_le htouch).trans h
  · split
    next hroom => exact (insertInterval_length q incoming).trans_le hroom
    · exact (mergeInterval_length_le q incoming).trans (Nat.max_le.mpr ⟨h, by decide⟩)

theorem StrandOk.placeMark (h : StrandOk g r st) (gap : Nat) (i : Interval) :
    StrandOk g r (StrandState.serve { st with marker := { st.marker with queue := placeInterval gap st.marker.queue i } }) :=
  (h.setMarker (placeInterval_length_le gap h.limits.marks i)).serve

theorem StrandOk.reportMark (h : StrandOk g r st) (e : Env) (n : Strand) (q : MarkRequest) (missed : Bool) (d : Nat) :
    StrandOk g r (st.reportMark e n q missed d) := by
  have hraise := h.raise e n (if missed then .markMissed else .markLate) (requesterCode q.requester) q.on d
  have hl := hraise.limits
  exact hraise.of_shape (sameShape_flagMark _ _ _ _)
    ⟨hl.acc, hl.hw, hl.position, hl.fifo, hl.zones, hl.cuts, hl.marks⟩

theorem StrandOk.takeRequest (h : StrandOk g r st) (e : Env) (n : Strand) (q : MarkRequest) :
    StrandOk g r (st.takeRequest e n q) := by
  have hplace := h.placeMark e.minimumGap
  unfold StrandState.takeRequest
  dsimp only
  split
  · split
    · exact h.reportMark e n q _ _
    · split
      · exact (hplace _).reportMark e n q _ _
      · exact hplace _
  · split
    · exact (hplace _).reportMark e n q _ _
    · exact hplace _

theorem StrandOk.takeNextRequest (h : StrandOk g r st) (e : Env) (n : Strand) (q : Requester) :
    StrandOk g r (st.takeNextRequest e n q) := by
  unfold StrandState.takeNextRequest
  split
  · split
    · exact h
    · exact (h.setRest _ _ _ _ _ _).takeRequest e n _
  · split
    · exact (h.setRest _ _ _ _ _ _).takeRequest e n _
    · exact h

theorem StrandOk.takeNextOff (h : StrandOk g r st) : StrandOk g r st.takeNextOff := by
  unfold StrandState.takeNextOff
  split
  next y rest _ =>
    have hlength : (st.marker.close y st.chan.hw).queue.length ≤ st.marker.queue.length :=
      (Marker.serve_length_le _ _).trans (List.length_filterMap_le _ _)
    exact (h.setMarker (hlength.trans h.limits.marks)).setRest _ _ _ _ _ _
  · exact h

/-! ## Scans, cuts and pieces -/

theorem StrandOk.takeScan (h : StrandOk g r st) (hgr : g → r) (e : Env) (n : Strand) (sc : Scan) :
    StrandOk g r (st.takeScan e n sc) := by
  by_cases ht : st.track = .off
  · rw [StrandState.takeScan_of_off ht]
    exact h
  · have hkept := (h.map (hgr (h.track.mp ht))).takeScan h.opens e n sc
    have htaken := Taken.takeScan st e n sc
    exact ⟨h.limits.within htaken.within, hkept.2, by rw [Ne, htaken.off]; exact h.track, fun _ => hkept.1⟩

theorem StrandOk.of_steady (h : StrandOk g r st) (hsteady : Steady st t) (hmap : r → t.MapOk) : StrandOk g r t :=
  ⟨h.limits.within hsteady.within, hsteady.openAgrees h.opens, by rw [hsteady.track]; exact h.track, hmap⟩

theorem StrandOk.takeNotice (h : StrandOk g r st) (e : Env) (n : Strand) : StrandOk g r (st.takeNotice e n) :=
  h.of_steady (.takeNotice st e n) fun hr => ((h.map hr).takeNotice h.opens e n).1

theorem StrandState.tracked_of_on (h : st.track ≠ .off) : st.track = .waiting ∨ st.track = .tracking ∨ st.track = .tailed := by
  cases ht : st.track with
  | off => exact absurd ht h
  | _ => simp

theorem StrandOk.cutBehind (h : StrandOk g r st) (hrg : r → g) (e : Env) (n : Strand) (source : CutSource) (x : Nat) :
    StrandOk g r (st.cutBehind e n source x) :=
  h.of_steady (.cutBehind st e n source x) fun hr =>
    ((h.map hr).cutBehind h.opens e n source x (StrandState.tracked_of_on (h.track.mpr (hrg hr)))).1

/-- A strand with a pending cut has a nose (R152). -/
theorem StrandState.MapOk.nose_of_pending (h : st.MapOk) {p : PendingCut} {rest : List PendingCut}
    (hp : st.cuts.pending = p :: rest) : st.map.nose.isSome = true := by
  cases hn : st.map.nose with
  | some x => rfl
  | none =>
    obtain ⟨-, -, -, hnone⟩ := h.noNose hn
    rw [hp] at hnone
    cases hnone

theorem StrandOk.afterBuild (h : StrandOk g r st) {p : PendingCut} {rest : List PendingCut} (hp : st.cuts.pending = p :: rest)
    (e : Env) : StrandOk g r (st.afterBuild e p) := by
  have hl := h.limits
  refine ⟨⟨hl.acc, hl.hw, hl.position, hl.fifo, hl.zones, ?_, hl.marks⟩, h.opens, h.track, fun hr => ?_⟩
  · exact ((List.tail_sublist _).length_le).trans hl.cuts
  · obtain ⟨last, hfit⟩ := (h.map hr).fit h.opens ((h.map hr).nose_of_pending hp)
    exact (hfit.afterBuild hp e).mapOk

/-! ## The run controller (R36, R42, R45, R46, R47) -/

theorem StrandOk.takeSwitch (h : StrandOk g r st) (k : Fin 8) (capture : Option Nat) : StrandOk g r (st.takeSwitch k capture) := by
  unfold StrandState.takeSwitch
  split
  · exact h.setRest _ _ _ _ _ _
  · exact h.setRest _ _ _ _ _ _
  · exact h.setRest _ _ _ _ _ _
  · exact h

/-- An OFF strand has no open segment. -/
theorem StrandState.OpenAgrees.cur_of_off (h : st.OpenAgrees) (ht : st.track = .off) : st.map.cur = none := by
  cases hc : st.map.cur with
  | none => rfl
  | some b =>
    have hopen := h.mp (by rw [hc]; rfl)
    rw [ht] at hopen
    cases hopen

theorem StrandState.openAgrees_of_off (hcur : st.map.cur = none) (ht : st.track = .off) : st.OpenAgrees := by
  unfold StrandState.OpenAgrees
  rw [hcur, ht]
  exact ⟨nofun, nofun⟩

theorem StrandOk.arm (st : StrandState) (k : Fin 8) : StrandOk True True (st.arm k) where
  limits := by constructor <;> simp [StrandState.arm, Channel.arm, Channel.position, positionOf, LinkPort.scans, Marker.empty,
    Config.accumulatorBound]
  opens := ⟨nofun, nofun⟩
  track := ⟨fun _ => trivial, fun _ => nofun⟩
  map _ :=
    { tracked := fun ht => by obtain ht | ht := ht <;> cases ht
      tailed := nofun
      waiting := fun _ => rfl
      noNose := fun _ => ⟨rfl, rfl, rfl, rfl⟩
      covers := nofun
      candidate := nofun }

theorem StrandOk.leave (h : StrandOk g r st) (hg : ¬ g) : StrandOk False False st.leave where
  limits := ⟨h.limits.acc, h.limits.hw, h.limits.position, h.limits.fifo, h.limits.zones, h.limits.cuts, h.limits.marks⟩
  opens := StrandState.openAgrees_of_off (h.opens.cur_of_off (Decidable.of_not_not fun ht => hg (h.track.mp ht))) rfl
  track := ⟨fun ht => ht rfl, False.elim⟩
  map := False.elim

theorem StrandState.endRun_track (st : StrandState) (e : Env) (n : Strand) : (st.endRun e n).track = .off := rfl

theorem StrandOk.endRun (h : StrandOk g r st) (e : Env) (n : Strand) : StrandOk False r (st.endRun e n) where
  limits := h.limits.within (.endRun st e n)
  opens := StrandState.openAgrees_of_off (StrandState.endRun_cur h.opens e n) (st.endRun_track e n)
  track := ⟨fun ht => ht (st.endRun_track e n), False.elim⟩
  map hr := ((h.map hr).endRun h.opens e n).1

theorem StrandOk.abandon (h : StrandOk g r st) (e : Env) (n : Strand) : StrandOk False False (st.abandon e n) where
  limits := h.limits.within (.abandon st e n)
  opens := StrandState.openAgrees_of_off rfl rfl
  track := ⟨fun ht => ht rfl, False.elim⟩
  map := False.elim

/-- A strand whose blocks are at their reset values, but for what a channel keeps through a reset. -/
theorem StrandOk.blank {c : Channel} (hacc : c.acc = 0) (hhw : c.hw = 0) : StrandOk False False { chan := c } where
  limits := by
    have hb := StrandState.blank_inLimits
    refine ⟨?_, ?_, ?_, hb.fifo, hb.zones, hb.cuts, hb.marks⟩
    · rw [hacc]; decide
    · rw [hhw]; decide
    · rw [hhw, Channel.position, hacc]; decide
  opens := ⟨nofun, nofun⟩
  track := ⟨fun ht => ht rfl, False.elim⟩
  map := False.elim

end

end Sys2Proof.Machine
end

section
namespace Sys2Proof.Machine

/-! # The run through an event

`RunOk` is the invariant; `SameRun` and `LeavesRun` say of an operation that it lets it stand. -/

/-! ## The invariant -/

/-- The strand is graded: a run strand of a run that is ARMED or ACTIVE (R36). -/
def State.GradedAt (s : State) (n : Strand) : Prop := s.grading = true ∧ s.inMask n = true

/-- The strand is a run strand of an open run. -/
def State.OpenAt (s : State) (n : Strand) : Prop := s.run.state ≠ .idle ∧ s.inMask n = true

/-- Every strand meets its part of the invariant; a RUN record CLOSED in the slot belongs to a FINISHING run; the counts are in their
ranges (R46, R49). -/
structure RunOk (s : State) : Prop where
  strands : ∀ n, StrandOk (s.GradedAt n) (s.OpenAt n) (s.strand n)
  closed : ∀ r, s.run.slot = some r → r.event = .closed → s.run.state = .finishing
  counts : CountsInLimits s

theorem State.OpenAt.of_graded {s : State} {n : Strand} (h : s.GradedAt n) : s.OpenAt n := by
  obtain ⟨hgrading, hmask⟩ := h
  refine ⟨fun hidle => ?_, hmask⟩
  rw [State.grading, hidle] at hgrading
  cases hgrading

/-- `RunOk`, as the statement about every step writes it. -/
theorem runOk_iff (s : State) : RunOk s ↔ TracksAgree s ∧ CountsInLimits s ∧
    (∀ n, (s.strand n).InLimits ∧ (s.strand n).OpenAgrees) ∧
    (s.run.state ≠ .idle → ∀ n, s.inMask n = true → (s.strand n).MapOk) := by
  constructor
  · intro h
    have off : ∀ n, ¬ s.GradedAt n → (s.strand n).track = .off := fun n hn =>
      Decidable.of_not_not fun ht => hn ((h.strands n).track.mp ht)
    have htracks : TracksAgree s :=
      { ended := fun hend n => off n fun ⟨hg, _⟩ => by rw [hend] at hg; cases hg
        graded := fun hg n hm => (h.strands n).track.mpr ⟨hg, hm⟩
        outside := fun n hout => off n fun ⟨_, hm⟩ => by rw [hout] at hm; cases hm
        closed := h.closed }
    exact ⟨htracks, h.counts, fun n => ⟨(h.strands n).limits, (h.strands n).opens⟩,
      fun hopen n hm => (h.strands n).map ⟨hopen, hm⟩⟩
  · rintro ⟨htracks, hcounts, hstrands, hmaps⟩
    refine ⟨fun n => ⟨(hstrands n).1, (hstrands n).2, ⟨fun ht => ?_, fun hg => htracks.graded hg.1 n hg.2⟩,
      fun ho => hmaps ho.1 n ho.2⟩, htracks.closed, hcounts⟩
    constructor
    · cases hg : s.grading with
      | true => rfl
      | false => exact absurd (htracks.ended hg n) ht
    · cases hm : s.inMask n with
      | true => rfl
      | false => exact absurd (htracks.outside n hm) ht

/-! ## What lets the invariant stand -/

/-- From s to t the run is in the same state over the same strands, no RUN record CLOSED has come into the slot, and the counts have
stayed in their ranges. -/
structure SameRun (s t : State) : Prop where
  state : t.run.state = s.run.state
  mask : t.run.mask = s.run.mask
  closed : ∀ r, t.run.slot = some r → r.event = .closed → s.run.slot = some r
  counts : CountsInLimits s → CountsInLimits t

theorem SameRun.of_run {s t : State} (hrun : t.run = s.run) (hqueue : t.report.queue.length ≤ s.report.queue.length)
    (hlost : t.report.lost ≤ s.report.lost) : SameRun s t where
  state := by rw [hrun]
  mask := by rw [hrun]
  closed r hr _ := by rw [← hrun]; exact hr
  counts h := ⟨hqueue.trans h.queue, hlost.trans h.lost, by rw [hrun]; exact h.billets⟩

theorem SameRun.trans {a b c : State} (h : SameRun a b) (k : SameRun b c) : SameRun a c where
  state := k.state.trans h.state
  mask := k.mask.trans h.mask
  closed r hr hc := h.closed r (k.closed r hr hc) hc
  counts ha := k.counts (h.counts ha)

theorem SameRun.graded {s t : State} (h : SameRun s t) (n : Strand) : t.GradedAt n ↔ s.GradedAt n := by
  unfold State.GradedAt State.grading State.inMask
  rw [h.state, h.mask]

theorem SameRun.opened {s t : State} (h : SameRun s t) (n : Strand) : t.OpenAt n ↔ s.OpenAt n := by
  unfold State.OpenAt State.inMask
  rw [h.state, h.mask]

theorem RunOk.of_sameRun {s t : State} (h : RunOk s) (k : SameRun s t)
    (hstrands : ∀ n, StrandOk (s.GradedAt n) (s.OpenAt n) (t.strand n)) : RunOk t where
  strands n := (hstrands n).imp (k.graded n) (k.opened n).mp
  closed r hr hc := by rw [k.state]; exact h.closed r (k.closed r hr hc) hc
  counts := k.counts h.counts

/-- `SameRun`, and every strand as it was. -/
structure LeavesRun (s t : State) : Prop where
  run : SameRun s t
  strands : t.strands = s.strands

theorem LeavesRun.of_same {s t : State} (hrun : t.run = s.run) (hstrands : t.strands = s.strands)
    (hqueue : t.report.queue = s.report.queue) (hlost : t.report.lost = s.report.lost) : LeavesRun s t :=
  ⟨.of_run hrun (by rw [hqueue]) (by rw [hlost]), hstrands⟩

@[refl] theorem LeavesRun.refl (s : State) : LeavesRun s s := .of_same rfl rfl rfl rfl

theorem LeavesRun.trans {a b c : State} (h : LeavesRun a b) (k : LeavesRun b c) : LeavesRun a c :=
  ⟨h.run.trans k.run, k.strands.trans h.strands⟩

theorem RunOk.leaves {s t : State} (h : RunOk s) (k : LeavesRun s t) : RunOk t :=
  h.of_sameRun k.run fun n => by
    unfold State.strand
    rw [k.strands]
    exact h.strands n

/-! ## The exchange port and the order unit -/

theorem LeavesRun.settle (s : State) : LeavesRun s s.settle := by
  rw [s.settle_settles.rest]
  exact .of_same rfl rfl rfl rfl

theorem LeavesRun.setReason (s : State) (r : Reason) : LeavesRun s (s.setReason r) := .of_same rfl rfl rfl rfl

theorem LeavesRun.putStatus (s : State) (w : Shown) : LeavesRun s (s.putStatus w) := .of_same rfl rfl rfl rfl

theorem LeavesRun.clearNotice (s : State) (v : Word32) : LeavesRun s (s.clearNotice v) := .of_same rfl rfl rfl rfl

theorem LeavesRun.writeMask (s : State) (v : Word32) : LeavesRun s (s.writeMask v) := .of_same rfl rfl rfl rfl

theorem LeavesRun.hostWrite (s : State) (offset : Nat) (bytes : List Byte) : LeavesRun s (s.hostWrite offset bytes) := by
  unfold State.hostWrite
  split
  · split
    · refine .trans ?_ (.settle _)
      rw [State.acceptWrite_rest]
      exact .of_same rfl rfl rfl rfl
    · refine .trans ?_ (.settle _)
      rw [State.refuseWrite_rest]
      exact .of_same rfl rfl rfl rfl
  · rfl

theorem LeavesRun.conclude (s : State) (o : Order) (a : Answer) (answered : Bool) : LeavesRun s (s.conclude o a answered) := by
  cases answered <;> exact .of_same rfl rfl rfl rfl

theorem LeavesRun.search (s : State) (k cells : Nat) (answered : Bool) : LeavesRun s (s.search k cells answered) := by
  rw [State.search_rest]
  exact .of_same rfl rfl rfl rfl

theorem LeavesRun.searchBoard (s : State) (cells : Nat) (answered : Bool) : LeavesRun s (s.searchBoard cells answered) := by
  unfold State.searchBoard
  split
  · exact .search s _ cells answered
  · split
    · refine .trans ?_ (.search _ 0 cells answered)
      exact .of_same rfl rfl rfl rfl
    · split
      · refine .trans ?_ (.search _ 0 cells answered)
        exact .of_same rfl rfl rfl rfl
      · rfl

theorem LeavesRun.orderUnit (s : State) (cells : Nat) (answered : Bool) : LeavesRun s (s.orderUnit cells answered) := by
  rcases s.orderUnit_cases cells answered with ⟨-, e⟩ | ⟨-, ⟨-, e⟩ | ⟨o, -, ⟨-, e⟩ | ⟨a, -, e⟩⟩⟩
  · rw [e]
  · rw [e]
    exact .searchBoard s cells answered
  · rw [e]
  · rw [e]
    exact .of_same rfl rfl rfl rfl

theorem LeavesRun.holdOrder (s : State) (k : Nat) : LeavesRun s (s.holdOrder k) := by
  unfold State.holdOrder
  split
  · rfl
  · split
    · exact .of_same rfl rfl rfl rfl
    · rfl

/-! ## The line event inputs -/

theorem LeavesRun.onInput (s : State) (i : LineInput) (f : Input → Input) : LeavesRun s (s.onInput i f) := by
  cases i <;> exact .of_same rfl rfl rfl rfl

theorem LeavesRun.handOn (s : State) (i : LineInput) (c : Captures) : LeavesRun s (s.handOn i c) := by
  cases i <;> exact .of_same rfl rfl rfl rfl

theorem LeavesRun.leadingEdge (s : State) (i : LineInput) : LeavesRun s (s.leadingEdge i) := by
  rw [State.leadingEdge_eq]
  exact .onInput s i _

theorem LeavesRun.qualify (s : State) (i : LineInput) : LeavesRun s (s.qualify i) := by
  unfold State.qualify
  split
  · split
    · exact .trans (.onInput s i _) (.handOn _ i _)
    · rfl
  · rfl
  · rfl

theorem LeavesRun.inputInactive (s : State) (i : LineInput) : LeavesRun s (s.inputInactive i) := by
  have hlevel : LeavesRun s (s.onInput i fun q => { q with active := false }) := .onInput s i _
  unfold State.inputInactive
  dsimp only
  split
  · split
    · exact hlevel
    · exact hlevel.trans (.onInput _ i _)
    · exact (hlevel.trans (.onInput _ i _)).trans (.of_same rfl rfl rfl rfl)
  · exact hlevel

/-! ## The report unit -/

theorem CountsInLimits.enqueue {s : State} (h : CountsInLimits s) (hroom : s.queueRoom = true) (r : Record) :
    CountsInLimits (s.enqueue r) := by
  refine ⟨?_, h.lost, h.billets⟩
  show (s.report.queue ++ [r]).length ≤ _
  rw [List.length_append, List.length_singleton]
  exact of_decide_eq_true hroom

theorem SameRun.enqueue {s : State} (hroom : s.queueRoom = true) (r : Record) : SameRun s (s.enqueue r) :=
  ⟨rfl, rfl, fun _ hr _ => hr, fun h => h.enqueue hroom r⟩

theorem bumpFirst_length (i : Incident) (q : List Record) : (bumpFirst i q).length = q.length := by
  induction q with
  | nil => rfl
  | cons r q ih =>
    unfold bumpFirst
    split
    · rfl
    · exact congrArg (· + 1) ih

/-- A repeat, an entry or a drop (R176). -/
theorem LeavesRun.arriveIncident (s : State) (i : Incident) : LeavesRun s (s.arriveIncident i) := by
  unfold State.arriveIncident
  split
  · exact ⟨.of_run rfl (Nat.le_of_eq (bumpFirst_length i _)) (Nat.le_refl _), rfl⟩
  · split
    next hroom =>
      have henter := SameRun.enqueue hroom (.incident { i with repeats := 0, lost := s.report.lost })
      exact ⟨henter.trans (.of_run rfl (Nat.le_refl _) (Nat.zero_le _)), rfl⟩
    · exact ⟨⟨rfl, rfl, fun _ hr _ => hr, fun h => ⟨h.queue, Nat.min_le_right _ _, h.billets⟩⟩, rfl⟩

theorem LeavesRun.closePage (s : State) (f : Filling) (b : Bool) : LeavesRun s (s.closePage f b) := .of_same rfl rfl rfl rfl

theorem LeavesRun.writeHead (s : State) : LeavesRun s s.writeHead := by
  unfold State.writeHead
  split
  next f r rest hf hq =>
    split
    · have hqueue : rest.length ≤ s.report.queue.length := by
        rw [hq]
        exact Nat.le_succ _
      rw [State.writeRecord_eq]
      split
      · exact ⟨.of_run rfl hqueue (Nat.le_refl _), rfl⟩
      · exact ⟨.of_run rfl hqueue (Nat.le_refl _), rfl⟩
    · exact .closePage s f false
  · rfl

theorem LeavesRun.pageOpen (s : State) : LeavesRun s s.pageOpen := by
  unfold State.pageOpen
  split
  · rfl
  · split
    · rfl
    · rw [State.openPage_eq]
      refine .trans ?_ (.writeHead _)
      exact .of_same rfl rfl rfl rfl

theorem LeavesRun.lingerExpiry (s : State) : LeavesRun s s.lingerExpiry := by
  unfold State.lingerExpiry
  split
  · rfl
  · split
    · exact .closePage s _ false
    · rfl

theorem LeavesRun.rejudgeLinger (s : State) : LeavesRun s s.rejudgeLinger := by
  unfold State.rejudgeLinger
  split
  · split
    · exact .of_same rfl rfl rfl rfl
    · split
      · exact .closePage s _ false
      · rfl
  · rfl

/-! ## The run controller -/

theorem LeavesRun.formRecord (s : State) {event : RunEvent} (h : event ≠ .closed) : LeavesRun s (s.formRecord event) :=
  ⟨⟨rfl, rfl, fun r hr hc => by cases hr; exact absurd hc h, fun k => ⟨k.queue, k.lost, k.billets⟩⟩, rfl⟩

theorem LeavesRun.switchOver (s : State) (k : Fin 8) : LeavesRun s (s.switchOver k) := by
  unfold State.switchOver
  refine .trans ?_ (.formRecord _ nofun)
  exact ⟨⟨rfl, rfl, fun _ hr _ => hr, fun h => ⟨h.queue, h.lost, h.billets⟩⟩, rfl⟩

theorem LeavesRun.reachSwitchOver (s : State) (k : Fin 8) : LeavesRun s (s.reachSwitchOver k) := by
  unfold State.reachSwitchOver
  split
  · exact ⟨⟨rfl, rfl, fun _ hr _ => hr, fun h => ⟨h.queue, h.lost, h.billets⟩⟩, rfl⟩
  · exact .switchOver s k

theorem LeavesRun.waitedSwitchOver (s : State) : LeavesRun s s.waitedSwitchOver := by
  unfold State.waitedSwitchOver
  split
  · exact .switchOver s _
  · rfl

theorem LeavesRun.amendRun (s : State) (o : Order) : LeavesRun s (amendRun s o).1 := by
  unfold Machine.amendRun
  dsimp only
  repeat' split
  all_goals exact ⟨⟨rfl, rfl, fun _ hr _ => hr, fun h => ⟨h.queue, h.lost, h.billets⟩⟩, rfl⟩

theorem LeavesRun.setEntry (s : State) (k : Fin 8) (r : Option Recipe) : LeavesRun s (s.setEntry k r) :=
  ⟨⟨rfl, rfl, fun _ hr _ => hr, fun h => ⟨h.queue, h.lost, h.billets⟩⟩, rfl⟩

theorem LeavesRun.adoptRecipe (s : State) (o : Order) : LeavesRun s (adoptRecipe s o).1 := by
  unfold Machine.adoptRecipe
  dsimp only
  split
  · rfl
  · split
    · exact .setEntry s _ _
    · exact .setEntry s _ _

end Sys2Proof.Machine
end

section
namespace Sys2Proof.Machine

/-! # The invariant through every command -/

/-! ## Events of strands -/

theorem RunOk.onStrand {s : State} (h : RunOk s) {n : Strand} {f : StrandState → StrandState}
    (hf : StrandOk (s.GradedAt n) (s.OpenAt n) (f (s.strand n))) : RunOk (s.onStrand n f) :=
  h.of_sameRun (.of_run rfl (Nat.le_refl _) (Nat.le_refl _)) fun m => by
    rw [State.onStrand_strand_eq]
    split
    · subst_vars
      exact hf
    · exact h.strands m

theorem RunOk.onAll {s : State} (h : RunOk s) {f : Strand → StrandState → StrandState}
    (hf : ∀ n, StrandOk (s.GradedAt n) (s.OpenAt n) (f n (s.strand n))) : RunOk (s.onAll f) :=
  h.of_sameRun (.of_run rfl (Nat.le_refl _) (Nat.le_refl _)) fun n => by
    rw [State.onAll_strand]
    exact hf n

theorem SameRun.strandEvent (s : State) (n : Strand) (f : StrandState → StrandState) : SameRun s (s.strandEvent n f) := by
  have hstrand : SameRun s (s.onStrand n f) := .of_run rfl (Nat.le_refl _) (Nat.le_refl _)
  unfold State.strandEvent
  dsimp only
  split
  · split
    · exact hstrand.trans (LeavesRun.reachSwitchOver _ _).run
    · exact hstrand
  · exact hstrand

theorem RunOk.strandEvent {s : State} (h : RunOk s) {n : Strand} {f : StrandState → StrandState}
    (hf : StrandOk (s.GradedAt n) (s.OpenAt n) (f (s.strand n))) : RunOk (s.strandEvent n f) :=
  h.of_sameRun (.strandEvent s n f) fun m => by
    rw [State.strandEvent_strand]
    split
    · subst_vars
      exact hf
    · exact h.strands m

theorem SameRun.strandEvents (s : State) (f : Strand → StrandState → StrandState) (l : List Strand) :
    SameRun s (s.strandEvents f l) := by
  induction l generalizing s with
  | nil => exact (LeavesRun.refl s).run
  | cons n l ih => exact (SameRun.strandEvent s n (f n)).trans (ih _)

theorem RunOk.strandEvents {s : State} (h : RunOk s) {f : Strand → StrandState → StrandState}
    (hf : ∀ n, StrandOk (s.GradedAt n) (s.OpenAt n) (f n (s.strand n))) : RunOk (s.strandEvents f strandsAscending) :=
  h.of_sameRun (.strandEvents s f _) fun n => by
    rw [State.strandEvents_strand s f (by decide), if_pos (mem_strandsAscending n)]
    exact hf n

/-! ## An idle run -/

theorem State.not_gradedAt {s : State} (h : s.grading = false) (n : Strand) : ¬ s.GradedAt n := fun ⟨hg, _⟩ => by
  rw [h] at hg
  cases hg

theorem StrandOk.drop {g r : Prop} {st : StrandState} (h : StrandOk g r st) (hg : ¬ g) : StrandOk False False st :=
  h.imp ⟨False.elim, hg⟩ False.elim

theorem RunOk.of_idle {t : State} (hidle : t.run.state = .idle) (hstrands : ∀ n, StrandOk False False (t.strand n))
    (hslot : ∀ r, t.run.slot = some r → r.event ≠ .closed) (hcounts : CountsInLimits t) : RunOk t where
  strands n := (hstrands n).imp ⟨State.not_gradedAt (by rw [State.grading, hidle]; rfl) n, False.elim⟩ fun ho => ho.1 hidle
  closed r hr hc := absurd hc (hslot r hr)
  counts := hcounts

/-! ## The line -/

theorem RunOk.encoderEdge {s : State} (h : RunOk s) (n : Strand) (a b : Bool) : RunOk (s.encoderEdge n a b) := by
  have hpins := h.onStrand (f := fun st => { st with chan := { st.chan with pinA := a, pinB := b } })
    ((h.strands n).setChan_same rfl rfl)
  unfold State.encoderEdge
  dsimp only
  split
  · exact hpins.onStrand ((hpins.strands n).sampleEdge s.env n a b)
  · exact hpins

/-- The first motion moves an ARMED run to ACTIVE: the same strands are graded (R34). -/
theorem RunOk.noteMoving {s : State} (h : RunOk s) (n : Strand) (m : Motion) : RunOk (s.noteMoving n m) := by
  unfold State.noteMoving
  split
  next hmoves =>
    obtain ⟨harmed, -⟩ := hmoves
    rw [State.setRun_rest]
    refine ⟨fun k => (h.strands k).imp ?_ ?_, fun r hr hc => ?_, ⟨h.counts.queue, h.counts.lost, h.counts.billets⟩⟩
    · simp [State.GradedAt, State.grading, State.inMask, harmed]
    · exact fun ho => ⟨by rw [harmed]; decide, ho.2⟩
    · have hfinishing := h.closed r hr hc
      rw [harmed] at hfinishing
      cases hfinishing
  · exact h

theorem RunOk.endWindow {s : State} (h : RunOk s) (n : Strand) : RunOk (s.endWindow n) :=
  ((h.onStrand ((h.strands n).endWindow s.env n)).noteMoving n _).leaves (.putStatus _ _)

theorem RunOk.seamForecast {s : State} (h : RunOk s) : RunOk s.seamForecast := by
  unfold State.seamForecast
  split
  · exact h
  next g rest _ =>
    have hmail : RunOk { s with grantMail := rest } := h.leaves (.of_same rfl rfl rfl rfl)
    exact hmail.onAll fun n => (hmail.strands n).forecastSeam _ n _

/-- A seam's switches change no track, map or limit (R42). -/
theorem RunOk.applyStaged {s : State} (h : RunOk s) (k : Fin 8) (c : Captures) : RunOk (s.applyStaged k c) := by
  have htaken : RunOk (s.switchesTaken k c) := by
    refine h.of_sameRun ⟨rfl, rfl, fun _ hr _ => hr, fun k => ⟨k.queue, k.lost, k.billets⟩⟩ fun n => ?_
    rw [State.switchesTaken_strand]
    split
    · exact (h.strands n).takeSwitch k _
    · exact h.strands n
  rw [State.applyStaged_eq]
  split
  · exact htaken.leaves (.reachSwitchOver _ k)
  · exact htaken

theorem RunOk.qualifiedSeam {s : State} (h : RunOk s) : RunOk s.qualifiedSeam := by
  cases hmail : s.seamMail with
  | nil =>
    unfold State.qualifiedSeam
    rw [hmail]
    exact h
  | cons c rest =>
    have hcounted : RunOk (s.billetCounted rest) :=
      h.leaves ⟨⟨rfl, rfl, fun _ hr _ => hr, fun k => ⟨k.queue, k.lost, Nat.min_le_right _ _⟩⟩, rfl⟩
    rw [State.qualifiedSeam_of_mail hmail]
    split
    · cases hswitch : s.switching with
      | none =>
        rw [State.seamAtRun_of_none hswitch]
        exact hcounted.leaves (.of_same rfl rfl rfl rfl)
      | some k =>
        rw [State.seamAtRun_of_some hswitch]
        exact (hcounted.applyStaged k c).leaves (.of_same rfl rfl rfl rfl)
    · exact h.leaves (.of_same rfl rfl rfl rfl)

/-- Where the run is ARMED or ACTIVE its strands are graded. -/
theorem State.graded_of_open {s : State} (hgrading : s.grading = true) {n : Strand} (h : s.OpenAt n) : s.GradedAt n := ⟨hgrading, h.2⟩

theorem StrandOk.sawCutOf {g r : Prop} {st : StrandState} (h : StrandOk g r st) (hrg : r → g) (e : Env) (c : Captures) (n : Strand) :
    StrandOk g r (sawCutOf e c n st) := by
  unfold Machine.sawCutOf
  split
  · exact h
  · exact h.cutBehind hrg e n .saw _

theorem StrandOk.softCutOf {g r : Prop} {st : StrandState} (h : StrandOk g r st) (hrg : r → g) (e : Env) (mask : Four Bool)
    (n : Strand) : StrandOk g r (softCutOf e mask n st) := by
  unfold Machine.softCutOf
  split
  · exact h.cutBehind hrg e n .soft _
  · exact h

theorem RunOk.qualifiedSaw {s : State} (h : RunOk s) : RunOk s.qualifiedSaw := by
  cases hmail : s.sawMail with
  | nil =>
    unfold State.qualifiedSaw
    rw [hmail]
    exact h
  | cons c rest =>
    have htaken : RunOk { s with sawMail := rest } := h.leaves (.of_same rfl rfl rfl rfl)
    rw [State.qualifiedSaw_of_mail hmail]
    split
    next hgrading => exact htaken.strandEvents fun n => (htaken.strands n).sawCutOf (State.graded_of_open hgrading) s.env c n
    · exact htaken

/-! ## The gauge link -/

theorem RunOk.startDelimiter {s : State} (h : RunOk s) (n : Strand) : RunOk (s.startDelimiter n) := by
  unfold State.startDelimiter
  split
  · split
    · exact h.onStrand (((h.strands n).setAssembling true).arrive s.env n _ _)
    · exact h.onStrand ((h.strands n).setAssembling true)
  · exact h

theorem RunOk.frameArrival {s : State} (h : RunOk s) (n : Strand) (content : List Byte) (e : FrameEnd) :
    RunOk (s.frameArrival n content e) := by
  unfold State.frameArrival
  split
  · split
    · exact h.onStrand (((h.strands n).setAssembling false).arrive s.env n _ _)
    · exact h.onStrand (((h.strands n).setAssembling true).arrive s.env n _ _)
  · exact h

theorem RunOk.arbiterLook {s : State} (h : RunOk s) : RunOk s.arbiterLook := by
  unfold State.arbiterLook
  split
  · exact h
  · split
    · exact h
    next n _ =>
      unfold State.serve
      split
      · exact h
      next x rest hfifo =>
        have hserved := h.onStrand (f := fun st => { st with port := { st.port with fifo := rest } }) ((h.strands n).serveFifo hfifo)
        exact hserved.leaves (.of_same rfl rfl rfl rfl)

theorem RunOk.takeScan {s : State} (h : RunOk s) : RunOk s.takeScan := by
  have htaken : RunOk { s with service := none } := h.leaves (.of_same rfl rfl rfl rfl)
  unfold State.takeScan
  split
  · dsimp only
    split
    · exact htaken
    · exact htaken.strandEvent ((htaken.strands _).takeScan State.OpenAt.of_graded s.env _ _)
  · exact h
  · exact h

theorem RunOk.takeNotice {s : State} (h : RunOk s) : RunOk s.takeNotice := by
  have htaken : RunOk { s with service := none } := h.leaves (.of_same rfl rfl rfl rfl)
  unfold State.takeNotice
  split
  · dsimp only
    split
    · exact htaken
    · exact htaken.onStrand ((htaken.strands _).takeNotice s.env _)
  · exact h
  · exact h

/-! ## Pieces and incidents -/

theorem RunOk.pieceBuild {s : State} (h : RunOk s) : RunOk s.pieceBuild := by
  unfold State.pieceBuild
  split
  next hroom =>
    split
    · exact h
    next n _ =>
      unfold State.buildPiece
      split
      · exact h
      next p rest hp =>
        have hentered := h.of_sameRun (.enqueue hroom (.piece (pieceRecord s.env n s.run.runId (s.strand n) p))) h.strands
        have hbuilt := hentered.onStrand (f := fun st => st.afterBuild s.env p) ((hentered.strands n).afterBuild hp s.env)
        exact hbuilt.leaves (.of_same rfl rfl rfl rfl)
  · exact h

theorem RunOk.incidentArrival {s : State} (h : RunOk s) (strand : Option Strand) (raiser : Raiser) :
    RunOk (s.incidentArrival strand raiser) := by
  unfold State.incidentArrival
  split
  next n =>
    unfold State.strandIncident
    split
    · exact h
    · exact (h.onStrand ((h.strands n).setRest _ _ _ _ _ _)).leaves (.arriveIncident _ _)
  · unfold State.inputIncident
    split
    · exact h
    next i rest _ =>
      have htaken : RunOk { s with inputs := { s.inputs with raised := rest } } := h.leaves (.of_same rfl rfl rfl rfl)
      exact htaken.leaves (.arriveIncident _ i)

/-! ## Orders -/

/-- The station changes in IDLE; strands keep their tracks and maps (R19, R22, R23). -/
theorem RunOk.adoptStation {s : State} (h : RunOk s) (t : Station) : RunOk (s.adoptStation t) := by
  have hstation : RunOk { s with run := { s.run with station := some t } } :=
    h.leaves ⟨⟨rfl, rfl, fun _ hr _ => hr, fun k => ⟨k.queue, k.lost, k.billets⟩⟩, rfl⟩
  unfold State.adoptStation
  exact (hstation.onAll fun n => (hstation.strands n).adopt _ n).leaves (.rejudgeLinger _)

theorem RunOk.setStation {s : State} (h : RunOk s) (o : Order) : RunOk (setStation s o).1 := by
  unfold Machine.setStation
  split
  · exact h
  · split
    · exact h
    · exact h.adoptStation _

/-- The checks of ARM RUN pass in IDLE alone (R35). -/
theorem State.idle_of_armCheck {s : State} {o : Order} (h : s.armCheck o = none) : s.run.state = .idle := by
  unfold State.armCheck at h
  split at h
  · cases h
  · split at h
    · cases h
    next hidle => exact Decidable.of_not_not hidle

/-- Every strand of the mask is graded from its reset values on, every other one is left OFF (R36). -/
theorem RunOk.runBegun {s : State} (h : RunOk s) (hidle : s.run.state = .idle) (k : Fin 8) (mask : Four Bool) (id : Word32)
    {r : RunState} (hr : r = .armed ∨ r = .active) : RunOk ((s.runBegun k mask id).setRun r) := by
  have hgrading : ((s.runBegun k mask id).setRun r).grading = true := by rw [State.grading_iff, State.setRun_state]; exact hr
  have hgraded : ∀ n, ((s.runBegun k mask id).setRun r).GradedAt n ↔ mask.get n = true := fun n => by
    rw [State.GradedAt, hgrading, State.inMask, State.setRun_run]
    exact and_iff_right rfl
  have hstrand : ∀ n, ((s.runBegun k mask id).setRun r).strand n =
      if mask.get n then (s.strand n).arm k else (s.strand n).leave := fun n => by
    rw [State.strand, State.setRun_strands]
    exact s.runBegun_strand k mask id n
  refine ⟨fun n => ?_, fun record hslot hclosed => ?_, ?_⟩
  · rw [hstrand]
    split
    next hm => exact (StrandOk.arm _ k).imp (by simp [hgraded, hm]) fun _ => trivial
    next hm =>
      have hoff : ¬ s.GradedAt n := State.not_gradedAt (by rw [State.grading, hidle]; rfl) n
      exact ((h.strands n).leave hoff).imp (by simp [hgraded, hm])
        fun ho => hm ((hgraded n).mp (State.graded_of_open hgrading ho))
  · rw [State.setRun_run] at hslot
    have hfinishing := h.closed record hslot hclosed
    rw [hidle] at hfinishing
    cases hfinishing
  · rw [State.setRun_rest]
    exact ⟨h.counts.queue, h.counts.lost, Nat.zero_le _⟩

theorem RunOk.openRun {s : State} (h : RunOk s) (hidle : s.run.state = .idle) (k : Fin 8) (mask : Four Bool) (id : Word32) :
    RunOk (s.openRun k mask id) := by
  rw [State.openRun_eq]
  refine RunOk.leaves (h.runBegun hidle k mask id ?_) (.formRecord _ nofun)
  split
  · exact .inr rfl
  · exact .inl rfl

theorem RunOk.armRun {s : State} (h : RunOk s) (o : Order) : RunOk (armRun s o).1 := by
  cases hcheck : s.armCheck o with
  | some a =>
    simp only [Machine.armRun, hcheck]
    exact h
  | none =>
    rw [armRun_opens hcheck]
    exact h.openRun (State.idle_of_armCheck hcheck) _ _ _

/-- Every run strand goes OFF, its map kept for the pieces still to be built (R45). -/
theorem RunOk.endRun {s : State} (h : RunOk s) (o : Order) : RunOk (endRun s o).1 := by
  by_cases hopen : s.run.state = .armed ∨ s.run.state = .active
  · obtain ⟨hrun, -, -, -, -, hreport⟩ := endRun_rest hopen o
    have hnot := State.not_gradedAt (s := (Machine.endRun s o).1) (by rw [State.grading, hrun]; rfl)
    have hidle : s.run.state ≠ .idle := by
      obtain h | h := hopen <;> rw [h] <;> decide
    have hmask : ∀ n, (Machine.endRun s o).1.inMask n = s.inMask n := fun n => by rw [State.inMask, hrun]; rfl
    refine ⟨fun n => ?_, fun r _ _ => by rw [hrun], ?_⟩
    · rw [endRun_strand hopen]
      split
      next hm => exact ((h.strands n).endRun s.env n).imp ⟨hnot n, False.elim⟩ fun _ => ⟨hidle, hm⟩
      next hm =>
        exact ((h.strands n).drop fun hg => hm hg.2).imp ⟨hnot n, False.elim⟩ fun ho => hm ((hmask n).symm.trans ho.2)
    · exact ⟨by rw [hreport]; exact h.counts.queue, by rw [hreport]; exact h.counts.lost, by rw [hrun]; exact h.counts.billets⟩
  · have hsame : (Machine.endRun s o).1 = s := by
      unfold Machine.endRun
      cases hs : s.run.state with
      | idle => rfl
      | finishing => rfl
      | armed => exact absurd (.inl hs) hopen
      | active => exact absurd (.inr hs) hopen
    rw [hsame]
    exact h

theorem abandonRun_strand {s : State} {o : Order} (h : s.run.state ≠ .idle) (n : Strand) :
    (abandonRun s o).1.strand n = if s.inMask n then (s.strand n).abandon s.env n else s.strand n := by
  rw [abandonRun_of_open h]
  dsimp only
  rw [State.setRun_rest]
  exact State.onRun_strand (s.formRecord .abandoned) n (fun n st => st.abandon s.env n)

/-- Every run strand goes OFF, its map and cuts dropped (R47). -/
theorem RunOk.abandonRun {s : State} (h : RunOk s) (o : Order) : RunOk (abandonRun s o).1 := by
  by_cases hidle : s.run.state = .idle
  · have hsame : (Machine.abandonRun s o).1 = s := by simp only [Machine.abandonRun, hidle]
    rw [hsame]
    exact h
  · have hrun := abandonRun_run (o := o) hidle
    have hreport := abandonRun_report (o := o) hidle
    refine .of_idle (by rw [hrun]) (fun n => ?_) (fun r hr => ?_) ?_
    · rw [abandonRun_strand hidle]
      split
      · exact (h.strands n).abandon s.env n
      next hm => exact (h.strands n).drop fun hg => hm hg.2
    · rw [hrun] at hr
      cases hr
      exact nofun
    · exact ⟨by rw [hreport]; exact h.counts.queue, by rw [hreport]; exact h.counts.lost, by rw [hrun]; exact h.counts.billets⟩

theorem RunOk.addZone {s : State} (h : RunOk s) (o : Order) : RunOk (addZone s o).1 := by
  have hzone : ∀ n, RunOk (s.addZoneTo o n).1 := fun n => by
    unfold State.addZoneTo
    dsimp only
    split
    · exact h
    · split
      · exact h
      next hroom =>
        dsimp only
        exact h.onStrand ((h.strands n).enterZone (Nat.lt_of_not_le hroom) s.env n _ _)
  unfold Machine.addZone
  split
  · exact h
  · exact h
  all_goals
    split
    · exact h
    · split
      · exact hzone _
      · exact h

theorem RunOk.softCut {s : State} (h : RunOk s) (o : Order) : RunOk (softCut s o).1 := by
  by_cases hopen : s.run.state = .armed ∨ s.run.state = .active
  · rw [softCut_of_open hopen]
    split
    · exact h.strandEvents fun n => (h.strands n).softCutOf (State.graded_of_open (s.grading_iff.mpr hopen)) s.env _ n
    · exact h
  · have hsame : (Machine.softCut s o).1 = s := by
      unfold Machine.softCut
      cases hs : s.run.state with
      | idle => rfl
      | finishing => rfl
      | armed => exact absurd (.inl hs) hopen
      | active => exact absurd (.inr hs) hopen
    rw [hsame]
    exact h

theorem RunOk.forceMarker {s : State} (h : RunOk s) (o : Order) : RunOk (forceMarker s o).1 := by
  unfold Machine.forceMarker
  split
  · exact h
  next n _ =>
    split
    · exact h
    · dsimp only
      exact h.onStrand ((h.strands n).setMarker (h.strands n).limits.marks)

theorem RunOk.carryOut {f : State → Order → State × Answer} (hf : ∀ {s}, RunOk s → ∀ o, RunOk (f s o).1) {s : State}
    (h : RunOk s) (answered : Bool) (k : Nat) : RunOk (s.carryOut answered k f) := by
  unfold State.carryOut
  split
  · exact h
  · split
    · exact (hf h _).leaves (.conclude _ _ _ answered)
    · exact h

theorem RunOk.carryOutRecorded {f : State → Order → State × Answer} (hf : ∀ {s}, RunOk s → ∀ o, RunOk (f s o).1) {s : State}
    (h : RunOk s) (answered : Bool) (k : Nat) : RunOk (s.carryOutRecorded answered k f) := by
  unfold State.carryOutRecorded
  split
  · exact h.leaves (.holdOrder s k)
  · exact h.carryOut hf answered k

/-! ## RUN records -/

/-- The strands of a run that closes are all OFF (R46). -/
theorem RunOk.closeRun {s : State} (h : RunOk s) (hended : s.grading = false) (hslot : s.run.slot = none) : RunOk s.closeRun := by
  have hstrand : ∀ n, s.closeRun.strand n = { s.strand n with recipe := none } := fun n => by
    rw [State.closeRun_eq]
    exact Four.get_build _ n
  refine .of_idle (State.setRun_state _ _) (fun n => ?_) (fun r hr => ?_) ?_
  · rw [hstrand]
    exact ((h.strands n).drop (State.not_gradedAt hended n)).setRest _ _ _ _ _ _
  · rw [State.closeRun_eq] at hr
    exact absurd (hslot.symm.trans hr) nofun
  · rw [State.closeRun_eq]
    exact ⟨h.counts.queue, h.counts.lost, h.counts.billets⟩

/-- A RUN record CLOSED enters in FINISHING (R46). -/
theorem RunOk.recordEntered {s : State} (h : RunOk s) {r : RunRecord} (hslot : s.run.slot = some r) (hroom : s.queueRoom = true) :
    RunOk (s.recordEntered r) := by
  have hemptied : RunOk { s with run := { s.run with slot := none } } :=
    h.leaves ⟨⟨rfl, rfl, fun _ hr => (by cases hr), fun k => ⟨k.queue, k.lost, k.billets⟩⟩, rfl⟩
  have hentered := hemptied.of_sameRun (SameRun.enqueue (s := { s with run := { s.run with slot := none } }) hroom (.run r))
    hemptied.strands
  unfold State.recordEntered
  split
  next hclosed =>
    have hfinishing := h.closed r hslot hclosed
    have hended : s.grading = false := by rw [State.grading, hfinishing]; rfl
    exact hentered.closeRun hended rfl
  · exact hentered

theorem RunOk.takeWaiting {s : State} (h : RunOk s) (answered : Bool) : RunOk (s.takeWaiting answered) := by
  unfold State.takeWaiting
  split
  · exact h
  · split
    · exact (h.carryOut RunOk.armRun answered 3).carryOut RunOk.abandonRun answered 6
    · exact h

theorem RunOk.runRecordEntry {s : State} (h : RunOk s) (answered : Bool) : RunOk (s.runRecordEntry answered) := by
  cases hslot : s.run.slot with
  | none =>
    simp only [State.runRecordEntry, hslot]
    exact h
  | some r =>
    cases hroom : s.queueRoom with
    | false =>
      simp only [State.runRecordEntry, hslot, hroom]
      exact h
    | true =>
      rw [State.runRecordEntry_of_room hslot (of_decide_eq_true hroom)]
      exact ((h.recordEntered hslot hroom).takeWaiting answered).leaves (.waitedSwitchOver _)

/-- A RUN record CLOSED is formed in FINISHING alone (R46). -/
theorem RunOk.formClosed {s : State} (h : RunOk s) (hclosable : s.closable = true) : RunOk (s.formRecord .closed) := by
  obtain ⟨hfinishing, -⟩ := s.closable_iff.mp hclosable
  exact ⟨h.strands, fun _ _ _ => hfinishing, ⟨h.counts.queue, h.counts.lost, h.counts.billets⟩⟩

/-! ## Resets -/

theorem RunOk.powerOn (s : State) : RunOk s.powerOn :=
  .of_idle rfl (fun n => (congrArg (StrandOk False False) (Four.get_build _ n)).mpr (.blank rfl rfl)) (fun _ hr => by cases hr)
    ⟨Nat.zero_le _, Nat.zero_le _, Nat.zero_le _⟩

theorem RunOk.sampleLines {s : State} (h : RunOk s) : RunOk s.sampleLines :=
  h.of_sameRun (.of_run rfl (Nat.le_refl _) (Nat.le_refl _)) fun n => by
    rw [State.sampleLines_strand]
    exact (h.strands n).setChan_same rfl rfl

theorem RunOk.endPowerOn {s : State} (h : RunOk s) : RunOk s.endPowerOn :=
  h.sampleLines.leaves (.of_same rfl rfl rfl rfl)

/-- The run is IDLE, and every strand at its reset values but for what a channel keeps (R16, R50, R65). -/
theorem RunOk.blocksRestarted {s : State} (h : RunOk s) : RunOk s.blocksRestarted := by
  have hrun := s.blocksRestarted_run
  have hreport := s.blocksRestarted_report
  refine .of_idle (by rw [hrun]) (fun n => ?_) (fun r hr => ?_) ⟨?_, ?_, ?_⟩
  · rw [State.blocksRestarted_strand]
    exact .blank rfl rfl
  · rw [hrun] at hr
    cases hr
  · rw [hreport]
    exact h.counts.queue
  · rw [hreport]
    exact h.counts.lost
  · rw [hrun]
    exact Nat.zero_le _

theorem LeavesRun.restartReport (s : State) : LeavesRun s s.restartReport := by
  rw [State.restartReport_rest]
  exact ⟨.of_run rfl (Nat.zero_le _) (Nat.zero_le _), rfl⟩

theorem RunOk.restart {s : State} (h : RunOk s) : RunOk s.restart := by
  cases hready : s.ready with
  | false =>
    rw [State.restart_of_not_ready hready]
    exact h
  | true =>
    rw [State.restart_of_ready hready, State.restarted_eq]
    exact (h.blocksRestarted.leaves (.restartReport _)).leaves (.settle _)

theorem RunOk.endRestart {s : State} (h : RunOk s) (cells : Nat) (answered : Bool) : RunOk (s.endRestart cells answered) := by
  have hready : RunOk { s with xp := { s.xp with phase := .ready } } := h.leaves (.of_same rfl rfl rfl rfl)
  rw [State.endRestart_eq]
  exact (hready.sampleLines.leaves (.putStatus _ _)).leaves (.search _ _ _ _)

theorem RunOk.hostRegister {s : State} (h : RunOk s) (reg : Register) (data : RegData) : RunOk (s.hostRegister reg data) := by
  unfold State.hostRegister
  split
  · unfold State.writeRegister
    split
    · exact h
    · exact h.leaves (.clearNotice s _)
    · exact h.leaves (.writeMask s _)
    · split
      · exact h.restart
      · exact h
  · exact h

/-! ## Every command -/

theorem RunOk.exec {c : Instr} {s t : State} (h : RunOk s) (he : exec c s = .next t) : RunOk t := by
  have next : ∀ u : State, RunOk u → Machine.exec c s = .next u → RunOk t := fun u hu e => by
    rw [e] at he
    cases he
    exact hu
  have settled : ∀ u : State, RunOk u → Machine.exec c s = .next u.settle → RunOk t :=
    fun u hu e => next u.settle (hu.leaves (.settle u)) e
  have judged : ∀ (b : Bool) (u : State), (b = true → RunOk u) → Machine.exec c s = .next (if b then u else s) → RunOk t :=
    fun b u hu e => next _ (by
      split
      next hb => exact hu hb
      · exact h) e
  cases c with
  | powerOn => exact next _ (.powerOn s) rfl
  | powerOnInitEnd =>
    refine next _ ?_ rfl
    split
    · exact h.endPowerOn
    · exact h
  | restart => exact next _ h.restart rfl
  | restartEnd cells answered =>
    refine next _ ?_ rfl
    split
    · exact (h.endRestart cells answered).leaves (.settle _)
    · exact h
  | pcieLinkReset => exact next _ (h.leaves (.writeMask s 0#32)) rfl
  | msiEnable => exact next { s with xp := { s.xp with msiEnabled := true } } (h.leaves (.of_same rfl rfl rfl rfl)) rfl
  | msiDisable => exact next { s with xp := { s.xp with msiEnabled := false } } (h.leaves (.of_same rfl rfl rfl rfl)) rfl
  | noticeWrite v => exact next _ (h.hostRegister .notice (.word v)) rfl
  | noticeMaskWrite v => exact next _ (h.hostRegister .noticeMask (.word v)) rfl
  | registerWriteIgnored reg data => exact next _ (h.hostRegister reg data) rfl
  | exchangeWrite offset bytes =>
    by_cases hw : offset + bytes.length ≤ Config.windowBytes
    · exact next _ (h.leaves (.hostWrite s offset bytes)) (exec_exchangeWrite hw s)
    · exact absurd ((if_neg hw).symm.trans he) (by simp)
  | cellPost i => exact next _ (h.leaves (.hostWrite s _ _)) rfl
  | cellFree i => exact next _ (h.leaves (.hostWrite s _ _)) rfl
  | pageReturn p => exact next _ (h.leaves (.hostWrite s _ _)) rfl
  | orderSearch cells answered => exact settled _ (h.leaves (.orderUnit s cells answered)) (exec_orderSearch s cells answered)
  | setStation answered => exact settled _ (h.carryOut RunOk.setStation answered 1) rfl
  | adoptRecipe answered => exact settled _ (h.carryOut (fun k o => k.leaves (.adoptRecipe _ o)) answered 2) rfl
  | armRun answered => exact settled _ (h.carryOutRecorded RunOk.armRun answered 3) rfl
  | amendRun answered => exact settled _ (h.carryOut (fun k o => k.leaves (.amendRun _ o)) answered 4) rfl
  | endRun answered => exact settled _ (h.carryOut RunOk.endRun answered 5) rfl
  | abandonRun answered => exact settled _ (h.carryOutRecorded RunOk.abandonRun answered 6) rfl
  | addZone answered => exact settled _ (h.carryOut RunOk.addZone answered 7) rfl
  | softCut answered => exact settled _ (h.carryOut RunOk.softCut answered 8) rfl
  | forceMarker answered => exact settled _ (h.carryOut RunOk.forceMarker answered 9) rfl
  | encoderEdge n a b => exact settled _ (h.encoderEdge n a b) rfl
  | speedWindowEnd n => exact judged _ _ (fun _ => (h.endWindow n).leaves (.settle _)) rfl
  | stopDwellExpiry n => exact judged _ _ (fun _ => (h.onStrand (h.strands n).expireDwell).leaves (.settle _)) rfl
  | stopForecast n => exact settled _ (h.onStrand ((h.strands n).takeStop s.env n)) rfl
  | leadingEdge i => exact next _ (h.leaves (.leadingEdge s i)) rfl
  | qualificationExpiry i => exact next _ (h.leaves (.qualify s i)) rfl
  | inputInactive i => exact next _ (h.leaves (.inputInactive s i)) rfl
  | qualifiedSeam => exact settled _ h.qualifiedSeam rfl
  | seamForecast => exact settled _ h.seamForecast rfl
  | qualifiedSaw => exact settled _ h.qualifiedSaw rfl
  | startDelimiter n => exact settled _ (h.startDelimiter n) rfl
  | frameArrival n content e => exact settled _ (h.frameArrival n content e) rfl
  | staleTimerExpiry n => exact judged _ _ (fun _ => (h.onStrand ((h.strands n).expireStale s.env n)).leaves (.settle _)) rfl
  | arbiterLook => exact next _ h.arbiterLook rfl
  | scanTaking => exact settled _ h.takeScan rfl
  | staleNoticeTaking => exact settled _ h.takeNotice rfl
  | switchOver => exact settled _ (h.leaves (.waitedSwitchOver s)) rfl
  | runClosed => exact judged _ _ h.formClosed rfl
  | runRecordEntry answered => exact settled _ (h.runRecordEntry answered) rfl
  | pieceBuild => exact settled _ h.pieceBuild rfl
  | markRequest n r => exact settled _ (h.onStrand ((h.strands n).takeNextRequest s.env n r)) rfl
  | markOff n => exact settled _ (h.onStrand (h.strands n).takeNextOff) rfl
  | incidentArrival n b => exact settled _ (h.incidentArrival n b) rfl
  | pageOpen => exact settled _ (h.leaves (.pageOpen s)) rfl
  | recordWrite => exact settled _ (h.leaves (.writeHead s)) rfl
  | lingerExpiry => exact settled _ (h.leaves (.lingerExpiry s)) rfl

theorem RunOk.step {s t : State} (h : RunOk s) (hstep : step s = .next t) : RunOk t := by
  unfold Machine.step at hstep
  split at hstep
  · cases hstep
    exact h.leaves (.of_same rfl rfl rfl rfl)
  next c rest _ =>
    have hpending : RunOk { s with pending := rest } := h.leaves (.of_same rfl rfl rfl rfl)
    exact hpending.exec hstep

/-- Settles O58: the invariant is `RunOk`, kept by `RunOk.exec` command by command. -/
theorem strandInvariantKept : Obligations.StrandInvariantKept := by
  unfold Obligations.StrandInvariantKept
  intro s t h hstep
  exact (runOk_iff t).mp (((runOk_iff s).mpr h).step hstep)

end Sys2Proof.Machine
end

section
namespace Sys2Proof.Machine

/-! # The gauge link (R72 to R83, R88, R102) -/

/-- An event of one strand completes with what that strand becomes. -/
theorem Completes.ofStrand {c : Instr} {s : State} {n : Strand} {f : StrandState → StrandState} {st : StrandState}
    (h : exec c s = .next (s.onStrand n f).settle) (hst : f (s.strand n) = st) :
    Completes c s { s with strands := s.strands.set n st } := .of h (hst ▸ rfl)

/-! ## The entries of a frame (R79, R189) -/

/-- Entry j of a frame's content: index, value and confidence (12.4). -/
def frameEntry (content : List Byte) (j : Nat) : Nat × Reading :=
  let word := frameByte content (7 + 4 * j) + 256 * frameByte content (8 + 4 * j) + 65536 * frameByte content (9 + 4 * j)
  (frameByte content (6 + 4 * j), { value := word % 1048576, confidence := word / 1048576 })

/-- The entries read from entry i on, where the content is long enough for them. -/
theorem frameEntries_drop (content : List Byte) (k i : Nat) (h : 6 + 4 * (i + k) ≤ content.length) :
    frameEntries k (content.drop (6 + 4 * i)) = (List.range' i k).map (frameEntry content) := by
  have hbyte : ∀ a (ha : a < content.length), (content[a]).toNat = frameByte content a := fun a ha => by
    rw [frameByte, List.getD_eq_getElem _ _ ha]
  have hword : ∀ b0 b1 b2 : Byte, leNat [b0, b1, b2] = b0.toNat + 256 * b1.toNat + 65536 * b2.toNat := fun b0 b1 b2 => by
    simp only [leNat]
    omega
  induction k generalizing i with
  | zero => rfl
  | succ k ih =>
    have h7 : 6 + 4 * i + 1 = 7 + 4 * i := by omega
    have h8 : 7 + 4 * i + 1 = 8 + 4 * i := by omega
    have h9 : 8 + 4 * i + 1 = 9 + 4 * i := by omega
    have h10 : 9 + 4 * i + 1 = 6 + 4 * (i + 1) := by omega
    rw [List.drop_eq_getElem_cons (by omega : 6 + 4 * i < content.length), h7,
      List.drop_eq_getElem_cons (by omega : 7 + 4 * i < content.length), h8,
      List.drop_eq_getElem_cons (by omega : 8 + 4 * i < content.length), h9,
      List.drop_eq_getElem_cons (by omega : 9 + 4 * i < content.length), h10,
      frameEntries, ih (i + 1) (by omega), List.range'_succ, List.map_cons]
    simp only [hword, hbyte]
    rfl

/-- A frame that passes the structure check is long enough for the entries it counts. -/
theorem frameEntries_of_structureOk {content : List Byte} (h : frameStructureOk content = true) :
    frameEntries (frameByte content 3) (content.drop 6) = (List.range (frameByte content 3)).map (frameEntry content) := by
  simp only [frameStructureOk, Bool.and_eq_true, decide_eq_true_eq, beq_iff_eq] at h
  rw [List.range_eq_range']
  exact frameEntries_drop content (frameByte content 3) 0 (by omega)

/-- What a scan carries for index f, given the entry found for it. -/
theorem frameFeatures_get {content : List Byte} (h : frameStructureOk content = true) {f : Nat} (h1 : 1 ≤ f) (h24 : f ≤ 24) :
    (frameFeatures content)[f - 1]? = some
      (((List.range (frameByte content 3)).find? (fun j => frameByte content (6 + 4 * j) = f)).map fun j =>
        if frameFlag content 2 then { (frameEntry content j).2 with confidence := 0 } else (frameEntry content j).2) := by
  have hlt : f - 1 < 24 := by omega
  have hsucc : f - 1 + 1 = f := by omega
  unfold frameFeatures
  rw [frameEntries_of_structureOk h]
  simp only [List.getElem?_map, List.getElem?_range hlt, Option.map_some, hsucc, List.find?_map, Option.map_map]
  rfl

/-- The first entry that carries an index is the scan's for it, with confidence 0 in a SATURATED frame. -/
theorem frameFeatures_first {content : List Byte} (h : frameStructureOk content = true) {j : Nat} (hj : j < frameByte content 3)
    (h1 : 1 ≤ frameByte content (6 + 4 * j)) (h24 : frameByte content (6 + 4 * j) ≤ 24)
    (hfirst : ∀ i < j, frameByte content (6 + 4 * i) ≠ frameByte content (6 + 4 * j)) :
    (frameFeatures content)[frameByte content (6 + 4 * j) - 1]? = some (some {
      value := (frameEntry content j).2.value
      confidence := if frameFlag content 2 then 0 else (frameEntry content j).2.confidence }) := by
  have hfind : (List.range (frameByte content 3)).find?
      (fun i => frameByte content (6 + 4 * i) = frameByte content (6 + 4 * j)) = some j :=
    List.find?_range_eq_some.mpr ⟨by simp, List.mem_range.mpr hj, fun i hi => by simpa using hfirst i hi⟩
  rw [frameFeatures_get h h1 h24, hfind]
  cases frameFlag content 2 <;> rfl

/-- An index that no entry carries has nothing. -/
theorem frameFeatures_absent {content : List Byte} (h : frameStructureOk content = true) {f : Nat} (h1 : 1 ≤ f) (h24 : f ≤ 24)
    (hno : ∀ j, j < frameByte content 3 → frameByte content (6 + 4 * j) ≠ f) :
    (frameFeatures content)[f - 1]? = some none := by
  have hfind : (List.range (frameByte content 3)).find? (fun j => frameByte content (6 + 4 * j) = f) = none :=
    List.find?_range_eq_none.mpr fun j hj => by simpa using hno j hj
  rw [frameFeatures_get h h1 h24, hfind, Option.map_none]

/-! ## Frames (R72 to R80) -/

/-- The detail of LINK_CHECK for the first check that a frame with an end delimiter fails, if any (R73). -/
def frameFailing (n : Strand) (content : List Byte) : Option Nat :=
  if frameCheckOk content = false then some 1
  else if frameStructureOk content = false then some 3
  else if frameByte content 0 ≠ n.num then some 2 else none

theorem frameStructureOk_of_not_failing {n : Strand} {content : List Byte} (h : frameFailing n content = none) :
    frameStructureOk content = true := by
  by_contra hbad
  rw [Bool.not_eq_true] at hbad
  unfold frameFailing at h
  rw [if_pos hbad] at h
  split at h <;> cases h

/-- A frame with its end delimiter fails a check, or is accepted (R73). -/
theorem StrandState.arrive_finished (st : StrandState) (e : Env) (n : Strand) (content : List Byte) :
    st.arrive e n content true = (frameFailing n content).elim (st.acceptFrame e n content) (st.linkCheck e n) := by
  unfold StrandState.arrive frameFailing
  cases frameCheckOk content with
  | false => rfl
  | true =>
    cases frameStructureOk content with
    | false => rfl
    | true => by_cases hport : frameByte content 0 ≠ n.num <;> simp [hport]

theorem StrandState.linkCheck_eq (st : StrandState) (e : Env) (n : Strand) (d : Nat) : st.linkCheck e n d = { st with
    raised := if st.track = .off then st.raised else st.raised ++
      [{ kind := .linkCheck, strand := some n, code := 0, coordinate := st.chan.hw, detail := d, time := e.time }] } := by
  unfold StrandState.linkCheck
  split <;> rfl

/-- No frame is missing exactly where the sequence number is the one after the last (R75). -/
theorem missingCount_eq_zero_iff (last seq : Byte) : missingCount last seq = 0 ↔ seq = last + 1#8 := by
  unfold missingCount
  bv_omega

/-- The sequence number of a frame for an OFF strand (R74, R75). -/
theorem StrandState.trackSeq_of_off {st : StrandState} (h : st.track = .off) (e : Env) (n : Strand) (seq : Byte) :
    st.trackSeq e n seq = { st with port := { st.port with lastSeq := some seq } } := by
  unfold StrandState.trackSeq
  dsimp only
  split
  · rfl
  · exact if_pos (.inl h)

/-- SEQ_GAP, where frames are missing before an accepted one (R75). -/
def StrandState.seqGap (st : StrandState) (e : Env) (n : Strand) (seq : Byte) : List Incident :=
  if st.port.lastSeq.elim true (fun l => seq == l + 1#8) then [] else
    [{ kind := .seqGap, strand := some n, code := 0, coordinate := st.chan.position,
       detail := missingCount (st.port.lastSeq.getD 0#8) seq, time := e.time }]

/-- HEAD_FAULT, where an episode begins with a scan (R76). -/
def StrandState.headFault (st : StrandState) (e : Env) (n : Strand) (sc : Scan) : List Incident :=
  if sc.laserFault = true ∧ st.port.fault = false then
    [{ kind := .headFault, strand := some n, code := 0, coordinate := sc.stamp, detail := sc.seq.toNat, time := e.time }] else []

/-- FIFO_OVERRUN, where 16 scans wait before one (R78). -/
def StrandState.fifoOverrun (st : StrandState) (e : Env) (n : Strand) (sc : Scan) : List Incident :=
  if st.port.scans < 16 then [] else
    [{ kind := .fifoOverrun, strand := some n, code := 0, coordinate := sc.stamp, detail := sc.seq.toNat, time := e.time }]

/-- The sequence number of an accepted frame (R75). -/
theorem StrandState.trackSeq_of_on {st : StrandState} (h : st.track ≠ .off) (e : Env) (n : Strand) (seq : Byte) :
    st.trackSeq e n seq = { st with
      port := { st.port with lastSeq := some seq }
      raised := st.raised ++ st.seqGap e n seq } := by
  unfold StrandState.trackSeq StrandState.seqGap
  cases st.port.lastSeq with
  | none => simp
  | some last =>
    by_cases hnext : seq = last + 1#8
    · have hmiss := (missingCount_eq_zero_iff last seq).mpr hnext
      dsimp only
      rw [if_pos (.inr hmiss)]
      simp [hnext]
    · have hmiss := mt (missingCount_eq_zero_iff last seq).mp hnext
      simp [h, hmiss, hnext, StrandState.raise]

/-- The head fault episode (R76). -/
theorem StrandState.trackFault_eq (st : StrandState) (e : Env) (n : Strand) (sc : Scan) : st.trackFault e n sc = { st with
    port := { st.port with fault := sc.laserFault }
    raised := st.raised ++ st.headFault e n sc } := by
  unfold StrandState.trackFault StrandState.headFault
  dsimp only
  rw [StrandState.raise_if]
  simp only [Bool.and_eq_true, Bool.not_eq_true']

/-- The scan enters the FIFO or overruns it (R78). -/
theorem StrandState.enqueueScan_eq (st : StrandState) (e : Env) (n : Strand) (sc : Scan) : st.enqueueScan e n sc = { st with
    port := { st.port with fifo := if st.port.scans < 16 then st.port.fifo ++ [.scan sc] else st.port.fifo }
    raised := st.raised ++ st.fifoOverrun e n sc } := by
  unfold StrandState.enqueueScan StrandState.fifoOverrun Config.fifoScans
  split
  · rw [List.append_nil]
  · rfl

/-- The stale timer of a strand that is not OFF (R80). -/
theorem StrandState.frameStale_of_on {st : StrandState} (h : st.track ≠ .off) (e : Env) (n : Strand) : st.frameStale e n = { st with
    port := { st.port with stale := if st.track = .tailed then .notArmed else .running (e.clock + e.staleTime n) } } := by
  unfold StrandState.frameStale
  split
  next ht => simp [ht, StrandState.startStale]
  next ht => simp [ht, StrandState.startStale]
  next ht => simp [ht, StrandState.disarmStale]
  next ht => exact absurd ht h

/-- A frame for an OFF strand only moves the last sequence number (R74). -/
theorem StrandState.acceptFrame_of_off {st : StrandState} (h : st.track = .off) (e : Env) (n : Strand) (content : List Byte) :
    st.acceptFrame e n content = { st with port := { st.port with lastSeq := some (frameSeq content) } } :=
  (if_pos h).trans (StrandState.trackSeq_of_off h e n _)

/-- What an accepted frame does to its strand, in its four effects: sequence number, head fault, FIFO and stale timer (R75 to R80). -/
theorem StrandState.acceptFrame_of_on {st : StrandState} (h : st.track ≠ .off) (e : Env) (n : Strand) (content : List Byte)
    {sc : Scan} (hsc : frameScan st.chan content = sc) : st.acceptFrame e n content = { st with
      port := {
        assembling := st.port.assembling
        fifo := if st.port.scans < 16 then st.port.fifo ++ [.scan sc] else st.port.fifo
        lastSeq := some (frameSeq content)
        fault := sc.laserFault
        stale := if st.track = .tailed then .notArmed else .running (e.clock + e.staleTime n) }
      raised := st.raised ++ (st.seqGap e n (frameSeq content) ++ (st.headFault e n sc ++ st.fifoOverrun e n sc)) } := by
  have hsteps : st.acceptFrame e n content =
      (((st.trackSeq e n (frameSeq content)).trackFault e n sc).enqueueScan e n sc).frameStale e n := hsc ▸ if_neg h
  rw [hsteps, StrandState.trackSeq_of_on h, StrandState.trackFault_eq, StrandState.enqueueScan_eq, StrandState.frameStale_of_on]
  · simp only [List.append_assoc]
    rfl
  · exact h

/-- With the part not ready (R86), or no frame being assembled, an arrival is ignored (R72). -/
theorem State.frameArrival_of_idle {s : State} {n : Strand} (h : s.ready = false ∨ (s.strand n).port.assembling = false)
    (content : List Byte) (ending : FrameEnd) : s.frameArrival n content ending = s := by
  refine if_neg fun hb => ?_
  obtain ⟨hr, ha⟩ := Bool.and_eq_true_iff.mp hb
  rcases h with h | h
  · exact Bool.false_ne_true (h.symm.trans hr)
  · exact Bool.false_ne_true (h.symm.trans ha)

/-- A frame arrives at its end delimiter. -/
theorem exec_frameArrival_end {s : State} {n : Strand} (hr : s.ready = true) (ha : (s.strand n).port.assembling = true)
    (content : List Byte) : exec (.frameArrival n content .endDelimiter) s =
      .next (s.onStrand n (fun st => (st.setAssembling false).arrive s.env n content true)).settle := by
  have h : s.frameArrival n content .endDelimiter = _ := if_pos (Bool.and_eq_true_iff.mpr ⟨hr, ha⟩)
  exact congrArg (fun u : State => Host.Outcome.next u.settle) h

/-- A frame ended unfinished by a start delimiter fails the first check (R72, R73). -/
theorem exec_frameArrival_start {s : State} {n : Strand} (hr : s.ready = true) (ha : (s.strand n).port.assembling = true)
    (content : List Byte) : exec (.frameArrival n content .startDelimiter) s =
      .next (s.onStrand n (fun st => (st.setAssembling true).linkCheck s.env n 1)).settle := by
  have h : s.frameArrival n content .startDelimiter = _ := if_pos (Bool.and_eq_true_iff.mpr ⟨hr, ha⟩)
  exact congrArg (fun u : State => Host.Outcome.next u.settle) h

theorem exec_startDelimiter_assembling {s : State} {n : Strand} (hr : s.ready = true) (ha : (s.strand n).port.assembling = true) :
    exec (.startDelimiter n) s = .next (s.onStrand n (fun st => (st.setAssembling true).linkCheck s.env n 1)).settle := by
  have h : s.startDelimiter n = _ := (if_pos hr).trans (if_pos ha)
  exact congrArg (fun u : State => Host.Outcome.next u.settle) h

theorem exec_startDelimiter_idle {s : State} {n : Strand} (hr : s.ready = true) (ha : (s.strand n).port.assembling = false) :
    exec (.startDelimiter n) s = .next (s.onStrand n (fun st => st.setAssembling true)).settle := by
  have h : s.startDelimiter n = _ := (if_pos hr).trans (if_neg (ha ▸ Bool.false_ne_true))
  exact congrArg (fun u : State => Host.Outcome.next u.settle) h

/-- Setting the assembly of a port on that is assembling changes nothing. -/
theorem StrandState.setAssembling_self {st : StrandState} (h : st.port.assembling = true) : st.setAssembling true = st := by
  unfold StrandState.setAssembling
  rw [← h]

/-- Settles O44: the checks by `StrandState.arrive_finished`, an accepted frame by `StrandState.acceptFrame_of_on`, its features by
`frameFeatures_first` and `frameFeatures_absent`. -/
theorem framesArrive : Obligations.FramesArrive := by
  unfold Obligations.FramesArrive
  intro s n content st failing linkCheck
  have hfailing : failing = frameFailing n content := rfl
  refine ⟨fun h => ?_, fun hr ha => ?_, fun hr ha => .ofStrand (exec_startDelimiter_idle hr ha) rfl,
    fun hr => .of rfl (if_neg (hr ▸ Bool.false_ne_true))⟩
  · exact ⟨.of rfl (State.frameArrival_of_idle h content _), .of rfl (State.frameArrival_of_idle h content _)⟩
  · have hstart : (st.setAssembling true).linkCheck s.env n 1 = { st with raised := linkCheck 1 } := by
      rw [StrandState.setAssembling_self ha, StrandState.linkCheck_eq]
      rfl
    have harrives := exec_frameArrival_end hr ha content
    refine ⟨fun d hd => .ofStrand harrives ?_, .ofStrand (exec_frameArrival_start hr ha content) hstart,
      .ofStrand (exec_startDelimiter_assembling hr ha) hstart, fun hpass hoff => .ofStrand harrives ?_, fun hpass hon => ?_⟩
    · rw [StrandState.arrive_finished, ← hfailing, hd, Option.elim_some, StrandState.linkCheck_eq]
      rfl
    · rw [StrandState.arrive_finished, ← hfailing, hpass, Option.elim_none]
      exact StrandState.acceptFrame_of_off (st := st.setAssembling false) hoff s.env n content
    · have hok := frameStructureOk_of_not_failing hpass
      intro sc index word
      refine ⟨rfl, rfl, rfl, rfl, rfl, rfl, by simp [sc, frameScan, frameFeatures], fun j hj h1 h24 hfirst =>
        frameFeatures_first hok hj h1 h24 hfirst, fun f h1 h24 hno => frameFeatures_absent hok h1 h24 hno,
        _, _, _, rfl, rfl, rfl, .ofStrand harrives ?_⟩
      rw [StrandState.arrive_finished, ← hfailing, hpass, Option.elim_none]
      exact StrandState.acceptFrame_of_on (st := st.setAssembling false) hon s.env n content rfl

/-! ## The stale timer and stale notices (R81, R88, R102) -/

/-- The stale timer's expiry is due where it runs and its time has come. -/
theorem State.staleOver_iff (s : State) (n : Strand) :
    s.staleOver n = true ↔ ∃ due, (s.strand n).port.stale = .running due ∧ due ≤ s.clock := by
  unfold State.staleOver
  cases (s.strand n).port.stale <;> simp

/-- A stale notice in service is taken on its strand, unless an ARM RUN has named it since. -/
theorem State.takeNotice_of_service {s : State} {n : Strand} {armed : Bool}
    (h : s.service = some { port := n, entry := .notice, armed := armed }) : s.takeNotice = { s with
      service := none
      strands := s.strands.set n (if armed then s.strand n else (s.strand n).takeNotice s.env n) } := by
  unfold State.takeNotice
  rw [h]
  cases armed with
  | true => simp [State.strand, Four.set_get]
  | false => rfl

/-- A stale notice does nothing on a strand that is not TRACKING. -/
theorem StrandState.takeNotice_of_not_tracking {st : StrandState} (h : st.track ≠ .tracking) (e : Env) (n : Strand) :
    st.takeNotice e n = st := if_pos h

/-- On a TRACKING strand that is UNMEASURED already it drops the candidate. -/
theorem StrandState.takeNotice_of_unmeasured {st : StrandState} (h : st.track = .tracking) (hu : st.eval.confirmed = .unmeasured)
    (e : Env) (n : Strand) : st.takeNotice e n = st.dropCandidate := by
  unfold StrandState.takeNotice
  dsimp only
  rw [if_neg (not_not.mpr h), if_pos hu]

/-- The strand that a notice has made UNMEASURED, before the boundary at its frontier (R102). -/
def StrandState.noticed (st : StrandState) : StrandState :=
  { st.dropCandidate with eval := { st.eval with confirmed := .unmeasured, candidate := none } }

/-- On any other TRACKING strand it makes a boundary at the frontier as well. -/
theorem StrandState.takeNotice_of_measured {st : StrandState} (h : st.track = .tracking) (hu : st.eval.confirmed ≠ .unmeasured)
    (e : Env) (n : Strand) :
    st.takeNotice e n = st.noticed.boundary e n st.map.frontier .unmeasured {} [.notice] := by
  unfold StrandState.takeNotice StrandState.noticed
  dsimp only
  rw [if_neg (not_not.mpr h), if_neg hu, StrandState.dropCandidate_eq]

theorem StrandState.noticed_drawn (st : StrandState) : Drawn st st.noticed := by
  refine (Drawn.dropCandidate st).trans (.of_open ?_ rfl rfl rfl)
  unfold StrandState.noticed
  rw [StrandState.dropCandidate_eq]
  rfl

/-- A notice on a TRACKING strand only redraws its map, makes its confirmed state UNMEASURED and drops its candidate. -/
theorem StrandState.takeNotice_drawn {st : StrandState} (h : st.track = .tracking) (e : Env) (n : Strand) :
    Drawn st (st.takeNotice e n) ∧ (st.takeNotice e n).eval = { st.eval with confirmed := .unmeasured, candidate := none } := by
  by_cases hu : st.eval.confirmed = .unmeasured
  · rw [StrandState.takeNotice_of_unmeasured h hu]
    refine ⟨.dropCandidate st, ?_⟩
    rw [StrandState.dropCandidate_eq, ← hu]
  · rw [StrandState.takeNotice_of_measured h hu]
    obtain ⟨hdrawn, -, hconfirmed, hcandidate⟩ := st.noticed.boundary_cases e n st.map.frontier .unmeasured {} [.notice]
    have hnone : (st.noticed.boundary e n st.map.frontier .unmeasured {} [.notice]).eval.candidate = none :=
      hcandidate.elim id id
    refine ⟨st.noticed_drawn.trans hdrawn, ?_⟩
    rw [hdrawn.redrawn, hnone, hconfirmed]
    rfl

/-- Settles O45: a notice by `StrandState.takeNotice_drawn`, the boundary it makes by `StrandState.boundary_breaks`. -/
theorem staleEvents : Obligations.StaleEvents := by
  unfold Obligations.StaleEvents
  intro s n st
  refine ⟨fun due hdue hover => ?_, fun hearly => ?_, fun armed hs hidle => ?_, fun hs ht => ?_⟩
  · have hexpires : exec (.staleTimerExpiry n) s = .next (s.onStrand n (fun st => st.expireStale s.env n)).settle :=
      congrArg Host.Outcome.next (if_pos ((s.staleOver_iff n).mpr ⟨due, hdue, hover⟩))
    exact ⟨fun ht hm => .ofStrand hexpires (if_pos ⟨ht, hm⟩), fun hno => .ofStrand hexpires (if_neg hno)⟩
  · refine congrArg Host.Outcome.next (if_neg fun hover => ?_)
    obtain ⟨due, hdue, hover⟩ := (s.staleOver_iff n).mp hover
    exact absurd hover (Nat.not_le.mpr (hearly due hdue))
  · have hkept : (if armed = true then st else st.takeNotice s.env n) = st := by
      obtain harmed | ht := hidle
      · exact if_pos harmed
      · rw [StrandState.takeNotice_of_not_tracking ht, ite_self]
    refine .of rfl ((State.takeNotice_of_service hs).trans ?_)
    rw [hkept]
    exact congrArg (fun z => { s with service := none, strands := z }) (Four.set_get s.strands n)
  · obtain ⟨hdrawn, heval⟩ := StrandState.takeNotice_drawn ht s.env n
    have htake := State.takeNotice_of_service hs
    rw [if_neg Bool.false_ne_true] at htake
    have hself : s.takeNotice.strand n = st.takeNotice s.env n := by rw [htake]; exact Four.get_set_self ..
    have hredrawn := hdrawn.redrawn
    refine ⟨s.takeNotice, .of rfl rfl, by rw [htake], fun m hm => by rw [htake]; exact Four.get_set_ne _ _ hm, ?_⟩
    rw [hself]
    refine ⟨heval, hredrawn.track.trans ht, hredrawn.frontier, hredrawn.nose, hredrawn.cuts, hredrawn.chan, hredrawn.recipe,
      hredrawn.switch, fun b hb => ⟨fun hu => ?_, fun hu hstart hroom => ?_⟩⟩
    · rw [StrandState.takeNotice_of_unmeasured ht hu, StrandState.dropCandidate_eq, hb]
      rfl
    · rw [StrandState.takeNotice_of_measured ht hu]
      have hcur : st.noticed.map.cur = some { b with stats := st.eval.candidate.elim b.stats (fun k => b.stats.add k.side) } := by
        unfold StrandState.noticed
        rw [StrandState.dropCandidate_eq, hb]
        rfl
      have hcount : st.noticed.map.count = st.map.count := by
        unfold StrandState.noticed
        rw [StrandState.dropCandidate_eq]
        simp [StrandMap.count]
      rw [StrandState.boundary_breaks hcur s.env n hstart (hcount ▸ hroom)]
      refine ⟨?_, _, rfl, rfl, rfl, rfl⟩
      unfold StrandState.noticed
      rw [StrandState.dropCandidate_eq]

/-! ## The arbiter (R83) -/

/-- The port the arbiter looks for is the first in turn whose FIFO holds an entry. -/
theorem State.nextPort_of_turn {s : State} {n : Strand} {pre post : List Strand} (hturn : turnAfter s.lastServed = pre ++ n :: post)
    (hpre : ∀ m ∈ pre, (s.strand m).port.fifo = []) (hn : (s.strand n).port.fifo ≠ []) : s.nextPort = some n := by
  unfold State.nextPort
  rw [hturn, List.find?_append, List.find?_eq_none.mpr (by simpa using hpre), Option.none_or]
  exact List.find?_cons_of_pos (by simpa using hn)

/-- With every FIFO empty there is none. -/
theorem State.nextPort_of_empty {s : State} (h : ∀ n, (s.strand n).port.fifo = []) : s.nextPort = none :=
  List.find?_eq_none.mpr fun n _ => by simp [h n]

/-- The oldest entry of a port goes into service, and the port is the last served. -/
theorem State.serve_of_cons {s : State} {n : Strand} {x : FifoEntry} {rest : List FifoEntry}
    (h : (s.strand n).port.fifo = x :: rest) : s.serve n = { s with
      strands := s.strands.set n { s.strand n with port := { (s.strand n).port with fifo := rest } }
      lastServed := n
      service := some { port := n, entry := x } } := by
  unfold State.serve
  rw [h]
  rfl

/-- With no entry in service the arbiter serves the port it finds. -/
theorem State.arbiterLook_of_idle {s : State} (h : s.service = none) : s.arbiterLook = s.nextPort.elim s s.serve := by
  unfold State.arbiterLook
  rw [h]
  cases s.nextPort <;> rfl

/-- Settles O46: the port by `State.nextPort_of_turn`, its service by `State.serve_of_cons`. -/
theorem arbiterServes : Obligations.ArbiterServes := by
  unfold Obligations.ArbiterServes
  refine fun s => ⟨fun hbusy => ?_, fun hidle hempty => ?_, fun n pre post x rest hidle hturn hpre hfifo => ?_,
    rfl, rfl, rfl, rfl⟩
  · exact congrArg Host.Outcome.next (if_pos hbusy)
  · refine congrArg Host.Outcome.next ?_
    rw [State.arbiterLook_of_idle hidle, State.nextPort_of_empty hempty, Option.elim_none]
  · have hnext : s.nextPort = some n := State.nextPort_of_turn hturn hpre (by rw [hfifo]; exact List.cons_ne_nil x rest)
    refine congrArg Host.Outcome.next ?_
    rw [State.arbiterLook_of_idle hidle, hnext, Option.elim_some, State.serve_of_cons hfifo]

end Sys2Proof.Machine
end

section
namespace Sys2Proof.Machine

/-! # Scan evaluation: temperature, features and statistics (6.3, 6.4, 6.6) -/

/-! ## Rounding and grading (R95 to R97) -/

/-- A quotient rounded half up lies within half of the divisor, the half itself below (00_scope.md, Conventions). -/
theorem roundHalfUp_bounds (a : Nat) {b : Nat} (hb : 0 < b) :
    2 * (b * roundHalfUp a b) ≤ 2 * a + b ∧ 2 * a < 2 * (b * roundHalfUp a b) + b := by
  unfold roundHalfUp
  have hdiv := Nat.div_add_mod (2 * a + b) (2 * b)
  have hmod := Nat.mod_lt (2 * a + b) (show 0 < 2 * b by omega)
  rw [Nat.mul_assoc] at hdiv
  omega

theorem coldValue_bounds (hot alpha temp : Nat) :
    let div := 100000000 + alpha * (if temp < 20 then 0 else temp - 20)
    2 * (div * coldValue hot alpha temp) ≤ 2 * (hot * 100000000) + div ∧
      2 * (hot * 100000000) < 2 * (div * coldValue hot alpha temp) + div := by
  have hwarm : (if temp < 20 then 0 else temp - 20) = temp - 20 := by split <;> omega
  rw [hwarm]
  exact roundHalfUp_bounds _ (by omega)

theorem deviation_eq (cold nominal : Nat) : deviation cold nominal =
    if (99999 : Int) < (cold : Int) - nominal then 99999
    else if (cold : Int) - nominal < -99999 then -99999 else (cold : Int) - nominal := by
  unfold deviation Config.maxDeviation
  split
  · omega
  · split <;> omega

/-- The tolerance on a deviation's side (R97). -/
def sideTolerance (d : Int) (f : Feature) : Nat := if 0 ≤ d then f.upper else f.lower

theorem excursion_eq (d : Int) (f : Feature) :
    excursion d f.lower f.upper = min (roundHalfUp (d.natAbs * 1000) (sideTolerance d f)) 9999 := by
  unfold excursion sideTolerance
  split <;> rfl

theorem sideTolerance_pos (d : Int) {f : Feature} (hl : 0 < f.lower) (hu : 0 < f.upper) : 0 < sideTolerance d f := by
  unfold sideTolerance
  split
  · exact hu
  · exact hl

theorem bandOf_outside (d : Int) (f : Feature) : bandOf d f = .outside ↔ (f.upper : Int) < d ∨ d < -(f.lower : Int) := by
  unfold bandOf
  split
  next h => exact ⟨fun _ => h, fun _ => rfl⟩
  next h => split <;> simp [h]

theorem bandOf_guarded (d : Int) (f : Feature) : bandOf d f = .guarded ↔
    d ≤ (f.upper : Int) ∧ -(f.lower : Int) ≤ d ∧ f.guardPercent * 10 < excursion d f.lower f.upper := by
  unfold bandOf
  split
  next h =>
    exact ⟨nofun, fun ⟨hu, hl, _⟩ => absurd h (by omega)⟩
  next h =>
    have hin : d ≤ (f.upper : Int) ∧ -(f.lower : Int) ≤ d := by omega
    split
    next hg => exact ⟨fun _ => ⟨hin.1, hin.2, hg⟩, fun _ => rfl⟩
    next hg => exact ⟨nofun, fun ⟨_, _, k⟩ => absurd k hg⟩

/-! ## The resolved temperature (R92, R93) -/

theorem inBand_iff (p : StrandStation) (reading : Nat) :
    inBand p reading = true ↔ reading ≠ 1023 ∧ p.bandLow ≤ reading ∧ reading ≤ p.bandHigh := by
  simp [inBand, Config.noReading, and_assoc]

theorem Evaluator.resolve_of_inBand {p : StrandStation} {reading : Nat} (h : inBand p reading = true) (v : Evaluator) (default : Nat) :
    v.resolve (some p) default reading = { temp := reading, assumed := false, eval := { v with
      lastValid := some reading, hold := 0, episode := false, resolved := reading } } := if_pos h

theorem Evaluator.resolve_held {p : StrandStation} {reading last : Nat} (h : inBand p reading = false) {v : Evaluator}
    (hlast : v.lastValid = some last) (hhold : v.hold < p.thermalHold) (default : Nat) :
    v.resolve (some p) default reading =
      { temp := last, assumed := false, eval := { v with hold := v.hold + 1, resolved := last } } := by
  simp [Evaluator.resolve, h, hlast, hhold]

theorem Evaluator.resolve_assumed {p : StrandStation} {reading : Nat} (h : inBand p reading = false) {v : Evaluator}
    (hv : v.lastValid = none ∨ p.thermalHold ≤ v.hold) (default : Nat) :
    v.resolve (some p) default reading =
      { temp := default, assumed := true, eval := { v with episode := true, resolved := default } } := by
  obtain hnone | hover := hv
  · simp [Evaluator.resolve, h, hnone]
  · cases hlast : v.lastValid <;> simp [Evaluator.resolve, h, hlast, Nat.not_lt.mpr hover]

/-! ## The graded features of a scan (R91, R94, R98) -/

@[simp] theorem padFeatures_length {α : Type} (xs : List (Option α)) : (padFeatures xs).length = 24 := by
  simp [padFeatures]

/-- Over the indexes 1 to 24 a result beyond the given ones is absent (R91). -/
theorem padFeatures_get {α : Type} (xs : List (Option α)) {i : Nat} (h : i < 24) :
    (padFeatures xs)[i]? = some (xs[i]?.getD none) := by
  unfold padFeatures
  rw [List.getElem?_take_of_lt h, List.getElem?_append]
  split
  next hi => rw [List.getElem?_eq_getElem hi, Option.getD_some]
  next hi => rw [List.getElem?_replicate_of_lt (by omega), List.getElem?_eq_none (Nat.not_lt.mp hi), Option.getD_none]

/-- A feature's valid value in a scan: that of its reading, above no limit, with confidence, and without LASER_FAULT (R94). -/
theorem featureValid_eq_some {sc : Scan} {f : Feature} {o : Option Reading} {v : Nat} : featureValid sc f o = some v ↔
    ∃ rd, o = some rd ∧ rd.value ≤ 999999 ∧ f.minConfidence ≤ rd.confidence ∧ sc.laserFault = false ∧ v = rd.value := by
  unfold featureValid
  cases o with
  | none => simp
  | some rd =>
    dsimp only
    split
    next h =>
      obtain ⟨hv, hc, hl⟩ := h
      simp [hv, hc, hl, eq_comm]
    next h => simpa using fun hv hc hl => absurd ⟨hv, hc, hl⟩ h

theorem gradeScan_get (sc : Scan) (r : Recipe) (temp : Nat) {i : Nat} (h : i < 24) : (gradeScan sc r temp)[i]? = some
    ((r.features[i]?.bind fun f => sc.feats[i]?.bind fun o => gradeFeature r.alpha temp f (featureValid sc f o))) := by
  unfold gradeScan validValues
  rw [padFeatures_get _ h, List.getElem?_zipWith, List.getElem?_zipWith]
  cases r.features[i]? <;> cases sc.feats[i]? <;> rfl

theorem scanState_unmeasured {feats : List (Option (Int × Band))} (h : ∀ g ∈ feats, g = none) : scanState feats = .unmeasured :=
  if_pos (by simpa using h)

theorem scanState_measured {feats : List (Option (Int × Band))} (h : ∃ g, some g ∈ feats) : scanState feats =
    if feats.any (fun f => f.elim false (fun p => p.2 == .outside)) then .offGauge else .sound := by
  obtain ⟨g, hg⟩ := h
  refine if_neg fun hall => ?_
  have := List.all_eq_true.mp hall _ hg
  cases this

theorem any_outside_iff (feats : List (Option (Int × Band))) :
    feats.any (fun f => f.elim false (fun p => p.2 == .outside)) = true ↔ ∃ d, some (d, Band.outside) ∈ feats := by
  rw [List.any_eq_true]
  constructor
  · rintro ⟨_ | ⟨d, band⟩, hmem, h⟩
    · cases h
    · rw [Option.elim_some, beq_iff_eq] at h
      exact ⟨d, h ▸ hmem⟩
  · exact fun ⟨d, hd⟩ => ⟨_, hd, rfl⟩

/-! ## A scan folded (R104, R106) -/

theorem leastOf_some (o : Option Int) (d : Int) : leastOf o (some d) = some (o.elim d (fun a => min a d)) := by cases o <;> rfl

theorem greatestOf_some (o : Option Int) (d : Int) : greatestOf o (some d) = some (o.elim d (fun a => max a d)) := by cases o <;> rfl

theorem Stats.fold_get {s : Stats} {y : Contribution} {i : Nat} {f : FeatStat} {g : Option (Int × Band)} (hf : s.feats[i]? = some f)
    (hg : y.feats[i]? = some g) : (s.fold y).feats[i]? = some (f.fold g) := by
  show (List.zipWith FeatStat.fold s.feats y.feats)[i]? = _
  rw [List.getElem?_zipWith, hf, hg]

/-- Below its limit the valid count takes the deviation into every count (R104). -/
theorem FeatStat.fold_of_lt {f : FeatStat} (h : f.valid < 4294967295) (d : Int) (band : Band) : f.fold (some (d, band)) = {
    valid := f.valid + 1
    least := some (f.least.elim d (fun a => min a d))
    greatest := some (f.greatest.elim d (fun a => max a d))
    sum := max (-140737488355327) (min (f.sum + d) 140737488355327)
    outCount := min (f.outCount + if band = .outside then 1 else 0) 4294967295
    guardCount := min (f.guardCount + if band = .guarded then 1 else 0) 4294967295 } := by
  rw [← leastOf_some, ← greatestOf_some]
  exact if_pos h

/-- At its limit the minimum and maximum alone take it (R106). -/
theorem FeatStat.fold_of_full {f : FeatStat} (h : 4294967295 ≤ f.valid) (d : Int) (band : Band) : f.fold (some (d, band)) = { f with
    least := some (f.least.elim d (fun a => min a d))
    greatest := some (f.greatest.elim d (fun a => max a d)) } := by
  rw [← leastOf_some, ← greatestOf_some]
  exact if_neg (Nat.not_lt.mpr h)

/-- Settles O51: grading by `roundHalfUp_bounds`, the temperature by the three equations of `Evaluator.resolve`, the scan's features by
`gradeScan_get`, folding by the two of `FeatStat.fold`. -/
theorem featureGraded : Obligations.FeatureGraded := by
  unfold Obligations.FeatureGraded
  refine ⟨coldValue_bounds, deviation_eq, fun d f hl hu => ⟨?_, bandOf_outside d f, bandOf_guarded d f⟩,
    fun v p default reading => ⟨fun h => ?_, fun last h hlast hhold => ?_, fun h hv => ?_⟩,
    fun sc r temp i _ hsc => ⟨padFeatures_length _, fun f rd hf hrd hvalue hconf hlaser => ?_, fun hi hnone => ?_⟩,
    fun feats => ⟨scanState_unmeasured, fun hout => ?_, fun hsome hin => ?_⟩,
    fun s y => ⟨rfl, rfl, (Bool.or_eq_true _ _).to_iff, List.length_zipWith, fun i f hf => ⟨fun hg => Stats.fold_get hf hg,
      fun d band hg => ⟨fun hlt => ?_, fun hfull => ?_⟩⟩⟩⟩
  · obtain ⟨hlow, hhigh⟩ := roundHalfUp_bounds (d.natAbs * 1000) (sideTolerance_pos d hl hu)
    exact ⟨_, hlow, hhigh, excursion_eq d f⟩
  · exact Evaluator.resolve_of_inBand ((inBand_iff p reading).mpr h) v default
  · exact Evaluator.resolve_held (Bool.eq_false_iff.mpr (mt (inBand_iff p reading).mp h)) hlast hhold default
  · exact Evaluator.resolve_assumed (Bool.eq_false_iff.mpr (mt (inBand_iff p reading).mp h)) hv default
  · obtain ⟨hi, -⟩ := List.getElem?_eq_some_iff.mp hrd
    rw [gradeScan_get sc r temp (hsc ▸ hi), hf, hrd, Option.bind_some, Option.bind_some,
      featureValid_eq_some.mpr ⟨rd, rfl, hvalue, hconf, hlaser, rfl⟩]
    rfl
  · rw [gradeScan_get sc r temp hi]
    refine congrArg some (Option.eq_none_iff_forall_not_mem.mpr fun g hg => ?_)
    obtain ⟨f, hf, hg⟩ := Option.bind_eq_some_iff.mp hg
    obtain ⟨o, ho, hg⟩ := Option.bind_eq_some_iff.mp hg
    obtain ⟨v, hv, -⟩ := Option.map_eq_some_iff.mp hg
    obtain ⟨rd, rfl, hvalue, hconf, hlaser, -⟩ := featureValid_eq_some.mp hv
    exact hnone f rd ⟨hf, ho, hvalue, hconf, hlaser⟩
  · obtain ⟨d, hd⟩ := hout
    rw [scanState_measured ⟨_, hd⟩, if_pos ((any_outside_iff feats).mpr ⟨d, hd⟩)]
  · rw [scanState_measured hsome, if_neg]
    exact fun h => ((any_outside_iff feats).mp h).elim hin
  · rw [Stats.fold_get hf hg, FeatStat.fold_of_lt hlt]
  · rw [Stats.fold_get hf hg, FeatStat.fold_of_full hfull]

end Sys2Proof.Machine
end

section
namespace Sys2Proof.Machine

/-! # Pieces (chapter 9) -/

/-! ## The worst feature of a segment (R157) -/

/-- Feature j of a segment has a valid scan, and a tolerance to be judged by. -/
structure JudgedFeature (ts : List Tolerance) (fs : List FeatStat) (j : Nat) (f : FeatStat) (t : Tolerance) : Prop where
  stat : fs[j]? = some f
  tolerance : ts[j]? = some t
  valid : 0 < f.valid

/-- The best so far stays where no feature has a greater excursion. -/
theorem worstFrom_keeps {ts : List Tolerance} {fs : List FeatStat} {best : Nat × Nat}
    (h : ∀ j f t, JudgedFeature ts fs j f t → best.1 ≠ 0 ∧ statExcursion f t ≤ best.2) (i : Nat) :
    worstFrom i best ts fs = best := by
  induction ts generalizing fs i with
  | nil => rfl
  | cons t ts ih =>
    cases fs with
    | nil => rfl
    | cons f fs =>
      have hhead : ¬ (0 < f.valid ∧ (best.1 = 0 ∨ best.2 < statExcursion f t)) := by
        rintro ⟨hvalid, hless⟩
        have := h 0 f t ⟨rfl, rfl, hvalid⟩
        omega
      show worstFrom (i + 1) (if 0 < f.valid ∧ (best.1 = 0 ∨ best.2 < statExcursion f t) then _ else best) ts fs = best
      rw [if_neg hhead]
      exact ih (fun j f' t' hj => h (j + 1) f' t' ⟨hj.stat, hj.tolerance, hj.valid⟩) (i + 1)

/-- The first feature of the greatest excursion is found, where the best so far lies below it. -/
theorem worstFrom_finds {ts : List Tolerance} {fs : List FeatStat} {j : Nat} {f : FeatStat} {t : Tolerance}
    (hj : JudgedFeature ts fs j f t)
    (hmax : ∀ j' f' t', JudgedFeature ts fs j' f' t' →
      statExcursion f' t' ≤ statExcursion f t ∧ (statExcursion f' t' = statExcursion f t → j ≤ j'))
    {i : Nat} (hi : i ≠ 0) {best : Nat × Nat} (hbest : best.1 = 0 ∨ best.2 < statExcursion f t) :
    worstFrom i best ts fs = (i + j, statExcursion f t) := by
  induction ts generalizing fs i j best with
  | nil => cases hj.tolerance
  | cons t0 ts ih =>
    cases fs with
    | nil => cases hj.stat
    | cons f0 fs =>
      show worstFrom (i + 1) (if 0 < f0.valid ∧ (best.1 = 0 ∨ best.2 < statExcursion f0 t0) then (i, statExcursion f0 t0) else best)
        ts fs = _
      cases j with
      | zero =>
        cases hj.stat
        cases hj.tolerance
        rw [if_pos ⟨hj.valid, hbest⟩]
        exact worstFrom_keeps (fun j' f' t' h => ⟨hi, (hmax (j' + 1) f' t' ⟨h.stat, h.tolerance, h.valid⟩).1⟩) (i + 1)
      | succ j =>
        have hrest := ih (fs := fs) (j := j) ⟨hj.stat, hj.tolerance, hj.valid⟩
          (fun j' f' t' h => by
            obtain ⟨hle, hfirst⟩ := hmax (j' + 1) f' t' ⟨h.stat, h.tolerance, h.valid⟩
            exact ⟨hle, fun heq => Nat.le_of_succ_le_succ (hfirst heq)⟩)
          (Nat.succ_ne_zero i) (best := if 0 < f0.valid ∧ (best.1 = 0 ∨ best.2 < statExcursion f0 t0)
            then (i, statExcursion f0 t0) else best) (by
          split
          next h =>
            obtain ⟨hle, hfirst⟩ := hmax 0 f0 t0 ⟨rfl, rfl, h.1⟩
            exact .inr (Nat.lt_of_le_of_ne hle fun heq => Nat.not_succ_le_zero j (hfirst heq))
          · exact hbest)
        rw [hrest, Nat.succ_add_eq_add_succ]

theorem segEntry_worst {copy : VerdictCopy} {g : Segment} {j : Nat} {f : FeatStat} {t : Tolerance}
    (hj : JudgedFeature copy.tolerances g.body.stats.feats j f t)
    (hmax : ∀ j' f' t', JudgedFeature copy.tolerances g.body.stats.feats j' f' t' →
      statExcursion f' t' ≤ statExcursion f t ∧ (statExcursion f' t' = statExcursion f t → j ≤ j')) :
    (segEntry copy g).worst = j + 1 ∧ (segEntry copy g).worstLeast = f.least ∧ (segEntry copy g).worstGreatest = f.greatest ∧
      (segEntry copy g).worstExcursion = statExcursion f t := by
  have hfound := worstFrom_finds hj hmax (i := 1) (best := (0, 0)) (by decide) (.inl rfl)
  unfold segEntry
  dsimp only
  rw [hfound]
  simp [Nat.add_comm 1 j, hj.stat]

/-- Without a judged feature an entry names none. -/
theorem segEntry_unjudged {copy : VerdictCopy} {g : Segment}
    (h : ∀ j f t, ¬ JudgedFeature copy.tolerances g.body.stats.feats j f t) :
    (segEntry copy g).worst = 0 ∧ (segEntry copy g).worstLeast = none ∧ (segEntry copy g).worstGreatest = none ∧
      (segEntry copy g).worstExcursion = 0 := by
  have hkept := worstFrom_keeps (best := (0, 0)) (fun j f t hj => absurd hj (h j f t)) 1
  unfold segEntry
  dsimp only
  rw [hkept]
  exact ⟨rfl, rfl, rfl, rfl⟩

/-! ## Scrap and clean spans (R158) -/

theorem Segment.scrap_iff (tolerate : Bool) (g : Segment) : g.scrap tolerate = true ↔ g.body.start < g.stop ∧
    (g.body.cls = .stopMark ∨ g.body.cls = .manual ∨ g.body.cls = .offGauge ∨ g.body.cls = .weld ∨
      (g.body.cls = .unmeasured ∧ tolerate = false)) := by
  unfold Segment.scrap
  rw [Bool.and_eq_true, decide_eq_true_iff]
  cases g.body.cls <;> simp

/-- Clean at x: a segment there that is no scrap. -/
def CleanAt (tolerate : Bool) (gs : List Segment) (x : Nat) : Prop :=
  ∃ g ∈ gs, g.body.start ≤ x ∧ x < g.stop ∧ ¬ g.scrap tolerate = true

/-- Spans apart from each other and not empty, from a on, that cover what P holds of. -/
structure SpansOf (a : Nat) (P : Nat → Prop) (spans : List (Nat × Nat)) : Prop where
  apart : spans.Pairwise (fun p q => p.2 < q.1)
  proper : ∀ p ∈ spans, p.1 < p.2
  fromStart : ∀ p ∈ spans, a ≤ p.1
  covers : ∀ x, (∃ p ∈ spans, p.1 ≤ x ∧ x < p.2) ↔ P x

theorem SpansOf.congr {a : Nat} {P Q : Nat → Prop} {spans : List (Nat × Nat)} (h : SpansOf a P spans) (hpq : ∀ x, P x ↔ Q x) :
    SpansOf a Q spans := ⟨h.apart, h.proper, h.fromStart, fun x => (h.covers x).trans (hpq x)⟩

/-- The span that is running ends at a; it comes before the spans from beyond a on. -/
theorem SpansOf.cons_run {a c : Nat} {P : Nat → Prop} {spans : List (Nat × Nat)} (h : SpansOf c P spans) (hac : a < c)
    {run : Option (Nat × Nat)} (hrun : ∀ p, run = some p → p.1 < p.2 ∧ p.2 = a) :
    SpansOf (run.elim a (·.1)) (fun x => (∃ p, run = some p ∧ p.1 ≤ x ∧ x < p.2) ∨ P x) (run.toList ++ spans) := by
  cases run with
  | none => exact ⟨h.apart, h.proper, fun p hp => hac.le.trans (h.fromStart p hp), fun x => by simp [← h.covers]⟩
  | some r =>
    obtain ⟨hproper, rfl⟩ := hrun r rfl
    refine ⟨List.pairwise_cons.mpr ⟨fun q hq => hac.trans_le (h.fromStart q hq), h.apart⟩, fun p hp => ?_, fun p hp => ?_,
      fun x => by simp [← h.covers]⟩
    · obtain rfl | hp := List.mem_cons.mp hp
      · exact hproper
      · exact h.proper p hp
    · obtain rfl | hp := List.mem_cons.mp hp
      · exact le_rfl
      · have := h.fromStart p hp
        show r.1 ≤ p.1
        omega

/-- The clean spans of a chain, with the span that is running to its beginning. -/
theorem cleanSpans_spans (tolerate : Bool) {gs : List Segment} {a b : Nat} (h : Chained a gs b) {run : Option (Nat × Nat)}
    (hrun : ∀ p, run = some p → p.1 < p.2 ∧ p.2 = a) : SpansOf (run.elim a (·.1))
      (fun x => (∃ p, run = some p ∧ p.1 ≤ x ∧ x < p.2) ∨ CleanAt tolerate gs x) (cleanSpans tolerate run gs) := by
  induction gs generalizing a run with
  | nil =>
    have hnone : SpansOf (a + 1) (CleanAt tolerate []) [] := ⟨.nil, nofun, nofun, fun x => by simp [CleanAt]⟩
    simpa only [cleanSpans, List.append_nil] using hnone.cons_run (Nat.lt_succ_self a) hrun
  | cons g gs ih =>
    obtain ⟨rfl, hle, hrest⟩ := h
    have hmem : ∀ x, CleanAt tolerate (g :: gs) x ↔
        (g.body.start ≤ x ∧ x < g.stop ∧ ¬ g.scrap tolerate = true) ∨ CleanAt tolerate gs x := by simp [CleanAt]
    unfold cleanSpans
    split
    next hempty =>
      have hstop : g.stop = g.body.start := Nat.le_antisymm hempty hle
      rw [hstop] at hrest
      refine (ih hrest hrun).congr fun x => ?_
      rw [hmem]
      refine or_congr_right (or_iff_right ?_).symm
      omega
    next hlong =>
      rw [Nat.not_le] at hlong
      split
      next hscrap =>
        refine ((ih hrest (run := none) nofun).cons_run hlong hrun).congr fun x => ?_
        rw [hmem]
        simp [hscrap]
      next hclean =>
        have hstart : run.elim g.body.start (·.1) ≤ g.body.start := by
          cases run with
          | none => exact le_rfl
          | some r =>
            obtain ⟨hproper, hend⟩ := hrun r rfl
            exact (hend ▸ hproper).le
        have hspans := ih hrest (run := some (run.elim g.body.start (·.1), g.stop))
          (fun p hp => by cases hp; exact ⟨hstart.trans_lt hlong, rfl⟩)
        refine hspans.congr fun x => ?_
        rw [hmem, ← or_assoc]
        refine or_congr_left ?_
        cases run with
        | none => simp [hclean]
        | some r =>
          obtain ⟨hproper, hend⟩ := hrun r rfl
          simp only [Option.elim_some, Option.some.injEq, exists_eq_left', hclean, Bool.false_eq_true, not_false_eq_true, and_true]
          omega

/-! ## The keep list (R158) -/

/-- A test that takes more counts more. -/
theorem countP_lt_of_mem {α : Type} {P Q : α → Bool} {l : List α} {a : α} (h : ∀ x ∈ l, P x = true → Q x = true) (ha : a ∈ l)
    (hP : ¬ P a = true) (hQ : Q a = true) : l.countP P < l.countP Q := by
  obtain ⟨pre, post, rfl⟩ := List.append_of_mem ha
  have hpre : pre.countP P ≤ pre.countP Q := List.countP_mono_left fun x hx => h x (by simp [hx])
  have hpost : post.countP P ≤ post.countP Q := List.countP_mono_left fun x hx => h x (by simp [hx])
  rw [List.countP_append, List.countP_append, List.countP_cons_of_neg hP, List.countP_cons_of_pos hQ]
  omega

theorem countP_lt_range (k n : Nat) : (List.range n).countP (fun i => i < k) = min k n := by
  induction n with
  | zero => simp
  | succ n ih =>
    rw [List.range_succ, List.countP_append, ih, List.countP_singleton]
    split <;> simp_all <;> omega

/-- How many spans come before one (R158). -/
def spanRank (spans : List (Nat × Nat)) (p : Nat × Nat) : Nat := spans.countP (fun q => spanBefore q p)

theorem spanBefore_iff (p q : Nat × Nat) :
    spanBefore p q = true ↔ spanLength q < spanLength p ∨ spanLength p = spanLength q ∧ p.1 < q.1 := by
  simp [spanBefore]

theorem spanRank_lt {spans : List (Nat × Nat)} {p q : Nat × Nat} (hp : p ∈ spans) (h : spanBefore p q = true) :
    spanRank spans p < spanRank spans q := by
  rw [spanBefore_iff] at h
  refine countP_lt_of_mem (fun x _ hx => ?_) hp (fun hpp => ?_) ((spanBefore_iff p q).mpr h)
  · rw [spanBefore_iff] at hx ⊢
    omega
  · rw [spanBefore_iff] at hpp
    omega

/-- Of two spans that start apart one comes before the other. -/
theorem spanBefore_or {p q : Nat × Nat} (h : p.1 ≠ q.1) : spanBefore p q = true ∨ spanBefore q p = true := by
  rw [spanBefore_iff, spanBefore_iff]
  omega

theorem starts_ne {spans : List (Nat × Nat)} (h : spans.Pairwise (fun p q => p.1 < q.1)) {p q : Nat × Nat} (hp : p ∈ spans)
    (hq : q ∈ spans) (hne : p ≠ q) : p.1 ≠ q.1 :=
  fun heq => hne (List.inj_on_of_nodup_map (List.pairwise_map.mpr (h.imp Nat.ne_of_lt)) hp hq heq)

/-- The ranks of spans that start apart are the numbers below their count. -/
theorem spanRank_perm {spans : List (Nat × Nat)} (h : spans.Pairwise (fun p q => p.1 < q.1)) :
    (spans.map (spanRank spans)).Perm (List.range spans.length) := by
  have hinj : ∀ p ∈ spans, ∀ q ∈ spans, spanRank spans p = spanRank spans q → p = q := fun p hp q hq heq => by
    by_contra hne
    obtain hb | hb := spanBefore_or (starts_ne h hp hq hne)
    · exact absurd heq (spanRank_lt hp hb).ne
    · exact absurd heq (spanRank_lt hq hb).ne'
  have hnodup : (spans.map (spanRank spans)).Nodup :=
    List.Nodup.map_on (fun p hp q hq => hinj p hp q hq) (h.imp fun hlt heq => (heq ▸ hlt).ne rfl)
  have hsub : spans.map (spanRank spans) ⊆ List.range spans.length := fun k hk => by
    obtain ⟨p, hp, rfl⟩ := List.mem_map.mp hk
    refine List.mem_range.mpr (List.countP_lt_length_iff.mpr ⟨p, hp, ?_⟩)
    simp [spanBefore]
  exact (List.subperm_of_subset hnodup hsub).perm_of_length_le (by simp)

/-- The four best of spans that start apart, or all of them. -/
theorem countP_spanRank {spans : List (Nat × Nat)} (h : spans.Pairwise (fun p q => p.1 < q.1)) (k : Nat) :
    spans.countP (fun p => spanRank spans p < k) = min k spans.length :=
  calc spans.countP (fun p => spanRank spans p < k)
      = (spans.map (spanRank spans)).countP (fun i => i < k) := by rw [List.countP_map]; rfl
    _ = (List.range spans.length).countP (fun i => i < k) := (spanRank_perm h).countP_eq _
    _ = min k spans.length := countP_lt_range k _

/-- The spans of usable length (R158). -/
def usableSpans (m : Nat) (spans : List (Nat × Nat)) : List (Nat × Nat) := spans.filter (fun p => m ≤ spanLength p)

theorem keepList_eq (m : Nat) (spans : List (Nat × Nat)) :
    keepList m spans = (usableSpans m spans).filter (fun p => spanRank (usableSpans m spans) p < 4) := rfl

theorem keepList_length {spans : List (Nat × Nat)} (h : spans.Pairwise (fun p q => p.1 < q.1)) (m : Nat) :
    (keepList m spans).length = min 4 (spans.countP (fun p => m ≤ p.2 - p.1)) := by
  rw [keepList_eq, ← List.countP_eq_length_filter, countP_spanRank (spans := usableSpans m spans) (h.filter _)]
  exact congrArg (min 4) List.countP_eq_length_filter.symm

theorem mem_keepList {m : Nat} {spans : List (Nat × Nat)} {p : Nat × Nat} :
    p ∈ keepList m spans ↔ p ∈ usableSpans m spans ∧ spanRank (usableSpans m spans) p < 4 := by
  rw [keepList_eq, List.mem_filter, decide_eq_true_iff]

/-- A usable span that is not kept comes after every kept one. -/
theorem keepList_best {spans : List (Nat × Nat)} (h : spans.Pairwise (fun p q => p.1 < q.1)) {m : Nat} {p q : Nat × Nat}
    (hp : p ∈ keepList m spans) (hq : q ∈ spans) (hm : m ≤ q.2 - q.1) (hout : q ∉ keepList m spans) :
    q.2 - q.1 ≤ p.2 - p.1 ∧ (q.2 - q.1 = p.2 - p.1 → p.1 < q.1) := by
  obtain ⟨husable, hrank⟩ := mem_keepList.mp hp
  have hqusable : q ∈ usableSpans m spans := List.mem_filter.mpr ⟨hq, decide_eq_true hm⟩
  have hne : p ≠ q := fun heq => hout (heq ▸ hp)
  have hbefore : spanBefore p q = true := by
    refine (spanBefore_or (starts_ne h (List.mem_of_mem_filter husable) hq hne)).resolve_right fun hlt => hout ?_
    exact mem_keepList.mpr ⟨hqusable, (spanRank_lt hqusable hlt).trans hrank⟩
  rw [spanBefore_iff] at hbefore
  unfold spanLength at hbefore
  omega

/-! ## The build (R154, R155) -/

theorem State.queueRoom_iff (s : State) : s.queueRoom = true ↔ s.report.queue.length < 8 := decide_eq_true_iff

/-- The piece builder's strand is the first in turn with a pending cut (R154). -/
theorem State.nextBuild_of_turn {s : State} {n : Strand} {pre post : List Strand} (hturn : turnAfter s.pieceServed = pre ++ n :: post)
    (hpre : ∀ m ∈ pre, (s.strand m).cuts.pending = []) (hn : (s.strand n).cuts.pending ≠ []) : s.nextBuild = some n := by
  unfold State.nextBuild
  rw [hturn, List.find?_append, List.find?_eq_none.mpr (by simpa using hpre), Option.none_or]
  exact List.find?_cons_of_pos (by simpa using hn)

/-- Without room in the queue, or without a pending cut, nothing is built (R154). -/
theorem State.pieceBuild_of_idle {s : State} (h : 8 ≤ s.report.queue.length ∨ ∀ n, (s.strand n).cuts.pending = []) :
    s.pieceBuild = s := by
  unfold State.pieceBuild
  obtain hfull | hempty := h
  · exact if_neg (mt s.queueRoom_iff.mp (Nat.not_lt.mpr hfull))
  · have hnone : s.nextBuild = none := List.find?_eq_none.mpr fun n _ => by simp [hempty n]
    rw [hnone]
    exact ite_self s

/-- The oldest pending cut of the strand in turn is built (R155). -/
theorem State.pieceBuild_of_next {s : State} {n : Strand} (hroom : s.report.queue.length < 8) (hnext : s.nextBuild = some n)
    {p : PendingCut} {rest : List PendingCut} (hp : (s.strand n).cuts.pending = p :: rest) : s.pieceBuild = { s with
      report := { s.report with queue := s.report.queue ++ [.piece (pieceRecord s.env n s.run.runId (s.strand n) p)] }
      pieceServed := n
      strands := s.strands.set n ((s.strand n).afterBuild s.env p) } := by
  unfold State.pieceBuild
  rw [if_pos (s.queueRoom_iff.mpr hroom), hnext]
  show s.buildPiece n = _
  unfold State.buildPiece
  rw [hp]
  rfl

theorem StrandState.afterBuild_eq {st : StrandState} {p : PendingCut} {rest : List PendingCut} (hp : st.cuts.pending = p :: rest)
    (e : Env) : st.afterBuild e p = { st with
      map := { st.map with closed := st.map.closed.drop p.segs }
      cuts := { lastCut := some p.coord, pending := rest, pieces := nextPiece e st.cuts.pieces } } := by
  unfold StrandState.afterBuild
  rw [hp]
  rfl

/-! ## The record (R156, R159, R160) -/

theorem verdictOf_scrap (keeps : List (Nat × Nat)) : verdictOf true keeps = if keeps = [] then .reject else .trim := by
  cases keeps <;> rfl

theorem verdictOf_clean (keeps : List (Nat × Nat)) : verdictOf false keeps = if keeps = [] then .short else .accept := by
  cases keeps <;> rfl

/-- Settles O52: the build by `State.pieceBuild_of_next`, the worst features by `segEntry_worst`, the clean spans by
`cleanSpans_spans`, the keep list by `keepList_length` and `keepList_best`. -/
theorem pieceBuilt : Obligations.PieceBuilt := by
  unfold Obligations.PieceBuilt
  refine ⟨fun s h => .of rfl (State.pieceBuild_of_idle h), fun s n pre post p rest hroom hturn hpre hp => ?_, fun f g => ?_,
    fun tolerate gs a b h => ?_, fun m spans h => ⟨?_, fun p hp => ?_, keepList_length h m, fun p hp q hq hm hout =>
      keepList_best h hp hq hm hout⟩⟩
  · have hnext : s.nextBuild = some n := State.nextBuild_of_turn hturn hpre (by rw [hp]; exact List.cons_ne_nil p rest)
    refine ⟨pieceRecord s.env n s.run.runId (s.strand n) p, .of rfl ?_, fun hlt => if_pos hlt, rfl, rfl, rfl, rfl, rfl, rfl, rfl, rfl,
      rfl, rfl, ?_, ?_, ?_, rfl, fun hscrap => ?_, fun hclean => ?_, List.length_zipWith, fun i tol f htol hf => ?_,
      List.length_map _, fun i g hg => ⟨segEntry p.copy g, ?_, rfl, fun hnone => ?_, fun j f t hj hmax => ?_⟩⟩
    · rw [State.pieceBuild_of_next hroom hnext hp, StrandState.afterBuild_eq hp]
      rfl
    · exact List.any_eq_true
    · exact List.any_eq_true
    · simp [pieceRecord]
    · show verdictOf _ _ = _
      rw [List.any_eq_true.mpr (hscrap.imp fun g hg => ⟨hg.1, (Segment.scrap_iff _ g).mpr hg.2⟩), verdictOf_scrap]
      rfl
    · show verdictOf _ _ = _
      rw [List.any_eq_false.mpr fun g hg hs => hclean g hg ((Segment.scrap_iff _ g).mp hs), verdictOf_clean]
      rfl
    · show (List.zipWith _ _ _)[i]? = _
      rw [List.getElem?_zipWith, htol]
      rw [show (joinedStats _).feats[i]? = _ from hf]
      rfl
    · show (List.map _ _)[i]? = _
      rw [List.getElem?_map, hg]
      rfl
    · exact segEntry_unjudged fun j f t hj => hnone j f t ⟨hj.stat, hj.tolerance, hj.valid⟩
    · exact segEntry_worst ⟨hj.1, hj.2.1, hj.2.2⟩ fun j' f' t' h => hmax j' f' t' ⟨h.stat, h.tolerance, h.valid⟩
  · unfold FeatStat.add
    rw [FeatStat.mk.injEq]
    refine ⟨rfl, ?_, ?_, rfl, rfl, rfl⟩
    · cases f.least <;> cases g.least <;> rfl
    · cases f.greatest <;> cases g.greatest <;> rfl
  · obtain ⟨hapart, hproper, -, hcovers⟩ := cleanSpans_spans tolerate h (run := none) nofun
    refine ⟨hapart, hproper, fun x => (hcovers x).trans ?_⟩
    simp [CleanAt, Segment.scrap_iff]
  · exact (List.filter_sublist).trans List.filter_sublist
  · exact of_decide_eq_true (List.mem_filter.mp (mem_keepList.mp hp).1).2

end Sys2Proof.Machine
end

section
namespace Sys2Proof.Machine

/-! # The dimensional tracker and the ordinary boundary (6.5, 8.2, 8.4, 8.6) -/

/-! ## The map mark (R142, R143) -/

/-- Judging the open segment for a map mark does what `MarkJudged` says. -/
theorem StrandState.judgeMark_judged {st : StrandState} {b : SegBody} (hb : st.map.cur = some b) (e : Env) (n : Strand) (x y : Nat) :
    MarkJudged st (st.judgeMark e n x y) e n b x y := by
  have hmarked : st.mapMarked e = b.marked (e.recipe st) := by rw [StrandState.mapMarked, hb, Option.elim_some]
  unfold StrandState.judgeMark
  rw [hmarked]
  cases hm : b.marked (e.recipe st) <;> cases hopen : st.map.mapMark
  case false.none =>
    refine ⟨fun h => ?_, fun h => ?_, fun _ => ?_, fun _ on h => ?_⟩
    · rw [hm] at h; cases h
    · rw [hm] at h; cases h
    · simp [StrandState.endMark, hopen]
    · rw [hopen] at h; cases h
  case false.some on' =>
    refine ⟨fun h => ?_, fun h => ?_, fun h => ?_, fun _ on h => ?_⟩
    · rw [hm] at h; cases h
    · rw [hm] at h; cases h
    · rw [hm, hopen] at h; simp at h
    · simp [StrandState.endMark, hopen, Config.coordCap]
  case true.none =>
    refine ⟨fun _ _ m hmarker hcap => ?_, fun _ _ hcap => ?_, fun h => ?_, fun h => ?_⟩
    · simp [StrandState.startMark, hmarker, Config.coordCap, hcap]
    · cases hmarker : e.marker n with
      | none => simp [StrandState.startMark, hmarker, hopen]
      | some m => simp [StrandState.startMark, hmarker, hopen, Config.coordCap, Nat.not_lt.mpr (hcap m hmarker)]
    · rw [hm, hopen] at h; simp at h
    · rw [hm] at h; cases h
  case true.some on' =>
    refine ⟨fun _ h => ?_, fun _ h => ?_, fun _ => ?_, fun h => ?_⟩
    · rw [hopen] at h; cases h
    · rw [hopen] at h; cases h
    · simp [hopen]
    · rw [hm] at h; cases h

/-- Of the state before, `MarkJudged` speaks of the recipe in force, the map mark and the messages alone. -/
theorem MarkJudged.of_same {st st' t : StrandState} {e : Env} {n : Strand} {b : SegBody} {x y : Nat} (h : MarkJudged st' t e n b x y)
    (hrecipe : st'.recipe = st.recipe) (hmark : st'.map.mapMark = st.map.mapMark) (hmail : st'.mapMail = st.mapMail) :
    MarkJudged st t e n b x y := by
  have hr : e.recipe st' = e.recipe st := by rw [Env.recipe, Env.recipe, StrandState.index, StrandState.index, hrecipe]
  obtain ⟨hbegins, hnot, hstays, hends⟩ := h
  rw [hr, hmark] at hbegins hnot hstays
  rw [hr, hmark] at hends
  rw [hmail] at hbegins hnot hstays hends
  exact ⟨hbegins, hnot, hstays, hends⟩

/-! ## The forecast at a boundary (R119) -/

theorem Forecast.act_zones (f : Forecast) (b : Nat) : (f.act b).zones = f.zones.filterMap (fun z =>
    if z.stop = b then none else some (if z.phase = .ahead ∧ z.start = b then { z with phase := .over } else z)) := rfl

theorem Forecast.act_classBoundary (f : Forecast) (b : Nat) :
    (f.act b).classBoundary = f.classBoundary.filter (fun a => a ≠ b) := by
  unfold Forecast.act
  cases f.classBoundary with
  | none => rfl
  | some a => by_cases h : a = b <;> simp [Option.filter, h]

/-- The overlay class with one more zone (R119). -/
def overlayWith (o : Option ZoneClass) (z : Zone) : Option ZoneClass := if z.phase = .over then higherOverlay o (some z.cls) else o

theorem Forecast.overlay_eq (f : Forecast) : f.overlay = f.zones.foldl overlayWith none := rfl

theorem ZoneClass.higher_le (a b : ZoneClass) : a.severity ≤ (a.higher b).severity ∧ b.severity ≤ (a.higher b).severity := by
  unfold ZoneClass.higher
  split <;> omega

theorem higherOverlay_some (o : Option ZoneClass) (z : ZoneClass) : higherOverlay o (some z) = some (o.elim z (fun c => c.higher z)) := by
  cases o <;> rfl

/-- A class stands below the overlay class. -/
def OverlaidBy (a : ZoneClass) (o : Option ZoneClass) : Prop := ∃ c, o = some c ∧ a.severity ≤ c.severity

theorem OverlaidBy.with {a : ZoneClass} {o : Option ZoneClass} (h : OverlaidBy a o) (z : Zone) : OverlaidBy a (overlayWith o z) := by
  obtain ⟨c, rfl, hle⟩ := h
  unfold overlayWith
  split
  · exact ⟨c.higher z.cls, higherOverlay_some _ _, hle.trans (ZoneClass.higher_le c z.cls).1⟩
  · exact ⟨c, rfl, hle⟩

theorem OverlaidBy.self {z : Zone} (h : z.phase = .over) (o : Option ZoneClass) : OverlaidBy z.cls (overlayWith o z) := by
  unfold overlayWith
  rw [if_pos h, higherOverlay_some]
  refine ⟨_, rfl, ?_⟩
  cases o with
  | none => exact le_rfl
  | some c => exact (ZoneClass.higher_le c z.cls).2

theorem OverlaidBy.foldl {zs : List Zone} {o : Option ZoneClass} {a : ZoneClass}
    (h : OverlaidBy a o ∨ ∃ z ∈ zs, z.phase = .over ∧ z.cls = a) : OverlaidBy a (zs.foldl overlayWith o) := by
  induction zs generalizing o with
  | nil => exact h.resolve_right (by simp)
  | cons z zs ih =>
    refine ih ?_
    obtain h | ⟨y, hy, hover, rfl⟩ := h
    · exact .inl (h.with z)
    · obtain rfl | hy := List.mem_cons.mp hy
      · exact .inl (.self hover o)
      · exact .inr ⟨y, hy, hover, rfl⟩

/-- The overlay class is that of a zone that is OVER. -/
theorem foldl_overlayWith_mem {zs : List Zone} {o : Option ZoneClass} {c : ZoneClass} (h : zs.foldl overlayWith o = some c) :
    o = some c ∨ ∃ z ∈ zs, z.phase = .over ∧ z.cls = c := by
  induction zs generalizing o with
  | nil => exact .inl h
  | cons z zs ih =>
    obtain h | ⟨y, hy, hover, hcls⟩ := ih h
    · unfold overlayWith at h
      split at h
      next hover =>
        rw [higherOverlay_some] at h
        cases o with
        | none => exact .inr ⟨z, .head _, hover, Option.some.inj h⟩
        | some a =>
          rw [Option.elim_some, ZoneClass.higher] at h
          split at h
          · exact .inr ⟨z, .head _, hover, Option.some.inj h⟩
          · exact .inl h
      · exact .inl h
    · exact .inr ⟨y, .tail _ hy, hover, hcls⟩

/-! ## What a boundary makes, and its map mark (R128, R129, R136) -/

/-- A recoloured segment is judged for a map mark from its start (R129, R142, R143). -/
theorem StrandState.boundary_recolours_judged {st : StrandState} {cur : SegBody} (hc : st.map.cur = some cur) (e : Env) (n : Strand)
    {b : Nat} (hb : b ≤ cur.start) (dim : DimClass) (stats : Stats) (others : List BoundarySource) :
    MarkJudged st (st.boundary e n b dim stats others) e n (st.recoloured e cur (st.fore.act b) dim stats) cur.start cur.start := by
  have h : st.boundary e n b dim stats others = StrandState.recolour { st with fore := st.fore.act b } e n cur dim stats := by
    simp [StrandState.boundary, hc, hb]
  rw [h]
  exact (StrandState.judgeMark_judged rfl e n _ _).of_same rfl rfl rfl

/-- On a MERGED segment each class takes the higher (R129). -/
theorem StrandState.recoloured_eq (st : StrandState) (e : Env) (cur : SegBody) (fore : Forecast) (dim : DimClass) (stats : Stats) :
    st.recoloured e cur fore dim stats = { cur with
      dim := if cur.flags.merged = true ∧ dim.severity ≤ cur.dim.severity then cur.dim else dim
      overlay := if cur.flags.merged then higherOverlay cur.overlay fore.overlay else fore.overlay
      index := st.index
      edition := (e.recipe st).edition
      stats := cur.stats.add stats } := by
  have hdim : (if cur.flags.merged then cur.dim.higher dim else dim) =
      if cur.flags.merged = true ∧ dim.severity ≤ cur.dim.severity then cur.dim else dim := by
    by_cases hm : cur.flags.merged = true
    · by_cases hlt : cur.dim.severity < dim.severity
      · simp [hm, DimClass.higher, hlt]
      · simp [hm, DimClass.higher, hlt, Nat.not_lt.mp hlt]
    · simp [hm]
  rw [StrandState.recoloured, hdim]

/-- A segment opened at a boundary is judged for a map mark from there (R128, R142, R143). -/
theorem StrandState.boundary_breaks_judged {st : StrandState} {cur : SegBody} (hc : st.map.cur = some cur) (e : Env) (n : Strand)
    {b : Nat} (hb : cur.start < b) (hroom : st.map.count < 60) (dim : DimClass) (stats : Stats) (others : List BoundarySource) :
    MarkJudged st (st.boundary e n b dim stats others) e n {
      start := b, dim := dim, overlay := (st.fore.act b).overlay, index := st.index, edition := (e.recipe st).edition, stats := stats }
      b b := by
  have h : st.boundary e n b dim stats others = StrandState.breakAt { st with fore := st.fore.act b } e n cur b dim stats := by
    simp [StrandState.boundary, hc, Nat.not_le.mpr hb, Config.ordinarySegments, hroom]
  rw [h]
  exact (StrandState.judgeMark_judged rfl e n b b).of_same rfl rfl rfl

/-- The open segment with a refused boundary merged into it (R136). -/
def SegBody.mergedWith (cur : SegBody) (fore : Forecast) (dim : DimClass) (stats : Stats) : SegBody :=
  { cur with
    dim := cur.dim.higher dim
    overlay := higherOverlay cur.overlay fore.overlay
    flags := { cur.flags with merged := true }
    stats := cur.stats.add stats }

/-- A refused boundary merges into the open segment, with MAP_MERGED, and the segment is judged for a map mark (R136, R142, R143). -/
theorem StrandState.boundary_merges {st : StrandState} {cur : SegBody} (hc : st.map.cur = some cur) (e : Env) (n : Strand) {b : Nat}
    (hb : cur.start < b) (hfull : 60 ≤ st.map.count) (dim : DimClass) (stats : Stats) (others : List BoundarySource) :
    let t := st.boundary e n b dim stats others
    let cur' := cur.mergedWith (st.fore.act b) dim stats
    t.map.closed = st.map.closed ∧ t.map.cur = some cur' ∧ t.eval = st.eval ∧
      t.raised = st.raised ++ [{ kind := .mapMerged, strand := some n, code := cur'.cls.severity, coordinate := b,
                                 detail := (BoundarySource.shown b (st.sourcesAt b others)).code, time := e.time }] ∧
      MarkJudged st t e n cur' b (Config.markEndAtMerge cur.start b) := by
  have h : st.boundary e n b dim stats others = StrandState.refuse { st with fore := st.fore.act b } e n cur b dim stats
      (BoundarySource.shown b (st.sourcesAt b others)) := by
    simp [StrandState.boundary, hc, Nat.not_le.mpr hb, Config.ordinarySegments, Nat.not_lt.mpr hfull]
  dsimp only
  rw [h]
  refine ⟨?_, ?_, ?_, ?_, (StrandState.judgeMark_judged rfl e n b _).of_same rfl rfl rfl⟩ <;>
  · rw [StrandState.refuse, StrandState.judgeMark_rest]
    rfl

/-- MAP_MERGED shows one of the sources that fall at a boundary (R136). -/
theorem BoundarySource.shown_mem (b : Nat) {l : List BoundarySource} (h : l ≠ []) : BoundarySource.shown b l ∈ l := by
  cases l with
  | nil => exact absurd rfl h
  | cons s rest =>
    have hlt : Config.mergedSource b % (rest.length + 1) < (s :: rest).length := Nat.mod_lt _ (Nat.succ_pos _)
    show (s :: rest).getD (Config.mergedSource b % (rest.length + 1)) s ∈ s :: rest
    rw [List.getD_eq_getElem _ _ hlt]
    exact List.getElem_mem hlt

theorem StrandState.mem_sourcesAt {st : StrandState} {b : Nat} {others : List BoundarySource} {source : BoundarySource} :
    source ∈ st.sourcesAt b others ↔ source ∈ others ∨ source = .zone ∧ b ∈ st.fore.offers := by
  unfold StrandState.sourcesAt
  rw [List.mem_append]
  refine or_congr_right ?_
  by_cases h : b ∈ st.fore.offers <;> simp [h]

theorem StrandState.shown_source {st : StrandState} {b : Nat} {others : List BoundarySource}
    (h : others ≠ [] ∨ b ∈ st.fore.offers) : BoundarySource.shown b (st.sourcesAt b others) ∈ others ∨
      BoundarySource.shown b (st.sourcesAt b others) = .zone ∧ b ∈ st.fore.offers := by
  refine StrandState.mem_sourcesAt.mp (BoundarySource.shown_mem b ?_)
  obtain h | h := h
  · obtain ⟨source, hsource⟩ := List.exists_mem_of_ne_nil _ h
    exact List.ne_nil_of_mem (StrandState.mem_sourcesAt.mpr (.inl hsource))
  · exact List.ne_nil_of_mem (StrandState.mem_sourcesAt.mpr (.inr ⟨rfl, h⟩))

theorem Redrawn.eval {st t : StrandState} (h : Redrawn st t) :
    t.eval = { st.eval with confirmed := t.eval.confirmed, candidate := t.eval.candidate } := congrArg (·.eval) h

/-- The frame of a boundary: the forecast, the segments and the map mark, the tracker, messages and incidents. -/
theorem StrandState.boundary_frame (st : StrandState) (e : Env) (n : Strand) (b : Nat) (dim : DimClass) (stats : Stats)
    (others : List BoundarySource) :
    let t := st.boundary e n b dim stats others
    t = { st with
      fore := st.fore.act b
      map := { st.map with closed := t.map.closed, cur := t.map.cur, mapMark := t.map.mapMark }
      eval := t.eval
      mapMail := t.mapMail
      raised := t.raised } := by
  obtain ⟨⟨hredrawn, -, -, -⟩, hfore, -, -⟩ := st.boundary_cases e n b dim stats others
  dsimp only
  rw [← hfore]
  conv_lhs => rw [hredrawn]
  rw [Redrawn.eval hredrawn]

/-! ## Step 9 (R99, R100) -/

/-- A strand with its confirmed state and its candidate. -/
def StrandState.withCandidate (st : StrandState) (k : Candidate) : StrandState :=
  { st with eval := { st.eval with candidate := some k } }

/-- A strand whose candidate has been confirmed. -/
def StrandState.withConfirmed (st : StrandState) (d : DimClass) : StrandState :=
  { st with eval := { st.eval with confirmed := d, candidate := none } }

/-- Below the threshold the candidate stands; at it, it is confirmed (R99). -/
theorem StrandState.holdCandidate_of_lt {st : StrandState} {e : Env} {k : Candidate} (h : k.count < (e.recipe st).threshold k.state)
    (n : Strand) (made : List Nat) : st.holdCandidate e n made k = st.withCandidate k := if_neg (Nat.not_le.mpr h)

/-- A confirmation makes a boundary where the taking has made none yet (R100). -/
theorem StrandState.holdCandidate_of_le {st : StrandState} {e : Env} {k : Candidate} (h : (e.recipe st).threshold k.state ≤ k.count)
    (n : Strand) : st.holdCandidate e n [] k =
      (st.withConfirmed k.state).boundary e n (st.confirmationAt k.start) k.state k.side [.confirmation] := if_pos h

theorem StrandState.dropCandidate_eval (st : StrandState) : st.dropCandidate.eval = { st.eval with candidate := none } := by
  rw [StrandState.dropCandidate_eq]

/-- A scan of the candidate's state counts for it (R99). -/
theorem StrandState.track9_counts {st : StrandState} {d : DimClass} {k : Candidate} (hd : d ≠ st.eval.confirmed)
    (hk : st.eval.candidate = some k) (hs : d = k.state) (e : Env) (n : Strand) (x : Nat) (y : Contribution) (made : List Nat) :
    st.track9 e n x d y made = st.holdCandidate e n made { k with count := k.count + 1, side := k.side.fold y } := by
  unfold StrandState.track9
  rw [if_neg hd, hk]
  exact if_pos hs

/-- One of another state begins a new candidate (R99). -/
theorem StrandState.track9_begins {st : StrandState} {d : DimClass} (hd : d ≠ st.eval.confirmed)
    (hk : ∀ k, st.eval.candidate = some k → d ≠ k.state) (e : Env) (n : Strand) (x : Nat) (y : Contribution) (made : List Nat) :
    st.track9 e n x d y made =
      st.dropCandidate.holdCandidate e n made { state := d, count := 1, start := x, side := Stats.fold {} y } := by
  unfold StrandState.track9
  rw [if_neg hd]
  cases hc : st.eval.candidate with
  | none => rw [StrandState.dropCandidate_of_none hc]
  | some k => exact if_neg (hk k hc)

/-- The side accumulator of scans that follow each other (R99). -/
def sideOf (scans : List (Nat × Contribution)) : Stats := scans.foldl (fun a y => a.fold y.2) {}

/-- Scans of one dimensional state, taken in turn. -/
def StrandState.trackAll (st : StrandState) (e : Env) (n : Strand) (d : DimClass) (scans : List (Nat × Contribution)) : StrandState :=
  scans.foldl (fun st y => st.track9 e n y.1 d y.2) st

/-- While consecutive scans of a state that is not the confirmed one stay below the threshold, the candidate holds their count, the
first one's coordinate and their contributions; the last of them holds it or confirms it (R99). -/
theorem StrandState.trackAll_holds {st : StrandState} {d : DimClass} (hd : d ≠ st.eval.confirmed) (hk : st.eval.candidate = none)
    {e : Env} (n : Strand) (first : Nat × Contribution) (more : List (Nat × Contribution))
    (h : more.length < (e.recipe st).threshold d) : st.trackAll e n d (first :: more) =
      st.holdCandidate e n [] { state := d, count := more.length + 1, start := first.1, side := sideOf (first :: more) } := by
  induction more using List.reverseRecOn with
  | nil =>
    have hbegun := StrandState.track9_begins hd (by rw [hk]; exact nofun) e n first.1 first.2 []
    rwa [StrandState.dropCandidate_of_none hk] at hbegun
  | append_singleton more y ih =>
    rw [List.length_append, List.length_singleton] at h
    have hbefore := ih (Nat.lt_of_succ_lt h)
    rw [StrandState.holdCandidate_of_lt h] at hbefore
    have hlast : st.trackAll e n d (first :: (more ++ [y])) = (st.trackAll e n d (first :: more)).track9 e n y.1 d y.2 := by
      rw [StrandState.trackAll, ← List.cons_append, List.foldl_append]
      rfl
    have hside : sideOf (first :: (more ++ [y])) = (sideOf (first :: more)).fold y.2 := by
      rw [sideOf, ← List.cons_append, List.foldl_append]
      rfl
    rw [hlast, hbefore, StrandState.track9_counts (st := st.withCandidate _) hd rfl rfl, hside, List.length_append,
      List.length_singleton]
    rfl

/-- A confirmation leaves the confirmed state and no candidate (R100). -/
theorem StrandState.boundary_eval_of_none {st : StrandState} (hk : st.eval.candidate = none) (e : Env) (n : Strand) (b : Nat)
    (dim : DimClass) (stats : Stats) (others : List BoundarySource) : (st.boundary e n b dim stats others).eval = st.eval := by
  obtain ⟨⟨hredrawn, -, -, -⟩, -, hconfirmed, hcandidate⟩ := st.boundary_cases e n b dim stats others
  have hnone : (st.boundary e n b dim stats others).eval.candidate = st.eval.candidate := by
    obtain h | h := hcandidate
    · exact h
    · rw [h, hk]; rfl
  rw [Redrawn.eval hredrawn, hconfirmed, hnone]

theorem StrandState.confirmationAt_of_open {st : StrandState} {b : SegBody} (hb : st.map.cur = some b) (y : Nat) :
    st.confirmationAt y = max y b.start := by rw [StrandState.confirmationAt, hb, Option.elim_some]

/-- Settles O50: the consecutive scans by `StrandState.trackAll_holds`, one scan by `track9_begins` and `track9_counts`, the boundary
by its three cases and `StrandState.judgeMark_judged`. -/
theorem trackerConfirms : Obligations.TrackerConfirms := by
  unfold Obligations.TrackerConfirms
  refine ⟨fun st e n d first more hd hk => ⟨fun hlt => ?_, fun hcount => ?_⟩, fun st e n x d y => ⟨fun hd => ?_, fun k hd hk hs => ?_,
    fun k hd hk hs => ⟨fun hlt => ?_, fun b hb hle => ?_⟩⟩,
    fun f b => ⟨f.act_zones b, f.act_classBoundary b, fun z hz hover => ?_, fun c hc => ?_⟩,
    fun st e n b dim stats others cur hc => ⟨st.boundary_frame e n b dim stats others, fun hb => ?_, fun hb hroom => ?_,
      fun hb hfull => ?_⟩⟩
  · exact (StrandState.trackAll_holds hd hk n first more (Nat.lt_of_succ_lt hlt)).trans (StrandState.holdCandidate_of_lt hlt n [])
  · have hrun := (StrandState.trackAll_holds hd hk n first more (Nat.lt_of_succ_le hcount.le)).trans
      (StrandState.holdCandidate_of_le hcount.ge n)
    refine ⟨?_, fun b hb hle => ?_, fun b hb hlt hroom => ?_⟩
    · exact (congrArg (·.eval) hrun).trans (StrandState.boundary_eval_of_none (st := st.withConfirmed d) rfl e n _ _ _ _)
    · show (st.trackAll e n d (first :: more)).map.closed = _ ∧ ∃ b', (st.trackAll e n d (first :: more)).map.cur = some b' ∧ _
      rw [hrun, StrandState.confirmationAt_of_open hb, Nat.max_eq_right hle,
        StrandState.boundary_recolours (st := st.withConfirmed d) hb e n le_rfl]
      exact ⟨rfl, _, rfl, rfl⟩
    · show (st.trackAll e n d (first :: more)).map.closed = _ ∧ ∃ b', (st.trackAll e n d (first :: more)).map.cur = some b' ∧ _
      rw [hrun, StrandState.confirmationAt_of_open hb, Nat.max_eq_left hlt.le,
        StrandState.boundary_breaks (st := st.withConfirmed d) hb e n hlt hroom]
      exact ⟨rfl, _, rfl, rfl, rfl, rfl⟩
  · show st.track9 e n x d y = _
    rw [StrandState.track9, if_pos hd, StrandState.dropCandidate_eq]
    rfl
  · refine Eq.trans ?_ (congrArg (fun u : StrandState => u.track9 e n x d y) st.dropCandidate_eq)
    show st.track9 e n x d y [] = st.dropCandidate.track9 e n x d y []
    have hnone : st.dropCandidate.eval.candidate = none := by rw [st.dropCandidate_eval]
    rw [StrandState.track9_begins hd (fun k' hk' => by rw [hk] at hk'; cases hk'; exact hs),
      StrandState.track9_begins (by rwa [st.dropCandidate_eval]) (by rw [hnone]; exact nofun),
      StrandState.dropCandidate_of_none hnone]
  · exact (StrandState.track9_counts hd hk hs e n x y []).trans (StrandState.holdCandidate_of_lt (hs ▸ hlt) n [])
  · rw [StrandState.track9_counts hd hk hs e n x y [], StrandState.holdCandidate_of_le (hs ▸ hle) n,
      StrandState.confirmationAt_of_open hb, hs]
    rfl
  · rw [Forecast.overlay_eq]
    exact OverlaidBy.foldl (.inr ⟨z, hz, hover, rfl⟩)
  · rw [Forecast.overlay_eq] at hc
    exact (foldl_overlayWith_mem hc).resolve_left nofun
  · have hmark := StrandState.boundary_recolours_judged hc e n hb dim stats others
    have heq := StrandState.boundary_recolours hc e n hb dim stats others
    rw [StrandState.recoloured_eq] at hmark heq
    exact ⟨congrArg (·.map.closed) heq, congrArg (·.map.cur) heq, congrArg (·.eval) heq, congrArg (·.raised) heq, hmark⟩
  · have hmark := StrandState.boundary_breaks_judged hc e n hb hroom dim stats others
    have heq := StrandState.boundary_breaks hc e n hb hroom dim stats others
    exact ⟨congrArg (·.map.closed) heq, congrArg (·.map.cur) heq, congrArg (·.raised) heq, congrArg (·.eval) heq, hmark⟩
  · obtain ⟨hclosed, hcur, heval, hraised, hmark⟩ := StrandState.boundary_merges hc e n hb hfull dim stats others
    exact ⟨hclosed, hcur, heval, ⟨_, hmark⟩, _, hraised, StrandState.shown_source⟩

end Sys2Proof.Machine
end

section
namespace Sys2Proof.Machine

/-! # Cuts judged, and the map divided at them (8.3, 9.1, 9.2) -/

/-! ## Shares (R140) -/

theorem share_le (count : Nat) {num den : Nat} (h : num ≤ den) : share count num den ≤ count := by
  unfold share
  exact Nat.div_le_of_le_mul (by rw [Nat.mul_comm den]; exact Nat.mul_le_mul_left count h)

theorem share_sum (count : Nat) {num den : Nat} (h : num ≤ den) :
    share count num den + (count - share count num den) = count := Nat.add_sub_cancel' (share_le count h)

/-- The second part of a feature's statistics takes what the first leaves. -/
theorem FeatStat.first_second (f : FeatStat) {num den : Nat} (h : num ≤ den) :
    (f.first num den).valid + (f.second num den).valid = f.valid ∧
      (f.first num den).outCount + (f.second num den).outCount = f.outCount ∧
      (f.first num den).guardCount + (f.second num den).guardCount = f.guardCount ∧
      (f.first num den).sum + (f.second num den).sum = f.sum :=
  ⟨share_sum _ h, share_sum _ h, share_sum _ h, add_sub_cancel _ _⟩

theorem Stats.first_second (s : Stats) {num den : Nat} (h : num ≤ den) :
    (s.first num den).scans + (s.second num den).scans = s.scans ∧
      (s.first num den).tempSum + (s.second num den).tempSum = s.tempSum := by
  refine ⟨share_sum _ h, Nat.add_sub_cancel' ?_⟩
  show (if s.scans = 0 then 0 else s.tempSum * share s.scans num den / s.scans) ≤ s.tempSum
  split
  · exact Nat.zero_le _
  · exact share_le s.tempSum (share_le s.scans h)

theorem Stats.split_get {s : Stats} {i : Nat} {f : FeatStat} (hf : s.feats[i]? = some f) (num den : Nat) :
    (s.first num den).feats[i]? = some (f.first num den) ∧ (s.second num den).feats[i]? = some (f.second num den) := by
  constructor <;>
  · show (List.map _ _)[i]? = _
    rw [List.getElem?_map, hf]
    rfl

/-! ## Inside a segment (R135, R139) -/

theorem Segment.inside_iff (g : Segment) (c : Nat) : g.inside c = true ↔ g.body.start < c ∧ c < g.stop := by simp [Segment.inside]

theorem StrandMap.insideOpen_iff (m : StrandMap) (c : Nat) :
    m.insideOpen c = true ↔ ∃ b, m.cur = some b ∧ b.start < c ∧ c ≤ m.frontier := by
  unfold StrandMap.insideOpen
  cases m.cur <;> simp

theorem any_inside_iff (gs : List Segment) (c : Nat) :
    gs.any (fun g => g.inside c) = true ↔ ∃ g ∈ gs, g.body.start < c ∧ c < g.stop := by
  simp only [List.any_eq_true, Segment.inside_iff]

/-- No cut lies inside a segment that ends at or below it. -/
theorem not_any_inside {gs : List Segment} {c : Nat} (h : ∀ g ∈ gs, c ≤ g.body.start ∨ g.stop ≤ c) :
    ¬ gs.any (fun g => g.inside c) = true := by
  rw [any_inside_iff]
  rintro ⟨g, hg, hstart, hstop⟩
  have := h g hg
  omega

theorem StrandState.cutPlace_of_extends {st : StrandState} {c : Nat} (ht : st.track = .tracking) (hc : st.map.frontier < c) :
    st.cutPlace c = .used := if_pos ⟨ht, hc⟩

theorem StrandState.cutPlace_of_tail {st : StrandState} {c : Nat} (ht : st.track = .tailed) (hc : st.map.tail = some c) :
    st.cutPlace c = .held := by
  unfold StrandState.cutPlace
  rw [if_neg (fun h => by rw [ht] at h; cases h.1), if_pos ⟨ht, hc⟩]

theorem StrandState.cutPlace_of_within {st : StrandState} {c : Nat} (hext : ¬ (st.track = .tracking ∧ st.map.frontier < c))
    (htail : ¬ (st.track = .tailed ∧ st.map.tail = some c)) : st.cutPlace c =
      if (∃ g ∈ st.map.closed, g.body.start < c ∧ c < g.stop) ∨ ∃ b, st.map.cur = some b ∧ b.start < c ∧ c ≤ st.map.frontier
      then .used else .none := by
  unfold StrandState.cutPlace
  rw [if_neg hext, if_neg htail]
  simp only [Bool.or_eq_true, any_inside_iff, StrandMap.insideOpen_iff]

/-! ## The map divided within its frontier (R139, R140) -/

section within
variable {st : StrandState} {c : Nat}

theorem StrandState.divideMap_closed (hext : ¬ (st.track = .tracking ∧ st.map.frontier < c)) {pre post : List Segment} {g : Segment}
    (hclosed : st.map.closed = pre ++ g :: post) (hpre : ∀ y ∈ pre, y.stop ≤ c) (hstart : g.body.start < c) (hstop : c < g.stop)
    (e : Env) (n : Strand) : st.divideMap e n c = { st with map := { st.map with
      closed := pre ++ { body := g.body.firstPart g.stop c, stop := c } :: { body := g.body.secondPart g.stop c, stop := g.stop } ::
        post } } := by
  have hinside : g.inside c = true := (g.inside_iff c).mpr ⟨hstart, hstop⟩
  have hany : st.map.closed.any (fun g => g.inside c) = true :=
    (any_inside_iff _ c).mpr ⟨g, by rw [hclosed]; exact List.mem_append_right _ (.head _), hstart, hstop⟩
  have hsplit : splitClosed c st.map.closed =
      pre ++ { body := g.body.firstPart g.stop c, stop := c } :: { body := g.body.secondPart g.stop c, stop := g.stop } :: post := by
    rw [hclosed, splitClosed_append c pre (g :: post) fun y hy => ?_]
    · simp [splitClosed, hinside]
    · rw [Bool.eq_false_iff, Ne, Segment.inside_iff]
      exact fun h => absurd (hpre y hy) (Nat.not_le.mpr h.2)
  unfold StrandState.divideMap
  rw [if_neg hext, if_pos hany, hsplit]

theorem StrandState.divideMap_open (hext : ¬ (st.track = .tracking ∧ st.map.frontier < c)) {b : SegBody}
    (hclosed : ∀ g ∈ st.map.closed, g.stop ≤ c) (hb : st.map.cur = some b) (hstart : b.start < c) (hc : c ≤ st.map.frontier)
    (e : Env) (n : Strand) : st.divideMap e n c = st.splitOpen b c := by
  have hopen : st.map.insideOpen c = true := (st.map.insideOpen_iff c).mpr ⟨b, hb, hstart, hc⟩
  unfold StrandState.divideMap
  rw [if_neg hext, if_neg (not_any_inside fun g hg => .inr (hclosed g hg)), hb]
  exact if_pos hopen

theorem StrandState.divideMap_outside (hext : ¬ (st.track = .tracking ∧ st.map.frontier < c))
    (hclosed : ∀ g ∈ st.map.closed, c ≤ g.body.start ∨ g.stop ≤ c)
    (hopen : ∀ b, st.map.cur = some b → c ≤ b.start ∨ st.map.frontier < c) (e : Env) (n : Strand) : st.divideMap e n c = st := by
  unfold StrandState.divideMap
  rw [if_neg hext, if_neg (not_any_inside hclosed)]
  split
  · rfl
  next b hb =>
    refine if_neg fun h => ?_
    obtain ⟨b', hb', hstart, hc⟩ := (st.map.insideOpen_iff c).mp h
    have := hopen b' hb'
    omega

end within

/-! ## A place withdrawn (R138) -/

theorem StrandState.withdrawNewest_kept {q : PendingCut} (h : q.place ≠ .used) (st : StrandState) (e : Env) (n : Strand) :
    st.withdrawNewest e n q = { st with cuts := { st.cuts with pending := st.cuts.pending.dropLast } } := by
  unfold StrandState.withdrawNewest
  rw [if_neg h]

theorem StrandState.withdrawNewest_used {q : PendingCut} (h : q.place = .used) (st : StrandState) (e : Env) (n : Strand) :
    st.withdrawNewest e n q = { st.joinAt e n (heldSegs st.cuts.pending) q.coord with
      cuts := { st.cuts with pending := st.cuts.pending.dropLast } } := by
  unfold StrandState.withdrawNewest
  dsimp only
  rw [if_pos h, StrandState.joinAt_cuts]

section join
variable {st : StrandState} {pre : List Segment} {a : Segment} {k : Nat}

/-- Two closed segments are joined into one (R138). -/
theorem StrandState.joinAt_of_closed (hk : k = pre.length + 1) {b : Segment} {post : List Segment}
    (h : st.map.closed = pre ++ a :: b :: post) (e : Env) (n : Strand) (old : Nat) : st.joinAt e n k old = { st with
      map := { st.map with closed := pre ++ { body := a.body.join b.body, stop := b.stop } :: post } } := by
  have htake : st.map.closed.take k = pre ++ [a] := by rw [h, hk]; simp [List.take_append]
  have hdrop : st.map.closed.drop k = b :: post := by rw [h, hk]; simp [List.drop_append]
  unfold StrandState.joinAt
  rw [htake, hdrop, List.getLast?_concat, List.dropLast_concat]

/-- The last closed segment is joined into the open one, which is judged for a map mark (R138). -/
theorem StrandState.joinAt_of_open (hk : k = pre.length + 1) {b : SegBody} (h : st.map.closed = pre ++ [a]) (hb : st.map.cur = some b)
    (e : Env) (n : Strand) (old : Nat) : st.joinAt e n k old = StrandState.judgeMark
      { st with map := { st.map with closed := pre, cur := some (a.body.join b) } } e n old
        (Config.markEndAtMerge a.body.start old) := by
  have htake : st.map.closed.take k = pre ++ [a] := by rw [h, hk]; simp
  have hdrop : st.map.closed.drop k = [] := by rw [h, hk]; simp
  unfold StrandState.joinAt
  rw [htake, hdrop, List.getLast?_concat, List.dropLast_concat, hb]

end join

theorem StrandState.joinAt_raised (st : StrandState) (e : Env) (n : Strand) (k old : Nat) :
    (st.joinAt e n k old).raised = st.raised := by
  unfold StrandState.joinAt
  split
  · rfl
  · split
    · rfl
    · rw [StrandState.judgeMark_rest]
  · rfl

theorem StrandState.withdrawNewest_raised (st : StrandState) (e : Env) (n : Strand) (q : PendingCut) :
    (st.withdrawNewest e n q).raised = st.raised := by
  by_cases h : q.place = .used
  · rw [StrandState.withdrawNewest_used h]
    exact st.joinAt_raised e n _ _
  · rw [StrandState.withdrawNewest_kept h]

/-- A withdrawn place behind the last closed segment joins it into the open one (R138, R142, R143). -/
theorem StrandState.withdrawNewest_joins_open {st : StrandState} {q : PendingCut} (hq : q.place = .used) {pre : List Segment} {a : Segment}
    (hheld : heldSegs st.cuts.pending = pre.length + 1) {b : SegBody} (hclosed : st.map.closed = pre ++ [a])
    (hb : st.map.cur = some b) (e : Env) (n : Strand) :
    let t := st.withdrawNewest e n q
    t.map = { st.map with closed := pre, cur := some (a.body.join b), mapMark := t.map.mapMark } ∧
      ∃ y, MarkJudged st t e n (a.body.join b) q.coord y := by
  dsimp only
  rw [StrandState.withdrawNewest_used hq, StrandState.joinAt_of_open hheld hclosed hb]
  have hjudged := StrandState.judgeMark_judged (st := { st with map := { st.map with closed := pre, cur := some (a.body.join b) } }) rfl
    e n q.coord (Config.markEndAtMerge a.body.start q.coord)
  obtain ⟨hbegins, hnot, hstays, hends⟩ := hjudged.of_same (st := st) rfl rfl rfl
  exact ⟨congrArg (·.map) (StrandState.judgeMark_rest _ e n _ _), _, ⟨hbegins, hnot, hstays, hends⟩⟩

/-! ## The judgement (R149 to R153) -/

/-- A cut as it enters the list (R151, R152). -/
def StrandState.cutEntry (st : StrandState) (e : Env) (n : Strand) (c : Nat) (isFinal joined : Bool) (copy : VerdictCopy) : PendingCut :=
  { coord := c, isFinal := isFinal, joined := joined, copy := copy, place := st.cutPlace c
    segs := (st.divideMap e n c).map.closed.countP (fun g => g.stop ≤ c) - heldSegs st.cuts.pending }

theorem StrandState.appendCut_eq (st : StrandState) (e : Env) (n : Strand) (c : Nat) (isFinal joined : Bool) (copy : VerdictCopy) :
    st.appendCut e n c isFinal joined copy = { st.divideMap e n c with
      cuts := { st.cuts with pending := st.cuts.pending ++ [st.cutEntry e n c isFinal joined copy] } } := by
  unfold StrandState.appendCut
  dsimp only
  rw [st.divideMap_cuts e n c]
  rfl

/-- With a place in the list a saw or soft cut enters it (R151). -/
theorem StrandState.acceptCut_of_room {st : StrandState} (h : st.cuts.pending.length < 4) {source : CutSource}
    (hs : source = .saw ∨ source = .soft) (e : Env) (n : Strand) (c : Nat) :
    st.acceptCut e n source c = st.appendCut e n c false false (verdictCopy e st) := by
  have hfinal : (source == .final) = false := by obtain rfl | rfl := hs <;> rfl
  unfold StrandState.acceptCut
  dsimp only
  rw [if_pos (show _ < Config.pendingCuts from h), hfinal]

/-- Otherwise it joins the newest, whose place is withdrawn first, with JOINED (R153). -/
theorem StrandState.acceptCut_of_full {st : StrandState} (h : st.cuts.pending.length = 4) {source : CutSource}
    (hs : source = .saw ∨ source = .soft) {q : PendingCut} (hq : st.cuts.pending.getLast? = some q) (e : Env) (n : Strand) (c : Nat) :
    st.acceptCut e n source c = ((st.withdrawNewest e n q).appendCut e n c q.isFinal true (verdictCopy e st)).raise e n .joined
      source.code c q.coord := by
  have hfinal : (source == .final) = false := by obtain rfl | rfl := hs <;> rfl
  unfold StrandState.acceptCut
  dsimp only
  rw [if_neg (by rw [h]; decide), hq, hfinal]
  dsimp only
  rw [Bool.or_false]

/-- An accepted saw or soft cut is pending with its verdict copy and its place, alone or in the place of the newest (R151 to R153). -/
theorem StrandState.acceptCut_entry (st : StrandState) {source : CutSource} (hs : source = .saw ∨ source = .soft) (e : Env) (n : Strand)
    (d : Nat) : ∃ p : PendingCut, p.coord = d ∧ p.copy = verdictCopy e st ∧
      (st.cuts.pending.length < 4 →
        p.place = st.cutPlace d ∧ p.isFinal = false ∧ p.joined = false ∧
        st.acceptCut e n source d = { st.divideMap e n d with cuts := { st.cuts with pending := st.cuts.pending ++ [p] } }) ∧
      ∀ q, st.cuts.pending.length = 4 → st.cuts.pending.getLast? = some q →
        p.place = (st.withdrawNewest e n q).cutPlace d ∧ p.isFinal = q.isFinal ∧ p.joined = true ∧
        st.acceptCut e n source d = { (st.withdrawNewest e n q).divideMap e n d with
          cuts := { st.cuts with pending := st.cuts.pending.dropLast ++ [p] }
          raised := ((st.withdrawNewest e n q).divideMap e n d).raised ++ [{
            kind := .joined, strand := some n, code := source.code, coordinate := d, detail := q.coord, time := e.time }] } := by
  by_cases hroom : st.cuts.pending.length < 4
  · refine ⟨st.cutEntry e n d false false (verdictCopy e st), rfl, rfl, fun _ => ⟨rfl, rfl, rfl, ?_⟩, fun q h4 => absurd h4 hroom.ne⟩
    rw [StrandState.acceptCut_of_room hroom hs, StrandState.appendCut_eq]
  · have hne : st.cuts.pending ≠ [] := fun hnil => hroom (by rw [hnil]; decide)
    let q := st.cuts.pending.getLast hne
    refine ⟨(st.withdrawNewest e n q).cutEntry e n d q.isFinal true (verdictCopy e st), rfl, rfl, fun h => absurd h hroom,
      fun q' h4 hq' => ?_⟩
    have hq : q = q' := Option.some.inj ((List.getLast?_eq_some_getLast hne).symm.trans hq')
    rw [hq]
    refine ⟨rfl, rfl, rfl, ?_⟩
    rw [StrandState.acceptCut_of_full h4 hs hq', StrandState.appendCut_eq, StrandState.withdrawNewest_cuts]
    rfl

section judged
variable {st : StrandState} {e : Env} {n : Strand} {source : CutSource} {x c : Nat}

/-- A cut behind a coordinate is judged S below it (R148, R149). -/
theorem StrandState.cutBehind_of_saw (h : e.saw n + c = x) : st.cutBehind e n source x = st.judgeCut e n source c := by
  subst h
  unfold StrandState.cutBehind
  rw [if_neg (by omega), Nat.add_sub_cancel_left]

theorem StrandState.judgeCut_of_noNose (h : st.map.nose = none) : st.judgeCut e n source c = st := by
  unfold StrandState.judgeCut
  rw [h]

variable {nose w : Nat}

theorem StrandState.judgeCut_of_nose (hnose : st.map.nose = some nose) (h : c ≤ nose) : st.judgeCut e n source c = st := by
  unfold StrandState.judgeCut
  rw [hnose]
  exact if_pos h

theorem StrandState.judgeCut_of_order (hnose : st.map.nose = some nose) (h : nose < c) (hw : st.cuts.newest = some w) (hc : c ≤ w) :
    st.judgeCut e n source c = st.raise e n .sawOrder source.code c w := by
  unfold StrandState.judgeCut
  rw [hnose]
  dsimp only
  rw [if_neg (Nat.not_le.mpr h), if_pos ((st.cuts.atOrBelowNewest_iff c).mpr ⟨w, hw, hc⟩), hw, Option.getD_some]

/-- Above the nose and the newest cut the tail decides (R150). -/
theorem StrandState.judgeCut_of_above (hnose : st.map.nose = some nose) (h : nose < c) (hw : st.cuts.newest = some w) (hc : w < c) :
    (∀ t, st.track = .tailed → st.map.tail = some t → t < c → st.judgeCut e n source c =
      if t ≤ w then st.raise e n .cutEmpty source.code t c else st.acceptCut e n source t) ∧
    (¬ (st.track = .tailed ∧ ∃ t, st.map.tail = some t ∧ t < c) → st.judgeCut e n source c = st.acceptCut e n source c) := by
  have hbelow : ∀ t, st.cuts.atOrBelowNewest t = true ↔ t ≤ w := fun t => by simp [Cutter.atOrBelowNewest, hw]
  unfold StrandState.judgeCut
  rw [hnose]
  dsimp only
  rw [if_neg (Nat.not_le.mpr h), if_neg (mt (hbelow c).mp (Nat.not_le.mpr hc))]
  refine ⟨fun t ht htail hlt => ?_, fun hfree => ?_⟩
  · rw [ht, htail]
    dsimp only
    rw [if_pos hlt]
    simp only [hbelow]
  · split
    next t ht htail => exact if_neg fun hlt => hfree ⟨ht, t, htail, hlt⟩
    · rfl

/-- The cut is accepted at its coordinate, or at the tail that lies below it (R150). -/
theorem StrandState.judgeCut_accepts (hnose : st.map.nose = some nose) (h : nose < c) (hw : st.cuts.newest = some w) (hc : w < c)
    {d : Nat} (hd : w < d) (hat : (d = c ∧ ¬ (st.track = .tailed ∧ ∃ t, st.map.tail = some t ∧ t < c)) ∨
      (st.track = .tailed ∧ st.map.tail = some d ∧ d < c)) : st.judgeCut e n source c = st.acceptCut e n source d := by
  obtain ⟨htail, hfree⟩ := StrandState.judgeCut_of_above (e := e) (n := n) (source := source) hnose h hw hc
  obtain ⟨rfl, hat⟩ | ⟨ht, hdt, hlt⟩ := hat
  · exact hfree hat
  · exact (htail d ht hdt hlt).trans (if_neg (Nat.not_le.mpr hd))

end judged

/-! ## The map extended (R134) -/

theorem Evaluator.raiseSide_raiseSide (v : Evaluator) {b c : Nat} (h : b ≤ c) : (v.raiseSide b).raiseSide c = v.raiseSide c := by
  unfold Evaluator.raiseSide
  cases v.candidate with
  | none => rfl
  | some k => simp [Nat.max_assoc, Nat.max_eq_right h]

/-- A boundary raises the candidate's start to it, or leaves the evaluator (R101). -/
theorem StrandState.boundary_raiseSide (st : StrandState) (e : Env) (n : Strand) {b c : Nat} (h : b ≤ c) (dim : DimClass) (stats : Stats)
    (others : List BoundarySource) : (st.boundary e n b dim stats others).eval.raiseSide c = st.eval.raiseSide c := by
  obtain ⟨⟨hredrawn, -, -, -⟩, -, hconfirmed, hcandidate⟩ := st.boundary_cases e n b dim stats others
  rw [Redrawn.eval hredrawn, hconfirmed]
  obtain hk | hk := hcandidate
  · rw [hk]
  · rw [hk]
    exact st.eval.raiseSide_raiseSide h

theorem StrandState.makeOffers_raiseSide {c : Nat} {l : List Nat} (h : ∀ b ∈ l, b ≤ c) (st : StrandState) (e : Env) (n : Strand)
    (sw : Option Nat) (g : Bool) (joint : Confirming) : (st.makeOffers e n sw g joint l).eval.raiseSide c = st.eval.raiseSide c := by
  unfold StrandState.makeOffers
  induction l generalizing st with
  | nil => rfl
  | cons b l ih =>
    rw [List.foldl_cons, ih (fun b hb => h b (.tail _ hb)), StrandState.boundary_raiseSide _ e n (h b (.head _))]

theorem StrandState.passSwitch_moveFrontier (st : StrandState) {y x : Nat} (h : y ≤ x) :
    (st.passSwitch y).moveFrontier x = st.moveFrontier x := by
  rw [StrandState.moveFrontier_eq, StrandState.moveFrontier_eq, StrandState.passSwitch_eq]
  cases hs : st.switch with
  | none => rfl
  | some w =>
    by_cases hy : w.coord ≤ y
    · simp [Option.filter, hy, Nat.not_lt.mpr hy, hy.trans h, Nat.not_lt.mpr (hy.trans h)]
    · simp [Option.filter, hy, Nat.not_le.mp hy]

theorem Drawn.moveFrontier {a b : StrandState} (h : Drawn a b) (x : Nat) : Drawn (a.moveFrontier x) (b.moveFrontier x) := by
  have hr := h.redrawn
  rw [StrandState.moveFrontier_eq, StrandState.moveFrontier_eq, hr.switch, hr.recipe]
  refine ⟨?_, h.grows, h.opens, h.raised⟩
  unfold Redrawn at hr ⊢
  conv_lhs => rw [hr]

/-- The coordinates at which an extension to c makes boundaries inside its gap (R134). -/
def StrandState.gapCoords (st : StrandState) (e : Env) (n : Strand) (c : Nat) : List Nat :=
  ascending ((((st.gapAtFrontier e n).moveFrontier c).fore.offers.filter (· < c)) ++
    ((st.gapAtFrontier e n).switchBoundary c).toList.filter (· < c))

/-- The strand with the gap of an extension to c made, before the boundary at the cut (R134). -/
def StrandState.extended (st : StrandState) (e : Env) (n : Strand) (c : Nat) : StrandState :=
  ((st.gapAtFrontier e n).moveFrontier c).makeOffers e n ((st.gapAtFrontier e n).switchBoundary c) true none (st.gapCoords e n c)

theorem StrandState.extend_eq (st : StrandState) (e : Env) (n : Strand) (c : Nat) :
    st.extend e n c = (st.extended e n c).cutBoundary e n c := rfl

theorem StrandState.gapAtFrontier_drawn (st : StrandState) (e : Env) (n : Strand) :
    Drawn (st.passSwitch st.map.frontier) (st.gapAtFrontier e n) := Drawn.boundary _ e n _ _ _ _

theorem StrandState.extended_drawn {st : StrandState} {c : Nat} (h : st.map.frontier < c) (e : Env) (n : Strand) :
    Drawn (st.moveFrontier c) (st.extended e n c) := by
  have hgap := (st.gapAtFrontier_drawn e n).moveFrontier c
  rw [st.passSwitch_moveFrontier h.le] at hgap
  exact hgap.trans (.makeOffers _ e n _ _ _ _)

theorem StrandState.gapAtFrontier_fore (st : StrandState) (e : Env) (n : Strand) :
    (st.gapAtFrontier e n).fore = st.fore.act st.map.frontier := by
  rw [StrandState.gapAtFrontier, StrandState.boundary_fore, StrandState.passSwitch_eq]

theorem StrandState.gapAtFrontier_switch (st : StrandState) (e : Env) (n : Strand) :
    (st.gapAtFrontier e n).switch = st.switch.filter (fun w => st.map.frontier < w.coord) := by
  rw [(st.gapAtFrontier_drawn e n).redrawn.switch, StrandState.passSwitch_eq]

theorem StrandState.gapAtFrontier_frontier (st : StrandState) (e : Env) (n : Strand) :
    (st.gapAtFrontier e n).map.frontier = st.map.frontier := by
  rw [(st.gapAtFrontier_drawn e n).redrawn.frontier, StrandState.passSwitch_eq]

/-- Where the gap's switch makes a boundary: at its coordinate, beyond the frontier (R130, R134). -/
theorem StrandState.gap_switchBoundary {st : StrandState} {e : Env} {n : Strand} {c a : Nat} :
    (st.gapAtFrontier e n).switchBoundary c = some a ↔
      ∃ w, st.switch = some w ∧ st.map.frontier < w.coord ∧ w.coord ≤ c ∧ w.coord = a := by
  rw [StrandState.switchBoundary_eq_some, st.gapAtFrontier_switch, st.gapAtFrontier_frontier]
  refine exists_congr fun w => ?_
  rw [Option.filter_eq_some_iff, decide_eq_true_iff]
  constructor
  · rintro ⟨⟨hw, hlt⟩, hc, rfl⟩
    exact ⟨hw, hlt, hc, (Nat.max_eq_left hlt.le).symm⟩
  · rintro ⟨hw, hlt, hc, rfl⟩
    exact ⟨⟨hw, hlt⟩, hc, (Nat.max_eq_left hlt.le).symm⟩

theorem StrandState.mem_gapCoords {st : StrandState} {e : Env} {n : Strand} {c a : Nat} : a ∈ st.gapCoords e n c ↔
    a < c ∧ (a ∈ (st.fore.act st.map.frontier).offers ∨ ∃ w, st.switch = some w ∧ st.map.frontier < w.coord ∧ w.coord = a) := by
  rw [StrandState.gapCoords, mem_ascending, List.mem_append, List.mem_filter, List.mem_filter, Option.mem_toList,
    StrandState.gap_switchBoundary, StrandState.moveFrontier_eq, st.gapAtFrontier_fore, decide_eq_true_iff]
  constructor
  · rintro (⟨ha, hc⟩ | ⟨⟨w, hw, hlt, -, hwa⟩, hc⟩)
    · exact ⟨hc, .inl ha⟩
    · exact ⟨hc, .inr ⟨w, hw, hlt, hwa⟩⟩
  · rintro ⟨hc, ha | ⟨w, hw, hlt, rfl⟩⟩
    · exact .inl ⟨ha, hc⟩
    · exact .inr ⟨⟨w, hw, hlt, hc.le, rfl⟩, hc⟩

theorem StrandState.gapCoords_sorted (st : StrandState) (e : Env) (n : Strand) (c : Nat) :
    (st.gapCoords e n c).Pairwise (· < ·) := ascending_sorted _

theorem StrandState.gapCoords_length (st : StrandState) (e : Env) (n : Strand) (c : Nat) :
    (st.gapCoords e n c).length ≤ st.fore.offers.length + 1 := by
  have hsub : st.gapCoords e n c ⊆ st.fore.offers ++ (st.switch.map (·.coord)).toList := fun a ha => by
    obtain ⟨-, ha | ⟨w, hw, -, rfl⟩⟩ := StrandState.mem_gapCoords.mp ha
    · exact List.mem_append_left _ (Forecast.offers_act ha).1
    · exact List.mem_append_right _ (by simp [hw])
  have hle := (List.subperm_of_subset ((st.gapCoords_sorted e n c).imp Nat.ne_of_lt) hsub).length_le
  have hone : (st.switch.map (·.coord)).toList.length ≤ 1 := by cases st.switch <;> simp
  rw [List.length_append] at hle
  omega

/-- The forecast after an extension to c is as a frontier at c leaves it (R119, R134). -/
theorem StrandState.extended_fore {st : StrandState} {c : Nat} (h : st.map.frontier < c) (e : Env) (n : Strand) :
    (st.extended e n c).fore.act c = st.fore.reachedBy c := by
  rw [StrandState.extended, StrandState.makeOffers_fore, StrandState.moveFrontier_eq, st.gapAtFrontier_fore]
  refine (List.foldl_concat Forecast.act _ _ _).symm.trans ?_
  rw [Forecast.foldl_act (x := c), Forecast.reachedBy_act _ h.le]
  · intro b hb
    obtain hb | hb := List.mem_append.mp hb
    · exact (StrandState.mem_gapCoords.mp hb).1.le
    · exact (List.mem_singleton.mp hb).le
  · intro a ha hle
    obtain hlt | rfl := Nat.lt_or_eq_of_le hle
    · exact List.mem_append_left _ (StrandState.mem_gapCoords.mpr ⟨hlt, .inl ha⟩)
    · exact List.mem_append_right _ (.head _)

theorem StrandState.extended_raiseSide {st : StrandState} {c : Nat} (h : st.map.frontier < c) (e : Env) (n : Strand) :
    (st.extended e n c).eval.raiseSide c = st.eval.raiseSide c := by
  rw [StrandState.extended, StrandState.makeOffers_raiseSide (fun b hb => (StrandState.mem_gapCoords.mp hb).1.le),
    StrandState.moveFrontier_eq]
  show (st.gapAtFrontier e n).eval.raiseSide c = _
  rw [StrandState.gapAtFrontier, StrandState.boundary_raiseSide _ e n h.le, StrandState.passSwitch_eq]

theorem StrandState.extended_confirmed (st : StrandState) (e : Env) (n : Strand) (c : Nat) :
    (st.extended e n c).eval.confirmed = st.eval.confirmed := by
  rw [StrandState.extended, StrandState.makeOffers_confirmed, StrandState.moveFrontier_eq]
  show (st.gapAtFrontier e n).eval.confirmed = _
  rw [StrandState.gapAtFrontier, StrandState.boundary_confirmed, StrandState.passSwitch_eq]

/-- The boundary at a cut beyond the frontier is always made (R134 step 4, R135). -/
theorem StrandState.cutBoundary_of_open {st : StrandState} {cur : SegBody} (h : st.map.cur = some cur) (e : Env) (n : Strand) (c : Nat) :
    st.cutBoundary e n c = { st with
      fore := st.fore.act c
      map := { st.map with
        closed := st.map.closed ++ [{ body := cur, stop := c }]
        cur := some { start := c, dim := st.eval.confirmed, overlay := (st.fore.act c).overlay, index := st.index
                      edition := (e.recipe st).edition }
        mapMark := (st.cutBoundary e n c).map.mapMark }
      eval := st.eval.raiseSide c
      mapMail := (st.cutBoundary e n c).mapMail } := by
  have hbreak : st.cutBoundary e n c = StrandState.breakAt { st with fore := st.fore.act c } e n cur c st.eval.confirmed {} := by
    unfold StrandState.cutBoundary
    dsimp only
    rw [h]
  rw [hbreak, StrandState.breakAt]
  exact StrandState.judgeMark_rest _ _ _ _ _

/-! ## The segments of the gap (R134) -/

/-- A segment of a gap: UNMEASURED; where `fresh` it has been opened there, with neither scans nor flags. -/
structure SegBody.InGap (fresh : Prop) (b : SegBody) : Prop where
  dim : b.dim = .unmeasured
  unmerged : b.flags.merged = false
  blank : fresh → b.stats = {} ∧ b.flags = {}

/-- Nothing joined to nothing is nothing (R105). -/
theorem Stats.empty_add : Stats.add {} {} = {} := by decide

theorem SegBody.InGap.recoloured {fresh : Prop} {b : SegBody} (h : b.InGap fresh) (st : StrandState) (e : Env) (fore : Forecast) :
    (st.recoloured e b fore .unmeasured {}).InGap fresh := by
  refine ⟨?_, h.unmerged, fun hf => ⟨?_, (h.blank hf).2⟩⟩
  · rw [StrandState.recoloured, h.unmerged]
    rfl
  · rw [StrandState.recoloured, (h.blank hf).1]
    exact Stats.empty_add

/-- From a on a map has segments of a gap, the last of them open and at or below c, behind closed ones; `before` are the incidents. -/
structure Gapped (fresh : Prop) (base : List Segment) (a c : Nat) (before : List Incident) (u : StrandState) (gs : List Segment)
    (b : SegBody) : Prop where
  closed : u.map.closed = base ++ gs
  cur : u.map.cur = some b
  chain : Chained a gs b.start
  start : b.start ≤ c
  openIn : b.InGap fresh
  closedIn : ∀ g ∈ gs, g.body.InGap fresh
  raised : u.raised = before

section gap
variable {fresh : Prop} {base gs : List Segment} {a c : Nat} {before : List Incident} {u : StrandState} {b : SegBody}

/-- An UNMEASURED boundary with a place for it leaves the gap a gap (R128, R129, R134). -/
theorem Gapped.boundary (h : Gapped fresh base a c before u gs b) {d : Nat} (hd : d ≤ c) (hroom : u.map.count < 60) (e : Env)
    (n : Strand) (others : List BoundarySource) :
    ∃ gs' b', Gapped fresh base a c before (u.boundary e n d .unmeasured {} others) gs' b' := by
  by_cases hle : d ≤ b.start
  · refine ⟨gs, u.recoloured e b (u.fore.act d) .unmeasured {}, ?_⟩
    rw [StrandState.boundary_recolours h.cur e n hle]
    exact ⟨h.closed, rfl, h.chain, h.start, h.openIn.recoloured u e _, h.closedIn, h.raised⟩
  · rw [Nat.not_le] at hle
    refine ⟨gs ++ [{ body := b, stop := d }], StrandState.newSegment { u with fore := u.fore.act d } e d .unmeasured {}, ?_⟩
    rw [StrandState.boundary_breaks h.cur e n hle hroom]
    refine ⟨?_, rfl, h.chain.snoc rfl rfl hle.le, hd, ⟨rfl, rfl, fun _ => ⟨rfl, rfl⟩⟩, fun g hg => ?_, h.raised⟩
    · rw [h.closed, List.append_assoc]
    · obtain hg | hg := List.mem_append.mp hg
      · exact h.closedIn g hg
      · rw [List.mem_singleton.mp hg]
        exact h.openIn

theorem Gapped.makeOffers {l : List Nat} (h : Gapped fresh base a c before u gs b) (hl : ∀ d ∈ l, d ≤ c)
    (hroom : u.map.count + l.length ≤ 60) (e : Env) (n : Strand) (sw : Option Nat) :
    ∃ gs' b', Gapped fresh base a c before (u.makeOffers e n sw true none l) gs' b' := by
  unfold StrandState.makeOffers
  induction l generalizing u gs b with
  | nil => exact ⟨gs, b, h⟩
  | cons d l ih =>
    rw [List.length_cons] at hroom
    obtain ⟨gs', b', h'⟩ := h.boundary (hl d (.head _)) (by omega) e n (offerSources sw none d)
    have hcount := u.boundary_count_le e n d .unmeasured {} (offerSources sw none d)
    exact ih h' (fun d hd => hl d (.tail _ hd)) (Nat.le_trans (Nat.add_le_add_right hcount _) (by omega))

theorem Gapped.starts (h : Gapped fresh base a c before u gs b) :
    u.map.starts = base.map (·.body.start) ++ (gs.map (·.body.start) ++ [b.start]) := by
  simp [StrandMap.starts, StrandMap.bodies, h.closed, h.cur, Function.comp_def]

end gap

theorem Gapped.moveFrontier {fresh : Prop} {base gs : List Segment} {a c : Nat} {before : List Incident} {u : StrandState} {b : SegBody}
    (h : Gapped fresh base a c before u gs b) (x : Nat) : Gapped fresh base a c before (u.moveFrontier x) gs b := by
  rw [StrandState.moveFrontier_eq]
  exact ⟨h.closed, h.cur, h.chain, h.start, h.openIn, h.closedIn, h.raised⟩

section begins
variable {st : StrandState} {c f : Nat} {b : SegBody}

/-- An UNMEASURED boundary above the open segment's start begins a gap there (R128, R134 step 1). -/
theorem Gapped.of_break (hb : st.map.cur = some b) (hlt : b.start < f) (hroom : st.map.count < 60) (hfc : f ≤ c) (e : Env) (n : Strand)
    (others : List BoundarySource) : (st.boundary e n f .unmeasured {} others).map.count = st.map.count + 1 ∧ ∃ b',
      Gapped True (st.map.closed ++ [{ body := b, stop := f }]) f c st.raised (st.boundary e n f .unmeasured {} others) [] b' := by
  rw [StrandState.boundary_breaks hb e n hlt hroom]
  refine ⟨by simp [StrandMap.count, hb], StrandState.newSegment { st with fore := st.fore.act f } e f .unmeasured {}, ?_⟩
  exact ⟨(List.append_nil _).symm, rfl, rfl, hfc, ⟨rfl, rfl, fun _ => ⟨rfl, rfl⟩⟩, fun g hg => absurd hg List.not_mem_nil, rfl⟩

/-- At its start it makes the open segment, where that is not MERGED, the gap's first (R129, R134 step 1). -/
theorem Gapped.of_recolour (hb : st.map.cur = some b) (heq : b.start = f) (hmerged : b.flags.merged = false) (hfc : f ≤ c) (e : Env)
    (n : Strand) (others : List BoundarySource) : (st.boundary e n f .unmeasured {} others).map.count = st.map.count ∧ ∃ b',
      Gapped False st.map.closed f c st.raised (st.boundary e n f .unmeasured {} others) [] b' := by
  rw [StrandState.boundary_recolours hb e n heq.ge]
  refine ⟨by simp [StrandMap.count, hb], st.recoloured e b (st.fore.act f) .unmeasured {}, ?_⟩
  refine ⟨(List.append_nil _).symm, rfl, heq.symm, heq.trans_le hfc, ⟨?_, hmerged, False.elim⟩,
    fun g hg => absurd hg List.not_mem_nil, rfl⟩
  rw [StrandState.recoloured, hmerged]
  rfl

end begins

theorem StrandState.moveFrontier_count (st : StrandState) (x : Nat) : (st.moveFrontier x).map.count = st.map.count := by
  rw [StrandState.moveFrontier_eq]
  rfl

/-- Passing a switch leaves the map and the incidents. -/
theorem StrandState.passSwitch_map (st : StrandState) (x : Nat) :
    (st.passSwitch x).map = st.map ∧ (st.passSwitch x).raised = st.raised := by
  rw [StrandState.passSwitch_eq]
  exact ⟨rfl, rfl⟩

/-- The segments of an extension's gap, the last closed at the cut (R134). -/
theorem StrandState.extend_gap {st : StrandState} {c : Nat} {base : List Segment} {fresh : Prop} {b' : SegBody} (e : Env) (n : Strand)
    (hbegins : Gapped fresh base st.map.frontier c st.raised ((st.gapAtFrontier e n).moveFrontier c) [] b')
    (hroom : ((st.gapAtFrontier e n).moveFrontier c).map.count + st.fore.offers.length + 1 ≤ 60) :
    ∃ gap : List Segment, (st.extend e n c).map.closed = base ++ gap ∧ Chained st.map.frontier gap c ∧
      (∀ g ∈ gap, g.body.InGap fresh) ∧
      (∀ a ∈ st.gapCoords e n c, st.map.frontier < a → ∃ g ∈ gap, g.body.start = a) ∧ (st.extend e n c).raised = st.raised := by
  have hlen := st.gapCoords_length e n c
  obtain ⟨gs, b, hgap⟩ := hbegins.makeOffers (l := st.gapCoords e n c) (fun d hd => (StrandState.mem_gapCoords.mp hd).1.le)
    (by omega) e n ((st.gapAtFrontier e n).switchBoundary c)
  have hclosed : Chained st.map.frontier (gs ++ [{ body := b, stop := c }]) c := hgap.chain.snoc rfl rfl hgap.start
  have hstart : b'.start = st.map.frontier := hbegins.chain.symm
  obtain ⟨more, hmore, hmem⟩ := StrandState.makeOffers_starts hbegins.cur (st.gapCoords_sorted e n c) (by omega) e n
    ((st.gapAtFrontier e n).switchBoundary c) true none
  have hstarts : b'.start :: more = gs.map (·.body.start) ++ [b.start] := by
    rw [hgap.starts, hbegins.starts, List.append_assoc, List.append_cancel_left_eq] at hmore
    exact hmore.symm
  have hcut := StrandState.cutBoundary_of_open (st := st.extended e n c) hgap.cur e n c
  rw [StrandState.extend_eq]
  refine ⟨gs ++ [{ body := b, stop := c }], ?_, hclosed, fun g hg => ?_, fun a ha hlt => ?_, ?_⟩
  · rw [hcut, ← List.append_assoc, ← hgap.closed]
    rfl
  · obtain hg | hg := List.mem_append.mp hg
    · exact hgap.closedIn g hg
    · rw [List.mem_singleton.mp hg]
      exact hgap.openIn
  · have hin : a ∈ gs.map (·.body.start) ++ [b.start] := hstarts ▸ .tail _ (hmem a ha (hstart ▸ hlt))
    obtain hin | hin := List.mem_append.mp hin
    · obtain ⟨g, hg, rfl⟩ := List.mem_map.mp hin
      exact ⟨g, List.mem_append_left _ hg, rfl⟩
    · exact ⟨_, List.mem_append_right _ (.head _), (List.mem_singleton.mp hin).symm⟩
  · rw [hcut]
    exact hgap.raised

/-- What an extension makes of the rest of the strand (R101, R119, R134). -/
theorem StrandState.extend_rest {st : StrandState} {c : Nat} (hfc : st.map.frontier < c) (hopen : st.map.cur.isSome = true) (e : Env)
    (n : Strand) :
    let t := st.extend e n c
    t.map.frontier = c ∧ t.map.nose = st.map.nose ∧ t.map.tail = st.map.tail ∧ t.track = st.track ∧ t.cuts = st.cuts ∧
      t.eval = st.eval.raiseSide c ∧ t.recipe = (st.moveFrontier c).recipe ∧ t.switch = (st.moveFrontier c).switch ∧
      t.fore = st.fore.reachedBy c ∧ t.map.cur = some {
        start := c, dim := st.eval.confirmed, overlay := (st.fore.reachedBy c).overlay, index := t.index
        edition := (e.entry t.index).edition } := by
  have hdrawn := st.extended_drawn hfc e n
  have hmoved := st.moveFrontier_eq c
  have hcur : (st.extended e n c).map.cur.isSome = true := by
    rw [hdrawn.opens, hmoved]
    exact hopen
  obtain ⟨cur, hcur⟩ := Option.isSome_iff_exists.mp hcur
  have hcut := StrandState.cutBoundary_of_open hcur e n c
  rw [← StrandState.extend_eq, StrandState.extended_fore hfc, StrandState.extended_confirmed,
    StrandState.extended_raiseSide hfc] at hcut
  have hr := hdrawn.redrawn
  exact ⟨(congrArg (·.map.frontier) hcut).trans (hr.frontier.trans (by rw [hmoved])),
    (congrArg (·.map.nose) hcut).trans (hr.nose.trans (by rw [hmoved])),
    (congrArg (·.map.tail) hcut).trans (hr.tail.trans (by rw [hmoved])),
    (congrArg (·.track) hcut).trans (hr.track.trans (by rw [hmoved])),
    (congrArg (·.cuts) hcut).trans (hr.cuts.trans (by rw [hmoved])),
    congrArg (·.eval) hcut, (congrArg (·.recipe) hcut).trans hr.recipe, (congrArg (·.switch) hcut).trans hr.switch,
    congrArg (·.fore) hcut, by rw [hcut]; rfl⟩

section extension
variable {st : StrandState} {c : Nat} {b : SegBody} (hfc : st.map.frontier < c) (hb : st.map.cur = some b)
include hfc hb

/-- With places free, an extension closes the open segment at the frontier, and its gap holds fresh segments, one from each boundary
offered inside it (R134). -/
theorem StrandState.extend_closes_open (hlt : b.start < st.map.frontier) (hroom : st.map.count + st.fore.offers.length + 1 < 60) (e : Env)
    (n : Strand) : ∃ gap : List Segment,
      (st.extend e n c).map.closed = st.map.closed ++ { body := b, stop := st.map.frontier } :: gap ∧
        Chained st.map.frontier gap c ∧ (∀ g ∈ gap, g.body.dim = .unmeasured ∧ g.body.stats = {} ∧ g.body.flags = {}) ∧
        (∀ a, st.map.frontier < a → a < c →
          (a ∈ (st.fore.act st.map.frontier).offers ∨ ∃ w, st.switch = some w ∧ w.coord = a) → ∃ g ∈ gap, g.body.start = a) ∧
        (st.extend e n c).raised = st.raised := by
  obtain ⟨hmap, hraised⟩ := st.passSwitch_map st.map.frontier
  obtain ⟨hcount, b', hbegins⟩ := Gapped.of_break (st := st.passSwitch st.map.frontier) (c := c) (by rw [hmap]; exact hb) hlt
    (by rw [hmap]; omega) hfc.le e n (.gap :: (st.switchBoundary st.map.frontier).toList.map (fun _ => .switch))
  rw [hmap, hraised] at hbegins
  rw [hmap] at hcount
  obtain ⟨gap, hclosed, hchain, hin, hstarts, hkept⟩ := StrandState.extend_gap e n (hbegins.moveFrontier c)
    (by rw [StrandState.moveFrontier_count, StrandState.gapAtFrontier, hcount]; omega)
  refine ⟨gap, by rw [hclosed, List.append_assoc]; rfl, hchain, fun g hg => ?_, fun a ha hac hoffer => ?_, hkept⟩
  · obtain ⟨hdim, -, hblank⟩ := hin g hg
    exact ⟨hdim, hblank trivial⟩
  · refine hstarts a (StrandState.mem_gapCoords.mpr ⟨hac, hoffer.imp_right fun ⟨w, hw, hwa⟩ => ⟨w, hw, ?_, hwa⟩⟩) ha
    rw [hwa]
    exact ha

/-- An open segment that starts at the frontier, and is not MERGED, becomes the gap's first (R129, R134). -/
theorem StrandState.extend_recolours_open (heq : b.start = st.map.frontier) (hmerged : b.flags.merged = false)
    (hroom : st.map.count + st.fore.offers.length < 60) (e : Env) (n : Strand) : ∃ gap : List Segment,
      (st.extend e n c).map.closed = st.map.closed ++ gap ∧ Chained st.map.frontier gap c ∧ (∀ g ∈ gap, g.body.dim = .unmeasured) ∧
        (st.extend e n c).raised = st.raised := by
  obtain ⟨hmap, hraised⟩ := st.passSwitch_map st.map.frontier
  obtain ⟨hcount, b', hbegins⟩ := Gapped.of_recolour (st := st.passSwitch st.map.frontier) (c := c) (by rw [hmap]; exact hb) heq
    hmerged hfc.le e n (.gap :: (st.switchBoundary st.map.frontier).toList.map (fun _ => .switch))
  rw [hmap, hraised] at hbegins
  rw [hmap] at hcount
  obtain ⟨gap, hclosed, hchain, hin, -, hkept⟩ := StrandState.extend_gap e n (hbegins.moveFrontier c)
    (by rw [StrandState.moveFrontier_count, StrandState.gapAtFrontier, hcount]; omega)
  exact ⟨gap, hclosed, hchain, fun g hg => (hin g hg).dim, hkept⟩

end extension

/-- Settles O43: the judgement by `StrandState.judgeCut_accepts` and the cases before it, the withdrawal by the two equations of
`StrandState.joinAt`, the division by the three of `StrandState.divideMap`, the extension by `StrandState.extend_rest`,
`StrandState.extend_closes_open` and `StrandState.extend_recolours_open`. -/
theorem cutJudged : Obligations.CutJudged := by
  unfold Obligations.CutJudged
  refine ⟨fun st e n source x c hs => ⟨fun hx => if_pos hx, fun hx hnose => ?_, fun nose hx hnose => ⟨fun hc => ?_, fun w h hw hc => ?_,
      fun w t h hw hc ht htail htc htw => ?_, fun w d h hw hc hd hat => ?_⟩⟩,
    fun st c => ⟨StrandState.cutPlace_of_extends, StrandState.cutPlace_of_tail, fun hext htail => ⟨fun hin => ?_, fun hin => ?_⟩⟩,
    fun st e n q => ⟨?_, st.withdrawNewest_raised e n q, fun hq => ?_, fun hq pre a hheld => ⟨fun b post hclosed => ?_,
      fun b hclosed hb => ?_⟩⟩,
    fun st e n c hext => ⟨fun pre post g hclosed hpre hstart hstop => ?_, fun b hclosed hb hstart hc => ?_, fun hclosed hopen => ?_⟩,
    fun st e n c b ht hfc hb hbf => ?_, fun s num den hle hden => ?_⟩
  · rw [StrandState.cutBehind_of_saw hx, StrandState.judgeCut_of_noNose hnose]
  · rw [StrandState.cutBehind_of_saw hx, StrandState.judgeCut_of_nose hnose hc]
  · rw [StrandState.cutBehind_of_saw hx, StrandState.judgeCut_of_order hnose h hw hc]
    rfl
  · rw [StrandState.cutBehind_of_saw hx, (StrandState.judgeCut_of_above hnose h hw hc).1 t ht htail htc, if_pos htw]
    rfl
  · rw [StrandState.cutBehind_of_saw hx, StrandState.judgeCut_accepts hnose h hw hc hd hat]
    exact st.acceptCut_entry hs e n d
  · rw [StrandState.cutPlace_of_within hext htail, if_pos hin]
  · rw [StrandState.cutPlace_of_within hext htail, if_neg hin]
  · exact st.withdrawNewest_cuts e n q
  · rw [StrandState.withdrawNewest_kept hq]
    exact ⟨rfl, rfl⟩
  · rw [StrandState.withdrawNewest_used hq, StrandState.joinAt_of_closed hheld hclosed]
    exact ⟨rfl, rfl⟩
  · exact StrandState.withdrawNewest_joins_open hq hheld hclosed hb e n
  · exact StrandState.divideMap_closed hext hclosed hpre hstart hstop e n
  · exact StrandState.divideMap_open hext hclosed hb hstart hc e n
  · exact StrandState.divideMap_outside hext hclosed hopen e n
  · have hdivide : st.divideMap e n c = st.extend e n c := if_pos ⟨ht, hfc⟩
    obtain ⟨hfrontier, hnose, htail, htrack, hcuts, heval, hrecipe, hswitch, hfore, hcur⟩ :=
      StrandState.extend_rest hfc (by rw [hb]; rfl) e n
    have hmoved := st.moveFrontier_eq c
    dsimp only
    rw [hdivide]
    refine ⟨hfrontier, hnose, htail, htrack, hcuts, heval, ?_, ?_, hfore, ?_, fun hlt hroom => ?_, fun heq hmerged hroom => ?_⟩
    · rw [hrecipe, hmoved]
      cases st.switch <;> rfl
    · rw [hswitch, hmoved]
    · rw [hfore]
      exact hcur
    · exact StrandState.extend_closes_open hfc hb hlt hroom e n
    · exact StrandState.extend_recolours_open hfc hb heq hmerged hroom e n
  · obtain ⟨hscans, htemp⟩ := s.first_second hle
    refine ⟨rfl, hscans, fun h => if_neg h, fun h => if_pos h, htemp, rfl, rfl, fun i f hf => ?_⟩
    obtain ⟨hfirst, hsecond⟩ := Stats.split_get hf num den
    obtain ⟨hvalid, hout, hguard, hsum⟩ := f.first_second hle
    exact ⟨_, _, hfirst, hsecond, rfl, hvalid, rfl, hout, rfl, hguard, rfl, hsum, rfl, rfl, rfl, rfl⟩

end Sys2Proof.Machine
end

section
namespace Sys2Proof.Machine

/-! # The forecast unit: zones that enter, merge and are marked (R111 to R118) -/

/-! ## Marks of zones (R118) -/

/-- The interval request of a zone [start, stop): one where the governing mask holds the class, the strand has a marker and the ON lies
below the cap; none otherwise (R118). -/
def zoneMark (e : Env) (n : Strand) (governing : Recipe) (cls : ZoneClass) (start stop : Nat) : List MarkRequest :=
  match e.marker n with
  | none => []
  | some m =>
    if governing.markMask.testBit cls.severity = true ∧ start + m < 4000000000 then
      [{ requester := .forecast, on := start + m, off := some (min (stop + m) 4000000000), source := start }]
    else []

theorem StrandState.sendZoneMark_eq (st : StrandState) (e : Env) (n : Strand) (governing : Recipe) (cls : ZoneClass)
    (start stop : Nat) : st.sendZoneMark e n governing cls start stop =
      { st with foreMail := st.foreMail ++ zoneMark e n governing cls start stop } := by
  unfold StrandState.sendZoneMark zoneMark Recipe.marks Config.coordCap
  cases e.marker n with
  | none => simp
  | some m =>
    dsimp only
    split
    · rfl
    · simp

theorem StrandState.enterZone_eq (st : StrandState) (e : Env) (n : Strand) (governing : Recipe) (z : Zone) :
    st.enterZone e n governing z = { st with
      fore := { st.fore with zones := insertZone st.fore.zones z }
      foreMail := st.foreMail ++ zoneMark e n governing z.cls z.start z.stop } := by
  unfold StrandState.enterZone
  rw [StrandState.sendZoneMark_eq]

/-! ## The place of a zone in the list (R111) -/

/-- A list is cut at the place of a zone: up to it the zones start at or below the zone, and the next one starts above it. -/
def SplitsAt (pre post : List Zone) (z : Zone) : Prop :=
  (∀ y ∈ pre, y.start ≤ z.start) ∧ ∀ y, post.head? = some y → z.start < y.start

/-- `zs'` is `zs` with a zone at its place. -/
def EntersAt (zs : List Zone) (z : Zone) (zs' : List Zone) : Prop :=
  ∃ pre post, zs = pre ++ post ∧ zs' = pre ++ z :: post ∧ SplitsAt pre post z

/-- Every list is cut at the place of a zone by the scan of its starts. -/
theorem splitsAt_scan (zs : List Zone) (z : Zone) :
    SplitsAt (zs.takeWhile (fun y => y.start ≤ z.start)) (zs.dropWhile (fun y => y.start ≤ z.start)) z := by
  refine ⟨fun y hy => by simpa using List.mem_takeWhile_imp hy, fun y hy => ?_⟩
  have hstop := List.head?_dropWhile_not (fun y : Zone => decide (y.start ≤ z.start)) zs
  rw [hy] at hstop
  simpa using hstop

/-- There is no other place: the scan of a list that is cut there finds the two parts. -/
theorem SplitsAt.scan {pre post : List Zone} {z : Zone} (h : SplitsAt pre post z) :
    (pre ++ post).takeWhile (fun y => y.start ≤ z.start) = pre ∧
      (pre ++ post).dropWhile (fun y => y.start ≤ z.start) = post := by
  obtain ⟨hpre, hpost⟩ := h
  have hall : ∀ y ∈ pre, decide (y.start ≤ z.start) = true := fun y hy => decide_eq_true (hpre y hy)
  rw [List.takeWhile_append_of_pos hall, List.dropWhile_append_of_pos hall]
  cases post with
  | nil => simp
  | cons y ys => simp [hpost y rfl]

theorem insertZone_enters (zs : List Zone) (z : Zone) : EntersAt zs z (insertZone zs z) :=
  ⟨_, _, List.takeWhile_append_dropWhile.symm, rfl, splitsAt_scan zs z⟩

/-! ## A full list (R115, R116) -/

/-- The neighbour a zone is merged with, and the list without it: the predecessor where its gap is no wider than the successor's or there
is no successor, and the successor where its gap is the narrower or there is no predecessor (R115). -/
def NearerNeighbour (pre post : List Zone) (z near : Zone) (rest : List Zone) : Prop :=
  (pre.getLast? = some near ∧ rest = pre.dropLast ++ post ∧ ∀ y, post.head? = some y → z.start - near.stop ≤ y.start - z.stop) ∨
    (post.head? = some near ∧ rest = pre ++ post.tail ∧ ∀ y, pre.getLast? = some y → near.start - z.stop < z.start - y.stop)

/-- In a list with zones a neighbour is found, and it is the nearer one (R115). -/
theorem SplitsAt.takeNeighbour {pre post : List Zone} {z : Zone} (h : SplitsAt pre post z) (hne : pre ++ post ≠ []) :
    ∃ near rest, takeNeighbour (pre ++ post) z = some (near, rest) ∧ NearerNeighbour pre post z near rest := by
  obtain ⟨hbefore, hafter⟩ := h.scan
  unfold Machine.takeNeighbour NearerNeighbour
  dsimp only
  rw [hbefore, hafter]
  cases hp : pre.getLast? with
  | none =>
    cases hs : post.head? with
    | none => exact absurd (by rw [List.getLast?_eq_none_iff.mp hp, List.head?_eq_none_iff.mp hs]; rfl) hne
    | some s => exact ⟨s, _, rfl, .inr ⟨rfl, rfl, by simp⟩⟩
  | some p =>
    cases hs : post.head? with
    | none => exact ⟨p, _, rfl, .inl ⟨rfl, rfl, by simp⟩⟩
    | some s =>
      by_cases hgap : z.start - p.stop ≤ s.start - z.stop
      · exact ⟨p, _, if_pos (decide_eq_true hgap), .inl ⟨rfl, rfl, fun y hy => by cases hy; exact hgap⟩⟩
      · exact ⟨s, _, if_neg (by simpa [neighbourIsPredecessor] using hgap),
          .inr ⟨rfl, rfl, fun y hy => by cases hy; exact Nat.lt_of_not_le hgap⟩⟩

/-- A merged zone takes class, origin and note of the incoming zone where that is of the higher class (R116). -/
theorem Zone.merge_eq (near z : Zone) : near.merge z = {
    start := min near.start z.start
    stop := max near.stop z.stop
    cls := if near.cls.severity < z.cls.severity then z.cls else near.cls
    origin := if near.cls.severity < z.cls.severity then z.origin else near.origin
    note := if near.cls.severity < z.cls.severity then z.note else near.note
    phase := near.phase } := by
  simp [Zone.merge, ZoneClass.higher]

/-- The class of a merged zone lies above the neighbour's exactly where the incoming zone's does. -/
theorem Zone.merge_raises (near z : Zone) :
    near.cls.severity < (near.merge z).cls.severity ↔ near.cls.severity < z.cls.severity := by
  rw [Zone.merge_eq]
  dsimp only
  split <;> simp [*]

/-- The merge, in its three effects: list and class boundary, interval, incident (R116, R118). -/
theorem StrandState.mergeZone_eq {st : StrandState} {z near : Zone} {rest : List Zone}
    (h : takeNeighbour st.fore.zones z = some (near, rest)) (e : Env) (n : Strand) (governing : Recipe) :
    st.mergeZone e n governing z = { st with
      fore := {
        zones := insertZone rest (near.merge z)
        classBoundary := if near.phase = .over ∧ near.cls.severity < z.cls.severity ∧ st.track = .tracking then
          some st.map.frontier else st.fore.classBoundary }
      foreMail := st.foreMail ++
        zoneMark e n governing (near.merge z).cls (max (near.merge z).start st.map.frontier) (near.merge z).stop
      raised := st.raised ++ [{
        kind := .forecastMerged, strand := some n, code := (near.merge z).cls.severity, coordinate := z.start,
        detail := (near.merge z).origin.code * 65536 + (near.merge z).note, time := e.time }] } := by
  unfold StrandState.mergeZone
  rw [h]
  dsimp only
  rw [StrandState.sendZoneMark_eq]
  simp only [Zone.merge_raises]
  rfl

/-! ## Automatic zones (R114) -/

/-- The automatic zone of [start, stop) as it reaches the list: start raised to the frontier, end held at the cap (R114). -/
def automaticZoneAt (frontier : Nat) (cls : ZoneClass) (origin : Origin) (start stop : Nat) : Zone :=
  { start := max start frontier, stop := min stop 4000000000, cls := cls, origin := origin, note := 0, phase := .ahead }

section
variable {st : StrandState} {start stop : Nat} (e : Env) (n : Strand) (governing : Recipe) (cls : ZoneClass) (origin : Origin)

theorem StrandState.autoZone_discarded (h : 4000000000 ≤ start ∨ min stop 4000000000 ≤ st.map.frontier) :
    st.autoZone e n governing cls origin start stop = st := by
  unfold StrandState.autoZone Config.coordCap
  dsimp only
  split
  · rfl
  next hcap => rw [if_pos (h.resolve_left hcap)]

/-- An automatic zone that is neither beyond the cap nor passed enters a list with room, and is merged into a full one (R114). -/
theorem StrandState.autoZone_taken (hcap : start < 4000000000) (hahead : st.map.frontier < min stop 4000000000) :
    st.autoZone e n governing cls origin start stop =
      if st.fore.zones.length < 8 then st.enterZone e n governing (automaticZoneAt st.map.frontier cls origin start stop)
      else st.mergeZone e n governing (automaticZoneAt st.map.frontier cls origin start stop) := by
  unfold StrandState.autoZone Config.coordCap
  dsimp only
  rw [if_neg (Nat.not_le.mpr hcap), if_neg (Nat.not_le.mpr hahead)]
  rfl

end

/-- Settles O41: a zone discarded, one that enters by `StrandState.enterZone_eq`, and one that is merged with the neighbour of
`SplitsAt.takeNeighbour` by `StrandState.mergeZone_eq`. -/
theorem automaticZone : Obligations.AutomaticZone := by
  unfold Obligations.AutomaticZone
  intro st e n governing cls origin start stop
  refine ⟨StrandState.autoZone_discarded e n governing cls origin, fun hcap hahead hroom => ?_,
    fun hcap hahead hfull pre post hzones hpre hpost => ?_⟩
  · have hst := StrandState.autoZone_taken e n governing cls origin hcap hahead
    rw [if_pos hroom, StrandState.enterZone_eq] at hst
    dsimp only
    rw [hst]
    exact ⟨insertZone_enters _ _, rfl⟩
  · have hst := StrandState.autoZone_taken e n governing cls origin hcap hahead
    obtain ⟨near, rest, hnear, hnearer⟩ :=
      SplitsAt.takeNeighbour (z := automaticZoneAt st.map.frontier cls origin start stop) ⟨hpre, hpost⟩
        (List.ne_nil_of_length_pos (by rw [← hzones, hfull]; decide))
    rw [← hzones] at hnear
    rw [if_neg (by omega), StrandState.mergeZone_eq hnear] at hst
    refine ⟨near, rest, _, hnearer, Zone.merge_eq near _, ?_, ?_⟩
    · dsimp only
      rw [hst]
      exact insertZone_enters _ _
    · dsimp only
      rw [hst]
      rfl

/-! ## ADD ZONE (R117) -/

theorem strandOf_num (n : Strand) : strandOf n.num = some n := by cases n <;> rfl

/-- ADD ZONE in ARMED or ACTIVE looks at the strand named first (R117). -/
theorem addZone_of_open {s : State} {o : Order} {n : Strand} (h : s.run.state = .armed ∨ s.run.state = .active)
    (hn : o.op1 = n.num) : addZone s o = if s.inMask n then s.addZoneTo o n else (s, .badOperand 1) := by
  rcases h with h | h <;> simp only [addZone, h, hn, strandOf_num]

/-- A strand outside the run is a bad operand (R117). -/
theorem addZone_outside {s : State} {o : Order} {n : Strand} (h : s.run.state = .armed ∨ s.run.state = .active)
    (hn : o.op1 = n.num) (hm : s.inMask n = false) : addZone s o = (s, .badOperand 1) := by
  rw [addZone_of_open h hn, hm]
  rfl

section
variable {s : State} {o : Order} {n : Strand}

theorem State.addZoneTo_passed (h : o.op2 + o.op3 ≤ (s.strand n).map.frontier) : s.addZoneTo o n = (s, .zonePassed) := if_pos h

theorem State.addZoneTo_full (h : ¬ o.op2 + o.op3 ≤ (s.strand n).map.frontier) (hfull : 8 ≤ (s.strand n).fore.zones.length) :
    s.addZoneTo o n = (s, .forecastFull) := (if_neg h).trans (if_pos hfull)

/-- ADD ZONE that passes its checks enters its MANUAL zone, and answers CLAMPED where the start lay below the frontier (R117). -/
theorem State.addZoneTo_enters (h : ¬ o.op2 + o.op3 ≤ (s.strand n).map.frontier) (hroom : ¬ 8 ≤ (s.strand n).fore.zones.length) :
    s.addZoneTo o n =
      (s.onStrand n (fun st => st.enterZone s.env n (s.env.recipe st) (manualZone o st.map.frontier)),
        .done (if o.op2 < (s.strand n).map.frontier then 2 else 0)) := (if_neg h).trans (if_neg hroom)

end

/-- Settles O33: the checks in their order, and the entry by `StrandState.enterZone_eq`. -/
theorem addZoneEnters : Obligations.AddZoneEnters := by
  unfold Obligations.AddZoneEnters
  intro s o n ho hopen hn
  dsimp only
  split
  next hout => exact .answered ho rfl (addZone_outside hopen hn hout)
  next hin =>
    have hadd : addZone s o = s.addZoneTo o n := (addZone_of_open hopen hn).trans (if_pos (by simpa using hin))
    split
    next hpassed => exact .answered ho rfl (hadd.trans (State.addZoneTo_passed hpassed))
    next hahead =>
      split
      next hfull => exact .answered ho rfl (hadd.trans (State.addZoneTo_full hahead hfull))
      next hroom =>
        refine ⟨_, .answered ho rfl (hadd.trans (State.addZoneTo_enters hahead hroom)), rfl,
          fun m hm => s.onStrand_strand_ne _ hm, ?_⟩
        rw [State.onStrand_strand, StrandState.enterZone_eq]
        rfl

/-! ## Forecasts from the line (R112, R113) -/

section
variable {st : StrandState} (e : Env) (n : Strand)

/-- A seam forms no zone on a strand neither WAITING nor TRACKING (R112). -/
theorem StrandState.forecastSeam_skipped (h : ¬ (st.track = .waiting ∨ st.track = .tracking)) (grant : Option SeamGrant) :
    st.forecastSeam e n grant = st := by
  unfold StrandState.forecastSeam
  split
  next ht => exact absurd (.inl ht) h
  next ht => exact absurd (.inr ht) h
  · rfl

theorem StrandState.forecastSeam_of_noCapture : st.forecastSeam e n none = st := rfl

/-- A seam forms no zone where the entry handed with it has no hole of the strand (log 39). -/
theorem StrandState.forecastSeam_of_noHole {g : SeamGrant} (h : (e.entry g.entry).hole n = none) :
    st.forecastSeam e n (some g) = st := by
  unfold StrandState.forecastSeam
  cases st.track <;> simp only [h]

/-- A seam's WELD zone: from the capture past G and the weld lead, of the weld length (R112). -/
theorem StrandState.forecastSeam_of_hole {g : SeamGrant} {h : Hole} (hh : (e.entry g.entry).hole n = some h)
    (ht : st.track = .waiting ∨ st.track = .tracking) : st.forecastSeam e n (some g) =
      st.autoZone e n (e.entry g.entry) .weld .seam (g.capture + e.gauge n + h.lead) (g.capture + e.gauge n + h.lead + h.length) := by
  unfold StrandState.forecastSeam
  rcases ht with ht | ht <;> simp only [ht, hh]

/-- A stop capture forms no zone on a strand neither WAITING nor TRACKING (R113). -/
theorem StrandState.forecastStop_skipped (h : ¬ (st.track = .waiting ∨ st.track = .tracking)) (c : Nat) :
    st.forecastStop e n c = st := by
  unfold StrandState.forecastStop
  split
  next ht => exact absurd (.inl ht) h
  next ht => exact absurd (.inr ht) h
  · rfl
  · rfl

/-- A stop capture's STOP MARK zone: the stop band half-length to either side of the capture past G; none where that is 0 (R113). -/
theorem StrandState.forecastStop_of_following (h : st.track = .waiting ∨ st.track = .tracking) (c : Nat) : st.forecastStop e n c =
    if (e.recipe st).halfLength = 0 then st
    else st.autoZone e n (e.recipe st) .stopMark .stop (c + e.gauge n - (e.recipe st).halfLength)
      (c + e.gauge n + (e.recipe st).halfLength) := by
  unfold StrandState.forecastStop
  rcases h with h | h <;> simp only [h]

theorem StrandState.forecastStop_eq (st : StrandState) (c : Nat) : st.forecastStop e n c =
    if (st.track = .waiting ∨ st.track = .tracking) ∧ (e.recipe st).halfLength ≠ 0 then
      st.autoZone e n (e.recipe st) .stopMark .stop (c + e.gauge n - (e.recipe st).halfLength)
        (c + e.gauge n + (e.recipe st).halfLength)
    else st := by
  by_cases ht : st.track = .waiting ∨ st.track = .tracking
  · rw [StrandState.forecastStop_of_following e n ht]
    by_cases hhalf : (e.recipe st).halfLength = 0
    · rw [if_pos hhalf, if_neg (fun h => h.2 hhalf)]
    · rw [if_neg hhalf, if_pos ⟨ht, hhalf⟩]
  · rw [StrandState.forecastStop_skipped e n ht, if_neg (fun h => ht h.1)]

end

/-- A qualified seam taken by the forecast unit (R112). -/
theorem State.seamForecast_of_mail {s : State} {g : Four (Option SeamGrant)} {rest : List (Four (Option SeamGrant))}
    (h : s.grantMail = g :: rest) : s.seamForecast =
      State.onAll { s with grantMail := rest } (fun n st => st.forecastSeam s.env n (g.get n)) := by
  unfold State.seamForecast
  rw [h]

/-- A stop capture taken by the forecast unit (R113). -/
theorem StrandState.takeStop_of_mail {st : StrandState} {c : Nat} {rest : List Nat} (h : st.stopMail = c :: rest) (e : Env)
    (n : Strand) : st.takeStop e n = StrandState.forecastStop { st with stopMail := rest } e n c := by
  unfold StrandState.takeStop
  rw [h]

/-- Settles O42: each strand of a seam by the cases of `StrandState.forecastSeam`, a stop capture by `StrandState.forecastStop_eq`. -/
theorem lineForecasts : Obligations.LineForecasts := by
  unfold Obligations.LineForecasts
  refine fun s => ⟨fun g rest hmail => ⟨_, .of rfl (State.seamForecast_of_mail hmail), rfl, fun n => ?_⟩, fun n c rest hmail => ?_⟩
  · rw [State.onAll_strand]
    split
    next hg => rw [hg]; exact StrandState.forecastSeam_of_noCapture _ _
    next x hg =>
      rw [hg]
      split
      next hh => exact StrandState.forecastSeam_of_noHole _ _ hh
      next h hh =>
        split
        next ht => exact StrandState.forecastSeam_of_hole _ _ hh ht
        next ht => exact StrandState.forecastSeam_skipped _ _ ht _
  · exact .ofStrand rfl ((StrandState.takeStop_of_mail hmail _ _).trans (StrandState.forecastStop_eq _ _ _ _))

end Sys2Proof.Machine
end

section
namespace Sys2Proof.Machine

/-! # The marker unit: requests, the map's OFF, and the flags they report (R144, R166 to R170) -/

/-! ## The segment a report flags (R144) -/

/-- The first closed segment that holds the coordinate is flagged. -/
theorem flagClosed_first {x : Nat} {pre : List Segment} {g : Segment} (post : List Segment) (missed : Bool)
    (hpre : ∀ y ∈ pre, ¬ (y.body.start ≤ x ∧ x < y.stop)) (hg : g.body.start ≤ x ∧ x < g.stop) :
    flagClosed x missed (pre ++ g :: post) = pre ++ { g with body := g.body.flagMark missed } :: post := by
  induction pre with
  | nil => exact if_pos hg
  | cons y ys ih =>
    obtain ⟨hy, hys⟩ := List.forall_mem_cons.mp hpre
    rw [List.cons_append, flagClosed, if_neg hy, ih hys, List.cons_append]

/-- Where no closed segment holds it, none is flagged. -/
theorem flagClosed_none {x : Nat} {gs : List Segment} (missed : Bool) (h : ∀ g ∈ gs, ¬ (g.body.start ≤ x ∧ x < g.stop)) :
    flagClosed x missed gs = gs := by
  induction gs with
  | nil => rfl
  | cons g gs ih =>
    obtain ⟨hg, hgs⟩ := List.forall_mem_cons.mp h
    rw [flagClosed, if_neg hg, ih hgs]

theorem flagLast_concat (missed : Bool) (pre : List Segment) (g : Segment) :
    flagLast missed (pre ++ [g]) = pre ++ [{ g with body := g.body.flagMark missed }] := by
  induction pre with
  | nil => rfl
  | cons y ys ih =>
    cases ys with
    | nil => rfl
    | cons z zs => exact congrArg (y :: ·) ih

section
variable {m : StrandMap} {tailed : Bool} {x : Nat} (missed : Bool)

/-- From its start on a coordinate falls in the open segment. -/
theorem StrandMap.flagMark_open {b : SegBody} (hcur : m.cur = some b) (hx : b.start ≤ x) :
    m.flagMark tailed x missed = { m with cur := some (b.flagMark missed) } := by
  simp only [StrandMap.flagMark, hcur, if_pos hx]

/-- From the tail on it falls in the last segment of a TAILED strand. -/
theorem StrandMap.flagMark_tailed {y : Nat} (hcur : m.cur = none) (ht : tailed = true) (hy : m.tail = some y) (hx : y ≤ x) :
    m.flagMark tailed x missed = { m with closed := flagLast missed m.closed } := by
  simp [StrandMap.flagMark, hcur, ht, hy, hx]

/-- Otherwise it is looked for among the closed segments. -/
theorem StrandMap.flagMark_closed (hcur : ∀ b, m.cur = some b → x < b.start)
    (htail : m.cur = none → tailed = true → ∀ y, m.tail = some y → x < y) :
    m.flagMark tailed x missed = { m with closed := flagClosed x missed m.closed } := by
  unfold StrandMap.flagMark
  cases hc : m.cur with
  | some b => exact if_neg (Nat.not_le.mpr (hcur b hc))
  | none =>
    refine if_neg fun ⟨ht, hle⟩ => ?_
    cases hy : m.tail with
    | none => simp [hy] at hle
    | some y => exact absurd (htail hc ht y hy) (by simpa [hy] using hle)

end

/-! ## Requests judged (R166) -/

/-- A request placed in the strand's queue, and the queue served (R167, R170). -/
def StrandState.placeRequest (st : StrandState) (e : Env) (r : MarkRequest) : StrandState :=
  { st with marker := Marker.serve { st.marker with
      queue := placeInterval e.minimumGap st.marker.queue { on := r.on, off := r.off, floor := 0 } } st.chan.hw }

section
variable {st : StrandState} {r : MarkRequest} (e : Env) (n : Strand)

theorem StrandState.takeRequest_missed {o : Nat} (ho : r.off = some o) (h : o ≤ st.chan.hw) :
    st.takeRequest e n r = st.reportMark e n r true o := by
  simp only [StrandState.takeRequest, ho, if_pos h]

/-- A request that is not missed is placed, and reported where it is late. -/
theorem StrandState.takeRequest_placed (hoff : ∀ o, r.off = some o → st.chan.hw < o) : st.takeRequest e n r =
    if r.on ≤ st.chan.hw then (st.placeRequest e r).reportMark e n r false st.chan.hw else st.placeRequest e r := by
  unfold StrandState.takeRequest
  cases ho : r.off with
  | none => simp only [StrandState.placeRequest, StrandState.serve, ho]
  | some o => simp only [StrandState.placeRequest, StrandState.serve, ho, if_neg (Nat.not_le.mpr (hoff o ho))]

/-- A request changes marker, incidents and map alone. -/
theorem StrandState.takeRequest_frame (st : StrandState) (r : MarkRequest) : st.takeRequest e n r = { st with
    marker := (st.takeRequest e n r).marker, raised := (st.takeRequest e n r).raised, map := (st.takeRequest e n r).map } := by
  by_cases h : ∃ o, r.off = some o ∧ o ≤ st.chan.hw
  · obtain ⟨o, ho, hle⟩ := h
    rw [StrandState.takeRequest_missed e n ho hle]
    rfl
  · rw [StrandState.takeRequest_placed e n fun o ho => Nat.not_le.mp fun hle => h ⟨o, ho, hle⟩]
    split <;> rfl

end

/-- The request at the head of a requester's mail is the one taken. -/
theorem StrandState.takeNextRequest_of_mail {st : StrandState} {q : Requester} {r : MarkRequest} {fm : List MarkRequest}
    {mm : List MapMessage}
    (h : (q = .forecast ∧ st.foreMail = r :: fm ∧ mm = st.mapMail) ∨ (q = .map ∧ st.mapMail = .request r :: mm ∧ fm = st.foreMail))
    (e : Env) (n : Strand) :
    st.takeNextRequest e n q = StrandState.takeRequest { st with foreMail := fm, mapMail := mm } e n r := by
  obtain ⟨rfl, hmail, rfl⟩ | ⟨rfl, hmail, rfl⟩ := h <;> simp only [StrandState.takeNextRequest, hmail]

/-! ## The map's OFF (R169) -/

/-- The open interval closes at the greater of the OFF and its floor, and leaves where that is passed or not above its ON. -/
theorem closeInterval_eq (y hw : Nat) (i : Interval) : closeInterval y hw i =
    match i.off with
    | some _ => some i
    | none =>
      if max y i.floor ≤ hw ∨ max y i.floor ≤ i.on then none else some { on := i.on, off := some (max y i.floor), floor := 0 } := by
  unfold closeInterval
  cases i.off with
  | some _ => rfl
  | none => simp only [Bool.or_eq_true, decide_eq_true_eq]

/-- The OFF at the head of the map unit's mail closes the queue by `closeInterval`, however that is spelled. -/
theorem StrandState.takeNextOff_of_mail {st : StrandState} {y : Nat} {rest : List MapMessage} {f : Interval → Option Interval}
    (h : st.mapMail = .off y :: rest) (hf : ∀ i, closeInterval y st.chan.hw i = f i) :
    st.takeNextOff = { st with
      mapMail := rest, marker := Marker.serve { st.marker with queue := st.marker.queue.filterMap f } st.chan.hw } := by
  simp only [StrandState.takeNextOff, h, Marker.close, funext hf]

/-! ## Intervals apart (R167) -/

/-- An interval touches the incoming one where the two overlap, or the gap between them is no wider than `gap` (R167). -/
theorem Interval.touches_eq (gap : Nat) (r i : Interval) : Interval.touches gap r i =
    ((i.off.all (fun o => r.on < o) && r.off.all (fun o => i.on < o)) ||
      i.off.any (fun o => o ≤ r.on && r.on ≤ o + gap) || r.off.any (fun o => o ≤ i.on && i.on ≤ o + gap)) := by
  unfold Interval.touches Interval.overlaps Interval.beginsBeforeEnd Interval.closeBefore
  simp only [Nat.sub_le_iff_le_add']
  cases r.off <;> cases i.off <;> simp [Bool.and_comm]

/-- The interval holds a coordinate at all: its OFF, where it has one, lies above its ON. -/
def Interval.Spans (i : Interval) : Prop := ∀ o, i.off = some o → i.on < o

/-- The stretch of the interval holds coordinate x. -/
def Interval.Covers (i : Interval) (x : Nat) : Prop := i.on ≤ x ∧ ∀ o, i.off = some o → x < o

/-- The first interval ends before the second begins, and the gap between them is wider than `gap`. -/
def Interval.Before (gap : Nat) (i j : Interval) : Prop := ∃ o, i.off = some o ∧ o + gap < j.on

theorem Interval.Before.trans {i j k : Interval} {g g' : Nat} (h : i.Before g j) (hj : j.Spans) (h' : j.Before g' k) :
    i.Before (g + g') k := by
  obtain ⟨o, ho, hlt⟩ := h
  obtain ⟨o', ho', hlt'⟩ := h'
  have hspan := hj o' ho'
  exact ⟨o, ho, by omega⟩

theorem Interval.Before.zero {i j : Interval} {g : Nat} (h : i.Before g j) : i.Before 0 j := by
  obtain ⟨o, ho, hlt⟩ := h
  exact ⟨o, ho, by omega⟩

/-- Two intervals neither overlap nor are close exactly where one lies before the other by more than the gap (R167). -/
theorem Interval.touches_eq_false {gap : Nat} {r i : Interval} (hr : r.Spans) (hi : i.Spans) :
    Interval.touches gap r i = false ↔ i.Before gap r ∨ r.Before gap i := by
  unfold Interval.Spans at hr hi
  rw [Interval.touches_eq]
  unfold Interval.Before
  cases hro : r.off <;> cases hio : i.off <;> simp [hro, hio] at hr hi ⊢ <;> omega

/-- An interval that begins no later than one it keeps clear of lies before it. -/
theorem Interval.before_of_on_le {gap : Nat} {r i : Interval} (hr : r.Spans) (hi : i.Spans)
    (h : Interval.touches gap r i = false) (hon : i.on ≤ r.on) : i.Before gap r := by
  refine ((Interval.touches_eq_false hr hi).mp h).resolve_right fun ⟨o, ho, hlt⟩ => ?_
  have hspan := hr o ho
  omega

/-- An interval that begins later than one it keeps clear of lies behind it. -/
theorem Interval.before_of_lt_on {gap : Nat} {r i : Interval} (hr : r.Spans) (hi : i.Spans)
    (h : Interval.touches gap r i = false) (hon : r.on < i.on) : r.Before gap i := by
  refine ((Interval.touches_eq_false hr hi).mp h).resolve_left fun ⟨o, ho, hlt⟩ => ?_
  have hspan := hi o ho
  omega

/-! ## Intervals made one (R167, R168) -/

section
variable {parts : List Interval} {i j : Interval}

/-- What is joined is open where a part is, with the greatest reach of the parts as its floor. -/
theorem Joins.floor_of_open (h : Joins parts j) (hopen : ∃ i ∈ parts, i.off = none) : j.off = none ∧ j.reach = j.floor := by
  obtain ⟨i, hi, hoff⟩ := hopen
  have hj : j.off = none := by
    by_contra hne
    have hclosed := h.closed.mp (Option.isSome_iff_ne_none.mpr hne) i hi
    simp [hoff] at hclosed
  exact ⟨hj, by simp [Interval.reach, hj]⟩

/-- It covers what a part covers. -/
theorem Joins.covers (h : Joins parts j) (hi : i ∈ parts) {x : Nat} (hx : i.Covers x) : j.Covers x := by
  refine ⟨(h.on_le i hi).trans hx.1, fun o ho => ?_⟩
  obtain ⟨o', ho'⟩ := Option.isSome_iff_exists.mp (h.closed.mp (by simp [ho]) i hi)
  have hreach := h.reach_le i hi
  simp only [Interval.reach, ho, ho', Option.getD_some] at hreach
  exact (hx.2 o' ho').trans_le hreach

/-- It lies before what every part lies before. -/
theorem Joins.before {k : Interval} {g : Nat} (h : Joins parts j) (hk : ∀ i ∈ parts, i.Before g k) : j.Before g k := by
  obtain ⟨o, ho⟩ := Option.isSome_iff_exists.mp (h.closed.mpr fun i hi => by
    obtain ⟨o, ho, _⟩ := hk i hi
    simp [ho])
  obtain ⟨i, hi, hreach⟩ := h.reach_mem
  obtain ⟨o', ho', hlt⟩ := hk i hi
  simp only [Interval.reach, ho, ho', Option.getD_some] at hreach
  exact ⟨o, ho, hreach ▸ hlt⟩

/-- It lies behind what every part lies behind. -/
theorem Joins.after {k : Interval} {g : Nat} (h : Joins parts j) (hk : ∀ i ∈ parts, k.Before g i) : k.Before g j := by
  obtain ⟨i, hi, hon⟩ := h.on_mem
  rw [Interval.Before, hon]
  exact hk i hi

end

/-- What is joined from two or more and closed holds no floor. -/
theorem Interval.foldl_join_floor {l : List Interval} {i : Interval} (hne : l ≠ [])
    (h : (l.foldl Interval.join i).off.isSome = true) : (l.foldl Interval.join i).floor = 0 := by
  obtain ⟨l, k, rfl⟩ := List.eq_nil_or_concat l |>.resolve_left hne
  rw [List.concat_eq_append, List.foldl_append] at h ⊢
  exact Interval.join_floor _ _ h

/-- Extended past the incoming interval, the predecessor keeps its ON and takes that interval's OFF. -/
theorem Interval.extendPast_on (i r : Interval) : (i.extendPast r).on = i.on := rfl
theorem Interval.extendPast_off (i r : Interval) : (i.extendPast r).off = r.off := rfl

/-- Extended back to the incoming interval, the successor takes that interval's ON and keeps its OFF. -/
theorem Interval.extendBack_on (i r : Interval) : (i.extendBack r).on = r.on := rfl
theorem Interval.extendBack_off (i r : Interval) : (i.extendBack r).off = i.off := rfl

section
variable {a b j : Interval} {gap : Nat} (hon : j.on = a.on) (hoff : j.off = b.off)
include hon hoff

/-- An interval from the ON of one to the OFF of a later one covers both. -/
theorem Interval.Before.spanned_covers (h : a.Before gap b) (ha : a.Spans) (hb : b.Spans) {x : Nat}
    (hx : a.Covers x ∨ b.Covers x) : j.Covers x := by
  obtain ⟨o, ho, hlt⟩ := h
  have hspan := ha o ho
  unfold Interval.Covers
  rw [hon, hoff]
  obtain ⟨hle, hend⟩ | ⟨hle, hend⟩ := hx
  · refine ⟨hle, fun o' ho' => ?_⟩
    have hb' := hb o' ho'
    have hx' := hend o ho
    omega
  · exact ⟨by omega, hend⟩

/-- It keeps the order in the place of the two. -/
theorem Interval.pairwise_spanned {l l' : List Interval} (h : (l ++ a :: b :: l').Pairwise (Interval.Before 0)) :
    (l ++ j :: l').Pairwise (Interval.Before 0) := by
  simp only [List.pairwise_append, List.pairwise_cons, List.mem_cons, forall_eq_or_imp] at h ⊢
  obtain ⟨hl, ⟨_, hb, hl'⟩, hcross⟩ := h
  have hj : ∀ k ∈ l', j.Before 0 k := fun k hk => by
    rw [Interval.Before, hoff]
    exact hb k hk
  refine ⟨hl, ⟨hj, hl'⟩, fun k hk => ⟨?_, (hcross k hk).2.2⟩⟩
  rw [Interval.Before, hon]
  exact (hcross k hk).1

end

/-! ## What placing makes of the queue (R167, R168) -/

/-- A list is cut at the place of an interval: up to it the intervals begin at or below the interval's ON, and the next one above it. -/
def MarkPlace (pre post : List Interval) (r : Interval) : Prop :=
  (∀ i ∈ pre, i.on ≤ r.on) ∧ ∀ i, post.head? = some i → r.on < i.on

/-- A list is cut by a scan at the first element that fails its test. -/
theorem scan_of_split {α : Type} {p : α → Bool} {pre post : List α} (hpre : ∀ x ∈ pre, p x = true)
    (hpost : ∀ x, post.head? = some x → p x = false) :
    (pre ++ post).takeWhile p = pre ∧ (pre ++ post).dropWhile p = post := by
  rw [List.takeWhile_append_of_pos hpre, List.dropWhile_append_of_pos hpre]
  cases post with
  | nil => simp
  | cons x xs => simp [hpost x rfl]

/-- Every list is cut so. -/
theorem exists_scan_split {α : Type} (p : α → Bool) (l : List α) :
    ∃ pre post, l = pre ++ post ∧ (∀ x ∈ pre, p x = true) ∧ ∀ x, post.head? = some x → p x = false := by
  refine ⟨l.takeWhile p, l.dropWhile p, List.takeWhile_append_dropWhile.symm, fun x hx => List.mem_takeWhile_imp hx, fun x hx => ?_⟩
  have hstop := List.head?_dropWhile_not p l
  rw [hx] at hstop
  exact hstop

theorem MarkPlace.scan {pre post : List Interval} {r : Interval} (h : MarkPlace pre post r) :
    (pre ++ post).takeWhile (fun i => i.on ≤ r.on) = pre ∧ (pre ++ post).dropWhile (fun i => i.on ≤ r.on) = post :=
  scan_of_split (fun i hi => decide_eq_true (h.1 i hi)) fun i hi => decide_eq_false (Nat.not_le.mpr (h.2 i hi))

theorem exists_markPlace (q : List Interval) (r : Interval) : ∃ pre post, q = pre ++ post ∧ MarkPlace pre post r := by
  obtain ⟨pre, post, hq, hpre, hpost⟩ := exists_scan_split (fun i : Interval => i.on ≤ r.on) q
  exact ⟨pre, post, hq, fun i hi => of_decide_eq_true (hpre i hi), fun i hi => Nat.not_le.mp (of_decide_eq_false (hpost i hi))⟩

section
variable {gap : Nat} {pre post : List Interval} {r : Interval}

/-- An interval that touches some becomes one with them in the place of the first (R167). -/
theorem placeInterval_joined {f : Interval} (hpre : ∀ i ∈ pre, Interval.touches gap r i = false)
    (hf : Interval.touches gap r f = true) : placeInterval gap (pre ++ f :: post) r =
      pre ++ (((pre ++ f :: post).filter (Interval.touches gap r)).foldl Interval.join r) ::
        post.filter (fun i => !Interval.touches gap r i) := by
  have hany : (pre ++ f :: post).any (Interval.touches gap r) = true :=
    List.any_eq_true.mpr ⟨f, by simp, hf⟩
  obtain ⟨htake, hdrop⟩ := scan_of_split (p := fun i => !Interval.touches gap r i) (post := f :: post)
    (fun i hi => by simp [hpre i hi]) fun i hi => by
      rw [← Option.some.inj hi, hf]
      rfl
  rw [placeInterval, if_pos hany, joinInterval, htake, hdrop, List.filter_cons_of_neg (by simp [hf])]

/-- What touches none is not joined. -/
theorem placeInterval_far {q : List Interval} (hfar : ∀ i ∈ q, Interval.touches gap r i = false) : placeInterval gap q r =
    if q.length < 16 then insertInterval q r else mergeInterval q r :=
  if_neg (by simpa using hfar)

theorem insertInterval_at (h : MarkPlace pre post r) : insertInterval (pre ++ post) r = pre ++ r :: post := by
  rw [insertInterval, h.scan.1, h.scan.2]

/-- The predecessor is extended where no successor is nearer (R168). -/
theorem mergeInterval_past {p : Interval} (h : MarkPlace pre post r) (hp : pre.getLast? = some p)
    (hgap : ∀ i, post.head? = some i → p.gapTo r ≤ r.gapTo i) :
    mergeInterval (pre ++ post) r = pre.dropLast ++ p.extendPast r :: post := by
  unfold mergeInterval
  dsimp only
  rw [h.scan.1, h.scan.2, hp]
  cases post with
  | nil => rfl
  | cons s rest => exact if_pos (hgap s rfl)

/-- The successor is extended where it is nearer, or the only neighbour (R168). -/
theorem mergeInterval_back {s : Interval} (h : MarkPlace pre (s :: post) r)
    (hgap : ∀ p, pre.getLast? = some p → r.gapTo s < p.gapTo r) :
    mergeInterval (pre ++ s :: post) r = pre ++ s.extendBack r :: post := by
  unfold mergeInterval
  dsimp only
  rw [h.scan.1, h.scan.2]
  cases hp : pre.getLast? with
  | none =>
    rw [List.getLast?_eq_none_iff.mp hp]
    rfl
  | some p => exact if_neg (Nat.not_le.mpr (hgap p hp))

end

/-- What placing an interval can make of a queue: joined, entered, or merged into the one or the other neighbour (R167, R168). -/
inductive Placing (gap : Nat) (r : Interval) : List Interval → List Interval → Prop
  | joined {pre post : List Interval} {f : Interval} (hpre : ∀ i ∈ pre, Interval.touches gap r i = false)
      (hf : Interval.touches gap r f = true) :
      Placing gap r (pre ++ f :: post) (pre ++ (((pre ++ f :: post).filter (Interval.touches gap r)).foldl Interval.join r) ::
        post.filter (fun i => !Interval.touches gap r i))
  | entered {pre post : List Interval} (hfar : ∀ i ∈ pre ++ post, Interval.touches gap r i = false) (hplace : MarkPlace pre post r) :
      Placing gap r (pre ++ post) (pre ++ r :: post)
  | past {pre post : List Interval} {p : Interval} (hfar : ∀ i ∈ pre ++ [p] ++ post, Interval.touches gap r i = false)
      (hplace : MarkPlace (pre ++ [p]) post r) : Placing gap r (pre ++ [p] ++ post) (pre ++ p.extendPast r :: post)
  | back {pre post : List Interval} {s : Interval} (hfar : ∀ i ∈ pre ++ s :: post, Interval.touches gap r i = false)
      (hplace : MarkPlace pre (s :: post) r) : Placing gap r (pre ++ s :: post) (pre ++ s.extendBack r :: post)

/-- A full queue merges the interval into a neighbour. -/
theorem Placing.merged {gap : Nat} {r : Interval} {pre post : List Interval} (hne : pre ++ post ≠ [])
    (hfar : ∀ i ∈ pre ++ post, Interval.touches gap r i = false) (hplace : MarkPlace pre post r) :
    Placing gap r (pre ++ post) (mergeInterval (pre ++ post) r) := by
  by_cases hpast : ∃ p, pre.getLast? = some p ∧ ∀ i, post.head? = some i → p.gapTo r ≤ r.gapTo i
  · obtain ⟨p, hp, hgap⟩ := hpast
    rw [mergeInterval_past hplace hp hgap]
    obtain ⟨l, rfl⟩ := List.getLast?_eq_some_iff.mp hp
    rw [List.dropLast_concat]
    exact .past hfar hplace
  · cases post with
    | nil =>
      obtain ⟨p, hp⟩ := Option.isSome_iff_exists.mp (List.getLast?_isSome.mpr (by simpa using hne))
      exact absurd ⟨p, hp, by simp⟩ hpast
    | cons s rest =>
      rw [mergeInterval_back hplace fun p hp => Nat.not_le.mp fun hle => hpast ⟨p, hp, by simpa using hle⟩]
      exact .back hfar hplace

theorem placeInterval_placing (gap : Nat) (q : List Interval) (r : Interval) : Placing gap r q (placeInterval gap q r) := by
  obtain ⟨pre, post, rfl, hpre, hpost⟩ := exists_scan_split (fun i => !Interval.touches gap r i) q
  simp only [Bool.not_eq_true', Bool.not_eq_false'] at hpre hpost
  cases post with
  | cons f post =>
    rw [placeInterval_joined hpre (hpost f rfl)]
    exact .joined hpre (hpost f rfl)
  | nil =>
    rw [List.append_nil, placeInterval_far hpre]
    obtain ⟨pre, post, rfl, hplace⟩ := exists_markPlace pre r
    split
    · rw [insertInterval_at hplace]
      exact .entered hpre hplace
    next hfull => exact .merged (List.ne_nil_of_length_pos (by omega)) hpre hplace

section
variable {gap : Nat} {r : Interval} {q q' : List Interval} (h : Placing gap r q q') (hspans : ∀ i ∈ r :: q, i.Spans)
include h hspans

/-- Nothing covered before is given up, and the incoming stretch is covered (R167, R168). -/
theorem Placing.covers {i : Interval} (hi : i ∈ r :: q) {x : Nat} (hx : i.Covers x) : ∃ k ∈ q', k.Covers x := by
  obtain ⟨hr, hq⟩ := List.forall_mem_cons.mp hspans
  cases h with
  | @joined pre post f hpre hf =>
    have hjoins := Interval.foldl_join ((pre ++ f :: post).filter (Interval.touches gap r)) r
    by_cases hpart : i ∈ r :: (pre ++ f :: post).filter (Interval.touches gap r)
    · exact ⟨_, by simp, hjoins.covers hpart hx⟩
    · refine ⟨i, ?_, hx⟩
      simp only [List.mem_cons, List.mem_append, List.mem_filter, not_or, not_and, Bool.not_eq_true] at hpart hi
      obtain ⟨hne, hclear⟩ := hpart
      obtain hi | rfl | hi := hi.resolve_left hne
      · simp [hi]
      · exact absurd hf (by simp [hclear (.inr (.inl rfl))])
      · simp [hi, hclear (.inr (.inr hi))]
  | @entered pre post _ _ => exact ⟨i, by simpa [or_left_comm] using hi, hx⟩
  | @past pre post p hfar hplace =>
    have hbefore := Interval.before_of_on_le hr (hq p (by simp)) (hfar p (by simp)) (hplace.1 p (by simp))
    by_cases hmerged : i = p ∨ i = r
    · refine ⟨p.extendPast r, by simp, hbefore.spanned_covers (Interval.extendPast_on p r) (Interval.extendPast_off p r)
        (hq p (by simp)) hr ?_⟩
      obtain rfl | rfl := hmerged
      · exact .inl hx
      · exact .inr hx
    · simp only [List.mem_cons, List.mem_append, List.not_mem_nil, or_false] at hi
      exact ⟨i, by simp only [List.mem_cons, List.mem_append]; tauto, hx⟩
  | @back pre post s hfar hplace =>
    have hbefore := Interval.before_of_lt_on hr (hq s (by simp)) (hfar s (by simp)) (hplace.2 s rfl)
    by_cases hmerged : i = r ∨ i = s
    · refine ⟨s.extendBack r, by simp, hbefore.spanned_covers (Interval.extendBack_on s r) (Interval.extendBack_off s r)
        hr (hq s (by simp)) ?_⟩
      obtain rfl | rfl := hmerged
      · exact .inl hx
      · exact .inr hx
    · simp only [List.mem_cons, List.mem_append] at hi
      exact ⟨i, by simp only [List.mem_cons, List.mem_append]; tauto, hx⟩

end

/-- In an ordered queue an interval that touches none enters in order. -/
theorem pairwise_entered {gap : Nat} {r : Interval} {pre post : List Interval} (hr : r.Spans) (hspans : ∀ i ∈ pre ++ post, i.Spans)
    (hfar : ∀ i ∈ pre ++ post, Interval.touches gap r i = false) (hplace : MarkPlace pre post r)
    (hq : (pre ++ post).Pairwise (Interval.Before 0)) : (pre ++ r :: post).Pairwise (Interval.Before 0) := by
  obtain ⟨hpre, hpost, hcross⟩ := List.pairwise_append.mp hq
  have habove : ∀ i ∈ post, r.on < i.on := by
    cases post with
    | nil => simp
    | cons s rest =>
      refine List.forall_mem_cons.mpr ⟨hplace.2 s rfl, fun i hi => ?_⟩
      obtain ⟨o, ho, hlt⟩ := (List.pairwise_cons.mp hpost).1 i hi
      have hs := hspans s (by simp) o ho
      have hhead := hplace.2 s rfl
      omega
  have hahead : ∀ i ∈ pre, i.Before 0 r := fun i hi =>
    (Interval.before_of_on_le hr (hspans i (by simp [hi])) (hfar i (by simp [hi])) (hplace.1 i hi)).zero
  have hbehind : ∀ i ∈ post, r.Before 0 i := fun i hi =>
    (Interval.before_of_lt_on hr (hspans i (by simp [hi])) (hfar i (by simp [hi])) (habove i hi)).zero
  exact List.pairwise_append.mpr ⟨hpre, List.pairwise_cons.mpr ⟨hbehind, hpost⟩,
    fun i hi => List.forall_mem_cons.mpr ⟨hahead i hi, hcross i hi⟩⟩

section
variable {gap : Nat} {r i j : Interval} (hr : r.Spans) (hi : i.Spans) (hj : j.Spans) (hij : i.Before 0 j)
include hr hi hj hij

/-- Of two intervals in order, one that keeps clear while the later touches lies before the incoming interval. -/
theorem Interval.before_of_later_touches (hfar : Interval.touches gap r i = false) (htouch : Interval.touches gap r j = true) :
    i.Before gap r := by
  refine ((Interval.touches_eq_false hr hi).mp hfar).resolve_right fun hri => ?_
  have hclear := (Interval.touches_eq_false hr hj).mpr (.inr (hri.trans hi hij))
  simp [htouch] at hclear

/-- One that keeps clear while the earlier touches lies behind it. -/
theorem Interval.before_of_earlier_touches (htouch : Interval.touches gap r i = true) (hfar : Interval.touches gap r j = false) :
    r.Before gap j := by
  refine ((Interval.touches_eq_false hr hj).mp hfar).resolve_left fun hjr => ?_
  have hclear := (Interval.touches_eq_false hr hi).mpr (.inl (by simpa using hij.trans hj hjr))
  simp [htouch] at hclear

end

/-- Of two intervals of an ordered queue one lies before the other. -/
theorem before_or_before {q : List Interval} (hq : q.Pairwise (Interval.Before 0)) {i j : Interval} (hi : i ∈ q) (hj : j ∈ q)
    (hne : i ≠ j) : i.Before 0 j ∨ j.Before 0 i := by
  have hsymm : Std.Symm fun i j : Interval => i.Before 0 j ∨ j.Before 0 i := ⟨fun _ _ => Or.symm⟩
  exact (hq.imp Or.inl : q.Pairwise fun i j => i.Before 0 j ∨ j.Before 0 i).forall hi hj hne

/-- In an ordered queue the intervals touched stand together, and what is joined from them keeps the order (R167). -/
theorem pairwise_joined {gap : Nat} {r f : Interval} {pre post : List Interval} (hr : r.Spans)
    (hspans : ∀ i ∈ pre ++ f :: post, i.Spans) (hpre : ∀ i ∈ pre, Interval.touches gap r i = false)
    (hf : Interval.touches gap r f = true) (hq : (pre ++ f :: post).Pairwise (Interval.Before 0)) :
    (pre ++ (((pre ++ f :: post).filter (Interval.touches gap r)).foldl Interval.join r) ::
      post.filter (fun i => !Interval.touches gap r i)).Pairwise (Interval.Before 0) := by
  have hjoins := Interval.foldl_join ((pre ++ f :: post).filter (Interval.touches gap r)) r
  have hparts : (pre ++ f :: post).filter (Interval.touches gap r) = f :: post.filter (Interval.touches gap r) := by
    rw [List.filter_append, List.filter_eq_nil_iff.mpr (by simpa using hpre), List.nil_append, List.filter_cons_of_pos hf]
  rw [hparts] at hjoins ⊢
  obtain ⟨hpreq, hfq, hcross⟩ := List.pairwise_append.mp hq
  obtain ⟨hfpost, hpostq⟩ := List.pairwise_cons.mp hfq
  have hfspan : f.Spans := hspans f (by simp)
  have hpostspan : ∀ i ∈ post, i.Spans := fun i hi => hspans i (by simp [hi])
  have hahead : ∀ a ∈ pre, ∀ i ∈ r :: f :: post.filter (Interval.touches gap r), a.Before 0 i := by
    intro a ha i hi
    obtain rfl | hi := List.mem_cons.mp hi
    · exact (Interval.before_of_later_touches hr (hspans a (by simp [ha])) hfspan (hcross a ha f (by simp)) (hpre a ha) hf).zero
    · exact hcross a ha i (List.cons_subset_cons f (List.filter_subset_self _) hi)
  have hbehind : ∀ b ∈ post, Interval.touches gap r b = false →
      ∀ i ∈ r :: f :: post.filter (Interval.touches gap r), i.Before 0 b := by
    intro b hb hclear
    have hrb := Interval.before_of_earlier_touches hr hfspan (hpostspan b hb) (hfpost b hb) hf hclear
    refine List.forall_mem_cons.mpr ⟨hrb.zero, List.forall_mem_cons.mpr ⟨hfpost b hb, fun i hi => ?_⟩⟩
    obtain ⟨hi, htouch⟩ := List.mem_filter.mp hi
    have hne : i ≠ b := by
      rintro rfl
      simp [htouch] at hclear
    refine (before_or_before hpostq hi hb hne).resolve_right fun hbi => ?_
    have hbr := Interval.before_of_later_touches hr (hpostspan b hb) (hpostspan i hi) hbi hclear htouch
    exact absurd (hbr.trans hr hrb) fun ⟨o, ho, hlt⟩ => by
      have hspan := hpostspan b hb o ho
      omega
  exact List.pairwise_append.mpr ⟨hpreq, List.pairwise_cons.mpr ⟨fun b hb => by
      obtain ⟨hb, hclear⟩ := List.mem_filter.mp hb
      exact hjoins.before (hbehind b hb (by simpa using hclear)), hpostq.filter _⟩,
    fun a ha => List.forall_mem_cons.mpr ⟨hjoins.after (hahead a ha), fun b hb =>
      hcross a ha b (.tail _ (List.mem_filter.mp hb).1)⟩⟩

/-- The queue keeps its order (R165, R167, R168). -/
theorem Placing.ordered {gap : Nat} {r : Interval} {q q' : List Interval} (h : Placing gap r q q') (hspans : ∀ i ∈ r :: q, i.Spans)
    (hq : q.Pairwise (Interval.Before 0)) : q'.Pairwise (Interval.Before 0) := by
  obtain ⟨hr, hspans⟩ := List.forall_mem_cons.mp hspans
  cases h with
  | joined hpre hf => exact pairwise_joined hr hspans hpre hf hq
  | entered hfar hplace => exact pairwise_entered hr hspans hfar hplace hq
  | @past _ _ p hfar hplace =>
    exact Interval.pairwise_spanned (Interval.extendPast_on p r) (Interval.extendPast_off p r)
      (by simpa using pairwise_entered hr hspans hfar hplace hq)
  | @back _ _ s hfar hplace =>
    exact Interval.pairwise_spanned (Interval.extendBack_on s r) (Interval.extendBack_off s r)
      (pairwise_entered hr hspans hfar hplace hq)

/-! ## The statement -/

/-- What joining makes of the parts, as R167 states it of ON, OFF and floor. -/
theorem placeInterval_joins {gap : Nat} {r f : Interval} {pre post : List Interval}
    (hpre : ∀ i ∈ pre, Interval.touches gap r i = false) (hf : Interval.touches gap r f = true) :
    let parts := r :: (pre ++ f :: post).filter (Interval.touches gap r)
    ∃ j : Interval, placeInterval gap (pre ++ f :: post) r = pre ++ j :: post.filter (fun i => !Interval.touches gap r i) ∧
      (∀ i ∈ parts, j.on ≤ i.on) ∧ (∃ i ∈ parts, j.on = i.on) ∧
      ((∃ i ∈ parts, i.off = none) → j.off = none ∧ (∀ i ∈ parts, i.reach ≤ j.floor) ∧ ∃ i ∈ parts, j.floor = i.reach) ∧
      ((∀ i ∈ parts, i.off.isSome = true) →
        j.floor = 0 ∧ (∃ i ∈ parts, j.off = i.off) ∧ ∀ o, j.off = some o → ∀ i ∈ parts, i.reach ≤ o) := by
  intro parts
  have hjoins : Joins parts _ := Interval.foldl_join _ _
  refine ⟨_, placeInterval_joined hpre hf, hjoins.on_le, hjoins.on_mem, fun hopen => ?_, fun hclosed => ?_⟩
  · obtain ⟨hoff, hfloor⟩ := hjoins.floor_of_open hopen
    exact ⟨hoff, hfloor ▸ hjoins.reach_le, hfloor ▸ hjoins.reach_mem⟩
  · have hsome := hjoins.closed.mpr hclosed
    obtain ⟨o, ho⟩ := Option.isSome_iff_exists.mp hsome
    have hne : (pre ++ f :: post).filter (Interval.touches gap r) ≠ [] :=
      List.ne_nil_of_mem (List.mem_filter.mpr ⟨List.mem_append_right _ (.head _), hf⟩)
    have hreach := hjoins.reach_le
    obtain ⟨i, hi, hmax⟩ := hjoins.reach_mem
    obtain ⟨o', ho'⟩ := Option.isSome_iff_exists.mp (hclosed i hi)
    simp only [Interval.reach, ho, ho', Option.getD_some] at hmax hreach
    refine ⟨Interval.foldl_join_floor hne hsome, ⟨i, hi, ?_⟩, fun o'' ho'' => ?_⟩
    · rw [ho, ho', hmax]
    · obtain rfl : o = o'' := Option.some.inj (ho.symm.trans ho'')
      exact hreach

/-- An interval that touches none of a full queue, merged into the one or the other neighbour (R168). -/
theorem placeInterval_full {gap : Nat} {r : Interval} {pre post : List Interval} (hspans : ∀ i ∈ r :: (pre ++ post), i.Spans)
    (hfar : ∀ i ∈ pre ++ post, Interval.touches gap r i = false) (hplace : MarkPlace pre post r)
    (hfull : 16 ≤ (pre ++ post).length) :
    (∀ p o, pre.getLast? = some p → p.off = some o → (∀ i, post.head? = some i → r.on - o ≤ i.on - r.reach) →
      placeInterval gap (pre ++ post) r = pre.dropLast ++
        { on := p.on, off := r.off, floor := if r.off = none then o else 0 } :: post) ∧
    (∀ i rest o, post = i :: rest → r.off = some o →
      (∀ p po, pre.getLast? = some p → p.off = some po → i.on - o < r.on - po) →
      placeInterval gap (pre ++ post) r = pre ++
        { on := r.on, off := i.off, floor := if i.off = none then max i.floor o else 0 } :: rest) := by
  obtain ⟨hr, hspans⟩ := List.forall_mem_cons.mp hspans
  rw [placeInterval_far hfar, if_neg (Nat.not_lt.mpr hfull)]
  refine ⟨fun p o hp ho hgap => ?_, fun i rest o hpost ho hgap => ?_⟩
  · have hreach : p.reach = o := by simp [Interval.reach, ho]
    rw [mergeInterval_past hplace hp (by simpa only [Interval.gapTo, hreach] using hgap)]
    simp [Interval.extendPast, hreach]
  · subst hpost
    have hreach : r.reach = o := by simp [Interval.reach, ho]
    rw [mergeInterval_back hplace fun p hp => ?_]
    · simp [Interval.extendBack, hreach]
    · have hmem := List.mem_of_getLast? hp
      obtain ⟨po, hpo, _⟩ := Interval.before_of_on_le hr (hspans p (List.mem_append_left _ hmem))
        (hfar p (List.mem_append_left _ hmem)) (hplace.1 p hmem)
      have hpreach : p.reach = po := by simp [Interval.reach, hpo]
      rw [Interval.gapTo, Interval.gapTo, hreach, hpreach]
      exact hgap p po hp hpo

/-- Settles O53: a request by `StrandState.takeRequest_missed` and `StrandState.takeRequest_placed`, the OFF by `closeInterval_eq`, cover
and order by the cases of `Placing`, the segment flagged by those of `StrandMap.flagMark`. -/
theorem marksTaken : Obligations.MarksTaken := by
  unfold Obligations.MarksTaken
  refine ⟨fun s n q r fm mm hmail => ?_, fun s n y rest hmail => ?_, fun gap q r hspans hlen => ?_, fun gap q r hspans => ?_,
    fun m tailed x missed => ?_⟩
  · refine ⟨_, .ofStrand rfl (StrandState.takeNextRequest_of_mail hmail s.env n), rfl, fun m hm => Four.get_set_ne _ _ hm, ?_⟩
    have hstrand : ∀ st, State.strand { s with strands := s.strands.set n st } n = st := Four.get_set_self _ _
    rw [hstrand]
    let taken : StrandState := { s.strand n with foreMail := fm, mapMail := mm }
    have hplaced := StrandState.takeRequest_placed (st := taken) (r := r) s.env n
    refine ⟨StrandState.takeRequest_frame s.env n _ r, fun o ho hle => ?_, fun hoff hon => ?_, fun hoff hon => ?_⟩
    · rw [StrandState.takeRequest_missed (st := taken) s.env n ho hle]
      exact ⟨rfl, rfl, rfl⟩
    · rw [hplaced hoff, if_pos hon]
      exact ⟨rfl, rfl, rfl⟩
    · rw [hplaced hoff, if_neg (Nat.not_le.mpr hon)]
      exact ⟨rfl, rfl, rfl⟩
  · exact .ofStrand rfl (StrandState.takeNextOff_of_mail hmail (closeInterval_eq y _))
  · exact ⟨placeInterval_length_le gap hlen r, fun x ⟨i, hi, hx⟩ => (placeInterval_placing gap q r).covers hspans hi hx⟩
  · intro near reach parts
    have hnear : near = Interval.touches gap r := funext fun i => (Interval.touches_eq gap r i).symm
    clear_value near
    subst hnear
    refine ⟨fun pre post f hq hpre hf => ?_, fun pre post hq hfar hpre hpost => ?_, (placeInterval_placing gap q r).ordered hspans⟩
    · subst hq
      exact placeInterval_joins hpre hf
    · subst hq
      exact ⟨fun hroom => by rw [placeInterval_far hfar, if_pos hroom, insertInterval_at ⟨hpre, hpost⟩],
        placeInterval_full hspans hfar ⟨hpre, hpost⟩⟩
  · refine ⟨fun b => StrandMap.flagMark_open missed, fun y pre g hcur ht hy hx hclosed => ?_, fun hcur htail => ?_⟩
    · rw [StrandMap.flagMark_tailed missed hcur ht hy hx, hclosed, flagLast_concat]
      rfl
    · rw [StrandMap.flagMark_closed missed hcur htail]
      refine ⟨fun pre g post hclosed hpre hstart hstop => ?_, fun hnone => by rw [flagClosed_none missed hnone]⟩
      rw [hclosed, flagClosed_first post missed hpre ⟨hstart, hstop⟩]
      rfl

end Sys2Proof.Machine
end

section
namespace Sys2Proof.Machine

/-! # The marker output: FORCE MARKER, and that every step keeps the output equal to its queue or its force (R170 to R172) -/

/-! ## FORCE MARKER (R171) -/

/-- ON forces the output active, OFF inactive; RELEASE gives it the queue's state. -/
theorem Marker.setForce_forceOf {mode : Nat} (hlow : 1 ≤ mode) (hhigh : mode ≤ 3) (m : Marker) (hw : Nat) :
    m.setForce (forceOf mode) hw = { m with
      force := if mode = 1 then .on else if mode = 2 then .off else .none
      active := if mode = 1 then true else if mode = 2 then false else queueActive m.queue hw } := by
  obtain rfl | rfl | rfl : mode = 1 ∨ mode = 2 ∨ mode = 3 := by omega
  · rfl
  · rfl
  · rfl

/-- FORCE MARKER of a strand, with a marker or without. -/
theorem forceMarker_eq {s : State} {o : Order} {n : Strand} (hn : o.op1 = n.num) : forceMarker s o =
    if s.env.marker n = none then (s, .badOperand 1)
    else (s.onStrand n fun st => { st with marker := st.marker.setForce (forceOf o.op2) st.chan.hw }, .done 0) := by
  simp only [forceMarker, hn, strandOf_num, Option.isNone_iff_eq_none]

/-- Settles O35: the effect by `forceMarker_eq`, the mode and the output by `Marker.setForce_forceOf`. -/
theorem forceMarkerSets : Obligations.ForceMarkerSets := by
  unfold Obligations.ForceMarkerSets
  intro s o n ho hn hlow hhigh m
  have completes : ∀ u a, forceMarker s o = (u, a) → Completes .forceMarker s (u.answer o a) := fun u a e =>
    .of rfl (by rw [State.carryOut_of_holds ho, e]; rfl)
  rw [forceMarker_eq hn] at completes
  split
  next hnone => exact completes s (.badOperand 1) (if_pos hnone)
  next hmarker =>
    refine completes _ (.done 0) ((if_neg hmarker).trans ?_)
    simp only [Marker.setForce_forceOf hlow hhigh]
    rfl

/-! ## A marker that is served -/

/-- The output is what force and queue give it, and the head of the queue has not been passed. -/
structure Marker.Served (m : Marker) (hw : Nat) : Prop where
  active : m.active = m.force.output (queueActive m.queue hw)
  head : ∀ i, m.queue.head? = some i → i.served hw = false

theorem Interval.served_eq_false_iff (i : Interval) (hw : Nat) : i.served hw = false ↔ ∀ o, i.off = some o → hw < o := by
  unfold Interval.served
  cases i.off <;> simp

theorem queueActive_iff (q : List Interval) (hw : Nat) : queueActive q hw = true ↔ ∃ i, q.head? = some i ∧ i.on ≤ hw := by
  unfold queueActive
  cases q.head? <;> simp

theorem ForceMode.output_iff (f : ForceMode) (b : Bool) : f.output b = true ↔ f = .on ∨ (f = .none ∧ b = true) := by
  cases f <;> simp [ForceMode.output]

/-- The statement's invariant: since the head has not been passed, the high-water coordinate is in it from its ON on. -/
theorem StrandState.markerAgrees_iff (st : StrandState) : st.MarkerAgrees ↔ st.marker.Served st.chan.hw := by
  have within (hhead : ∀ i, st.marker.queue.head? = some i → ∀ o, i.off = some o → st.chan.hw < o) :
      (∃ i, st.marker.queue.head? = some i ∧ i.on ≤ st.chan.hw ∧ ∀ o, i.off = some o → st.chan.hw < o) ↔
        queueActive st.marker.queue st.chan.hw = true := by
    rw [queueActive_iff]
    exact exists_congr fun i => and_congr_right fun hi => and_iff_left (hhead i hi)
  constructor
  · rintro ⟨hactive, hhead⟩
    refine ⟨Bool.eq_iff_iff.mpr ?_, fun i hi => (i.served_eq_false_iff _).mpr (hhead i · hi)⟩
    rw [hactive, ForceMode.output_iff, within fun i hi o => hhead i o hi]
  · rintro ⟨hactive, hhead⟩
    have hbefore : ∀ i, st.marker.queue.head? = some i → ∀ o, i.off = some o → st.chan.hw < o := fun i hi =>
      (i.served_eq_false_iff _).mp (hhead i hi)
    refine ⟨?_, fun i o hi => hbefore i hi o⟩
    rw [hactive, ForceMode.output_iff, within hbefore]

/-- Serving takes out every interval at the head that has been passed (R170). -/
theorem Marker.serve_served (m : Marker) (hw : Nat) : (m.serve hw).Served hw where
  active := rfl
  head i hi := by
    have hstop := List.head?_dropWhile_not (Interval.served hw) m.queue
    rw [show (m.queue.dropWhile (Interval.served hw)).head? = some i from hi] at hstop
    simpa using hstop

/-- A force is set on the queue as it stands (R171). -/
theorem Marker.Served.setForce {m : Marker} {hw : Nat} (h : m.Served hw) (f : ForceMode) : (m.setForce f hw).Served hw :=
  ⟨rfl, h.head⟩

/-- An empty queue leaves the output to the force, whatever the high-water coordinate (R172). -/
theorem Marker.empty_served (m : Marker) (hw : Nat) : m.empty.Served hw := ⟨rfl, nofun⟩

theorem Marker.blank_served (hw : Nat) : Marker.Served {} hw := ⟨rfl, nofun⟩

/-! ## What leaves a strand's marker as it was -/

/-- Marker and high-water coordinate are as they were. -/
structure SameMarker (st t : StrandState) : Prop where
  marker : t.marker = st.marker
  hw : t.chan.hw = st.chan.hw

@[refl] theorem SameMarker.refl (st : StrandState) : SameMarker st st := ⟨rfl, rfl⟩

theorem SameMarker.trans {a b c : StrandState} (h : SameMarker a b) (k : SameMarker b c) : SameMarker a c :=
  ⟨k.marker.trans h.marker, k.hw.trans h.hw⟩

theorem Within.sameMarker {st t : StrandState} (h : Within st t) : SameMarker st t := ⟨h.marker, congrArg (·.hw) h.chan⟩

theorem Marker.Served.same {st t : StrandState} (h : st.marker.Served st.chan.hw) (k : SameMarker st t) :
    t.marker.Served t.chan.hw := by
  rw [k.marker, k.hw]
  exact h

section
variable (st : StrandState) (e : Env) (n : Strand)

theorem SameMarker.endWindow : SameMarker st (st.endWindow e n) := by
  refine ⟨?_, by rw [StrandState.endWindow_chan, Channel.endWindow_hw]⟩
  rw [StrandState.endWindow_eq]
  split <;> rfl

theorem SameMarker.expireStale : SameMarker st (st.expireStale e n) := by
  unfold StrandState.expireStale
  split <;> exact ⟨rfl, rfl⟩

theorem SameMarker.setAssembling (on : Bool) : SameMarker st (st.setAssembling on) := ⟨rfl, rfl⟩

theorem SameMarker.acceptFrame (content : List Byte) : SameMarker st (st.acceptFrame e n content) := by
  by_cases h : st.track = .off
  · rw [StrandState.acceptFrame_of_off h]
    exact ⟨rfl, rfl⟩
  · rw [StrandState.acceptFrame_of_on h e n content rfl]
    exact ⟨rfl, rfl⟩

/-- A frame fails a check, which at most raises LINK_CHECK, or is accepted (R73). -/
theorem SameMarker.arrive (content : List Byte) (finished : Bool) : SameMarker st (st.arrive e n content finished) := by
  have hcheck : ∀ d, SameMarker st (st.linkCheck e n d) := fun d => by
    rw [StrandState.linkCheck_eq]
    exact ⟨rfl, rfl⟩
  cases finished with
  | false => exact hcheck 1
  | true =>
    rw [StrandState.arrive_finished]
    cases frameFailing n content with
    | none => exact .acceptFrame st e n content
    | some d => exact hcheck d

theorem SameMarker.sendZoneMark (governing : Recipe) (cls : ZoneClass) (start stop : Nat) :
    SameMarker st (st.sendZoneMark e n governing cls start stop) := by
  rw [StrandState.sendZoneMark_eq]
  exact ⟨rfl, rfl⟩

theorem SameMarker.enterZone (governing : Recipe) (z : Zone) : SameMarker st (st.enterZone e n governing z) := by
  rw [StrandState.enterZone_eq]
  exact ⟨rfl, rfl⟩

theorem SameMarker.mergeZone (governing : Recipe) (z : Zone) : SameMarker st (st.mergeZone e n governing z) := by
  unfold StrandState.mergeZone
  split
  · rfl
  · refine .trans ?_ (.sendZoneMark _ e n _ _ _ _)
    exact ⟨rfl, rfl⟩

theorem SameMarker.autoZone (governing : Recipe) (cls : ZoneClass) (origin : Origin) (start stop : Nat) :
    SameMarker st (st.autoZone e n governing cls origin start stop) := by
  unfold StrandState.autoZone
  dsimp only
  split
  · rfl
  · split
    · rfl
    · split
      · exact .enterZone st e n _ _
      · exact .mergeZone st e n _ _

theorem SameMarker.forecastSeam (grant : Option SeamGrant) : SameMarker st (st.forecastSeam e n grant) := by
  unfold StrandState.forecastSeam
  split
  · split
    · rfl
    · exact .autoZone st e n _ _ _ _ _
  · split
    · rfl
    · exact .autoZone st e n _ _ _ _ _
  · rfl

theorem SameMarker.forecastStop (c : Nat) : SameMarker st (st.forecastStop e n c) := by
  rw [StrandState.forecastStop_eq]
  split
  · exact .autoZone st e n _ _ _ _ _
  · rfl

theorem SameMarker.takeStop : SameMarker st (st.takeStop e n) := by
  unfold StrandState.takeStop
  split
  · rfl
  · refine .trans ?_ (.forecastStop _ e n _)
    exact ⟨rfl, rfl⟩

theorem SameMarker.takeSwitch (k : Fin 8) (capture : Option Nat) : SameMarker st (st.takeSwitch k capture) := by
  unfold StrandState.takeSwitch
  split <;> exact ⟨rfl, rfl⟩

theorem SameMarker.sawCutOf (c : Captures) : SameMarker st (sawCutOf e c n st) := by
  unfold Machine.sawCutOf
  split
  · rfl
  · exact (Steady.cutBehind st e n .saw _).within.sameMarker

theorem SameMarker.softCutOf (mask : Four Bool) : SameMarker st (softCutOf e mask n st) := by
  unfold Machine.softCutOf
  split
  · exact (Steady.cutBehind st e n .soft _).within.sameMarker
  · rfl

end

/-! ## What a strand's marker does -/

section
variable {st : StrandState}

/-- A counted edge that moves the high-water coordinate has the queue served against it (R170). -/
theorem Marker.Served.countEdge (h : st.marker.Served st.chan.hw) (e : Env) (n : Strand) (forward : Bool) (step : Nat) :
    (st.countEdge e n forward step).marker.Served (st.countEdge e n forward step).chan.hw := by
  rw [StrandState.countEdge_eq st e n forward step rfl]
  generalize stepAccumulator st.chan.acc forward step = acc
  have hhw : (st.chan.counted forward step acc).hw = max st.chan.hw (positionOf acc) := rfl
  dsimp only
  rw [hhw]
  split
  next hlt =>
    rw [Nat.max_eq_right (Nat.le_of_lt hlt)]
    exact st.marker.serve_served _
  next hnot =>
    rw [Nat.max_eq_left (Nat.le_of_not_lt hnot)]
    exact h

theorem Marker.Served.sampleEdge (h : st.marker.Served st.chan.hw) (e : Env) (n : Strand) (a b : Bool) :
    (st.sampleEdge e n a b).marker.Served (st.sampleEdge e n a b).chan.hw := by
  have hsampled := h.same (t := { st with chan := { st.chan with lastA := a, lastB := b } }) ⟨rfl, rfl⟩
  unfold StrandState.sampleEdge
  dsimp only
  split
  · exact hsampled
  · split
    · exact hsampled
    · exact hsampled.countEdge e n _ _

/-- An adoption that takes the marker away leaves a blank one; any other leaves the marker as it was (R22, R23). -/
theorem Marker.Served.adopt (h : st.marker.Served st.chan.hw) (e : Env) (n : Strand) :
    (st.adopt e n).marker.Served (st.adopt e n).chan.hw := by
  have hdwell : SameMarker st (st.rejudgeDwell e n) := by
    unfold StrandState.rejudgeDwell
    split <;> exact ⟨rfl, rfl⟩
  unfold StrandState.adopt
  dsimp only
  split
  · exact Marker.blank_served _
  · exact h.same hdwell

theorem SameMarker.reportMark (st : StrandState) (e : Env) (n : Strand) (r : MarkRequest) (missed : Bool) (detail : Nat) :
    SameMarker st (st.reportMark e n r missed detail) := ⟨rfl, rfl⟩

/-- A request is missed, and the marker as it was, or placed, and the queue served (R166, R170). -/
theorem Marker.Served.takeRequest (h : st.marker.Served st.chan.hw) (e : Env) (n : Strand) (r : MarkRequest) :
    (st.takeRequest e n r).marker.Served (st.takeRequest e n r).chan.hw := by
  by_cases hmissed : ∃ o, r.off = some o ∧ o ≤ st.chan.hw
  · obtain ⟨o, ho, hle⟩ := hmissed
    rw [StrandState.takeRequest_missed e n ho hle]
    exact h.same (.reportMark st e n r true o)
  · rw [StrandState.takeRequest_placed e n fun o ho => Nat.not_le.mp fun hle => hmissed ⟨o, ho, hle⟩]
    have hplaced : (st.placeRequest e r).marker.Served (st.placeRequest e r).chan.hw := Marker.serve_served _ _
    split
    · exact hplaced.same (.reportMark _ e n r false _)
    · exact hplaced

theorem Marker.Served.takeNextRequest (h : st.marker.Served st.chan.hw) (e : Env) (n : Strand) (q : Requester) :
    (st.takeNextRequest e n q).marker.Served (st.takeNextRequest e n q).chan.hw := by
  have hmail := fun fm mm => h.same (t := { st with foreMail := fm, mapMail := mm }) ⟨rfl, rfl⟩
  unfold StrandState.takeNextRequest
  split
  · split
    · exact h
    · exact (hmail _ _).takeRequest e n _
  · split
    · exact (hmail _ _).takeRequest e n _
    · exact h

/-- The map's OFF has the queue served (R169, R170). -/
theorem Marker.Served.takeNextOff (h : st.marker.Served st.chan.hw) :
    st.takeNextOff.marker.Served st.takeNextOff.chan.hw := by
  unfold StrandState.takeNextOff
  split
  · exact Marker.serve_served _ _
  · exact h

end

/-! ## The markers of all strands -/

/-- Every strand's marker is served. -/
def MarkersServed (s : State) : Prop := ∀ n, (s.strand n).marker.Served (s.strand n).chan.hw

/-- Every strand's marker and high-water coordinate are as they were. -/
def LeavesMarkers (s t : State) : Prop := ∀ n, SameMarker (s.strand n) (t.strand n)

theorem LeavesRun.leavesMarkers {s t : State} (h : LeavesRun s t) : LeavesMarkers s t := fun n => by
  unfold State.strand
  rw [h.strands]

theorem MarkersServed.leaves {s t : State} (h : MarkersServed s) (k : LeavesMarkers s t) : MarkersServed t := fun n =>
  (h n).same (k n)

theorem MarkersServed.leavesRun {s t : State} (h : MarkersServed s) (k : LeavesRun s t) : MarkersServed t :=
  h.leaves k.leavesMarkers

theorem MarkersServed.of_strands {s t : State} (h : MarkersServed s) (hstrands : t.strands = s.strands) : MarkersServed t :=
  fun n => by
    unfold State.strand
    rw [hstrands]
    exact h n

section
variable {s : State}

theorem MarkersServed.onStrand (h : MarkersServed s) {n : Strand} {f : StrandState → StrandState}
    (hf : (f (s.strand n)).marker.Served (f (s.strand n)).chan.hw) : MarkersServed (s.onStrand n f) := fun m => by
  rw [State.onStrand_strand_eq]
  split
  · subst_vars
    exact hf
  · exact h m

theorem MarkersServed.onStrand_same (h : MarkersServed s) {n : Strand} {f : StrandState → StrandState}
    (hf : SameMarker (s.strand n) (f (s.strand n))) : MarkersServed (s.onStrand n f) := h.onStrand ((h n).same hf)

theorem MarkersServed.strandEvent (h : MarkersServed s) {n : Strand} {f : StrandState → StrandState}
    (hf : SameMarker (s.strand n) (f (s.strand n))) : MarkersServed (s.strandEvent n f) := fun m => by
  rw [State.strandEvent_strand]
  split
  · exact (h n).same hf
  · exact h m

theorem MarkersServed.strandEvents (h : MarkersServed s) {f : Strand → StrandState → StrandState}
    (hf : ∀ n, SameMarker (s.strand n) (f n (s.strand n))) : MarkersServed (s.strandEvents f strandsAscending) := fun n => by
  rw [State.strandEvents_strand s f (by decide), if_pos (mem_strandsAscending n)]
  exact (h n).same (hf n)

/-! ## Events of the blocks -/

theorem MarkersServed.encoderEdge (h : MarkersServed s) (n : Strand) (a b : Bool) : MarkersServed (s.encoderEdge n a b) := by
  have hpins := h.onStrand_same (n := n) (f := fun st => { st with chan := { st.chan with pinA := a, pinB := b } }) ⟨rfl, rfl⟩
  unfold State.encoderEdge
  dsimp only
  split
  · exact hpins.onStrand ((hpins n).sampleEdge s.env n a b)
  · exact hpins

theorem MarkersServed.endWindow (h : MarkersServed s) (n : Strand) : MarkersServed (s.endWindow n) :=
  ((h.onStrand_same (.endWindow _ s.env n)).of_strands (State.noteMoving_strands _ n _)).leavesRun (.putStatus _ _)

theorem MarkersServed.seamForecast (h : MarkersServed s) : MarkersServed s.seamForecast := by
  unfold State.seamForecast
  split
  · exact h
  · intro n
    rw [State.onAll_strand]
    exact (h n).same (.forecastSeam _ _ n _)

theorem MarkersServed.applyStaged (h : MarkersServed s) (k : Fin 8) (c : Captures) : MarkersServed (s.applyStaged k c) := fun n => by
  rw [State.applyStaged_strand, State.switchesTaken_strand]
  split
  · exact (h n).same (.takeSwitch _ k _)
  · exact h n

theorem MarkersServed.qualifiedSeam (h : MarkersServed s) : MarkersServed s.qualifiedSeam := by
  cases hmail : s.seamMail with
  | nil =>
    unfold State.qualifiedSeam
    rw [hmail]
    exact h
  | cons c rest =>
    rw [State.qualifiedSeam_of_mail hmail]
    split
    · cases hswitch : s.switching with
      | none =>
        rw [State.seamAtRun_of_none hswitch]
        exact h.of_strands rfl
      | some k =>
        rw [State.seamAtRun_of_some hswitch]
        have hcounted : MarkersServed (s.billetCounted rest) := h.of_strands rfl
        exact (hcounted.applyStaged k c).of_strands rfl
    · exact h.of_strands rfl

theorem MarkersServed.qualifiedSaw (h : MarkersServed s) : MarkersServed s.qualifiedSaw := by
  cases hmail : s.sawMail with
  | nil =>
    unfold State.qualifiedSaw
    rw [hmail]
    exact h
  | cons c rest =>
    have htaken : MarkersServed { s with sawMail := rest } := h.of_strands rfl
    rw [State.qualifiedSaw_of_mail hmail]
    split
    · exact htaken.strandEvents fun n => .sawCutOf _ s.env n c
    · exact htaken

theorem MarkersServed.startDelimiter (h : MarkersServed s) (n : Strand) : MarkersServed (s.startDelimiter n) := by
  unfold State.startDelimiter
  split
  · split
    · exact h.onStrand_same (.trans (.setAssembling _ _) (.arrive _ s.env n _ _))
    · exact h.onStrand_same ⟨rfl, rfl⟩
  · exact h

theorem MarkersServed.frameArrival (h : MarkersServed s) (n : Strand) (content : List Byte) (e : FrameEnd) :
    MarkersServed (s.frameArrival n content e) := by
  unfold State.frameArrival
  split
  · split
    · exact h.onStrand_same (.trans (.setAssembling _ _) (.arrive _ s.env n _ _))
    · exact h.onStrand_same (.trans (.setAssembling _ _) (.arrive _ s.env n _ _))
  · exact h

theorem MarkersServed.arbiterLook (h : MarkersServed s) : MarkersServed s.arbiterLook := by
  unfold State.arbiterLook
  split
  · exact h
  · split
    · exact h
    next n _ =>
      unfold State.serve
      split
      · exact h
      next rest _ =>
        have hserved := h.onStrand_same (n := n) (f := fun st => { st with port := { st.port with fifo := rest } }) ⟨rfl, rfl⟩
        exact hserved.of_strands rfl

theorem MarkersServed.takeScan (h : MarkersServed s) : MarkersServed s.takeScan := by
  have htaken : MarkersServed { s with service := none } := h.of_strands rfl
  unfold State.takeScan
  split
  · dsimp only
    split
    · exact htaken
    · exact htaken.strandEvent (Taken.takeScan _ s.env _ _).within.sameMarker
  · exact h
  · exact h

theorem MarkersServed.takeNotice (h : MarkersServed s) : MarkersServed s.takeNotice := by
  have htaken : MarkersServed { s with service := none } := h.of_strands rfl
  unfold State.takeNotice
  split
  · dsimp only
    split
    · exact htaken
    · exact htaken.onStrand_same (Steady.takeNotice _ s.env _).within.sameMarker
  · exact h
  · exact h

theorem MarkersServed.pieceBuild (h : MarkersServed s) : MarkersServed s.pieceBuild := by
  unfold State.pieceBuild
  split
  · split
    · exact h
    next n _ =>
      unfold State.buildPiece
      split
      · exact h
      next p _ _ =>
        have hbuilt := h.onStrand_same (n := n) (f := fun st => st.afterBuild s.env p) ⟨rfl, rfl⟩
        exact hbuilt.of_strands rfl
  · exact h

theorem MarkersServed.incidentArrival (h : MarkersServed s) (strand : Option Strand) (raiser : Raiser) :
    MarkersServed (s.incidentArrival strand raiser) := by
  unfold State.incidentArrival
  split
  · unfold State.strandIncident
    split
    · exact h
    · exact (h.onStrand_same ⟨rfl, rfl⟩).leavesRun (.arriveIncident _ _)
  · unfold State.inputIncident
    split
    · exact h
    next i rest _ =>
      have htaken : MarkersServed { s with inputs := { s.inputs with raised := rest } } := h.of_strands rfl
      exact htaken.leavesRun (.arriveIncident _ i)

/-! ## Orders -/

theorem MarkersServed.setStation (h : MarkersServed s) (o : Order) : MarkersServed (setStation s o).1 := by
  unfold Machine.setStation
  split
  · exact h
  · split
    · exact h
    · intro n
      dsimp only
      rw [State.adoptStation_strand]
      exact (h n).adopt _ n

/-- ARM RUN empties the mark queue of every strand it names (R172). -/
theorem MarkersServed.armRun (h : MarkersServed s) (o : Order) : MarkersServed (armRun s o).1 := by
  cases hcheck : s.armCheck o with
  | some a =>
    simp only [Machine.armRun, hcheck]
    exact h
  | none =>
    rw [armRun_opens hcheck, State.openRun_eq]
    have hbegun : MarkersServed (s.runBegun (entryOf o.op1) (maskOf o.op2) (BitVec.ofNat 32 o.op3)) := fun n => by
      rw [State.runBegun_strand]
      split
      · exact Marker.empty_served _ _
      · exact (h n).same ⟨rfl, rfl⟩
    exact (hbegun.of_strands (State.setRun_strands _ _)).leavesRun (.formRecord _ nofun)

theorem LeavesMarkers.endRun (s : State) (o : Order) : LeavesMarkers s (endRun s o).1 := by
  by_cases hopen : s.run.state = .armed ∨ s.run.state = .active
  · intro n
    rw [endRun_strand hopen]
    split
    · exact (Within.endRun _ s.env n).sameMarker
    · rfl
  · intro n
    unfold Machine.endRun
    cases hs : s.run.state with
    | idle => rfl
    | finishing => rfl
    | armed => exact absurd (.inl hs) hopen
    | active => exact absurd (.inr hs) hopen

theorem LeavesMarkers.abandonRun (s : State) (o : Order) : LeavesMarkers s (abandonRun s o).1 := by
  intro n
  by_cases hidle : s.run.state = .idle
  · simp only [Machine.abandonRun, hidle]
    rfl
  · rw [abandonRun_strand hidle]
    split
    · exact (Within.abandon _ s.env n).sameMarker
    · rfl

theorem MarkersServed.addZone (h : MarkersServed s) (o : Order) : MarkersServed (addZone s o).1 := by
  have hzone : ∀ n, MarkersServed (s.addZoneTo o n).1 := fun n => by
    unfold State.addZoneTo
    dsimp only
    split
    · exact h
    · split
      · exact h
      · exact h.onStrand_same (.enterZone _ s.env n _ _)
  unfold Machine.addZone
  split
  · exact h
  · exact h
  all_goals
    split
    · exact h
    · split
      · exact hzone _
      · exact h

theorem MarkersServed.softCut (h : MarkersServed s) (o : Order) : MarkersServed (softCut s o).1 := by
  by_cases hopen : s.run.state = .armed ∨ s.run.state = .active
  · rw [softCut_of_open hopen]
    split
    · exact h.strandEvents fun n => .softCutOf _ s.env n _
    · exact h
  · unfold Machine.softCut
    cases hs : s.run.state with
    | idle => exact h
    | finishing => exact h
    | armed => exact absurd (.inl hs) hopen
    | active => exact absurd (.inr hs) hopen

theorem MarkersServed.forceMarker (h : MarkersServed s) (o : Order) : MarkersServed (forceMarker s o).1 := by
  unfold Machine.forceMarker
  split
  · exact h
  next n _ =>
    split
    · exact h
    · exact h.onStrand ((h n).setForce _)

theorem MarkersServed.carryOut {f : State → Order → State × Answer} (hf : ∀ o, MarkersServed (f s o).1) (h : MarkersServed s)
    (answered : Bool) (k : Nat) : MarkersServed (s.carryOut answered k f) := by
  unfold State.carryOut
  split
  · exact h
  · split
    · exact (hf _).leavesRun (.conclude _ _ _ answered)
    · exact h

theorem MarkersServed.carryOutRecorded {f : State → Order → State × Answer} (hf : ∀ o, MarkersServed (f s o).1)
    (h : MarkersServed s) (answered : Bool) (k : Nat) : MarkersServed (s.carryOutRecorded answered k f) := by
  unfold State.carryOutRecorded
  split
  · exact h.leavesRun (.holdOrder s k)
  · exact h.carryOut hf answered k

/-! ## RUN records -/

theorem MarkersServed.recordEntered (h : MarkersServed s) (r : RunRecord) : MarkersServed (s.recordEntered r) := by
  unfold State.recordEntered
  split
  · intro n
    rw [State.closeRun_eq]
    have hstrand := Four.get_build (fun m => { s.strand m with recipe := none }) n
    exact (h n).same ⟨congrArg (·.marker) hstrand, congrArg (·.chan.hw) hstrand⟩
  · exact h.of_strands rfl

theorem MarkersServed.takeWaiting (h : MarkersServed s) (answered : Bool) : MarkersServed (s.takeWaiting answered) := by
  unfold State.takeWaiting
  split
  · exact h
  · split
    · have harmed := h.carryOut h.armRun answered 3
      exact harmed.carryOut (fun o => harmed.leaves (.abandonRun _ o)) answered 6
    · exact h

theorem MarkersServed.runRecordEntry (h : MarkersServed s) (answered : Bool) : MarkersServed (s.runRecordEntry answered) := by
  unfold State.runRecordEntry
  split
  · exact h
  next r _ =>
    split
    · exact ((h.recordEntered r).takeWaiting answered).leavesRun (.waitedSwitchOver _)
    · exact h

/-! ## Resets -/

theorem MarkersServed.powerOn (s : State) : MarkersServed s.powerOn := fun n => by
  have hstrand : (s.powerOn.strand n).marker = {} := by cases n <;> rfl
  rw [hstrand]
  exact Marker.blank_served _

theorem MarkersServed.sampleLines (h : MarkersServed s) : MarkersServed s.sampleLines := fun n => by
  rw [State.sampleLines_strand]
  exact (h n).same ⟨rfl, rfl⟩

theorem MarkersServed.restart (h : MarkersServed s) : MarkersServed s.restart := by
  cases hready : s.ready with
  | false =>
    rw [State.restart_of_not_ready hready]
    exact h
  | true =>
    have hblocks : MarkersServed s.blocksRestarted := fun n => by
      rw [State.blocksRestarted_strand]
      exact Marker.blank_served _
    rw [State.restart_of_ready hready, State.restarted_eq]
    exact (hblocks.leavesRun (.restartReport _)).leavesRun (.settle _)

theorem MarkersServed.endRestart (h : MarkersServed s) (cells : Nat) (answered : Bool) :
    MarkersServed (s.endRestart cells answered) := by
  have hready : MarkersServed { s with xp := { s.xp with phase := .ready } } := h.of_strands rfl
  rw [State.endRestart_eq]
  exact (hready.sampleLines.leavesRun (.putStatus _ _)).leavesRun (.search _ _ _ _)

theorem MarkersServed.hostRegister (h : MarkersServed s) (reg : Register) (data : RegData) :
    MarkersServed (s.hostRegister reg data) := by
  unfold State.hostRegister
  split
  · unfold State.writeRegister
    split
    · exact h
    · exact h.leavesRun (.clearNotice s _)
    · exact h.leavesRun (.writeMask s _)
    · split
      · exact h.restart
      · exact h
  · exact h

/-! ## Every command -/

theorem MarkersServed.exec {c : Instr} {t : State} (h : MarkersServed s) (he : exec c s = .next t) : MarkersServed t := by
  have next : ∀ u : State, MarkersServed u → Machine.exec c s = .next u → MarkersServed t := fun u hu e => by
    rw [e] at he
    cases he
    exact hu
  have settled : ∀ u : State, MarkersServed u → Machine.exec c s = .next u.settle → MarkersServed t :=
    fun u hu e => next u.settle (hu.leavesRun (.settle u)) e
  have judged : ∀ (b : Bool) (u : State), MarkersServed u → Machine.exec c s = .next (if b then u else s) → MarkersServed t :=
    fun b u hu e => next _ (by cases b <;> assumption) e
  cases c with
  | powerOn => exact next _ (.powerOn s) rfl
  | powerOnInitEnd =>
    refine next _ ?_ rfl
    split
    · exact h.sampleLines.of_strands rfl
    · exact h
  | restart => exact next _ h.restart rfl
  | restartEnd cells answered =>
    refine next _ ?_ rfl
    split
    · exact (h.endRestart cells answered).leavesRun (.settle _)
    · exact h
  | pcieLinkReset => exact next _ (h.leavesRun (.writeMask s 0#32)) rfl
  | msiEnable => exact next { s with xp := { s.xp with msiEnabled := true } } (h.of_strands rfl) rfl
  | msiDisable => exact next { s with xp := { s.xp with msiEnabled := false } } (h.of_strands rfl) rfl
  | noticeWrite v => exact next _ (h.hostRegister .notice (.word v)) rfl
  | noticeMaskWrite v => exact next _ (h.hostRegister .noticeMask (.word v)) rfl
  | registerWriteIgnored reg data => exact next _ (h.hostRegister reg data) rfl
  | exchangeWrite offset bytes =>
    by_cases hw : offset + bytes.length ≤ Config.windowBytes
    · exact next _ (h.leavesRun (.hostWrite s offset bytes)) (exec_exchangeWrite hw s)
    · exact absurd ((if_neg hw).symm.trans he) (by simp)
  | cellPost i => exact next _ (h.leavesRun (.hostWrite s _ _)) rfl
  | cellFree i => exact next _ (h.leavesRun (.hostWrite s _ _)) rfl
  | pageReturn p => exact next _ (h.leavesRun (.hostWrite s _ _)) rfl
  | orderSearch cells answered => exact settled _ (h.leavesRun (.orderUnit s cells answered)) (exec_orderSearch s cells answered)
  | setStation answered => exact settled _ (h.carryOut h.setStation answered 1) rfl
  | adoptRecipe answered => exact settled _ (h.carryOut (fun o => h.leavesRun (.adoptRecipe s o)) answered 2) rfl
  | armRun answered => exact settled _ (h.carryOutRecorded h.armRun answered 3) rfl
  | amendRun answered => exact settled _ (h.carryOut (fun o => h.leavesRun (.amendRun s o)) answered 4) rfl
  | endRun answered => exact settled _ (h.carryOut (fun o => h.leaves (.endRun s o)) answered 5) rfl
  | abandonRun answered => exact settled _ (h.carryOutRecorded (fun o => h.leaves (.abandonRun s o)) answered 6) rfl
  | addZone answered => exact settled _ (h.carryOut h.addZone answered 7) rfl
  | softCut answered => exact settled _ (h.carryOut h.softCut answered 8) rfl
  | forceMarker answered => exact settled _ (h.carryOut h.forceMarker answered 9) rfl
  | encoderEdge n a b => exact settled _ (h.encoderEdge n a b) rfl
  | speedWindowEnd n => exact judged _ _ ((h.endWindow n).leavesRun (.settle _)) rfl
  | stopDwellExpiry n =>
    exact judged _ _ ((h.onStrand_same (f := StrandState.expireDwell) ⟨rfl, rfl⟩).leavesRun (.settle _)) rfl
  | stopForecast n => exact settled _ (h.onStrand_same (.takeStop _ s.env n)) rfl
  | leadingEdge i => exact next _ (h.leavesRun (.leadingEdge s i)) rfl
  | qualificationExpiry i => exact next _ (h.leavesRun (.qualify s i)) rfl
  | inputInactive i => exact next _ (h.leavesRun (.inputInactive s i)) rfl
  | qualifiedSeam => exact settled _ h.qualifiedSeam rfl
  | seamForecast => exact settled _ h.seamForecast rfl
  | qualifiedSaw => exact settled _ h.qualifiedSaw rfl
  | startDelimiter n => exact settled _ (h.startDelimiter n) rfl
  | frameArrival n content e => exact settled _ (h.frameArrival n content e) rfl
  | staleTimerExpiry n => exact judged _ _ ((h.onStrand_same (.expireStale _ s.env n)).leavesRun (.settle _)) rfl
  | arbiterLook => exact next _ h.arbiterLook rfl
  | scanTaking => exact settled _ h.takeScan rfl
  | staleNoticeTaking => exact settled _ h.takeNotice rfl
  | switchOver => exact settled _ (h.leavesRun (.waitedSwitchOver s)) rfl
  | runClosed => exact judged _ _ (h.of_strands (t := s.formRecord .closed) rfl) rfl
  | runRecordEntry answered => exact settled _ (h.runRecordEntry answered) rfl
  | pieceBuild => exact settled _ h.pieceBuild rfl
  | markRequest n r => exact settled _ (h.onStrand ((h n).takeNextRequest s.env n r)) rfl
  | markOff n => exact settled _ (h.onStrand (h n).takeNextOff) rfl
  | incidentArrival n b => exact settled _ (h.incidentArrival n b) rfl
  | pageOpen => exact settled _ (h.leavesRun (.pageOpen s)) rfl
  | recordWrite => exact settled _ (h.leavesRun (.writeHead s)) rfl
  | lingerExpiry => exact settled _ (h.leavesRun (.lingerExpiry s)) rfl

theorem MarkersServed.step {t : State} (h : MarkersServed s) (hstep : step s = .next t) : MarkersServed t := by
  unfold Machine.step at hstep
  split at hstep
  · cases hstep
    exact h.of_strands rfl
  next c rest _ =>
    have hpending : MarkersServed { s with pending := rest } := h.of_strands rfl
    exact hpending.exec hstep

end

/-- Settles O59: the invariant is `MarkersServed`, kept by `MarkersServed.exec` command by command. -/
theorem markerOutputKept : Obligations.MarkerOutputKept := by
  unfold Obligations.MarkerOutputKept
  intro s t h hstep n
  have hserved : MarkersServed s := fun m => (s.strand m).markerAgrees_iff.mp (h m)
  exact (t.strand n).markerAgrees_iff.mpr (hserved.step hstep n)

end Sys2Proof.Machine
end

section
namespace Sys2Proof.Machine

/-! # Incidents at the report unit (R176) -/

/-! ## Repeat, entry or drop -/

section
variable {s : State} {i : Incident}

/-- A record of the incident's kind and strand takes the repeat, the first of them. -/
theorem State.arriveIncident_repeats {before after : List Record} {j : Incident}
    (hq : s.report.queue = before ++ .incident j :: after) (hkind : j.kind = i.kind) (hstrand : j.strand = i.strand)
    (hbefore : ∀ r ∈ before, ¬ r.sameIncident i = true) : s.arriveIncident i = { s with
      report := { s.report with
        queue := before ++ .incident { j with repeats := min (j.repeats + 1) 65535 } :: after } } := by
  have hany : s.report.queue.any (Record.sameIncident i) = true :=
    List.any_eq_true.mpr ⟨.incident j, by simp [hq], (Record.sameIncident_iff i _).mpr ⟨j, rfl, hkind, hstrand⟩⟩
  rw [State.arriveIncident, if_pos hany, hq, bumpFirst_eq i j before after hkind hstrand hbefore]

variable (hnew : ∀ r ∈ s.report.queue, ¬ r.sameIncident i = true)
include hnew

/-- A new incident enters a queue with room, with the lost-incident count, which starts again. -/
theorem State.arriveIncident_enters (hroom : s.report.queue.length < 8) : s.arriveIncident i =
    State.setReason { s with
      report := { s.report with
        queue := s.report.queue ++ [.incident { i with repeats := 0, lost := s.report.lost }], lost := 0 } } .incident := by
  have hany : ¬ s.report.queue.any (Record.sameIncident i) = true := by simpa using hnew
  have hopen : s.queueRoom = true := decide_eq_true hroom
  rw [State.arriveIncident, if_neg hany, if_pos hopen]
  rfl

/-- A new incident is dropped and counted where the queue is full. -/
theorem State.arriveIncident_drops (hfull : 8 ≤ s.report.queue.length) : s.arriveIncident i =
    { s with report := { s.report with lost := min (s.report.lost + 1) 65535 } } := by
  have hany : ¬ s.report.queue.any (Record.sameIncident i) = true := by simpa using hnew
  have hshut : ¬ s.queueRoom = true := fun h => absurd (of_decide_eq_true h) (Nat.not_lt.mpr hfull)
  rw [State.arriveIncident, if_neg hany, if_neg hshut]

end

/-! ## The incident that arrives -/

theorem State.strandIncident_of_raised {s : State} {n : Strand} {b : Raiser} {i : Incident} {pre post : List Incident}
    (hraised : (s.strand n).raised = pre ++ i :: post) (hb : i.kind.raiser = b) (hpre : ∀ j ∈ pre, j.kind.raiser ≠ b) :
    s.incidentArrival (some n) b =
      State.arriveIncident { s with strands := s.strands.set n { s.strand n with raised := pre ++ post } } i := by
  rw [State.incidentArrival, State.strandIncident, hraised, takeRaised_eq b i pre post hb hpre]
  rfl

theorem State.inputIncident_of_raised {s : State} {b : Raiser} {i : Incident} {pre post : List Incident}
    (hraised : s.inputs.raised = pre ++ i :: post) (hb : i.kind.raiser = b) (hpre : ∀ j ∈ pre, j.kind.raiser ≠ b) :
    s.incidentArrival none b = State.arriveIncident { s with inputs := { s.inputs with raised := pre ++ post } } i := by
  rw [State.incidentArrival, State.inputIncident, hraised, takeRaised_eq b i pre post hb hpre]

/-- Settles O54: the state the incident has left, by its source, then the three lemmas about `State.arriveIncident`. -/
theorem incidentArrives : Obligations.IncidentArrives := by
  unfold Obligations.IncidentArrives
  intro s source b i pre post hraised hb hpre taken same
  have harrives : s.incidentArrival source b = taken.arriveIncident i := by
    cases source with
    | none => exact State.inputIncident_of_raised hraised hb hpre
    | some n => exact State.strandIncident_of_raised hraised hb hpre
  have hreport : taken.report = s.report := by cases source <;> rfl
  have completes : ∀ u, taken.arriveIncident i = u → Completes (.incidentArrival source b) s u :=
    fun u e => .of rfl (harrives.trans e)
  have hsame : ∀ l : List Record, (∀ r ∈ l, ¬ same r) → ∀ r ∈ l, ¬ r.sameIncident i = true :=
    fun l hl r hr => mt (Record.sameIncident_iff i r).mp (hl r hr)
  rw [← hreport]
  exact ⟨fun _ _ _ hq hkind hstrand hbefore =>
      completes _ (State.arriveIncident_repeats hq hkind hstrand (hsame _ hbefore)),
    fun hnew hroom => completes _ (State.arriveIncident_enters (hsame _ hnew) hroom),
    fun hnew hfull => completes _ (State.arriveIncident_drops (hsame _ hnew) hfull)⟩

end Sys2Proof.Machine
end

section
namespace Sys2Proof.Machine

/-! # Report pages: opened, filled and closed (R177 to R180) -/

/-! ## The header in its bytes (12.3) -/

theorem headerBytes_serial (c : PageState) (b : Bool) (f : Filling) :
    ((headerBytes c b f).drop 8).take 8 = leBytes 8 f.serial.toNat := rfl

theorem headerBytes_count (c : PageState) (b : Bool) (f : Filling) : ((headerBytes c b f).drop 16).take 4 = leBytes 4 f.count :=
  take_four_leBytes _ _

theorem headerBytes_used (c : PageState) (b : Bool) (f : Filling) : ((headerBytes c b f).drop 20).take 4 = leBytes 4 f.used :=
  take_four_leBytes _ _

theorem headerBytes_first (c : PageState) (b : Bool) (f : Filling) :
    ((headerBytes c b f).drop 24).take 4 = leBytes 4 f.first.toNat :=
  take_four_leBytes _ _

theorem headerBytes_last (c : PageState) (b : Bool) (f : Filling) : ((headerBytes c b f).drop 28).take 4 = leBytes 4 f.last.toNat :=
  rfl

/-- What each field of a stored page header reads. -/
structure HeaderFields (m : Memory) (base : Nat) (c : PageState) (truncated : Bool) (f : Filling) : Prop where
  state : m.rd32 base = c.code
  truncated : m.rd32 (base + 4) = truncated.toNat
  serial : m.rdNat (base + 8) 8 = f.serial.toNat
  count : m.rd32 (base + 16) = f.count % 4294967296
  used : m.rd32 (base + 20) = f.used % 4294967296
  first : m.rd32 (base + 24) = f.first.toNat
  last : m.rd32 (base + 28) = f.last.toNat

/-- The fields of a header whose 32 bytes are stored. -/
theorem HeaderFields.of_bytes {m : Memory} {base : Nat} {c : PageState} {b : Bool} {f : Filling}
    (h : m.rdBytes base 32 = headerBytes c b f) : HeaderFields m base c b f := by
  have field : ∀ j k, j + k ≤ 32 → m.rdNat (base + j) k = leNat (((headerBytes c b f).drop j).take k) := fun j k hjk => by
    rw [Memory.rdNat, Memory.rdBytes_drop_take m base 32 j k hjk, h]
  have word : ∀ w : Word32, leNat (leBytes 4 w.toNat) = w.toNat := fun w => leNat_leBytes 4 _ w.isLt
  exact {
    state := (field 0 4 (by omega)).trans (headerBytes_state c b f)
    truncated := (field 4 4 (by omega)).trans (headerBytes_truncated c b f)
    serial := by rw [field 8 8 (by omega), headerBytes_serial, leNat_leBytes 8 _ f.serial.isLt]
    count := by rw [Memory.rd32, field 16 4 (by omega), headerBytes_count, leNat_leBytes_four]
    used := by rw [Memory.rd32, field 20 4 (by omega), headerBytes_used, leNat_leBytes_four]
    first := by rw [Memory.rd32, field 24 4 (by omega), headerBytes_first, word]
    last := by rw [Memory.rd32, field 28 4 (by omega), headerBytes_last, word] }

/-- A stored header reads back whole. -/
theorem rdBytes_header (m : Memory) (base : Nat) (c : PageState) (b : Bool) (f : Filling) :
    (m.write base (headerBytes c b f)).rdBytes base 32 = headerBytes c b f := by
  have h := m.rdBytes_write_self base (headerBytes c b f)
  rwa [headerBytes_length] at h

/-- A stored header leaves every byte but its 32. -/
theorem rd_header_outside (m : Memory) {base a : Nat} (c : PageState) (b : Bool) (f : Filling) (h : a < base ∨ base + 32 ≤ a) :
    (m.write base (headerBytes c b f)).rd a = m.rd a :=
  Memory.rd_write_outside _ _ _ _ (by rwa [headerBytes_length])

/-- The end of an event leaves the bytes beyond the status block. -/
theorem Settles.rdBytes {u t : State} (h : Settles u t) {a : Nat} (ha : 192 ≤ a) (k : Nat) :
    t.xp.mem.rdBytes a k = u.xp.mem.rdBytes a k :=
  Memory.rdBytes_congr _ _ a k fun x hx _ => h.rd x (by omega)

/-- A header a report page holds reads so at the end of the event. -/
theorem Settles.headerFields {u t : State} (h : Settles u t) {p : Fin 54} {c : PageState} {b : Bool} {f : Filling}
    (hu : u.xp.mem.rdBytes (pageBase p.val) 32 = headerBytes c b f) : HeaderFields t.xp.mem (pageBase p.val) c b f :=
  .of_bytes ((h.rdBytes (by have := pageBase_ge p; omega) 32).trans hu)

theorem State.time_toNat (s : State) : s.time.toNat = s.clock % 4294967296 := BitVec.toNat_ofNat ..

/-! ## A page closed (R179) -/

theorem State.closePage_header (s : State) (f : Filling) (b : Bool) :
    (s.closePage f b).xp.mem.rdBytes (pageBase f.page.val) 32 = headerBytes .closed b f := rdBytes_header _ _ _ _ _

theorem State.closePage_outside (s : State) (f : Filling) (b : Bool) {a : Nat}
    (h : a < pageBase f.page.val ∨ pageBase f.page.val + 32 ≤ a) : (s.closePage f b).xp.mem.rd a = s.xp.mem.rd a :=
  rd_header_outside _ _ _ _ h

theorem State.closePage_noticed (s : State) (f : Filling) (b : Bool) : (s.closePage f b).noticed .page = true :=
  State.noticed_setReason _ _

/-! ## A record written (R178) -/

@[simp] theorem Filling.grow_page (f : Filling) (n : Nat) (w : Word32) : (f.grow n w).page = f.page := rfl

/-- The state a page is in once a record is written into it. -/
def Record.leavesPage (r : Record) : PageState := if r.closesPage then .closed else .filling

/-- From s to u a record has been written at bytes used of the page f, and has left the queue. -/
structure RecordWritten (s u : State) (f : Filling) (r : Record) (rest : List Record) : Prop where
  header : u.xp.mem.rdBytes (pageBase f.page.val) 32 = headerBytes r.leavesPage false (f.grow r.length s.time)
  bytes : u.xp.mem.rdBytes (pageBase f.page.val + 64 + f.used) r.length = r.bytes
  outside : ∀ a, a < pageBase f.page.val ∨ pageBase f.page.val + 32 ≤ a →
    a < pageBase f.page.val + 64 + f.used ∨ pageBase f.page.val + 64 + f.used + r.length ≤ a → u.xp.mem.rd a = s.xp.mem.rd a
  report : u.report = { s.report with
    queue := rest, fill := if r.closesPage then none else some (f.grow r.length s.time) }
  pages : u.xp.pages = if r.closesPage then s.xp.pages.set f.page .closed else s.xp.pages
  noticed : r.closesPage = true → u.noticed .page = true
  frame : u = { s with
    xp := { s.xp with notice := u.xp.notice, msiSent := u.xp.msiSent, mem := u.xp.mem, pages := u.xp.pages }
    report := u.report }

section
variable (s : State) (f : Filling) (r : Record) (rest : List Record)

theorem State.recordStored_mem : (s.recordStored f r rest).xp.mem =
    (s.xp.mem.write (pageBase f.page.val + 64 + f.used) r.bytes).write (pageBase f.page.val)
      (headerBytes .filling false (f.grow r.length s.time)) := rfl

theorem State.recordStored_bytes :
    (s.recordStored f r rest).xp.mem.rdBytes (pageBase f.page.val + 64 + f.used) r.length = r.bytes := by
  have hself := s.xp.mem.rdBytes_write_self (pageBase f.page.val + 64 + f.used) r.bytes
  rw [Record.bytes_length] at hself
  rw [State.recordStored_mem]
  refine (Memory.rdBytes_congr _ _ _ _ fun a ha _ => ?_).trans hself
  exact rd_header_outside _ _ _ _ (.inr (by omega))

theorem State.recordStored_outside {a : Nat} (hheader : a < pageBase f.page.val ∨ pageBase f.page.val + 32 ≤ a)
    (hrecord : a < pageBase f.page.val + 64 + f.used ∨ pageBase f.page.val + 64 + f.used + r.length ≤ a) :
    (s.recordStored f r rest).xp.mem.rd a = s.xp.mem.rd a :=
  (rd_header_outside _ _ _ _ hheader).trans (Memory.rd_write_outside _ _ _ _ (by rwa [Record.bytes_length]))

/-- A record written, with the closing that a RUN record CLOSED or ABANDONED makes of its page. -/
theorem State.writeRecord_written : RecordWritten s (s.writeRecord f r rest) f r rest := by
  rw [State.writeRecord_eq]
  cases hcloses : r.closesPage with
  | false =>
    exact {
      header := by
        rw [Record.leavesPage, hcloses]
        exact rdBytes_header _ _ _ _ _
      bytes := s.recordStored_bytes f r rest
      outside := fun _ => s.recordStored_outside f r rest
      report := by rw [hcloses]; rfl
      pages := by rw [hcloses]; rfl
      noticed := fun h => absurd (hcloses.symm.trans h) (by decide)
      frame := rfl }
  | true =>
    exact {
      header := by
        rw [Record.leavesPage, hcloses]
        exact State.closePage_header _ _ _
      bytes := by
        refine (Memory.rdBytes_congr _ _ _ _ fun a ha _ => ?_).trans (s.recordStored_bytes f r rest)
        exact State.closePage_outside _ (f.grow r.length s.time) false (.inr (by rw [Filling.grow_page]; omega))
      outside := fun a hheader hrecord =>
        (State.closePage_outside _ (f.grow r.length s.time) false hheader).trans
          (s.recordStored_outside f r rest hheader hrecord)
      report := by rw [hcloses]; rfl
      pages := by rw [hcloses]; rfl
      noticed := fun _ => State.closePage_noticed _ _ _
      frame := rfl }

end

section
variable {s : State} {f : Filling} {r : Record} {rest : List Record}

theorem State.writeHead_of_empty (hq : s.report.queue = []) : s.writeHead = s := by
  unfold State.writeHead
  split
  next hq' => exact absurd (hq.symm.trans hq') (by simp)
  · rfl

theorem State.writeHead_of_fit (hf : s.report.fill = some f) (hq : s.report.queue = r :: rest) (hfit : f.used + r.length ≤ 8128) :
    s.writeHead = s.writeRecord f r rest := by
  simp only [State.writeHead, hf, hq]
  exact if_pos hfit

theorem State.writeHead_of_full (hf : s.report.fill = some f) (hq : s.report.queue = r :: rest)
    (hfull : 8128 < f.used + r.length) : s.writeHead = s.closePage f false := by
  simp only [State.writeHead, hf, hq]
  exact if_neg (Nat.not_le.mpr hfull)

theorem State.lingerExpiry_of_fill (hf : s.report.fill = some f) :
    s.lingerExpiry = if s.lingerOver f then s.closePage f false else s := by
  simp only [State.lingerExpiry, hf]

end

/-! ## A page opened (R177) -/

/-- No page is FREE. -/
theorem State.nextFree_eq_none {s : State} (h : ∀ p, s.xp.pages.get p ≠ .free) : s.nextFree = none :=
  List.find?_eq_none.mpr fun p _ => by simpa using h p

/-- The first FREE page of the order cursor + 1 on. -/
theorem State.nextFree_eq_some {s : State} {k : Nat} (hk : k < 54)
    (hfree : s.xp.pages.get (Fin.ofNat 54 (s.report.cursor.val + 1 + k)) = .free)
    (hbefore : ∀ j < k, s.xp.pages.get (Fin.ofNat 54 (s.report.cursor.val + 1 + j)) ≠ .free) :
    s.nextFree = some (Fin.ofNat 54 (s.report.cursor.val + 1 + k)) := by
  unfold State.nextFree pageOrder
  rw [List.find?_eq_some_iff_getElem]
  refine ⟨beq_iff_eq.mpr hfree, k, by simpa using hk, by simp, fun j hj => ?_⟩
  simpa using hbefore j hj

/-- With no record, a FILLING page or no FREE page nothing is opened. -/
theorem State.pageOpen_eq_self {s : State}
    (h : s.report.queue = [] ∨ s.report.fill.isSome = true ∨ ∀ p, s.xp.pages.get p ≠ .free) : s.pageOpen = s := by
  unfold State.pageOpen
  split
  · rfl
  next hopen =>
    rw [Bool.or_eq_true, not_or] at hopen
    obtain ⟨hqueue, hfill⟩ := hopen
    rcases h with h | h | h
    · exact absurd (List.isEmpty_iff.mpr h) hqueue
    · exact absurd h hfill
    · rw [State.nextFree_eq_none h]

theorem State.pageOpen_of_nextFree {s : State} {r : Record} {rest : List Record} {p : Fin 54}
    (hq : s.report.queue = r :: rest) (hf : s.report.fill = none) (hp : s.nextFree = some p) : s.pageOpen = s.openPage p := by
  simp [State.pageOpen, hq, hf, hp]

section
variable (s : State) (p : Fin 54)

theorem State.pageBegun_time : (s.pageBegun p).time = s.time := rfl

theorem State.pageBegun_report : (s.pageBegun p).report = { s.report with
    serial := s.nextSerial, cursor := p, fill := some (s.opened p) } := rfl

/-- Behind its header a page begins empty. -/
theorem State.pageBegun_area {a : Nat} (h1 : pageBase p.val + 32 ≤ a) (h2 : a < pageBase p.val + 8192) :
    (s.pageBegun p).xp.mem.rd a = 0#8 := by
  refine (rd_header_outside _ _ _ _ (.inr h1)).trans ?_
  rw [Memory.rd_clear, if_pos ⟨by omega, h2⟩]

/-- The header of a page opened with its first record. -/
theorem State.opened_grow (n : Nat) (w : Word32) : (s.opened p).grow n w = {
    page := p, serial := s.nextSerial, count := 1, used := n, first := w, last := w, linger := s.lingerStart } := by
  simp [State.opened, Filling.grow]

theorem State.nextSerial_eq (h : s.report.serial ≠ BitVec.allOnes 64) : s.nextSerial = s.report.serial + 1#64 := if_neg h

/-- A record that fits in an empty page is written into the page it opens. -/
theorem State.openPage_of_head {r : Record} {rest : List Record} (hq : s.report.queue = r :: rest) (hlen : r.length ≤ 8128) :
    s.openPage p = (s.pageBegun p).writeRecord (s.opened p) r rest := by
  rw [State.openPage_eq]
  have hfit : (s.opened p).used + r.length ≤ 8128 := by simpa [State.opened] using hlen
  exact State.writeHead_of_fit rfl hq hfit

end

/-- Settles O55: the opening is `State.pageBegun`, and the head record is written there as into any FILLING page. -/
theorem pageOpens : Obligations.PageOpens := by
  unfold Obligations.PageOpens
  refine fun s => ⟨fun h => .of rfl (State.pageOpen_eq_self h), ?_⟩
  intro r rest k p hq hf hk hp hfree hbefore hserial hlen base state
  have hbase : 0x14000 ≤ base := pageBase_ge p
  have hnext : s.nextFree = some p := hp ▸ State.nextFree_eq_some hk (hp ▸ hfree) hbefore
  have hopen : s.pageOpen = (s.pageBegun p).writeRecord (s.opened p) r rest :=
    (State.pageOpen_of_nextFree hq hf hnext).trans (s.openPage_of_head p hq hlen)
  have hw := (s.pageBegun p).writeRecord_written (s.opened p) r rest
  rw [← hopen] at hw
  have hset := s.pageOpen.settle_settles
  have hgrow := s.opened_grow p r.length s.time
  rw [s.nextSerial_eq hserial] at hgrow
  have hheader := hset.headerFields hw.header
  rw [State.pageBegun_time, hgrow] at hheader
  have hrd : ∀ a, a < base ∨ base + 32 ≤ a → a < base + 64 ∨ base + 64 + r.length ≤ a →
      s.pageOpen.xp.mem.rd a = (s.pageBegun p).xp.mem.rd a := hw.outside
  refine ⟨s.pageOpen, _, rfl, hset, ?pages, hheader.state, hheader.truncated, hheader.serial, hheader.count,
    hheader.used.trans (Nat.mod_eq_of_lt (Nat.lt_of_le_of_lt hlen (by decide))), hheader.first.trans s.time_toNat,
    hheader.last.trans s.time_toNat, (hset.rdBytes (by omega) _).trans hw.bytes, fun a h1 h2 => ?area,
    fun a h192 hout => ?outside, ?report, hw.frame⟩
  case pages =>
    have hpages : s.pageOpen.xp.pages =
        if r.closesPage then (s.xp.pages.set p .filling).set p .closed else s.xp.pages.set p .filling := hw.pages
    rw [hpages, Vector.set_set, ← apply_ite (s.xp.pages.set p ·)]
  case area =>
    rw [hset.rd a (by omega), hrd a (.inr (by omega)) (.inr h1)]
    exact s.pageBegun_area p (by omega) h2
  case outside =>
    rw [hset.rd a h192, hrd a (by omega) (by omega)]
    exact (s.pageBegun_moves p).outside a hout
  case report =>
    rw [hw.report, State.pageBegun_report, State.pageBegun_time, hgrow, s.nextSerial_eq hserial]

/-! ## The FILLING page (R178 to R180) -/

/-- Settles O56: the record that fits by `State.writeRecord_written`; the page closed FULL or by its timer by the lemmas about
`State.closePage`. -/
theorem pageFills : Obligations.PageFills := by
  unfold Obligations.PageFills
  intro s f hf base closedPage
  have hbase : 0x14000 ≤ base := pageBase_ge f.page
  have closes : ∀ u, u = s.closePage f false → Settles u u.settle ∧ closedPage u u.settle := by
    rintro u rfl
    have hset := (s.closePage f false).settle_settles
    exact ⟨hset, rfl, rfl, s.closePage_noticed f false, (hset.headerFields (s.closePage_header f false)).state,
      fun a h192 hout => (hset.rd a h192).trans (s.closePage_outside f false hout), rfl⟩
  refine ⟨fun hq => .of rfl (State.writeHead_of_empty hq),
    fun r rest hq hfull => ⟨_, _, rfl, closes _ (State.writeHead_of_full hf hq hfull)⟩,
    fun r rest hq hfit => ?written, fun start g hlinger hstation hover => ⟨_, _, rfl, closes _ ?expired⟩,
    fun hrunning => .of rfl ?running⟩
  case written =>
    have hw := s.writeRecord_written f r rest
    rw [← State.writeHead_of_fit hf hq hfit] at hw
    have hset := s.writeHead.settle_settles
    have hheader := hset.headerFields hw.header
    refine ⟨s.writeHead, _, rfl, hset, (hset.rdBytes (by omega) _).trans hw.bytes,
      fun hcount => hheader.count.trans (Nat.mod_eq_of_lt (Nat.succ_lt_succ hcount)),
      hheader.used.trans (Nat.mod_eq_of_lt (Nat.lt_of_le_of_lt hfit (by decide))), hheader.last.trans s.time_toNat,
      fun a h192 h1 h2 => (hset.rd a h192).trans (hw.outside a h1 h2), hw.report, hw.pages,
      fun hcloses => ⟨hw.noticed hcloses, hheader.state.trans ?_⟩⟩
    rw [Record.leavesPage, if_pos hcloses]
    rfl
  case expired =>
    rw [State.lingerExpiry_of_fill hf, if_pos ((State.lingerOver_iff hstation f).mpr ⟨start, hlinger, hover⟩)]
  case running =>
    rw [State.lingerExpiry_of_fill hf, if_neg fun hover => ?_]
    cases hstation : s.run.station with
    | none => cases hlinger : f.linger <;> simp [State.lingerOver, hstation, hlinger] at hover
    | some g =>
      obtain ⟨start, hlinger, hpassed⟩ := (State.lingerOver_iff hstation f).mp hover
      exact absurd hpassed (Nat.not_le.mpr (hrunning start g hlinger hstation))

end Sys2Proof.Machine
end

section
namespace Sys2Proof.Machine

/-! # The queue of commands and the clock (logs 1, 2, 4, 9)

`QueueClock q k s` fixes what the state holds from outside the part: the waiting commands and the time. It is kept by every operation of
the part, and so by every command but POWER_ON. -/

/-- The commands q wait and the clock stands at k. -/
def QueueClock (q : List Instr) (k : Nat) (s : State) : Prop := s.pending = q ∧ s.clock = k

/-! ## One step -/

/-- The command at the front of the queue runs on the rest of the queue (log 1). -/
theorem step_of_pending {s : State} {c : Instr} {rest : List Instr} (h : s.pending = c :: rest) :
    step s = exec c { s with pending := rest } := by
  unfold step
  rw [h]

/-- With no command waiting a millisecond passes (log 2). -/
theorem step_of_idle {s : State} (h : s.pending = []) : step s = .next s.tick := by
  unfold step
  rw [h]

/-- Settles O1: the front of the queue by `step_of_pending`. -/
theorem stepRunsFrontCommand : Obligations.StepRunsFrontCommand := by
  unfold Obligations.StepRunsFrontCommand
  exact fun c s => step_of_pending rfl

/-- A write beyond the window is at no address of the part (log 9). -/
theorem exec_exchangeWrite_beyond {offset : Nat} {bytes : List Byte} (h : Config.windowBytes < offset + bytes.length) (s : State) :
    exec (.exchangeWrite offset bytes) s = .fault .outsideExchangeWindow := if_neg (Nat.not_le.mpr h)

/-- A well-formed write lies in the window (1.3). -/
theorem le_windowBytes_of_wellFormed {offset : Nat} {bytes : List Byte} (h : Instr.wellFormed (.exchangeWrite offset bytes) = true) :
    offset + bytes.length ≤ Config.windowBytes := by
  have hboth : exchangeWriteOk offset bytes = true := h
  simp only [exchangeWriteOk, Bool.and_eq_true, decide_eq_true_eq] at hboth
  exact hboth.2

/-- Settles O2: the write to the window, by where it ends, is the one command whose meaning does not answer a state outright. -/
theorem everyCommandCompletes : Obligations.EveryCommandCompletes := by
  unfold Obligations.EveryCommandCompletes
  refine ⟨fun c s hwf => ?_, fun offset bytes s h => exec_exchangeWrite_beyond h s⟩
  cases c with
  | exchangeWrite offset bytes => exact ⟨_, exec_exchangeWrite (le_windowBytes_of_wellFormed hwf) s⟩
  | _ => exact ⟨_, rfl⟩

section
variable {q : List Instr} {k : Nat} {s : State}

/-! ## Shared operations -/

theorem QueueClock.settle (h : QueueClock q k s) : QueueClock q k s.settle :=
  ⟨s.settle_pending.trans h.1, s.settle_clock.trans h.2⟩

theorem QueueClock.setRun (r : RunState) (h : QueueClock q k s) : QueueClock q k (s.setRun r) := by
  rw [State.setRun_rest]
  exact h

theorem QueueClock.formRecord (e : RunEvent) (h : QueueClock q k s) : QueueClock q k (s.formRecord e) := h

theorem QueueClock.waitedSwitchOver (h : QueueClock q k s) : QueueClock q k s.waitedSwitchOver := by
  unfold State.waitedSwitchOver
  split <;> exact h

theorem QueueClock.strandEvent (n : Strand) (f : StrandState → StrandState) (h : QueueClock q k s) :
    QueueClock q k (s.strandEvent n f) := by
  rw [State.strandEvent_rest]
  exact h

theorem QueueClock.strandEvents (f : Strand → StrandState → StrandState) (l : List Strand) (h : QueueClock q k s) :
    QueueClock q k (s.strandEvents f l) := by
  rw [State.strandEvents_rest]
  exact h

/-! ## The order unit (R10 to R13, R49) -/

theorem QueueClock.conclude (h : QueueClock q k s) (o : Order) (a : Answer) (answered : Bool) :
    QueueClock q k (s.conclude o a answered) := by
  cases answered <;> exact h

theorem QueueClock.search (i cells : Nat) (answered : Bool) (h : QueueClock q k s) : QueueClock q k (s.search i cells answered) := by
  rw [State.search_rest]
  exact h

theorem QueueClock.searchBoard (h : QueueClock q k s) (cells : Nat) (answered : Bool) :
    QueueClock q k (s.searchBoard cells answered) := by
  rcases s.searchBoard_cases cells answered with ⟨i, -, e⟩ | ⟨-, ⟨-, e⟩ | ⟨-, -, e⟩ | ⟨-, -, e⟩⟩ <;> rw [e]
  · exact h.search i cells answered
  · exact .search 0 cells answered h
  · exact .search 0 cells answered h
  · exact h

theorem QueueClock.orderUnit (h : QueueClock q k s) (cells : Nat) (answered : Bool) :
    QueueClock q k (s.orderUnit cells answered) := by
  rcases s.orderUnit_cases cells answered with ⟨-, e⟩ | ⟨-, ⟨-, e⟩ | ⟨o, -, ⟨-, e⟩ | ⟨a, -, e⟩⟩⟩ <;> rw [e]
  · exact h
  · exact h.searchBoard cells answered
  · exact h
  · exact h

theorem QueueClock.carryOut {f : State → Order → State × Answer} (hf : ∀ o, QueueClock q k (f s o).1) (h : QueueClock q k s)
    (answered : Bool) (kind : Nat) : QueueClock q k (s.carryOut answered kind f) := by
  unfold State.carryOut
  split
  · exact h
  · split
    · exact (hf _).conclude _ _ answered
    · exact h

theorem QueueClock.carryOutRecorded {f : State → Order → State × Answer} (hf : ∀ o, QueueClock q k (f s o).1)
    (h : QueueClock q k s) (answered : Bool) (kind : Nat) : QueueClock q k (s.carryOutRecorded answered kind f) := by
  unfold State.carryOutRecorded State.holdOrder
  split
  · split
    · exact h
    · split <;> exact h
  · exact h.carryOut hf answered kind

/-! ## The effects of orders (1.5) -/

theorem QueueClock.setStation (h : QueueClock q k s) (o : Order) : QueueClock q k (setStation s o).1 := by
  unfold Machine.setStation
  split
  · exact h
  · split
    · exact h
    · dsimp only
      rw [State.adoptStation_rest]
      exact h

theorem QueueClock.adoptRecipe (h : QueueClock q k s) (o : Order) : QueueClock q k (adoptRecipe s o).1 := by
  unfold Machine.adoptRecipe
  dsimp only
  split
  · exact h
  · split <;> exact h

theorem QueueClock.armRun (h : QueueClock q k s) (o : Order) : QueueClock q k (armRun s o).1 := by
  unfold Machine.armRun
  split
  · exact h
  · rw [State.openRun_eq]
    exact .formRecord .opened (.setRun _ h)

theorem QueueClock.amendRun (h : QueueClock q k s) (o : Order) : QueueClock q k (amendRun s o).1 := by
  unfold Machine.amendRun
  dsimp only
  split
  · exact h
  · exact h
  all_goals
    split
    · exact h
    · split <;> exact h

theorem QueueClock.endRun (h : QueueClock q k s) (o : Order) : QueueClock q k (endRun s o).1 := by
  unfold Machine.endRun
  dsimp only
  split
  · exact h
  · exact h
  all_goals exact .setRun _ h

theorem QueueClock.abandonRun (h : QueueClock q k s) (o : Order) : QueueClock q k (abandonRun s o).1 := by
  unfold Machine.abandonRun
  dsimp only
  split
  · exact h
  all_goals exact .setRun _ h

theorem QueueClock.addZone (h : QueueClock q k s) (o : Order) : QueueClock q k (addZone s o).1 := by
  have hstrand : ∀ n, QueueClock q k (s.addZoneTo o n).1 := fun n => by
    unfold State.addZoneTo
    dsimp only
    split
    · exact h
    · split <;> exact h
  unfold Machine.addZone
  split
  · exact h
  · exact h
  all_goals
    split
    · exact h
    · split
      · exact hstrand _
      · exact h

theorem QueueClock.softCut (h : QueueClock q k s) (o : Order) : QueueClock q k (softCut s o).1 := by
  by_cases hopen : s.run.state = .armed ∨ s.run.state = .active
  · rw [softCut_of_open hopen]
    split
    · exact h.strandEvents _ _
    · exact h
  · unfold Machine.softCut
    cases hs : s.run.state with
    | idle => exact h
    | finishing => exact h
    | armed => exact absurd (.inl hs) hopen
    | active => exact absurd (.inr hs) hopen

theorem QueueClock.forceMarker (h : QueueClock q k s) (o : Order) : QueueClock q k (forceMarker s o).1 := by
  unfold Machine.forceMarker
  split
  · exact h
  · split <;> exact h

/-! ## The line (R42, R52 to R71, R112, R148) -/

theorem QueueClock.encoderEdge (h : QueueClock q k s) (n : Strand) (a b : Bool) : QueueClock q k (s.encoderEdge n a b) := by
  rw [State.encoderEdge_eq]
  exact h

theorem QueueClock.endWindow (h : QueueClock q k s) (n : Strand) : QueueClock q k (s.endWindow n) := by
  have hjudged : QueueClock q k (s.windowJudged n) := by
    unfold State.windowJudged State.noteMoving
    split
    · exact .setRun _ h
    · exact h
  rw [State.endWindow_eq]
  exact hjudged

theorem QueueClock.onInput (h : QueueClock q k s) (i : LineInput) (f : Input → Input) : QueueClock q k (s.onInput i f) := by
  cases i <;> exact h

theorem QueueClock.leadingEdge (h : QueueClock q k s) (i : LineInput) : QueueClock q k (s.leadingEdge i) := by
  rw [State.leadingEdge_eq]
  exact h.onInput i _

theorem QueueClock.qualify (h : QueueClock q k s) (i : LineInput) : QueueClock q k (s.qualify i) := by
  unfold State.qualify
  split
  · split
    · cases i <;> exact h
    · exact h
  · exact h
  · exact h

theorem QueueClock.inputInactive (h : QueueClock q k s) (i : LineInput) : QueueClock q k (s.inputInactive i) := by
  have hlevel : QueueClock q k (s.onInput i fun x => { x with active := false }) := h.onInput i _
  unfold State.inputInactive
  dsimp only
  split
  · split
    · exact hlevel
    · exact hlevel.onInput i _
    · exact hlevel.onInput i _
  · exact hlevel

theorem QueueClock.seamAtRun (c : Captures) (h : QueueClock q k s) : QueueClock q k (s.seamAtRun c) := by
  unfold State.seamAtRun
  dsimp only
  split
  · exact h
  · rw [State.applyStaged_rest]
    exact h

theorem QueueClock.qualifiedSeam (h : QueueClock q k s) : QueueClock q k s.qualifiedSeam := by
  unfold State.qualifiedSeam
  split
  · exact h
  · dsimp only
    split
    · exact .seamAtRun _ h
    · exact h

theorem QueueClock.seamForecast (h : QueueClock q k s) : QueueClock q k s.seamForecast := by
  unfold State.seamForecast
  split <;> exact h

theorem QueueClock.qualifiedSaw (h : QueueClock q k s) : QueueClock q k s.qualifiedSaw := by
  cases hmail : s.sawMail with
  | nil =>
    unfold State.qualifiedSaw
    rw [hmail]
    exact h
  | cons c rest =>
    rw [State.qualifiedSaw_of_mail hmail]
    split
    · exact .strandEvents _ _ h
    · exact h

/-! ## The gauge link and the evaluator (R72 to R102) -/

theorem QueueClock.startDelimiter (h : QueueClock q k s) (n : Strand) : QueueClock q k (s.startDelimiter n) := by
  unfold State.startDelimiter
  split
  · split <;> exact h
  · exact h

theorem QueueClock.frameArrival (h : QueueClock q k s) (n : Strand) (content : List Byte) (e : FrameEnd) :
    QueueClock q k (s.frameArrival n content e) := by
  unfold State.frameArrival
  split
  · cases e <;> exact h
  · exact h

theorem QueueClock.arbiterLook (h : QueueClock q k s) : QueueClock q k s.arbiterLook := by
  unfold State.arbiterLook State.serve
  split
  · exact h
  · split
    · exact h
    · split <;> exact h

theorem QueueClock.takeScan (h : QueueClock q k s) : QueueClock q k s.takeScan := by
  unfold State.takeScan
  split
  · dsimp only
    split
    · exact h
    · exact .strandEvent _ _ h
  · exact h
  · exact h

theorem QueueClock.takeNotice (h : QueueClock q k s) : QueueClock q k s.takeNotice := by
  unfold State.takeNotice
  split
  · dsimp only
    split <;> exact h
  · exact h
  · exact h

/-! ## Records and pages (R46, R49, R154 to R180) -/

theorem QueueClock.recordEntered (h : QueueClock q k s) (r : RunRecord) : QueueClock q k (s.recordEntered r) := by
  unfold State.recordEntered
  split
  · rw [State.closeRun_eq]
    exact h
  · exact h

theorem QueueClock.takeWaiting (h : QueueClock q k s) (answered : Bool) : QueueClock q k (s.takeWaiting answered) := by
  unfold State.takeWaiting
  split
  · exact h
  · split
    · have harmed := h.carryOut h.armRun answered 3
      exact harmed.carryOut harmed.abandonRun answered 6
    · exact h

theorem QueueClock.runRecordEntry (h : QueueClock q k s) (answered : Bool) : QueueClock q k (s.runRecordEntry answered) := by
  unfold State.runRecordEntry
  split
  · exact h
  next r _ =>
    split
    · exact ((h.recordEntered r).takeWaiting answered).waitedSwitchOver
    · exact h

theorem QueueClock.pieceBuild (h : QueueClock q k s) : QueueClock q k s.pieceBuild := by
  unfold State.pieceBuild State.buildPiece
  split
  · split
    · exact h
    · split <;> exact h
  · exact h

theorem QueueClock.arriveIncident (i : Incident) (h : QueueClock q k s) : QueueClock q k (s.arriveIncident i) := by
  unfold State.arriveIncident
  split
  · exact h
  · split <;> exact h

theorem QueueClock.incidentArrival (h : QueueClock q k s) (source : Option Strand) (b : Raiser) :
    QueueClock q k (s.incidentArrival source b) := by
  cases source with
  | none =>
    show QueueClock q k (s.inputIncident b)
    unfold State.inputIncident
    split
    · exact h
    · exact .arriveIncident _ h
  | some n =>
    show QueueClock q k (s.strandIncident n b)
    unfold State.strandIncident
    split
    · exact h
    · exact .arriveIncident _ h

theorem QueueClock.writeHead (h : QueueClock q k s) : QueueClock q k s.writeHead := by
  unfold State.writeHead
  split
  · split
    · rw [State.writeRecord_eq]
      split <;> exact h
    · exact h
  · exact h

theorem QueueClock.pageOpen (h : QueueClock q k s) : QueueClock q k s.pageOpen := by
  unfold State.pageOpen
  split
  · exact h
  · split
    · exact h
    · rw [State.openPage_eq]
      exact .writeHead h

theorem QueueClock.lingerExpiry (h : QueueClock q k s) : QueueClock q k s.lingerExpiry := by
  unfold State.lingerExpiry
  split
  · exact h
  · split <;> exact h

/-! ## Host writes and resets (R1 to R5, R15 to R17) -/

theorem QueueClock.hostWrite (h : QueueClock q k s) (offset : Nat) (bytes : List Byte) :
    QueueClock q k (s.hostWrite offset bytes) := by
  unfold State.hostWrite
  split
  · split
    · rw [State.acceptWrite_rest]
      exact .settle h
    · rw [State.refuseWrite_rest]
      exact .settle h
  · exact h

theorem QueueClock.restart (h : QueueClock q k s) : QueueClock q k s.restart := by
  cases hready : s.ready with
  | false =>
    rw [State.restart_of_not_ready hready]
    exact h
  | true =>
    have horders : QueueClock q k s.restartBegun.restartOrders := by
      rw [State.restartOrders_rest]
      exact h
    have hblocks : QueueClock q k s.blocksRestarted := horders.setRun .idle
    rw [State.restart_of_ready hready, State.restarted_eq, State.restartReport_rest]
    exact .settle hblocks

theorem QueueClock.endRestart (h : QueueClock q k s) (cells : Nat) (answered : Bool) :
    QueueClock q k (s.endRestart cells answered) := by
  rw [State.endRestart_eq]
  exact .search 0 cells answered h

theorem QueueClock.hostRegister (h : QueueClock q k s) (reg : Register) (data : RegData) :
    QueueClock q k (s.hostRegister reg data) := by
  unfold State.hostRegister State.writeRegister
  split
  · split
    · exact h
    · exact h
    · exact h
    · split
      · exact h.restart
      · exact h
  · exact h

/-! ## Every command -/

theorem QueueClock.next {u t : State} (h : QueueClock q k u)
    (e : (Host.Outcome.next u : Host.Outcome State Fault Refusal) = .next t) : QueueClock q k t := by
  cases e
  exact h

/-- A command that does something under a condition only. -/
theorem QueueClock.ite {p : Prop} [Decidable p] {u : State} (hu : QueueClock q k u) (h : QueueClock q k s) :
    QueueClock q k (if p then u else s) := by
  split
  · exact hu
  · exact h

/-- Every command but POWER_ON keeps the queue and the clock. -/
theorem QueueClock.exec {c : Instr} {t : State} (h : QueueClock q k s) (hc : c ≠ .powerOn) (he : exec c s = .next t) :
    QueueClock q k t := by
  cases c with
  | powerOn => exact absurd rfl hc
  | powerOnInitEnd => exact .next (.ite (u := s.endPowerOn) h h) he
  | restart => exact h.restart.next he
  | restartEnd cells answered => exact .next (.ite (h.endRestart cells answered).settle h) he
  | pcieLinkReset => exact .next (u := s.writeMask 0#32) h he
  | msiEnable => exact .next (u := { s with xp := { s.xp with msiEnabled := true } }) h he
  | msiDisable => exact .next (u := { s with xp := { s.xp with msiEnabled := false } }) h he
  | noticeWrite v => exact (h.hostRegister .notice (.word v)).next he
  | noticeMaskWrite v => exact (h.hostRegister .noticeMask (.word v)).next he
  | registerWriteIgnored reg data => exact (h.hostRegister reg data).next he
  | exchangeWrite offset bytes =>
    by_cases hw : offset + bytes.length ≤ Config.windowBytes
    · exact (h.hostWrite offset bytes).next ((exec_exchangeWrite hw s).symm.trans he)
    · exact absurd ((exec_exchangeWrite_beyond (Nat.not_le.mp hw) s).symm.trans he) (by simp)
  | cellPost i => exact (h.hostWrite _ _).next he
  | cellFree i => exact (h.hostWrite _ _).next he
  | pageReturn p => exact (h.hostWrite _ _).next he
  | orderSearch cells answered => exact (h.orderUnit cells answered).settle.next he
  | setStation answered => exact (h.carryOut h.setStation answered 1).settle.next he
  | adoptRecipe answered => exact (h.carryOut h.adoptRecipe answered 2).settle.next he
  | armRun answered => exact (h.carryOutRecorded h.armRun answered 3).settle.next he
  | amendRun answered => exact (h.carryOut h.amendRun answered 4).settle.next he
  | endRun answered => exact (h.carryOut h.endRun answered 5).settle.next he
  | abandonRun answered => exact (h.carryOutRecorded h.abandonRun answered 6).settle.next he
  | addZone answered => exact (h.carryOut h.addZone answered 7).settle.next he
  | softCut answered => exact (h.carryOut h.softCut answered 8).settle.next he
  | forceMarker answered => exact (h.carryOut h.forceMarker answered 9).settle.next he
  | encoderEdge n a b => exact (h.encoderEdge n a b).settle.next he
  | speedWindowEnd n => exact .next (.ite (h.endWindow n).settle h) he
  | stopDwellExpiry n => exact .next (.ite (.settle (s := s.onStrand n fun st => st.expireDwell) h) h) he
  | stopForecast n => exact .next (.settle (s := s.onStrand n fun st => st.takeStop s.env n) h) he
  | leadingEdge i => exact (h.leadingEdge i).next he
  | qualificationExpiry i => exact (h.qualify i).next he
  | inputInactive i => exact (h.inputInactive i).next he
  | qualifiedSeam => exact h.qualifiedSeam.settle.next he
  | seamForecast => exact h.seamForecast.settle.next he
  | qualifiedSaw => exact h.qualifiedSaw.settle.next he
  | startDelimiter n => exact (h.startDelimiter n).settle.next he
  | frameArrival n content e => exact (h.frameArrival n content e).settle.next he
  | staleTimerExpiry n => exact .next (.ite (.settle (s := s.onStrand n fun st => st.expireStale s.env n) h) h) he
  | arbiterLook => exact h.arbiterLook.next he
  | scanTaking => exact h.takeScan.settle.next he
  | staleNoticeTaking => exact h.takeNotice.settle.next he
  | switchOver => exact h.waitedSwitchOver.settle.next he
  | runClosed => exact .next (.ite (u := s.formRecord .closed) h h) he
  | runRecordEntry answered => exact (h.runRecordEntry answered).settle.next he
  | pieceBuild => exact h.pieceBuild.settle.next he
  | markRequest n r => exact .next (.settle (s := s.onStrand n fun st => st.takeNextRequest s.env n r) h) he
  | markOff n => exact .next (.settle (s := s.onStrand n fun st => st.takeNextOff) h) he
  | incidentArrival source b => exact (h.incidentArrival source b).settle.next he
  | pageOpen => exact h.pageOpen.settle.next he
  | recordWrite => exact h.writeHead.settle.next he
  | lingerExpiry => exact h.lingerExpiry.settle.next he

end

/-- POWER_ON keeps the queue and starts the clock (log 4). -/
theorem QueueClock.powerOn (s : State) : QueueClock s.pending 0 s.powerOn := ⟨rfl, rfl⟩

/-- Settles O3: POWER_ON by `QueueClock.powerOn`, every other command by `QueueClock.exec`, the idle step by `step_of_idle`. -/
theorem execKeepsQueueAndClock : Obligations.ExecKeepsQueueAndClock := by
  unfold Obligations.ExecKeepsQueueAndClock
  refine ⟨fun c s t he => ?_, fun s => step_of_idle⟩
  by_cases hc : c = .powerOn
  · subst hc
    rw [if_pos rfl]
    exact (QueueClock.powerOn s).next he
  · rw [if_neg hc]
    exact QueueClock.exec ⟨rfl, rfl⟩ hc he

end Sys2Proof.Machine
end
